-- ==== Sys2Proof/Word.lean ====
section
/-! DEFINITION. The two word types of the machine (`10_state.md` R21: 8-bit accumulators, 16-bit pointers). -/

namespace Sys2Proof

/-- An 8-bit value: a bus byte, an accumulator, a chip register. -/
abbrev Byte := BitVec 8

/-- A 16-bit value: an address, an index register, the pair D. -/
abbrev Word := BitVec 16

end Sys2Proof
end

