-- ==== Sys2Proof/Machine/Bits.lean ====
section
/-! DEFINITION. Byte order and sign extension (`00_scope.md` R8-R11, `20_memory.md` R81): the bit-field helpers that
the decoder and the machine share. -/

namespace Sys2Proof

/-- `h:l`, the high byte first (`20_memory.md` R81). -/
def wordOf (h l : Byte) : Word := h ++ l

/-- `w[15:8]`. -/
def hiByte (w : Word) : Byte := w.extractLsb' 8 8

/-- `w[7:0]`. -/
def loByte (w : Word) : Byte := w.extractLsb' 0 8

/-- `sext_16` of an 8-bit value (`00_scope.md` R10). -/
def sext8 (v : Byte) : Word := v.signExtend 16

/-- `sext_16` of a 5-bit value (`00_scope.md` R10). -/
def sext5 (v : BitVec 5) : Word := v.signExtend 16

/-- `zext_16` of an 8-bit value (`00_scope.md` R10). -/
def zext8 (v : Byte) : Word := v.setWidth 16

end Sys2Proof
end

