-- ==== Sys2Proof/Syntax.lean ====
section
/-! DEFINITION. The instructions of `opcode_table.json` as syntax: one constructor for each mnemonic, its operand forms
(`30_encoding.md` R121) as arguments, and `undefined` for every opcode that has no row (`30_encoding.md` R143). -/

namespace Sys2Proof

/-- The base register of an indexed operand, the postbyte's `rr` (`30_encoding.md` R130). -/
inductive IReg where
  | x | y | u | s
  deriving DecidableEq, Repr

/-- The documented indexed modes (`30_encoding.md` R131-R136). `ind` is the indirect bit, present only in the modes that
have an indirect form. -/
inductive IdxMode where
  | off5 (r : IReg) (n : BitVec 5)
  | postInc1 (r : IReg)
  | postInc2 (r : IReg) (ind : Bool)
  | preDec1 (r : IReg)
  | preDec2 (r : IReg) (ind : Bool)
  | zero (r : IReg) (ind : Bool)
  | accB (r : IReg) (ind : Bool)
  | accA (r : IReg) (ind : Bool)
  | off8 (r : IReg) (n : Byte) (ind : Bool)
  | off16 (r : IReg) (n : Word) (ind : Bool)
  | accD (r : IReg) (ind : Bool)
  | pcr8 (n : Byte) (ind : Bool)
  | pcr16 (n : Word) (ind : Bool)
  | extInd (p : Word)
  deriving DecidableEq, Repr

/-- A memory operand: direct, indexed or extended (`30_encoding.md` R121). -/
inductive MemOp where
  | dir (a : Byte)
  | idx (m : IdxMode)
  | ext (a : Word)
  deriving DecidableEq, Repr

/-- An 8-bit operand (`40_load_store_transfer.md` R160). -/
inductive Opnd8 where
  | imm (v : Byte)
  | mem (m : MemOp)
  deriving DecidableEq, Repr

/-- A 16-bit operand (`40_load_store_transfer.md` R160). -/
inductive Opnd16 where
  | imm (v : Word)
  | mem (m : MemOp)
  deriving DecidableEq, Repr

/-- The three opcode pages (`30_encoding.md` R122). -/
inductive Page where
  | p1 | p2 | p3
  deriving DecidableEq, Repr

/-- The instructions. The comment after each constructor is the rule that gives its meaning. -/
inductive Instr where
  | lda (o : Opnd8) -- R161
  | ldb (o : Opnd8) -- R162
  | adda (o : Opnd8) -- R223
  | addb (o : Opnd8) -- R224
  | adca (o : Opnd8) -- R225
  | adcb (o : Opnd8) -- R226
  | suba (o : Opnd8) -- R227
  | subb (o : Opnd8) -- R228
  | sbca (o : Opnd8) -- R229
  | sbcb (o : Opnd8) -- R230
  | cmpa (o : Opnd8) -- R231
  | cmpb (o : Opnd8) -- R232
  | anda (o : Opnd8) -- R233
  | andb (o : Opnd8) -- R234
  | ora (o : Opnd8) -- R235
  | orb (o : Opnd8) -- R236
  | eora (o : Opnd8) -- R237
  | eorb (o : Opnd8) -- R238
  | bita (o : Opnd8) -- R239
  | bitb (o : Opnd8) -- R275
  | ldd (o : Opnd16) -- R163
  | ldx (o : Opnd16) -- R164
  | ldy (o : Opnd16) -- R165
  | ldu (o : Opnd16) -- R166
  | lds (o : Opnd16) -- R167
  | addd (o : Opnd16) -- R281
  | subd (o : Opnd16) -- R282
  | cmpd (o : Opnd16) -- R283
  | cmpx (o : Opnd16) -- R284
  | cmpy (o : Opnd16) -- R285
  | cmpu (o : Opnd16) -- R286
  | cmps (o : Opnd16) -- R287
  | sta (m : MemOp) -- R170
  | stb (m : MemOp) -- R171
  | std (m : MemOp) -- R172
  | stx (m : MemOp) -- R173
  | sty (m : MemOp) -- R174
  | stu (m : MemOp) -- R175
  | sts (m : MemOp) -- R176
  | neg (m : MemOp) -- R242
  | com (m : MemOp) -- R245
  | lsr (m : MemOp) -- R248
  | ror (m : MemOp) -- R251
  | asr (m : MemOp) -- R254
  | asl (m : MemOp) -- R257
  | rol (m : MemOp) -- R260
  | dec (m : MemOp) -- R263
  | inc (m : MemOp) -- R266
  | tst (m : MemOp) -- R269
  | clr (m : MemOp) -- R272
  | jmp (m : MemOp) -- R352
  | jsr (m : MemOp) -- R353
  | leax (m : IdxMode) -- R180
  | leay (m : IdxMode) -- R181
  | leas (m : IdxMode) -- R182
  | leau (m : IdxMode) -- R183
  | tfr (r1 r2 : BitVec 4) -- R201
  | exg (r1 r2 : BitVec 4) -- R202
  | pshs (mask : Byte) -- R206
  | puls (mask : Byte) -- R208
  | pshu (mask : Byte) -- R207
  | pulu (mask : Byte) -- R209
  | nega -- R243
  | coma -- R246
  | lsra -- R249
  | rora -- R252
  | asra -- R255
  | asla -- R258
  | rola -- R261
  | deca -- R264
  | inca -- R267
  | tsta -- R270
  | clra -- R273
  | negb -- R244
  | comb -- R247
  | lsrb -- R250
  | rorb -- R253
  | asrb -- R256
  | aslb -- R259
  | rolb -- R262
  | decb -- R265
  | incb -- R268
  | tstb -- R271
  | clrb -- R274
  | daa -- R290
  | mul -- R291
  | sex -- R292
  | abx -- R293
  | nop -- R296
  | rts -- R354
  | swi -- R371
  | swi2 -- R372
  | swi3 -- R373
  | rti -- R374
  | sync -- R376
  | andcc (v : Byte) -- R294
  | orcc (v : Byte) -- R295
  | cwai (v : Byte) -- R375
  | bra (d : Byte) -- R313
  | brn (d : Byte) -- R314
  | bhi (d : Byte) -- R315
  | bls (d : Byte) -- R316
  | bcc (d : Byte) -- R317
  | bcs (d : Byte) -- R318
  | bne (d : Byte) -- R319
  | beq (d : Byte) -- R320
  | bvc (d : Byte) -- R321
  | bvs (d : Byte) -- R322
  | bpl (d : Byte) -- R323
  | bmi (d : Byte) -- R324
  | bge (d : Byte) -- R325
  | blt (d : Byte) -- R326
  | bgt (d : Byte) -- R327
  | ble (d : Byte) -- R328
  | bsr (d : Byte) -- R350
  | lbra (d : Word) -- R330
  | lbrn (d : Word) -- R331
  | lbhi (d : Word) -- R332
  | lbls (d : Word) -- R333
  | lbcc (d : Word) -- R334
  | lbcs (d : Word) -- R335
  | lbne (d : Word) -- R336
  | lbeq (d : Word) -- R337
  | lbvc (d : Word) -- R338
  | lbvs (d : Word) -- R339
  | lbpl (d : Word) -- R340
  | lbmi (d : Word) -- R341
  | lbge (d : Word) -- R342
  | lblt (d : Word) -- R343
  | lbgt (d : Word) -- R344
  | lble (d : Word) -- R345
  | lbsr (d : Word) -- R351
  | undefined (page : Page) (op : Byte) -- R380
  deriving DecidableEq, Repr

end Sys2Proof
end

