-- ==== Sys2Proof/WellFormed.lean ====
section
/-! DEFINITION. Which terms of `Instr` are instructions of the machine. Operand forms are well formed by construction
(there is no store to an immediate and no indirect `,R+`); what remains is that `undefined` names an opcode that has no
row in the opcode map. -/

namespace Sys2Proof

/-- The 33 undefined page-1 opcodes (`30_encoding.md` R143). -/
def undefinedPage1 : List Byte :=
  [0x01, 0x02, 0x05, 0x0B, 0x14, 0x15, 0x18, 0x1B, 0x38, 0x3E, 0x41, 0x42, 0x45, 0x4B, 0x4E, 0x51, 0x52]
    ++ [0x55, 0x5B, 0x5E, 0x61, 0x62, 0x65, 0x6B, 0x71, 0x72, 0x75, 0x7B, 0x87, 0x8F, 0xC7, 0xCD, 0xCF]

/-- The 38 defined page-2 opcodes (`30_encoding.md` R141). -/
def definedPage2 : List Byte :=
  [0x21, 0x22, 0x23, 0x24, 0x25, 0x26, 0x27, 0x28, 0x29, 0x2A, 0x2B, 0x2C, 0x2D, 0x2E, 0x2F, 0x3F]
    ++ [0x83, 0x93, 0xA3, 0xB3, 0x8C, 0x9C, 0xAC, 0xBC, 0x8E, 0x9E, 0xAE, 0xBE, 0x9F, 0xAF, 0xBF]
    ++ [0xCE, 0xDE, 0xEE, 0xFE, 0xDF, 0xEF, 0xFF]

/-- The 9 defined page-3 opcodes (`30_encoding.md` R142). -/
def definedPage3 : List Byte := [0x3F, 0x83, 0x93, 0xA3, 0xB3, 0x8C, 0x9C, 0xAC, 0xBC]

/-- The byte `op` on this page has no row in the opcode map (`30_encoding.md` R143). A prefix byte is no page-1 opcode. -/
def isUndefinedOpcode : Page → Byte → Bool
  | .p1, op => undefinedPage1.contains op
  | .p2, op => !definedPage2.contains op
  | .p3, op => !definedPage3.contains op

/-- The check: an `undefined` term names an opcode without a row. -/
def Instr.wf : Instr → Bool
  | .undefined page op => isUndefinedOpcode page op
  | .lda _ | .ldb _ | .adda _ | .addb _ | .adca _ | .adcb _ | .suba _ | .subb _
  | .sbca _ | .sbcb _ | .cmpa _ | .cmpb _ | .anda _ | .andb _ | .ora _ | .orb _
  | .eora _ | .eorb _ | .bita _ | .bitb _
  | .ldd _ | .ldx _ | .ldy _ | .ldu _ | .lds _ | .addd _ | .subd _ | .cmpd _
  | .cmpx _ | .cmpy _ | .cmpu _ | .cmps _
  | .sta _ | .stb _ | .std _ | .stx _ | .sty _ | .stu _ | .sts _ | .neg _
  | .com _ | .lsr _ | .ror _ | .asr _ | .asl _ | .rol _ | .dec _ | .inc _
  | .tst _ | .clr _ | .jmp _ | .jsr _
  | .leax _ | .leay _ | .leas _ | .leau _
  | .tfr _ _ | .exg _ _
  | .pshs _ | .puls _ | .pshu _ | .pulu _
  | .nega | .coma | .lsra | .rora | .asra | .asla | .rola | .deca
  | .inca | .tsta | .clra | .negb | .comb | .lsrb | .rorb | .asrb
  | .aslb | .rolb | .decb | .incb | .tstb | .clrb | .daa | .mul
  | .sex | .abx | .nop | .rts | .swi | .swi2 | .swi3 | .rti
  | .sync
  | .andcc _ | .orcc _ | .cwai _
  | .bra _ | .brn _ | .bhi _ | .bls _ | .bcc _ | .bcs _ | .bne _ | .beq _
  | .bvc _ | .bvs _ | .bpl _ | .bmi _ | .bge _ | .blt _ | .bgt _ | .ble _
  | .bsr _
  | .lbra _ | .lbrn _ | .lbhi _ | .lbls _ | .lbcc _ | .lbcs _ | .lbne _ | .lbeq _
  | .lbvc _ | .lbvs _ | .lbpl _ | .lbmi _ | .lbge _ | .lblt _ | .lbgt _ | .lble _
  | .lbsr _ => true

end Sys2Proof
end

