-- ==== Sys2Proof/Decode.lean ====
section
/-! DEFINITION. The decoder and the encoder (`30_encoding.md`). The decoder is written once over any source of bytes, so
that the machine's fetch (bus reads, which may have side effects) and the decoding of a byte list are one function. -/

namespace Sys2Proof

/-- What follows an opcode byte: the format of its row (`30_encoding.md` R121), and the instruction its operand makes. -/
inductive Form where
  /-- `inh`: nothing follows. -/
  | inh (i : Instr)
  /-- one byte follows (`imm8`, `rel8`, `rr`, `list`, `dir`). -/
  | byte (f : Byte → Instr)
  /-- two bytes follow, high byte first (`imm16`, `rel16`, `ext`). -/
  | word (f : Word → Instr)
  /-- a postbyte follows (`idx`). -/
  | idx (f : IdxMode → Instr)

/-- The addressing mode of opcode rows 8 to F, bits 5:4 of the opcode (`30_encoding.md` R140). -/
inductive AddrMode where
  | imm | dir | idx | ext
  deriving DecidableEq, Repr

/-- The row of a memory operand in a mode; there is no immediate form. -/
def Form.ofMem (f : MemOp → Instr) : AddrMode → Option Form
  | .imm => none
  | .dir => some (.byte (fun a => f (.dir a)))
  | .idx => some (.idx (fun m => f (.idx m)))
  | .ext => some (.word (fun a => f (.ext a)))

/-- The row of an 8-bit operand in a mode. -/
def Form.ofOpnd8 (f : Opnd8 → Instr) : AddrMode → Option Form
  | .imm => some (.byte (fun v => f (.imm v)))
  | .dir => Form.ofMem (fun m => f (.mem m)) .dir
  | .idx => Form.ofMem (fun m => f (.mem m)) .idx
  | .ext => Form.ofMem (fun m => f (.mem m)) .ext

/-- The row of a 16-bit operand in a mode. -/
def Form.ofOpnd16 (f : Opnd16 → Instr) : AddrMode → Option Form
  | .imm => some (.word (fun v => f (.imm v)))
  | .dir => Form.ofMem (fun m => f (.mem m)) .dir
  | .idx => Form.ofMem (fun m => f (.mem m)) .idx
  | .ext => Form.ofMem (fun m => f (.mem m)) .ext

/-- The register pair of `rr` (`30_encoding.md` R128): `pb[7:4]` the first code, `pb[3:0]` the second. -/
def pairForm (f : BitVec 4 → BitVec 4 → Instr) : Form :=
  .byte (fun pb => f (pb.extractLsb' 4 4) (pb.extractLsb' 0 4))

/-- Page-1 rows 0, 6, 7: the single-operand instructions on memory, by the low nibble (`30_encoding.md` R140). -/
def memoryColumn (mode : AddrMode) (lo : Nat) : Option Form :=
  match lo with
  | 0x0 => Form.ofMem .neg mode
  | 0x3 => Form.ofMem .com mode
  | 0x4 => Form.ofMem .lsr mode
  | 0x6 => Form.ofMem .ror mode
  | 0x7 => Form.ofMem .asr mode
  | 0x8 => Form.ofMem .asl mode
  | 0x9 => Form.ofMem .rol mode
  | 0xA => Form.ofMem .dec mode
  | 0xC => Form.ofMem .inc mode
  | 0xD => Form.ofMem .tst mode
  | 0xE => Form.ofMem .jmp mode
  | 0xF => Form.ofMem .clr mode
  | _ => none

/-- Page-1 row 1 (`30_encoding.md` R140); 0x10 and 0x11 are the page prefixes. -/
def row1 (lo : Nat) : Option Form :=
  match lo with
  | 0x2 => some (.inh .nop)
  | 0x3 => some (.inh .sync)
  | 0x6 => some (.word .lbra)
  | 0x7 => some (.word .lbsr)
  | 0x9 => some (.inh .daa)
  | 0xA => some (.byte .orcc)
  | 0xC => some (.byte .andcc)
  | 0xD => some (.inh .sex)
  | 0xE => some (pairForm .exg)
  | 0xF => some (pairForm .tfr)
  | _ => none

/-- Page-1 row 2: the short branches (`30_encoding.md` R140, `43_branch_control.md` R310). -/
def row2 (lo : Nat) : Option Form :=
  match lo with
  | 0x0 => some (.byte .bra)
  | 0x1 => some (.byte .brn)
  | 0x2 => some (.byte .bhi)
  | 0x3 => some (.byte .bls)
  | 0x4 => some (.byte .bcc)
  | 0x5 => some (.byte .bcs)
  | 0x6 => some (.byte .bne)
  | 0x7 => some (.byte .beq)
  | 0x8 => some (.byte .bvc)
  | 0x9 => some (.byte .bvs)
  | 0xA => some (.byte .bpl)
  | 0xB => some (.byte .bmi)
  | 0xC => some (.byte .bge)
  | 0xD => some (.byte .blt)
  | 0xE => some (.byte .bgt)
  | 0xF => some (.byte .ble)
  | _ => none

/-- Page-1 row 3 (`30_encoding.md` R140). -/
def row3 (lo : Nat) : Option Form :=
  match lo with
  | 0x0 => some (.idx .leax)
  | 0x1 => some (.idx .leay)
  | 0x2 => some (.idx .leas)
  | 0x3 => some (.idx .leau)
  | 0x4 => some (.byte .pshs)
  | 0x5 => some (.byte .puls)
  | 0x6 => some (.byte .pshu)
  | 0x7 => some (.byte .pulu)
  | 0x9 => some (.inh .rts)
  | 0xA => some (.inh .abx)
  | 0xB => some (.inh .rti)
  | 0xC => some (.byte .cwai)
  | 0xD => some (.inh .mul)
  | 0xF => some (.inh .swi)
  | _ => none

/-- Page-1 row 4: the single-operand instructions on A (`30_encoding.md` R140). -/
def row4 (lo : Nat) : Option Form :=
  match lo with
  | 0x0 => some (.inh .nega)
  | 0x3 => some (.inh .coma)
  | 0x4 => some (.inh .lsra)
  | 0x6 => some (.inh .rora)
  | 0x7 => some (.inh .asra)
  | 0x8 => some (.inh .asla)
  | 0x9 => some (.inh .rola)
  | 0xA => some (.inh .deca)
  | 0xC => some (.inh .inca)
  | 0xD => some (.inh .tsta)
  | 0xF => some (.inh .clra)
  | _ => none

/-- Page-1 row 5: the single-operand instructions on B (`30_encoding.md` R140). -/
def row5 (lo : Nat) : Option Form :=
  match lo with
  | 0x0 => some (.inh .negb)
  | 0x3 => some (.inh .comb)
  | 0x4 => some (.inh .lsrb)
  | 0x6 => some (.inh .rorb)
  | 0x7 => some (.inh .asrb)
  | 0x8 => some (.inh .aslb)
  | 0x9 => some (.inh .rolb)
  | 0xA => some (.inh .decb)
  | 0xC => some (.inh .incb)
  | 0xD => some (.inh .tstb)
  | 0xF => some (.inh .clrb)
  | _ => none

/-- Page-1 rows 8 to B: the A, X column set (`30_encoding.md` R140). -/
def columnsA (mode : AddrMode) (lo : Nat) : Option Form :=
  match lo with
  | 0x0 => Form.ofOpnd8 .suba mode
  | 0x1 => Form.ofOpnd8 .cmpa mode
  | 0x2 => Form.ofOpnd8 .sbca mode
  | 0x3 => Form.ofOpnd16 .subd mode
  | 0x4 => Form.ofOpnd8 .anda mode
  | 0x5 => Form.ofOpnd8 .bita mode
  | 0x6 => Form.ofOpnd8 .lda mode
  | 0x7 => Form.ofMem .sta mode
  | 0x8 => Form.ofOpnd8 .eora mode
  | 0x9 => Form.ofOpnd8 .adca mode
  | 0xA => Form.ofOpnd8 .ora mode
  | 0xB => Form.ofOpnd8 .adda mode
  | 0xC => Form.ofOpnd16 .cmpx mode
  | 0xD => if mode = .imm then some (.byte .bsr) else Form.ofMem .jsr mode
  | 0xE => Form.ofOpnd16 .ldx mode
  | 0xF => Form.ofMem .stx mode
  | _ => none

/-- Page-1 rows C to F: the B, D, U column set (`30_encoding.md` R140). -/
def columnsB (mode : AddrMode) (lo : Nat) : Option Form :=
  match lo with
  | 0x0 => Form.ofOpnd8 .subb mode
  | 0x1 => Form.ofOpnd8 .cmpb mode
  | 0x2 => Form.ofOpnd8 .sbcb mode
  | 0x3 => Form.ofOpnd16 .addd mode
  | 0x4 => Form.ofOpnd8 .andb mode
  | 0x5 => Form.ofOpnd8 .bitb mode
  | 0x6 => Form.ofOpnd8 .ldb mode
  | 0x7 => Form.ofMem .stb mode
  | 0x8 => Form.ofOpnd8 .eorb mode
  | 0x9 => Form.ofOpnd8 .adcb mode
  | 0xA => Form.ofOpnd8 .orb mode
  | 0xB => Form.ofOpnd8 .addb mode
  | 0xC => Form.ofOpnd16 .ldd mode
  | 0xD => Form.ofMem .std mode
  | 0xE => Form.ofOpnd16 .ldu mode
  | 0xF => Form.ofMem .stu mode
  | _ => none

/-- The page-1 opcode map (`30_encoding.md` R140), by the high and the low nibble of the opcode. -/
def lookupPage1 (hi lo : Nat) : Option Form :=
  match hi with
  | 0x0 => memoryColumn .dir lo
  | 0x1 => row1 lo
  | 0x2 => row2 lo
  | 0x3 => row3 lo
  | 0x4 => row4 lo
  | 0x5 => row5 lo
  | 0x6 => memoryColumn .idx lo
  | 0x7 => memoryColumn .ext lo
  | 0x8 => columnsA .imm lo
  | 0x9 => columnsA .dir lo
  | 0xA => columnsA .idx lo
  | 0xB => columnsA .ext lo
  | 0xC => columnsB .imm lo
  | 0xD => columnsB .dir lo
  | 0xE => columnsB .idx lo
  | 0xF => columnsB .ext lo
  | _ => none

/-- Page-2 row 2: the long branches (`30_encoding.md` R141); 10 20 is undefined. -/
def longBranchRow (lo : Nat) : Option Form :=
  match lo with
  | 0x1 => some (.word .lbrn)
  | 0x2 => some (.word .lbhi)
  | 0x3 => some (.word .lbls)
  | 0x4 => some (.word .lbcc)
  | 0x5 => some (.word .lbcs)
  | 0x6 => some (.word .lbne)
  | 0x7 => some (.word .lbeq)
  | 0x8 => some (.word .lbvc)
  | 0x9 => some (.word .lbvs)
  | 0xA => some (.word .lbpl)
  | 0xB => some (.word .lbmi)
  | 0xC => some (.word .lbge)
  | 0xD => some (.word .lblt)
  | 0xE => some (.word .lbgt)
  | 0xF => some (.word .lble)
  | _ => none

/-- Page-2 rows 8 to B (`30_encoding.md` R141). -/
def page2Low (mode : AddrMode) (lo : Nat) : Option Form :=
  match lo with
  | 0x3 => Form.ofOpnd16 .cmpd mode
  | 0xC => Form.ofOpnd16 .cmpy mode
  | 0xE => Form.ofOpnd16 .ldy mode
  | 0xF => Form.ofMem .sty mode
  | _ => none

/-- Page-2 rows C to F (`30_encoding.md` R141). -/
def page2High (mode : AddrMode) (lo : Nat) : Option Form :=
  match lo with
  | 0xE => Form.ofOpnd16 .lds mode
  | 0xF => Form.ofMem .sts mode
  | _ => none

/-- The page-2 opcode map (`30_encoding.md` R141). -/
def lookupPage2 (hi lo : Nat) : Option Form :=
  match hi with
  | 0x2 => longBranchRow lo
  | 0x3 => if lo = 0xF then some (.inh .swi2) else none
  | 0x8 => page2Low .imm lo
  | 0x9 => page2Low .dir lo
  | 0xA => page2Low .idx lo
  | 0xB => page2Low .ext lo
  | 0xC => page2High .imm lo
  | 0xD => page2High .dir lo
  | 0xE => page2High .idx lo
  | 0xF => page2High .ext lo
  | _ => none

/-- Page-3 rows 8 to B (`30_encoding.md` R142). -/
def page3Low (mode : AddrMode) (lo : Nat) : Option Form :=
  match lo with
  | 0x3 => Form.ofOpnd16 .cmpu mode
  | 0xC => Form.ofOpnd16 .cmps mode
  | _ => none

/-- The page-3 opcode map (`30_encoding.md` R142). -/
def lookupPage3 (hi lo : Nat) : Option Form :=
  match hi with
  | 0x3 => if lo = 0xF then some (.inh .swi3) else none
  | 0x8 => page3Low .imm lo
  | 0x9 => page3Low .dir lo
  | 0xA => page3Low .idx lo
  | 0xB => page3Low .ext lo
  | _ => none

/-- The opcode map: the row of (page, opcode), if it has one (`30_encoding.md` R122). -/
def lookup (page : Page) (op : Byte) : Option Form :=
  match page with
  | .p1 => lookupPage1 (op.toNat / 16) (op.toNat % 16)
  | .p2 => lookupPage2 (op.toNat / 16) (op.toNat % 16)
  | .p3 => lookupPage3 (op.toNat / 16) (op.toNat % 16)

/-- The base register named by the postbyte's bits 6:5 (`30_encoding.md` R130). -/
def iregOf (rr : BitVec 2) : IReg :=
  match rr.toNat with
  | 0 => .x
  | 1 => .y
  | 2 => .u
  | _ => .s

/-- What a postbyte asks for: nothing more, one offset byte, a 16-bit offset or address, or it selects no documented
mode. -/
inductive PostForm where
  | done (m : IdxMode)
  | byte (f : Byte → IdxMode)
  | word (f : Word → IdxMode)
  | undefined

/-- The postbyte table (`30_encoding.md` R130-R137). -/
def postForm (pb : Byte) : PostForm :=
  let r := iregOf (pb.extractLsb' 5 2)
  let ind := pb.getLsbD 4
  if pb.getLsbD 7 = false then .done (.off5 r (pb.extractLsb' 0 5)) else
  match (pb.extractLsb' 0 4).toNat with
  | 0x0 => if ind then .undefined else .done (.postInc1 r)
  | 0x1 => .done (.postInc2 r ind)
  | 0x2 => if ind then .undefined else .done (.preDec1 r)
  | 0x3 => .done (.preDec2 r ind)
  | 0x4 => .done (.zero r ind)
  | 0x5 => .done (.accB r ind)
  | 0x6 => .done (.accA r ind)
  | 0x8 => .byte (fun n => .off8 r n ind)
  | 0x9 => .word (fun n => .off16 r n ind)
  | 0xB => .done (.accD r ind)
  | 0xC => .byte (fun n => .pcr8 n ind)
  | 0xD => .word (fun n => .pcr16 n ind)
  | 0xF => if ind = true ∧ r = .x then .word .extInd else .undefined
  | _ => .undefined

/-- What decoding from a byte source gives: an instruction, or a postbyte that selects no documented mode; in both
cases with the source after the bytes read. -/
inductive Decoded (σ : Type) where
  | ok (i : Instr) (s : σ)
  | undefinedPostbyte (pb : Byte) (s : σ)
  deriving Repr

/-- Two bytes of a source, high byte first (`00_scope.md` R12, `Fetch16`). -/
def nextWord {σ : Type} (next : σ → Byte × σ) (s : σ) : Word × σ :=
  let (h, s1) := next s
  let (l, s2) := next s1
  (wordOf h l, s2)

/-- The operand bytes of an indexed row (`30_encoding.md` R122 point 4). -/
def decodeIndexed {σ : Type} (next : σ → Byte × σ) (f : IdxMode → Instr) (s : σ) : Decoded σ :=
  let (pb, s1) := next s
  match postForm pb with
  | .done m => .ok (f m) s1
  | .byte g => let (o, s2) := next s1; .ok (f (g o)) s2
  | .word g => let (o, s2) := nextWord next s1; .ok (f (g o)) s2
  | .undefined => .undefinedPostbyte pb s1

/-- The operand bytes of a row (`30_encoding.md` R122 point 3). -/
def decodeForm {σ : Type} (next : σ → Byte × σ) (form : Form) (s : σ) : Decoded σ :=
  match form with
  | .inh i => .ok i s
  | .byte f => let (v, s1) := next s; .ok (f v) s1
  | .word f => let (v, s1) := nextWord next s; .ok (f v) s1
  | .idx f => decodeIndexed next f s

/-- The row of (page, opcode), or the no-operation of an opcode without a row (`30_encoding.md` R122 point 2). -/
def decodeOpcode {σ : Type} (next : σ → Byte × σ) (page : Page) (op : Byte) (s : σ) : Decoded σ :=
  match lookup page op with
  | some form => decodeForm next form s
  | none => .ok (.undefined page op) s

/-- The decoder over any byte source: at most one page prefix, the opcode, the operand bytes (`30_encoding.md` R122,
R123). -/
def decodeFrom {σ : Type} (next : σ → Byte × σ) (s : σ) : Decoded σ :=
  let (b0, s1) := next s
  if b0 = 0x10 then
    let (op, s2) := next s1
    decodeOpcode next .p2 op s2
  else if b0 = 0x11 then
    let (op, s2) := next s1
    decodeOpcode next .p3 op s2
  else decodeOpcode next .p1 b0 s1

/-- A byte list as a source: the bytes left, and whether more were asked for than there are. -/
structure ByteList where
  bytes : List Byte
  starved : Bool
  deriving DecidableEq, Repr

/-- The next byte of a list; 0 and `starved` at its end. -/
def ByteList.next (s : ByteList) : Byte × ByteList :=
  match s.bytes with
  | b :: t => (b, { s with bytes := t })
  | [] => (0, { s with starved := true })

/-- Why a byte list does not decode. -/
inductive DecodeError where
  /-- the list ends inside the instruction -/
  | truncated
  /-- the postbyte selects no documented indexed mode (`30_encoding.md` R137) -/
  | undefinedPostbyte (pb : Byte)
  deriving DecidableEq, Repr

/-- The instruction at the head of a byte list, and the bytes after it. Total: every list either decodes or is rejected
by name. -/
def decode (bs : List Byte) : Except DecodeError (Instr × List Byte) :=
  match decodeFrom ByteList.next ⟨bs, false⟩ with
  | .ok i s => if s.starved then .error .truncated else .ok (i, s.bytes)
  | .undefinedPostbyte pb s => if s.starved then .error .truncated else .error (.undefinedPostbyte pb)

/-! ### The encoder -/

/-- `rr` of the postbyte (`30_encoding.md` R130). -/
def IReg.code : IReg → Byte
  | .x => 0x00
  | .y => 0x20
  | .u => 0x40
  | .s => 0x60

/-- The indirect bit of the postbyte (`30_encoding.md` R130). -/
def indBit (ind : Bool) : Byte := if ind then 0x10 else 0x00

/-- The postbyte and offset bytes of an indexed mode, from the table of `30_encoding.md` R136. -/
def encodeIdx : IdxMode → List Byte
  | .off5 r n => [r.code ||| n.setWidth 8]
  | .postInc1 r => [0x80 ||| r.code]
  | .postInc2 r ind => [0x81 ||| r.code ||| indBit ind]
  | .preDec1 r => [0x82 ||| r.code]
  | .preDec2 r ind => [0x83 ||| r.code ||| indBit ind]
  | .zero r ind => [0x84 ||| r.code ||| indBit ind]
  | .accB r ind => [0x85 ||| r.code ||| indBit ind]
  | .accA r ind => [0x86 ||| r.code ||| indBit ind]
  | .off8 r n ind => [0x88 ||| r.code ||| indBit ind, n]
  | .off16 r n ind => [0x89 ||| r.code ||| indBit ind, hiByte n, loByte n]
  | .accD r ind => [0x8B ||| r.code ||| indBit ind]
  | .pcr8 n ind => [0x8C ||| indBit ind, n]
  | .pcr16 n ind => [0x8D ||| indBit ind, hiByte n, loByte n]
  | .extInd p => [0x9F, hiByte p, loByte p]

/-- A memory operand with its three opcodes (direct, indexed, extended). -/
def encodeMem (dir idx ext : Byte) : MemOp → List Byte
  | .dir a => [dir, a]
  | .idx m => idx :: encodeIdx m
  | .ext a => [ext, hiByte a, loByte a]

/-- The single-operand rows: opcodes 0n, 6n, 7n (`41_arith_logic8.md` R241). -/
def encodeUnary (n : Byte) : MemOp → List Byte := encodeMem n (0x60 + n) (0x70 + n)

/-- A memory operand in rows 8 to F, from its immediate-row opcode (`30_encoding.md` R140). -/
def encodeRowMem (op : Byte) : MemOp → List Byte := encodeMem (op + 0x10) (op + 0x20) (op + 0x30)

/-- An 8-bit operand in rows 8 to F. -/
def encodeOpnd8 (op : Byte) : Opnd8 → List Byte
  | .imm v => [op, v]
  | .mem m => encodeRowMem op m

/-- A 16-bit operand in rows 8 to F. -/
def encodeOpnd16 (op : Byte) : Opnd16 → List Byte
  | .imm v => [op, hiByte v, loByte v]
  | .mem m => encodeRowMem op m

/-- The prefix byte of a page (`30_encoding.md` R122). -/
def pageBytes : Page → List Byte
  | .p1 => []
  | .p2 => [0x10]
  | .p3 => [0x11]

/-- The bytes of an instruction, from the encoding tables of `30_encoding.md` R121, R136, R140-R142. -/
def encode (i : Instr) : List Byte :=
  match i with
  | .lda o => encodeOpnd8 0x86 o
  | .ldb o => encodeOpnd8 0xC6 o
  | .adda o => encodeOpnd8 0x8B o
  | .addb o => encodeOpnd8 0xCB o
  | .adca o => encodeOpnd8 0x89 o
  | .adcb o => encodeOpnd8 0xC9 o
  | .suba o => encodeOpnd8 0x80 o
  | .subb o => encodeOpnd8 0xC0 o
  | .sbca o => encodeOpnd8 0x82 o
  | .sbcb o => encodeOpnd8 0xC2 o
  | .cmpa o => encodeOpnd8 0x81 o
  | .cmpb o => encodeOpnd8 0xC1 o
  | .anda o => encodeOpnd8 0x84 o
  | .andb o => encodeOpnd8 0xC4 o
  | .ora o => encodeOpnd8 0x8A o
  | .orb o => encodeOpnd8 0xCA o
  | .eora o => encodeOpnd8 0x88 o
  | .eorb o => encodeOpnd8 0xC8 o
  | .bita o => encodeOpnd8 0x85 o
  | .bitb o => encodeOpnd8 0xC5 o
  | .ldd o => encodeOpnd16 0xCC o
  | .ldx o => encodeOpnd16 0x8E o
  | .ldy o => 0x10 :: encodeOpnd16 0x8E o
  | .ldu o => encodeOpnd16 0xCE o
  | .lds o => 0x10 :: encodeOpnd16 0xCE o
  | .addd o => encodeOpnd16 0xC3 o
  | .subd o => encodeOpnd16 0x83 o
  | .cmpd o => 0x10 :: encodeOpnd16 0x83 o
  | .cmpx o => encodeOpnd16 0x8C o
  | .cmpy o => 0x10 :: encodeOpnd16 0x8C o
  | .cmpu o => 0x11 :: encodeOpnd16 0x83 o
  | .cmps o => 0x11 :: encodeOpnd16 0x8C o
  | .sta m => encodeRowMem 0x87 m
  | .stb m => encodeRowMem 0xC7 m
  | .std m => encodeRowMem 0xCD m
  | .stx m => encodeRowMem 0x8F m
  | .sty m => 0x10 :: encodeRowMem 0x8F m
  | .stu m => encodeRowMem 0xCF m
  | .sts m => 0x10 :: encodeRowMem 0xCF m
  | .neg m => encodeUnary 0x00 m
  | .com m => encodeUnary 0x03 m
  | .lsr m => encodeUnary 0x04 m
  | .ror m => encodeUnary 0x06 m
  | .asr m => encodeUnary 0x07 m
  | .asl m => encodeUnary 0x08 m
  | .rol m => encodeUnary 0x09 m
  | .dec m => encodeUnary 0x0A m
  | .inc m => encodeUnary 0x0C m
  | .tst m => encodeUnary 0x0D m
  | .clr m => encodeUnary 0x0F m
  | .jmp m => encodeUnary 0x0E m
  | .jsr m => encodeRowMem 0x8D m
  | .leax m => 0x30 :: encodeIdx m
  | .leay m => 0x31 :: encodeIdx m
  | .leas m => 0x32 :: encodeIdx m
  | .leau m => 0x33 :: encodeIdx m
  | .tfr r1 r2 => [0x1F, r1 ++ r2]
  | .exg r1 r2 => [0x1E, r1 ++ r2]
  | .pshs mask => [0x34, mask]
  | .puls mask => [0x35, mask]
  | .pshu mask => [0x36, mask]
  | .pulu mask => [0x37, mask]
  | .nega => [0x40]
  | .coma => [0x43]
  | .lsra => [0x44]
  | .rora => [0x46]
  | .asra => [0x47]
  | .asla => [0x48]
  | .rola => [0x49]
  | .deca => [0x4A]
  | .inca => [0x4C]
  | .tsta => [0x4D]
  | .clra => [0x4F]
  | .negb => [0x50]
  | .comb => [0x53]
  | .lsrb => [0x54]
  | .rorb => [0x56]
  | .asrb => [0x57]
  | .aslb => [0x58]
  | .rolb => [0x59]
  | .decb => [0x5A]
  | .incb => [0x5C]
  | .tstb => [0x5D]
  | .clrb => [0x5F]
  | .daa => [0x19]
  | .mul => [0x3D]
  | .sex => [0x1D]
  | .abx => [0x3A]
  | .nop => [0x12]
  | .rts => [0x39]
  | .swi => [0x3F]
  | .swi2 => [0x10, 0x3F]
  | .swi3 => [0x11, 0x3F]
  | .rti => [0x3B]
  | .sync => [0x13]
  | .andcc v => [0x1C, v]
  | .orcc v => [0x1A, v]
  | .cwai v => [0x3C, v]
  | .bra d => [0x20, d]
  | .brn d => [0x21, d]
  | .bhi d => [0x22, d]
  | .bls d => [0x23, d]
  | .bcc d => [0x24, d]
  | .bcs d => [0x25, d]
  | .bne d => [0x26, d]
  | .beq d => [0x27, d]
  | .bvc d => [0x28, d]
  | .bvs d => [0x29, d]
  | .bpl d => [0x2A, d]
  | .bmi d => [0x2B, d]
  | .bge d => [0x2C, d]
  | .blt d => [0x2D, d]
  | .bgt d => [0x2E, d]
  | .ble d => [0x2F, d]
  | .bsr d => [0x8D, d]
  | .lbra d => [0x16, hiByte d, loByte d]
  | .lbrn d => [0x10, 0x21, hiByte d, loByte d]
  | .lbhi d => [0x10, 0x22, hiByte d, loByte d]
  | .lbls d => [0x10, 0x23, hiByte d, loByte d]
  | .lbcc d => [0x10, 0x24, hiByte d, loByte d]
  | .lbcs d => [0x10, 0x25, hiByte d, loByte d]
  | .lbne d => [0x10, 0x26, hiByte d, loByte d]
  | .lbeq d => [0x10, 0x27, hiByte d, loByte d]
  | .lbvc d => [0x10, 0x28, hiByte d, loByte d]
  | .lbvs d => [0x10, 0x29, hiByte d, loByte d]
  | .lbpl d => [0x10, 0x2A, hiByte d, loByte d]
  | .lbmi d => [0x10, 0x2B, hiByte d, loByte d]
  | .lbge d => [0x10, 0x2C, hiByte d, loByte d]
  | .lblt d => [0x10, 0x2D, hiByte d, loByte d]
  | .lbgt d => [0x10, 0x2E, hiByte d, loByte d]
  | .lble d => [0x10, 0x2F, hiByte d, loByte d]
  | .lbsr d => [0x17, hiByte d, loByte d]
  | .undefined page op => pageBytes page ++ [op]

/-! ### The words of `opcode_table.json` -/

/-- The bytes, lowest address first, of an instruction given by a word of `opcode_table.json` (log 8). The table numbers
the two bytes of a page-2 or page-3 row as ONE number with the prefix byte in bits 15:8 (its `match` 0x1021 is the bytes
10 21), so there the first byte is bits 15:8; every other word has its first byte in bits 7:0. Every bit above `nbits`
is 0, up to the longest instruction, five bytes. -/
def tableBytes (nbits w : Nat) : List Byte :=
  let n := w % 2 ^ nbits
  let b0 := BitVec.ofNat 8 n
  let b1 := BitVec.ofNat 8 (n / 0x100)
  let rest := [BitVec.ofNat 8 (n / 0x10000), BitVec.ofNat 8 (n / 0x1000000), BitVec.ofNat 8 (n / 0x100000000)]
  if nbits = 16 ∧ (b1 = 0x10 ∨ b1 = 0x11) then b1 :: b0 :: rest else b0 :: b1 :: rest

/-- The instruction the decoder reads from a word numbered as `opcode_table.json` numbers it (log 8). -/
def decodeTableWord (nbits w : Nat) : Option Instr :=
  match decode (tableBytes nbits w) with
  | .ok (i, _) => some i
  | .error _ => none

end Sys2Proof
end

