-- ==== Sys2Proof/Config.lean ====
section
/-! DEFINITION. What the machine fixes (constants of `00_scope.md` R7 and `62_analog_vector.md` R500), the OPEN
parameters as plain data (`Params`), and the free values as constants without a body. -/

namespace Sys2Proof

namespace Config

/-- The `k`-th draw of a run: a one-bit value under no law (`00_scope.md` R14). FREE VALUE, log 3: nothing in Lean can
evaluate it. -/
opaque drawBit : Nat → Bool

/-- The step from entry `k` to entry `k + 1` of `VOL_TABLE`. FREE VALUE, log 11: `63_sound_chip.md` R557 gives no
entry, only that entry 0 is 0 and that the table is non-decreasing. -/
opaque volIncrement : Nat → Nat

/-- The sound chip's clock (`63_sound_chip.md` R558, OPEN). FREE VALUE, log 12. -/
opaque psgClock : Nat

/-- `PSG_DIVIDER` (`00_scope.md` R7, OPEN). FREE VALUE, log 12. -/
opaque psgDivider : Nat

/-- `SAMPLE_RATE` (`00_scope.md` R7, OPEN). FREE VALUE, log 12. -/
opaque sampleRate : Nat

/-- `VECTOR_CNT` (`62_analog_vector.md` R500). -/
def vectorCnt : Nat := 2048

/-- `ALG_MAX_X` (`62_analog_vector.md` R500). -/
def algMaxX : Int := 33000

/-- `ALG_MAX_Y` (`62_analog_vector.md` R500). -/
def algMaxY : Int := 41000

/-- `COLOR_RANGE`, the cancel-erase sentinel (`62_analog_vector.md` R500). -/
def colorRange : Nat := 128

/-- `JOY_MIN`, `JOY_CENTER`, `JOY_MAX` (`00_scope.md` R7). -/
def joyMin : Byte := 0x00
def joyCenter : Byte := 0x80
def joyMax : Byte := 0xFF

/-- Where the machine's memory list keeps RAM: the conventional addresses 0xC800-0xCBFF (`20_memory.md` R91). -/
def ramBase : Nat := 0xC800

/-- What a memory cell that nothing has written reads as: the default `RAM_INIT(i) = i mod 256` for RAM
(`10_state.md` R61, log 4), 0 for the ROM and the cartridge (log 5, `20_memory.md` R94). -/
def unlisted (cell : Nat) : Byte :=
  if ramBase ≤ cell ∧ cell < ramBase + 1024 then BitVec.ofNat 8 (cell - ramBase) else 0

end Config

/-- The level of a joystick axis (`62_analog_vector.md` R504). -/
inductive JoyLevel where
  | min | center | max
  deriving DecidableEq, Repr

/-- An input line a key can drive (`70_reset_and_hazards.md` R603): a button, a bit of sound register 14, or a joystick
channel with the level a press sets it to and the level a release sets it to (log 14). -/
inductive InputLine where
  | button (line : Fin 8)
  | axis (channel : Fin 4) (pressed released : JoyLevel)
  deriving DecidableEq, Repr

/-- The OPEN parameters of `00_scope.md` R7 (log 2), carried by the state and changed by no step, so that a claim
about every state is a claim about every value of them. -/
structure Params where
  /-- `UNDEF_OP_CYCLES`. -/
  undefOpCycles : Nat
  /-- `OPEN_BUS` (log 6: one byte, not a draw). -/
  openBus : Byte
  /-- `CC_RESET`. -/
  ccReset : Byte
  /-- `RAM_INIT`, as the list of (index, byte) pairs in which it differs from `i mod 256`. -/
  ramInit : List (Nat × Byte)
  /-- true: `VIA_IFR_INDEX`, `VIA_IER_INDEX` are exchanged, 14 and 13 (`61_timer_io_chip.md` R441). -/
  viaFlagsSwapped : Bool
  /-- `VECTOR_HASH`. -/
  vectorHash : Nat
  /-- `FCYCLES_INIT`. -/
  fcyclesInit : Nat
  /-- `FRAME_BUDGET`. -/
  frameBudget : Nat
  /-- `KEYMAP`, key code to input line; a code that is not listed drives no line (log 14). -/
  keymap : List (Nat × InputLine)
  deriving DecidableEq, Repr

/-- The defaults of `00_scope.md` R7; KEYMAP has none there, the model takes the empty map (log 14). -/
def Params.default : Params :=
  { undefOpCycles := 0, openBus := 0xFF, ccReset := 0x50, ramInit := [], viaFlagsSwapped := false,
    vectorHash := 65521, fcyclesInit := 30000, frameBudget := 30000, keymap := [] }

end Sys2Proof
end

