-- ==== Sys2Proof/Machine/Memory.lean ====
section
/-! DEFINITION. Sparse tables in one canonical form, and the machine's three memories (`10_state.md` R30) as one of
them: ROM, cartridge and RAM are the cells 0xE000-0xFFFF, 0x0000-0x7FFF and 0xC800-0xCBFF (log 22). -/

namespace Sys2Proof.Machine

/-- What a table holds at `k`: its listed value, else the default. -/
def sparseGet {α : Type} (dflt : Nat → α) : List (Nat × α) → Nat → α
  | [], k => dflt k
  | (j, v) :: t, k => if j = k then v else sparseGet dflt t k

/-- The table without its entry for `k`. -/
def sparseErase {α : Type} : List (Nat × α) → Nat → List (Nat × α)
  | [], _ => []
  | (j, v) :: t, k => if j = k then sparseErase t k else (j, v) :: sparseErase t k

/-- An entry for `k` put before the first greater key. -/
def sparseInsert {α : Type} (k : Nat) (v : α) : List (Nat × α) → List (Nat × α)
  | [] => [(k, v)]
  | (j, w) :: t => if k < j then (k, v) :: (j, w) :: t else (j, w) :: sparseInsert k v t

/-- The table with `v` at `k`; storing the default removes the entry. -/
def sparseSet {α : Type} [DecidableEq α] (dflt : Nat → α) (t : List (Nat × α)) (k : Nat) (v : α) : List (Nat × α) :=
  if v = dflt k then sparseErase t k else sparseInsert k v (sparseErase t k)

/-- The canonical form: keys strictly rising, no entry equal to the default. -/
def sparseWf {α : Type} [DecidableEq α] (dflt : Nat → α) : List (Nat × α) → Bool
  | [] => true
  | (k, v) :: t => decide (v ≠ dflt k) && t.all (fun c => decide (k < c.1)) && sparseWf dflt t

/-- The machine's memories: a list of (cell, byte) pairs. -/
abbrev Memory := List Host.Cell

/-- The byte in a cell. -/
def Memory.get (m : Memory) (cell : Nat) : Byte := sparseGet Config.unlisted m cell

/-- The memories with a byte in a cell. -/
def Memory.set (m : Memory) (cell : Nat) (v : Byte) : Memory := sparseSet Config.unlisted m cell v

/-- The cells there are: cartridge, RAM, ROM (`10_state.md` R30, `20_memory.md` R90). -/
def isCell (k : Nat) : Bool :=
  decide (k < 0x8000) || (decide (Config.ramBase ≤ k) && decide (k < Config.ramBase + 1024))
    || (decide (0xE000 ≤ k) && decide (k < 0x10000))

/-- A RAM cell (`20_memory.md` R91). -/
def isRamCell (k : Nat) : Bool := decide (Config.ramBase ≤ k) && decide (k < Config.ramBase + 1024)

/-- The memories are in canonical form and list existing cells only. -/
def Memory.wf (m : Memory) : Bool := sparseWf Config.unlisted m && m.all (fun c => isCell c.1)

/-- Bytes stored in cells from `base` up (the load of an image, `70_reset_and_hazards.md` R581). -/
def Memory.load (base : Nat) : List Byte → Memory → Memory
  | [], m => m
  | b :: bs, m => Memory.load (base + 1) bs (m.set base b)

/-- RAM filled by Reset: every RAM cell at `RAM_INIT` (`10_state.md` R61); ROM and cartridge cells stay. -/
def Memory.resetRam (ramInit : List (Nat × Byte)) (m : Memory) : Memory :=
  ramInit.foldl (fun m c => m.set (Config.ramBase + c.1 % 1024) c.2) (m.filter (fun c => !isRamCell c.1))

end Sys2Proof.Machine
end

