-- ==== Sys2Proof/Machine/Parts.lean ====
section
/-! DEFINITION. The parts of the machine's state as plain data, each with its value after Reset (`10_state.md`
R20-R67, `63_sound_chip.md` R550, R551). -/

namespace Sys2Proof.Machine

/-- The interrupt-pending flag `wait` (`10_state.md` R27). -/
inductive Wait where
  | normal | sync | cwai
  deriving DecidableEq, Repr

/-- The CPU register file (`10_state.md` R21). `D` is `a:b` and has no storage of its own. -/
structure Cpu where
  a : Byte
  b : Byte
  dp : Byte
  cc : Byte
  x : Word
  y : Word
  u : Word
  s : Word
  pc : Word
  wait : Wait
  deriving DecidableEq, Repr

/-- The CPU after Reset (`10_state.md` R60), given CC_RESET and the reset vector. -/
def Cpu.reset (ccReset : Byte) (pc : Word) : Cpu :=
  { a := 0, b := 0, dp := 0, cc := ccReset, x := 0, y := 0, u := 0, s := 0, pc := pc, wait := .normal }

/-- The timer/IO chip (`10_state.md` R35-R40). -/
structure Via where
  ora : Byte
  orb : Byte
  ddra : Byte
  ddrb : Byte
  t1c : Word
  t1ll : Byte
  t1lh : Byte
  t1on : Bool
  t1int : Bool
  /-- the toggle: true is 0x80, false is 0x00 -/
  t1pb7 : Bool
  t2c : Word
  t2ll : Byte
  t2on : Bool
  t2int : Bool
  sr : Byte
  /-- the bit count 0..8 -/
  srb : Nat
  src : Byte
  srclk : Bool
  acr : Byte
  pcr : Byte
  ifr : Byte
  ier : Byte
  ca2 : Bool
  cb2h : Bool
  cb2s : Bool
  deriving DecidableEq, Repr

/-- The timer/IO chip after Reset (`10_state.md` R62). -/
def Via.reset : Via :=
  { ora := 0, orb := 0, ddra := 0, ddrb := 0, t1c := 0, t1ll := 0, t1lh := 0, t1on := false, t1int := false
    t1pb7 := true, t2c := 0, t2ll := 0, t2on := false, t2int := false, sr := 0, srb := 8, src := 0, srclk := false
    acr := 0, pcr := 0, ifr := 0, ier := 0, ca2 := true, cb2h := true, cb2s := false }

/-- The candidate segment `alg.vec` (`10_state.md` R48). -/
structure Candidate where
  x0 : Int
  y0 : Int
  x1 : Int
  y1 : Int
  dx : Int
  dy : Int
  color : Nat
  deriving DecidableEq, Repr

/-- The analog block (`10_state.md` R46-R48). `vec` is `some` exactly while `vectoring` is 1 (log 10). -/
structure Alg where
  xsh : Byte
  ysh : Byte
  rsh : Byte
  zsh : Nat
  jch : Vector Byte 4
  jsh : Byte
  /-- the comparator: true is 0x20, false is 0x00 -/
  compare : Bool
  dx : Int
  dy : Int
  currX : Int
  currY : Int
  vec : Option Candidate
  deriving DecidableEq, Repr

/-- `alg.vectoring` (`10_state.md` R48). -/
def Alg.vectoring (a : Alg) : Bool := a.vec.isSome

/-- The analog block after Reset (`10_state.md` R63). -/
def Alg.reset : Alg :=
  { xsh := 128, ysh := 128, rsh := 128, zsh := 0, jch := Vector.replicate 4 128, jsh := 128, compare := false
    dx := 0, dy := 0, currX := 16500, currY := 20500, vec := none }

/-- An entry of a segment list (`10_state.md` R49). -/
structure Segment where
  x0 : Int
  y0 : Int
  x1 : Int
  y1 : Int
  color : Nat
  deriving DecidableEq, Repr

/-- The segment lists and the hash table (`10_state.md` R49, R50). A hash slot that `hash` does not list holds 0
(log 21). -/
structure Lists where
  draw : List Segment
  erase : List Segment
  hash : List (Nat × Nat)
  deriving DecidableEq, Repr

/-- The lists after Reset (`10_state.md` R64). -/
def Lists.reset : Lists := { draw := [], erase := [], hash := [] }

/-- The sound chip: the register file (`10_state.md` R57) and the generator state (`63_sound_chip.md` R550); `frac` is
the model's own carry of a fractional tick (log 12). -/
structure Psg where
  reg : Vector Byte 16
  select : BitVec 4
  tcnt : Vector Nat 3
  tout : Vector Bool 3
  ncnt : Nat
  rng : BitVec 17
  nout : Bool
  ecnt : Nat
  epos : BitVec 5
  eatt : BitVec 5
  ehold : Bool
  ealt : Bool
  eholding : Bool
  frac : Nat
  deriving DecidableEq, Repr

/-- The sound chip after Reset (`10_state.md` R65, `63_sound_chip.md` R551). -/
def Psg.reset : Psg :=
  { reg := (Vector.replicate 16 (0 : Byte)).set 14 0xFF, select := 0, tcnt := Vector.replicate 3 0
    tout := Vector.replicate 3 false, ncnt := 0, rng := 1, nout := true, ecnt := 0, epos := 31, eatt := 0
    ehold := true, ealt := false, eholding := false, frac := 0 }

/-- Everything behind the IO window: what a bus access or a device cycle can change beside memory. -/
structure Devices where
  via : Via
  alg : Alg
  lists : Lists
  psg : Psg
  deriving DecidableEq, Repr

/-- The devices after Reset (`70_reset_and_hazards.md` R580). -/
def Devices.reset : Devices :=
  { via := Via.reset, alg := Alg.reset, lists := Lists.reset, psg := Psg.reset }

/-- One call of `Key(code, pressed)` (`70_reset_and_hazards.md` R603). -/
structure KeyEvent where
  code : Nat
  pressed : Bool
  deriving DecidableEq, Repr

/-- What the host supplies for one frame: the collected inputs, and how many samples it asks for (log 17). -/
structure FrameInput where
  keys : List KeyEvent
  samples : Nat
  deriving DecidableEq, Repr

/-- The host's run flag (`70_reset_and_hazards.md` R605, log 16). -/
inductive HostMode where
  | running | paused | stopped
  deriving DecidableEq, Repr

/-- The host's side of the block, the MODEL's own: the frame budget (`70_reset_and_hazards.md` R591), the run flag, the
inputs of the coming frames, the coming values of FIRQ_SOURCE, the live-debug flag, and the outputs (R604): the lists
last shown, the CPU registers last delivered (log 25), the samples last handed over. -/
structure HostPort where
  budget : Int
  mode : HostMode
  inputs : List FrameInput
  firq : List Bool
  liveDebug : Bool
  shown : Option (List Segment × List Segment)
  snapshot : Option Cpu
  samples : List Nat
  deriving DecidableEq, Repr

/-- No frame running, no input, FIRQ_SOURCE constant 0, no live debug, nothing shown (log 13-18, 25). -/
def HostPort.reset : HostPort :=
  { budget := 0, mode := .running, inputs := [], firq := [], liveDebug := false, shown := none, snapshot := none
    samples := [] }

end Sys2Proof.Machine
end

