-- ==== Sys2Proof/Machine/State.lean ====
section
/-! DEFINITION. The machine's state as plain data, the reasons a step can stop, and the state after Reset. -/

namespace Sys2Proof.Machine

/-- The whole machine (`10_state.md`). `report`, `draws`, `params` and `host` are the model's own fields
(INVENTORY.md, log 2, 3, 13-20). -/
structure State where
  cpu : Cpu
  mem : Memory
  dev : Devices
  /-- the frame counter (`10_state.md` R51) -/
  fcycles : Int
  /-- the Step's running cycle count `n` (`60_exceptions.md` R408) -/
  report : Nat
  /-- how many draws were taken (`00_scope.md` R14, log 3) -/
  draws : Nat
  /-- the OPEN parameters (`00_scope.md` R7, log 2) -/
  params : Params
  host : HostPort
  deriving DecidableEq, Repr

/-- Why the machine stops with a fault. -/
inductive Fault where
  /-- The fetched indexed postbyte selects no documented mode (`30_encoding.md` R137). Raised by the instruction fetch.
  Safe: the spec gives the instruction no meaning. -/
  | undefinedPostbyte (pb : Byte)
  deriving DecidableEq, Repr

/-- Why the machine refuses an instruction. -/
inductive Refusal where
  /-- The instruction has no meaning in the model yet. Raised by no arm of `exec`. Safe. -/
  | notModelled (mnemonic : String)
  deriving DecidableEq, Repr

/-- The machine right after Reset (`10_state.md` R60-R66, `70_reset_and_hazards.md` R580) with the default parameters and
no image listed in memory (log 5). -/
def State.reset : State :=
  { cpu := Cpu.reset Params.default.ccReset (wordOf (Memory.get [] 0xFFFE) (Memory.get [] 0xFFFF))
    mem := []
    dev := Devices.reset
    fcycles := Params.default.fcyclesInit
    report := 0
    draws := 0
    params := Params.default
    host := HostPort.reset }

end Sys2Proof.Machine
end

