-- ==== Sys2Proof/Machine/Flags.lean ====
section
/-! DEFINITION. The condition-code byte's eight flags (`10_state.md` R24) and every flag computation of the spec, as
functions on values and the byte CC. -/

namespace Sys2Proof.Machine

/-- The flags of CC, in bit order (`10_state.md` R24). -/
inductive Flag where
  | c | v | z | n | i | h | f | e
  deriving DecidableEq, Repr

/-- The flag's bit number in CC (`10_state.md` R24). -/
def Flag.bit : Flag → Nat
  | .c => 0
  | .v => 1
  | .z => 2
  | .n => 3
  | .i => 4
  | .h => 5
  | .f => 6
  | .e => 7

/-- The flag's value in a CC byte. -/
def getFlag (fl : Flag) (cc : Byte) : Bool := cc.getLsbD fl.bit

/-- The CC byte with one flag written. -/
def setFlag (fl : Flag) (b : Bool) (cc : Byte) : Byte :=
  if b then cc ||| (1#8 <<< fl.bit) else cc &&& ~~~(1#8 <<< fl.bit)

/-- `NZ8(r)` (`00_scope.md` R14). -/
def nz8 (r : Byte) (cc : Byte) : Byte := setFlag .z (decide (r = 0)) (setFlag .n (r.getLsbD 7) cc)

/-- `NZ16(r)` (`00_scope.md` R14). -/
def nz16 (r : Word) (cc : Byte) : Byte := setFlag .z (decide (r = 0)) (setFlag .n (r.getLsbD 15) cc)

/-- The flags of a load or a store of 8 bits: `NZ8(m); V <- 0` (`40_load_store_transfer.md` R161, R170). -/
def moveFlags8 (m : Byte) (cc : Byte) : Byte := setFlag .v false (nz8 m cc)

/-- The flags of a load or a store of 16 bits: `NZ16(m); V <- 0` (`40_load_store_transfer.md` R163, R172). -/
def moveFlags16 (m : Word) (cc : Byte) : Byte := setFlag .v false (nz16 m cc)

/-- `Add8(a, m, c)` (`41_arith_logic8.md` R220): the result and CC. -/
def add8 (a m : Byte) (c : Bool) (cc : Byte) : Byte × Byte :=
  let s := a.toNat + m.toNat + c.toNat
  let r := BitVec.ofNat 8 s
  let cc1 := setFlag .h (decide (a.toNat % 16 + m.toNat % 16 + c.toNat > 15)) cc
  let cc2 := setFlag .c (decide (s > 255)) cc1
  let cc3 := setFlag .v (((a ^^^ r) &&& (m ^^^ r)).getLsbD 7) cc2
  (r, nz8 r cc3)

/-- `Sub8(a, m, c)` (`41_arith_logic8.md` R221): the result and CC; `h` is the draw that H takes. -/
def sub8 (a m : Byte) (c : Bool) (h : Bool) (cc : Byte) : Byte × Byte :=
  let d : Int := (a.toNat : Int) - m.toNat - c.toNat
  let r := BitVec.ofInt 8 d
  let cc1 := setFlag .c (decide (d < 0)) cc
  let cc2 := setFlag .v (((a ^^^ m) &&& (a ^^^ r)).getLsbD 7) cc1
  (r, setFlag .h h (nz8 r cc2))

/-- `Logic8(r)` (`41_arith_logic8.md` R222). -/
def logic8 (r : Byte) (cc : Byte) : Byte × Byte := (r, setFlag .v false (nz8 r cc))

/-- The two-operand 8-bit operations (`41_arith_logic8.md` R223-R239, R275). -/
inductive BinOp where
  | add | adc | sub | sbc | and | or | eor
  deriving DecidableEq, Repr

/-- The operation takes a draw for H (`10_state.md` R26). -/
def BinOp.draws : BinOp → Bool
  | .sub | .sbc => true
  | .add | .adc | .and | .or | .eor => false

/-- The operation on the accumulator's value, the operand and CC; `h` is the draw. -/
def BinOp.apply (op : BinOp) (a m : Byte) (h : Bool) (cc : Byte) : Byte × Byte :=
  match op with
  | .add => add8 a m false cc
  | .adc => add8 a m (getFlag .c cc) cc
  | .sub => sub8 a m false h cc
  | .sbc => sub8 a m (getFlag .c cc) h cc
  | .and => logic8 (a &&& m) cc
  | .or => logic8 (a ||| m) cc
  | .eor => logic8 (a ^^^ m) cc

/-- The single-operand operations that write a result computed from the operand (`41_arith_logic8.md` R240). -/
inductive UnaryOp where
  | neg | com | lsr | ror | asr | asl | rol | dec | inc
  deriving DecidableEq, Repr

/-- The operation takes a draw for H (`10_state.md` R26). -/
def UnaryOp.draws : UnaryOp → Bool
  | .neg | .asr | .asl => true
  | .com | .lsr | .ror | .rol | .dec | .inc => false

/-- The operation on a value and CC, row by row the table of `41_arith_logic8.md` R240; `h` is the draw. -/
def UnaryOp.apply (op : UnaryOp) (v : Byte) (h : Bool) (cc : Byte) : Byte × Byte :=
  match op with
  | .neg => sub8 0 v false h cc
  | .com => (~~~v, setFlag .c true (setFlag .v false (nz8 (~~~v) cc)))
  | .lsr => (v >>> 1, setFlag .c (v.getLsbD 0) (nz8 (v >>> 1) cc))
  | .ror =>
    let r := (v >>> 1) ||| (if getFlag .c cc then 0x80 else 0)
    (r, setFlag .c (v.getLsbD 0) (nz8 r cc))
  | .asr =>
    let r := (v >>> 1) ||| (v &&& 0x80)
    (r, setFlag .h h (setFlag .c (v.getLsbD 0) (nz8 r cc)))
  | .asl =>
    let r := v <<< 1
    (r, setFlag .h h (setFlag .c (v.getLsbD 7) (setFlag .v (v.getLsbD 7 ^^ v.getLsbD 6) (nz8 r cc))))
  | .rol =>
    let r := (v <<< 1) ||| (if getFlag .c cc then 0x01 else 0)
    (r, setFlag .c (v.getLsbD 7) (setFlag .v (v.getLsbD 7 ^^ v.getLsbD 6) (nz8 r cc)))
  | .dec => (v - 1, setFlag .v (decide (v = 0x80)) (nz8 (v - 1) cc))
  | .inc => (v + 1, setFlag .v (decide (v = 0x7F)) (nz8 (v + 1) cc))

/-- `Tst(v)` (`41_arith_logic8.md` R240). -/
def tstFlags (v : Byte) (cc : Byte) : Byte := setFlag .v false (nz8 v cc)

/-- `Clr()` (`41_arith_logic8.md` R240). -/
def clrFlags (cc : Byte) : Byte := setFlag .c false (setFlag .v false (setFlag .z true (setFlag .n false cc)))

/-- `Add16(a, m)` (`42_arith16_misc.md` R280). -/
def add16 (a m : Word) (cc : Byte) : Word × Byte :=
  let s := a.toNat + m.toNat
  let r := BitVec.ofNat 16 s
  let cc1 := setFlag .c (decide (s > 65535)) cc
  let cc2 := setFlag .v (((a ^^^ r) &&& (m ^^^ r)).getLsbD 15) cc1
  (r, nz16 r cc2)

/-- `Sub16(a, m)` (`42_arith16_misc.md` R280). -/
def sub16 (a m : Word) (cc : Byte) : Word × Byte :=
  let d : Int := (a.toNat : Int) - m.toNat
  let r := BitVec.ofInt 16 d
  let cc1 := setFlag .c (decide (d < 0)) cc
  let cc2 := setFlag .v (((a ^^^ m) &&& (a ^^^ r)).getLsbD 15) cc1
  (r, nz16 r cc2)

/-- DAA on A and CC (`42_arith16_misc.md` R290); `v` is the draw that V takes. -/
def daa8 (a : Byte) (v : Bool) (cc : Byte) : Byte × Byte :=
  let lsn := a.toNat % 16
  let msn := a.toNat / 16
  let low := if lsn > 9 ∨ getFlag .h cc = true then 0x06 else 0
  let high := if msn > 9 ∨ getFlag .c cc = true ∨ (msn > 8 ∧ lsn > 9) then 0x60 else 0
  let s := a.toNat + (low + high)
  let r := BitVec.ofNat 8 s
  (r, setFlag .v v (nz8 r (setFlag .c (getFlag .c cc || decide (s > 255)) cc)))

/-- MUL on A, B and CC (`42_arith16_misc.md` R291). -/
def mul8 (a b : Byte) (cc : Byte) : Word × Byte :=
  let p := BitVec.ofNat 16 (a.toNat * b.toNat)
  (p, setFlag .c (p.getLsbD 7) (setFlag .z (decide (p = 0)) cc))

/-- The branch conditions (`43_branch_control.md` R310). -/
inductive Cond where
  | always | never | hi | ls | cc | cs | ne | eq | vc | vs | pl | mi | ge | lt | gt | le
  deriving DecidableEq, Repr

/-- The condition's value for a CC byte (`43_branch_control.md` R310). -/
def Cond.holds (k : Cond) (cc : Byte) : Bool :=
  let c := getFlag .c cc
  let v := getFlag .v cc
  let z := getFlag .z cc
  let n := getFlag .n cc
  match k with
  | .always => true
  | .never => false
  | .hi => !c && !z
  | .ls => c || z
  | .cc => !c
  | .cs => c
  | .ne => !z
  | .eq => z
  | .vc => !v
  | .vs => v
  | .pl => !n
  | .mi => n
  | .ge => n == v
  | .lt => n != v
  | .gt => !z && (n == v)
  | .le => z || (n != v)

end Sys2Proof.Machine
end

