-- ==== Sys2Proof/Machine/Analog.lean ====
section
/-! DEFINITION. The analog beam integrator and the line-segment accumulator (`62_analog_vector.md`). -/

namespace Sys2Proof.Machine

/-- The port byte `alg.compare`: 0x00 or 0x20 (`10_state.md` R46). -/
def Alg.compareByte (a : Alg) : Byte := if a.compare then 0x20 else 0x00

/-- The multiplexer: which hold takes a copy of the X hold (`62_analog_vector.md` R503). -/
def Alg.multiplex (sel : BitVec 2) (a : Alg) : Alg :=
  match sel.toNat with
  | 0 => { a with ysh := a.xsh }
  | 1 => { a with rsh := a.xsh }
  | 2 => { a with zsh := if a.xsh.toNat > 0x80 then a.xsh.toNat - 0x80 else 0 }
  | _ => a

/-- The cached deltas (`10_state.md` R46, `62_analog_vector.md` R503). -/
def Alg.refreshDeltas (a : Alg) : Alg :=
  { a with dx := (a.xsh.toNat : Int) - a.rsh.toNat, dy := (a.rsh.toNat : Int) - a.ysh.toNat }

/-- `AlgUpdate()` (`62_analog_vector.md` R503), given the port-B output byte. -/
def Alg.update (orb : Byte) (a : Alg) : Alg :=
  let sel := orb.extractLsb' 1 2
  let a1 := { a with jsh := a.jch[sel.toNat]'(by have := sel.isLt; omega) }
  let a2 := if orb.getLsbD 0 = false then a1.multiplex sel else a1
  let a3 := { a2 with compare := decide (a2.jsh.toNat > a2.xsh.toNat) }
  a3.refreshDeltas

/-- `InBounds()` for a position (`62_analog_vector.md` R501). -/
def inBounds (x y : Int) : Bool :=
  decide (0 ≤ x ∧ x < Config.algMaxX ∧ 0 ≤ y ∧ y < Config.algMaxY)

/-- The origin-force signal (`62_analog_vector.md` R505). -/
def Via.zeroSignal (v : Via) : Bool := !v.ca2

/-- The blank/unblank signal, true = unblanked (`62_analog_vector.md` R505). -/
def Via.blankSignal (v : Via) : Bool := if v.acr.getLsbD 4 then v.cb2s else v.cb2h

/-- The ramp signal, false = integrate (`62_analog_vector.md` R505). -/
def Via.rampSignal (v : Via) : Bool := if v.acr.getLsbD 7 then v.t1pb7 else v.orb.getLsbD 7

/-- The step's delta pair (`62_analog_vector.md` R506). -/
def stepDelta (v : Via) (a : Alg) : Int × Int :=
  if v.zeroSignal then (Config.algMaxX / 2 - a.currX, Config.algMaxY / 2 - a.currY)
  else if v.rampSignal = false then (a.dx, a.dy)
  else (0, 0)

/-- `Hash` (`62_analog_vector.md` R516), with VECTOR_HASH as a parameter. -/
def segmentHash (vectorHash : Nat) (x0 y0 x1 y1 : Int) : Nat :=
  ((((x0 * 31 + y0) * 31 + x1) * 31 + y1) % (vectorHash : Int)).toNat

/-- A hash slot (`10_state.md` R50): 0 where nothing was stored. -/
def Lists.slot (l : Lists) (key : Nat) : Nat := sparseGet (fun _ => 0) l.hash key

/-- The entry at an index has these four coordinates (`62_analog_vector.md` R515, "exact match"). -/
def matchesAt (l : List Segment) (i : Nat) (x0 y0 x1 y1 : Int) : Bool :=
  match l[i]? with
  | some e => decide (e.x0 = x0 ∧ e.y0 = y0 ∧ e.x1 = x1 ∧ e.y1 = y1)
  | none => false

/-- The entry at an index takes a colour. -/
def recolor (l : List Segment) (i : Nat) (color : Nat) : List Segment :=
  l.modify i (fun e => { e with color := color })

/-- `AddLine` (`62_analog_vector.md` R515). -/
def addLine (vectorHash : Nat) (x0 y0 x1 y1 : Int) (color : Nat) (l : Lists) : Lists :=
  let key := segmentHash vectorHash x0 y0 x1 y1
  let i := l.slot key
  if matchesAt l.draw i x0 y0 x1 y1 then { l with draw := recolor l.draw i color }
  else
    let l1 := if matchesAt l.erase i x0 y0 x1 y1 then { l with erase := recolor l.erase i Config.colorRange } else l
    if l1.draw.length ≥ Config.vectorCnt then l1
    else
      { l1 with
        draw := l1.draw ++ [{ x0 := x0, y0 := y0, x1 := x1, y1 := y1, color := color }]
        hash := sparseSet (fun _ => 0) l1.hash key l1.draw.length }

/-- A candidate opened at the beam's position (`62_analog_vector.md` R510). -/
def Alg.openCandidate (a : Alg) (sdx sdy : Int) : Candidate :=
  { x0 := a.currX, y0 := a.currY, x1 := a.currX, y1 := a.currY, dx := sdx, dy := sdy, color := a.zsh }

/-- `AddLine` of a candidate. -/
def emit (vectorHash : Nat) (c : Candidate) (l : Lists) : Lists :=
  addLine vectorHash c.x0 c.y0 c.x1 c.y1 c.color l

/-- The opening, closing and re-opening of the candidate, before the integration (`62_analog_vector.md` R510). -/
def candidateStep (vectorHash : Nat) (v : Via) (sdx sdy : Int) (a : Alg) (l : Lists) : Option Candidate × Lists :=
  match a.vec with
  | none =>
    if v.blankSignal && inBounds a.currX a.currY then (some (a.openCandidate sdx sdy), l) else (none, l)
  | some c =>
    if v.blankSignal = false then (none, emit vectorHash c l)
    else if sdx ≠ c.dx ∨ sdy ≠ c.dy ∨ a.zsh ≠ c.color then
      (if inBounds a.currX a.currY then some (a.openCandidate sdx sdy) else none, emit vectorHash c l)
    else (some c, l)

/-- The candidate's end point after the integration (`62_analog_vector.md` R510, last lines). -/
def extendTo (x y : Int) (c : Candidate) : Candidate :=
  if inBounds x y then { c with x1 := x, y1 := y } else c

/-- `AlgStep()` (`62_analog_vector.md` R510). -/
def algStep (vectorHash : Nat) (d : Devices) : Devices :=
  let (sdx, sdy) := stepDelta d.via d.alg
  let (vec, lists) := candidateStep vectorHash d.via sdx sdy d.alg d.lists
  let x := d.alg.currX + sdx
  let y := d.alg.currY + sdy
  { d with alg := { d.alg with currX := x, currY := y, vec := vec.map (extendTo x y) }, lists := lists }

/-- The list swap at a frame boundary (`62_analog_vector.md` R520). -/
def Lists.swap (l : Lists) : Lists := { l with erase := l.draw, draw := [] }

end Sys2Proof.Machine
end

