-- ==== Sys2Proof/Machine/Sound.lean ====
section
/-! DEFINITION. The three-channel sound generator (`63_sound_chip.md`): the register file the CPU reaches through the
timer/IO chip, and the generators that the host's sample requests advance. -/

namespace Sys2Proof.Machine

/-- The mask of a sound register (`63_sound_chip.md` R541). -/
def psgMask (r : BitVec 4) : Byte :=
  match r.toNat with
  | 1 | 3 | 5 | 13 => 0x0F
  | 6 | 8 | 9 | 10 => 0x1F
  | _ => 0xFF

/-- A sound register as stored (`63_sound_chip.md` R543). -/
def Psg.read (p : Psg) (r : BitVec 4) : Byte := p.reg[r.toNat]'(by have := r.isLt; omega)

/-- A sound register replaced. -/
def Psg.store (p : Psg) (r : BitVec 4) (v : Byte) : Psg :=
  { p with reg := p.reg.set r.toNat v (by have := r.isLt; omega) }

/-- `EnvRestart()` (`63_sound_chip.md` R556). -/
def Psg.envRestart (p : Psg) : Psg :=
  let s := p.read 13
  { p with
    eatt := if s.getLsbD 2 then 31 else 0
    ehold := if s.getLsbD 3 then s.getLsbD 0 else true
    ealt := if s.getLsbD 3 then s.getLsbD 1 else s.getLsbD 2
    ecnt := 0
    epos := 31
    eholding := false }

/-- `PsgWrite(r, v)` (`63_sound_chip.md` R542). -/
def Psg.write (p : Psg) (r : BitVec 4) (v : Byte) : Psg :=
  let p1 := p.store r (v &&& psgMask r)
  if r = 13 then p1.envRestart else p1

/-- `TP[c]`, the 12-bit tone period (`63_sound_chip.md` R552). -/
def Psg.tonePeriod (p : Psg) (c : Fin 3) : Nat :=
  (p.reg[2 * c.val + 1] &&& 0x0F).toNat * 256 + (p.reg[2 * c.val]).toNat

/-- `NP`, the 5-bit noise period (`63_sound_chip.md` R552). -/
def Psg.noisePeriod (p : Psg) : Nat := (p.reg[6] &&& 0x1F).toNat

/-- `EP`, the 16-bit envelope period (`63_sound_chip.md` R552). -/
def Psg.envPeriod (p : Psg) : Nat := (p.reg[12]).toNat * 256 + (p.reg[11]).toNat

/-- One tone generator in a tick (`63_sound_chip.md` R553). -/
def Psg.tickTone (p : Psg) (c : Fin 3) : Psg :=
  let n := p.tcnt[c] + 1
  if n ≥ max (p.tonePeriod c) 1 then { p with tcnt := p.tcnt.set c 0, tout := p.tout.set c (!p.tout[c]) }
  else { p with tcnt := p.tcnt.set c n }

/-- `NoiseShift()` (`63_sound_chip.md` R554). The exclusive-or reaches bit 17, which the shift brings to bit 16, so it
is computed on 18 bits. -/
def Psg.noiseShift (p : Psg) : Psg :=
  let r := p.rng.setWidth 18
  let r1 := if p.rng.getLsbD 0 then r ^^^ 0x24000#18 else r
  { p with nout := if (p.rng + 1).getLsbD 1 then !p.nout else p.nout, rng := (r1 >>> 1).setWidth 17 }

/-- The noise generator in a tick (`63_sound_chip.md` R554). -/
def Psg.tickNoise (p : Psg) : Psg :=
  let n := p.ncnt + 1
  if n ≥ 2 * max p.noisePeriod 1 then Psg.noiseShift { p with ncnt := 0 } else { p with ncnt := n }

/-- One step of the envelope position (`63_sound_chip.md` R555). -/
def Psg.envStep (p : Psg) : Psg :=
  if p.epos ≠ 0 then { p with epos := p.epos - 1 }
  else
    let att := if p.ealt then p.eatt ^^^ 31 else p.eatt
    if p.ehold then { p with eatt := att, eholding := true, epos := 0 } else { p with eatt := att, epos := 31 }

/-- The envelope generator in a tick (`63_sound_chip.md` R555). -/
def Psg.tickEnv (p : Psg) : Psg :=
  if p.eholding then p
  else
    let n := p.ecnt + 1
    if n ≥ max p.envPeriod 1 then Psg.envStep { p with ecnt := 0 } else { p with ecnt := n }

/-- `PsgTick()` (`63_sound_chip.md` R553-R555). -/
def Psg.tick (p : Psg) : Psg := (((p.tickTone 0).tickTone 1).tickTone 2).tickNoise.tickEnv

/-- `VOL_TABLE` (`63_sound_chip.md` R557, log 11): entry 0 is 0 and each entry adds a free increment, so that every
non-decreasing table from 0, and no other, is one of its values. -/
def volTable (i : Nat) : Nat := ((List.range i).map Config.volIncrement).sum

/-- `gate[c]` (`63_sound_chip.md` R557). -/
def Psg.gate (p : Psg) (c : Fin 3) : Bool :=
  (p.tout[c] || (p.reg[7]).getLsbD c.val) && (p.nout || (p.reg[7]).getLsbD (c.val + 3))

/-- `idx[c]`, the volume-table index (`63_sound_chip.md` R557). -/
def Psg.volIndex (p : Psg) (c : Fin 3) : Nat :=
  let r := p.reg[8 + c.val]
  if r.getLsbD 4 then (p.epos ^^^ p.eatt).toNat
  else if (r &&& 0x0F) = 0 then 0 else 2 * (r &&& 0x0F).toNat + 1

/-- `level[c]` (`63_sound_chip.md` R557). -/
def Psg.level (p : Psg) (c : Fin 3) : Nat := if p.gate c then volTable (p.volIndex c) else 0

/-- `PsgSample()` (`63_sound_chip.md` R557). -/
def Psg.sample (p : Psg) : Nat := p.level 0 + p.level 1 + p.level 2

/-- `n` ticks. -/
def Psg.ticks : Nat → Psg → Psg
  | 0, p => p
  | n + 1, p => Psg.ticks n p.tick

/-- The ticks of one sample: `TICKS_PER_SAMPLE` = clock / (PSG_DIVIDER * SAMPLE_RATE) (`63_sound_chip.md` R558). The
fraction is carried exactly in `frac` (log 12). -/
def Psg.oneSample (p : Psg) : Nat × Psg :=
  let den := Config.psgDivider * Config.sampleRate
  let total := p.frac + Config.psgClock
  let p1 := Psg.ticks (total / den) { p with frac := total % den }
  (p1.sample, p1)

/-- `PsgGenerate(n)` (`63_sound_chip.md` R558): the samples in order, and the chip after them. -/
def Psg.generate : Nat → Psg → List Nat × Psg
  | 0, p => ([], p)
  | n + 1, p =>
    let (v, p1) := p.oneSample
    let (vs, p2) := Psg.generate n p1
    (v :: vs, p2)

end Sys2Proof.Machine
end

