-- ==== Sys2Proof/Machine/Via.lean ====
section
/-! DEFINITION. The timer/IO chip (`61_timer_io_chip.md`): its sixteen registers, the sound bus, and the two half-steps
of a device cycle. -/

namespace Sys2Proof.Machine

/-- The sixteen registers (`61_timer_io_chip.md` R441). -/
inductive ViaReg where
  | portB | portA | dirB | dirA | t1CounterLow | t1CounterHigh | t1LatchLow | t1LatchHigh
  | t2CounterLow | t2CounterHigh | shift | acr | pcr | ifr | ier | portANoHandshake
  deriving DecidableEq, Repr

/-- Register select (`61_timer_io_chip.md` R441); `swapped` exchanges the rows of the flag and the enable register. -/
def viaReg (swapped : Bool) (r : BitVec 4) : ViaReg :=
  match r.toNat with
  | 0 => .portB
  | 1 => .portA
  | 2 => .dirB
  | 3 => .dirA
  | 4 => .t1CounterLow
  | 5 => .t1CounterHigh
  | 6 => .t1LatchLow
  | 7 => .t1LatchHigh
  | 8 => .t2CounterLow
  | 9 => .t2CounterHigh
  | 10 => .shift
  | 11 => .acr
  | 12 => .pcr
  | 13 => if swapped then .ier else .ifr
  | 14 => if swapped then .ifr else .ier
  | _ => .portANoHandshake

/-- `IntUpdate()` (`61_timer_io_chip.md` R442). -/
def Via.intUpdate (v : Via) : Via :=
  { v with ifr := if (v.ifr &&& v.ier &&& 0x7F) ≠ 0 then v.ifr ||| 0x80 else v.ifr &&& 0x7F }

/-- A flag of `ifr` raised, and `IntUpdate()`. -/
def Via.raiseFlag (mask : Byte) (v : Via) : Via := Via.intUpdate { v with ifr := v.ifr ||| mask }

/-- Flags of `ifr` cleared, and `IntUpdate()`. -/
def Via.clearFlags (mask : Byte) (v : Via) : Via := Via.intUpdate { v with ifr := v.ifr &&& ~~~mask }

/-- The byte `t1pb7`: 0x00 or 0x80 (`10_state.md` R36). -/
def Via.t1pb7Byte (v : Via) : Byte := if v.t1pb7 then 0x80 else 0x00

/-- CA2 is in handshake or pulse output mode, `pcr[3:2] = 10` (`61_timer_io_chip.md` R446, R453). -/
def Via.ca2Handshakes (v : Via) : Bool := v.pcr.extractLsb' 2 2 == 2

/-- CB2 is in handshake or pulse output mode, `pcr[7:6] = 10` (`61_timer_io_chip.md` R446, R462). -/
def Via.cb2Handshakes (v : Via) : Bool := v.pcr.extractLsb' 6 2 == 2

/-- The CA2 handshake of a port-A access (`61_timer_io_chip.md` R453, R463). -/
def Via.pulseCa2 (v : Via) : Via := if v.ca2Handshakes then { v with ca2 := false } else v

/-- The CB2 handshake of a port-B write (`61_timer_io_chip.md` R462). -/
def Via.pulseCb2 (v : Via) : Via := if v.cb2Handshakes then { v with cb2h := false } else v

/-! ### Reads -/

/-- Port B as read (`61_timer_io_chip.md` R452). -/
def Devices.portBByte (d : Devices) : Byte :=
  if d.via.acr.getLsbD 7 then (d.via.orb &&& 0x5F) ||| d.via.t1pb7Byte ||| d.alg.compareByte
  else (d.via.orb &&& 0xDF) ||| d.alg.compareByte

/-- `PortARead()` (`61_timer_io_chip.md` R453): the sound chip drives the port in the send state. -/
def Devices.portAByte (d : Devices) : Byte :=
  if d.via.orb.extractLsb' 3 2 = 1 then d.psg.read d.psg.select else d.via.ora

/-- The side effect of reading the timer-1 counter low (`61_timer_io_chip.md` R456). -/
def Via.readT1Low (v : Via) : Via := Via.clearFlags 0x40 { v with t1on := false, t1int := false, t1pb7 := true }

/-- The side effect of reading the timer-2 counter low (`61_timer_io_chip.md` R457). -/
def Via.readT2Low (v : Via) : Via := Via.clearFlags 0x20 { v with t2on := false, t2int := false }

/-- The side effect of reading or writing the shift register (`61_timer_io_chip.md` R458, R466). -/
def Via.restartShift (v : Via) : Via := Via.clearFlags 0x04 { v with srb := 0, srclk := true }

/-- `ViaRead(r)` (`61_timer_io_chip.md` R450, R441). -/
def viaRead (r : ViaReg) (d : Devices) : Byte × Devices :=
  match r with
  | .portB => (d.portBByte, d)
  | .portA => (d.portAByte, { d with via := d.via.pulseCa2 })
  | .dirB => (d.via.ddrb, d)
  | .dirA => (d.via.ddra, d)
  | .t1CounterLow => (loByte d.via.t1c, { d with via := d.via.readT1Low })
  | .t1CounterHigh => (hiByte d.via.t1c, d)
  | .t1LatchLow => (d.via.t1ll, d)
  | .t1LatchHigh => (d.via.t1lh, d)
  | .t2CounterLow => (loByte d.via.t2c, { d with via := d.via.readT2Low })
  | .t2CounterHigh => (hiByte d.via.t2c, d)
  | .shift => (d.via.sr, { d with via := d.via.restartShift })
  | .acr => (d.via.acr, d)
  | .pcr => (d.via.pcr, d)
  | .ifr => (d.via.ifr, d)
  | .ier => (d.via.ier ||| 0x80, d)
  | .portANoHandshake => (d.portAByte, d)

/-! ### Writes -/

/-- `SndUpdate()`, the sound bus (`61_timer_io_chip.md` R460). -/
def Devices.sndUpdate (d : Devices) : Devices :=
  match (d.via.orb.extractLsb' 3 2).toNat with
  | 2 => if d.psg.select ≠ 14 then { d with psg := d.psg.write d.psg.select d.via.ora } else d
  | 3 =>
    if d.via.ora.extractLsb' 4 4 = 0 then { d with psg := { d.psg with select := d.via.ora.extractLsb' 0 4 } } else d
  | _ => d

/-- Write of index 0 (`61_timer_io_chip.md` R462). -/
def Devices.writePortB (v : Byte) (d : Devices) : Devices :=
  let d1 := Devices.sndUpdate { d with via := { d.via with orb := v } }
  { d1 with alg := d1.alg.update d1.via.orb, via := d1.via.pulseCb2 }

/-- Write of index 1 or 15, after the handshake (`61_timer_io_chip.md` R463). -/
def Devices.writePortA (v : Byte) (d : Devices) : Devices :=
  let d1 := Devices.sndUpdate { d with via := { d.via with ora := v } }
  { d1 with alg := Alg.update d1.via.orb { d1.alg with xsh := v ^^^ 0x80 } }

/-- Write of index 5: start timer 1 (`61_timer_io_chip.md` R464). -/
def Via.startT1 (b : Byte) (v : Via) : Via :=
  Via.clearFlags 0x40 { v with t1lh := b, t1c := wordOf b v.t1ll, t1on := true, t1int := true, t1pb7 := false }

/-- Write of index 9: start timer 2 (`61_timer_io_chip.md` R465). -/
def Via.startT2 (b : Byte) (v : Via) : Via :=
  Via.clearFlags 0x20 { v with t2c := wordOf b v.t2ll, t2on := true, t2int := true }

/-- Write of index 12: both lines set afresh (`61_timer_io_chip.md` R467). -/
def Via.writePcr (b : Byte) (v : Via) : Via :=
  { v with pcr := b, ca2 := b.extractLsb' 1 3 != 6, cb2h := b.extractLsb' 5 3 != 6 }

/-- Write of index 13 (`61_timer_io_chip.md` R468): a written bit 7 is ignored. -/
def Via.writeIfr (b : Byte) (v : Via) : Via := v.clearFlags (b &&& 0x7F)

/-- Write of index 14 (`61_timer_io_chip.md` R469). -/
def Via.writeIer (b : Byte) (v : Via) : Via :=
  Via.intUpdate { v with ier := if b.getLsbD 7 then v.ier ||| (b &&& 0x7F) else v.ier &&& ~~~(b &&& 0x7F) }

/-- `ViaWrite(r, v)` (`61_timer_io_chip.md` R451, R441). -/
def viaWrite (r : ViaReg) (b : Byte) (d : Devices) : Devices :=
  match r with
  | .portB => d.writePortB b
  | .portA => Devices.writePortA b { d with via := d.via.pulseCa2 }
  | .dirB => { d with via := { d.via with ddrb := b } }
  | .dirA => { d with via := { d.via with ddra := b } }
  | .t1CounterLow => { d with via := { d.via with t1ll := b } }
  | .t1CounterHigh => { d with via := d.via.startT1 b }
  | .t1LatchLow => { d with via := { d.via with t1ll := b } }
  | .t1LatchHigh => { d with via := { d.via with t1lh := b } }
  | .t2CounterLow => { d with via := { d.via with t2ll := b } }
  | .t2CounterHigh => { d with via := d.via.startT2 b }
  | .shift => { d with via := Via.restartShift { d.via with sr := b } }
  | .acr => { d with via := { d.via with acr := b } }
  | .pcr => { d with via := d.via.writePcr b }
  | .ifr => { d with via := d.via.writeIfr b }
  | .ier => { d with via := d.via.writeIer b }
  | .portANoHandshake => d.writePortA b

/-! ### The half-steps of a device cycle -/

/-- The rollover of timer 1 (`61_timer_io_chip.md` R471). -/
def Via.rolloverT1 (v : Via) : Via :=
  if v.acr.getLsbD 6 then
    let v1 := v.raiseFlag 0x40
    { v1 with t1pb7 := !v1.t1pb7, t1c := wordOf v1.t1lh v1.t1ll }
  else if v.t1int then
    let v1 := v.raiseFlag 0x40
    { v1 with t1pb7 := true, t1int := false }
  else v

/-- Timer 1 in half-step 1 (`61_timer_io_chip.md` R471). -/
def Via.tickT1 (v : Via) : Via :=
  if v.t1on then
    let v1 := { v with t1c := v.t1c - 1 }
    if v1.t1c = 0xFFFF then v1.rolloverT1 else v1
  else v

/-- Timer 2 in half-step 1 (`61_timer_io_chip.md` R472). -/
def Via.tickT2 (v : Via) : Via :=
  if v.t2on && !v.acr.getLsbD 5 then
    let v1 := { v with t2c := v.t2c - 1 }
    if v1.t2c = 0xFFFF ∧ v1.t2int = true then { v1.raiseFlag 0x20 with t2int := false } else v1
  else v

/-- The shift clock in half-step 1 (`61_timer_io_chip.md` R473): whether this cycle has a shift event. -/
def Via.shiftClock (v : Via) : Bool × Via :=
  let v1 := { v with src := v.src - 1 }
  if v1.src = 0xFF then
    let v2 := { v1 with src := v1.t2ll }
    if v2.srclk then (true, { v2 with srclk := false }) else (false, { v2 with srclk := true })
  else (false, v1)

/-- `RotateOut()` (`61_timer_io_chip.md` R474). -/
def Via.rotateOut (v : Via) : Via := { v with cb2s := v.sr.getLsbD 7, sr := v.sr.rotateLeft 1 }

/-- A 0 shifted in (`61_timer_io_chip.md` R474). -/
def Via.shiftIn (v : Via) : Via := { v with sr := v.sr <<< 1 }

/-- The bit count after a counted shift (`61_timer_io_chip.md` R474, R475). -/
def Via.countShift (v : Via) : Via :=
  let v1 := { v with srb := v.srb + 1 }
  if v1.srb = 8 then v1.raiseFlag 0x04 else v1

/-- The shifter in half-step 1 (`61_timer_io_chip.md` R474, R475). -/
def Via.shifter (event : Bool) (v : Via) : Via :=
  if v.srb < 8 then
    match (v.acr.extractLsb' 2 3).toNat with
    | 1 => if event then v.shiftIn.countShift else v
    | 2 => v.shiftIn.countShift
    | 4 => if event then v.rotateOut else v
    | 5 => if event then v.rotateOut.countShift else v
    | 6 => v.rotateOut.countShift
    | _ => v
  else v

/-- `ViaHalfStep1()` (`61_timer_io_chip.md` R470). -/
def Via.halfStep1 (v : Via) : Via :=
  let (event, v1) := v.tickT1.tickT2.shiftClock
  v1.shifter event

/-- `ViaHalfStep2()` (`61_timer_io_chip.md` R476): pulse outputs return high. -/
def Via.halfStep2 (v : Via) : Via :=
  { v with
    ca2 := if v.pcr.extractLsb' 1 3 = 5 then true else v.ca2
    cb2h := if v.pcr.extractLsb' 5 3 = 5 then true else v.cb2h }

/-- One device cycle: half-step 1, the analog step, half-step 2 (`70_reset_and_hazards.md` R590). -/
def deviceCycle (vectorHash : Nat) (d : Devices) : Devices :=
  let d1 := algStep vectorHash { d with via := d.via.halfStep1 }
  { d1 with via := d1.via.halfStep2 }

/-- `n` device cycles, back to back (`70_reset_and_hazards.md` R590). -/
def deviceCycles (vectorHash : Nat) : Nat → Devices → Devices
  | 0, d => d
  | n + 1, d => deviceCycles vectorHash n (deviceCycle vectorHash d)

end Sys2Proof.Machine
end

