-- ==== Sys2Proof/Machine/Ops.lean ====
section
/-! DEFINITION. The named operations over registers and the bus: updates of the state, bus reads and writes
(`20_memory.md`), fetches (`00_scope.md` R12), stacks (`00_scope.md` R13), draws (R14), taking an interrupt and returning
from one (`60_exceptions.md`, `44_system.md`). -/

namespace Sys2Proof.Machine

/-! ### Updates of one part of the state -/

def State.setA (v : Byte) (s : State) : State := { s with cpu := { s.cpu with a := v } }
def State.setB (v : Byte) (s : State) : State := { s with cpu := { s.cpu with b := v } }
def State.setDp (v : Byte) (s : State) : State := { s with cpu := { s.cpu with dp := v } }
def State.setCc (v : Byte) (s : State) : State := { s with cpu := { s.cpu with cc := v } }
def State.setX (v : Word) (s : State) : State := { s with cpu := { s.cpu with x := v } }
def State.setY (v : Word) (s : State) : State := { s with cpu := { s.cpu with y := v } }
def State.setU (v : Word) (s : State) : State := { s with cpu := { s.cpu with u := v } }
def State.setS (v : Word) (s : State) : State := { s with cpu := { s.cpu with s := v } }
def State.setPc (v : Word) (s : State) : State := { s with cpu := { s.cpu with pc := v } }
def State.setWait (v : Wait) (s : State) : State := { s with cpu := { s.cpu with wait := v } }
def State.setMem (m : Memory) (s : State) : State := { s with mem := m }
def State.setDev (d : Devices) (s : State) : State := { s with dev := d }

/-- Cycles added to the Step's report (`00_scope.md` R16). -/
def State.addCycles (n : Nat) (s : State) : State := { s with report := s.report + n }

/-- The pair D = A:B (`10_state.md` R21). -/
def Cpu.d (c : Cpu) : Word := wordOf c.a c.b

/-- A write of D writes A and B (`10_state.md` R21). -/
def State.setD (v : Word) (s : State) : State := (s.setA (hiByte v)).setB (loByte v)

/-- The draw that comes next (`00_scope.md` R14, log 3). -/
def State.nextDraw (s : State) : Bool := Config.drawBit s.draws

/-- A draw taken, where the operation takes one. -/
def State.takeDraw (taken : Bool) (s : State) : State := { s with draws := if taken then s.draws + 1 else s.draws }

/-! ### Registers by name -/

/-- The accumulators of the 8-bit instructions. -/
inductive Acc where
  | a | b
  deriving DecidableEq, Repr

def State.getAcc (r : Acc) (s : State) : Byte :=
  match r with
  | .a => s.cpu.a
  | .b => s.cpu.b

def State.setAcc (r : Acc) (v : Byte) (s : State) : State :=
  match r with
  | .a => s.setA v
  | .b => s.setB v

/-- The 16-bit registers of the load, store and compare instructions. -/
inductive Reg16 where
  | d | x | y | u | s
  deriving DecidableEq, Repr

def State.getReg16 (r : Reg16) (s : State) : Word :=
  match r with
  | .d => s.cpu.d
  | .x => s.cpu.x
  | .y => s.cpu.y
  | .u => s.cpu.u
  | .s => s.cpu.s

def State.setReg16 (r : Reg16) (v : Word) (s : State) : State :=
  match r with
  | .d => s.setD v
  | .x => s.setX v
  | .y => s.setY v
  | .u => s.setU v
  | .s => s.setS v

/-- `RegRead16(code)` (`40_load_store_transfer.md` R200). -/
def State.regRead (code : BitVec 4) (s : State) : Word :=
  match code.toNat with
  | 0 => s.cpu.d
  | 1 => s.cpu.x
  | 2 => s.cpu.y
  | 3 => s.cpu.u
  | 4 => s.cpu.s
  | 5 => s.cpu.pc
  | 8 => wordOf 0xFF s.cpu.a
  | 9 => wordOf 0xFF s.cpu.b
  | 10 => wordOf 0xFF s.cpu.cc
  | 11 => wordOf 0xFF s.cpu.dp
  | _ => 0xFFFF

/-- `RegWrite(code, v)` (`40_load_store_transfer.md` R200). -/
def State.regWrite (code : BitVec 4) (v : Word) (s : State) : State :=
  match code.toNat with
  | 0 => s.setD v
  | 1 => s.setX v
  | 2 => s.setY v
  | 3 => s.setU v
  | 4 => s.setS v
  | 5 => s.setPc v
  | 8 => s.setA (loByte v)
  | 9 => s.setB (loByte v)
  | 10 => s.setCc (loByte v)
  | 11 => s.setDp (loByte v)
  | _ => s

/-! ### The bus -/

/-- What an address selects (`20_memory.md` R90, R91); a cell is an index of the memory list (log 22). -/
inductive Target where
  | rom (cell : Nat)
  | cart (cell : Nat)
  | ram (cell : Nat)
  | io (r : BitVec 4)
  /-- both: a read is RAM only, a write reaches both -/
  | ramIo (cell : Nat) (r : BitVec 4)
  | unmapped
  deriving DecidableEq, Repr

/-- Address decoding (`20_memory.md` R90, R91). -/
def target (a : Word) : Target :=
  if a.extractLsb' 13 3 = 0b111 then .rom a.toNat
  else if a.extractLsb' 13 3 = 0b110 then
    let cell := Config.ramBase + (a.extractLsb' 0 10).toNat
    if a.getLsbD 11 then (if a.getLsbD 12 then .ramIo cell (a.extractLsb' 0 4) else .ram cell)
    else if a.getLsbD 12 then .io (a.extractLsb' 0 4)
    else .unmapped
  else if a.getLsbD 15 = false then .cart a.toNat
  else .unmapped

/-- `MemRead(addr, 1)` (`20_memory.md` R92). -/
def readByte (a : Word) (s : State) : Byte × State :=
  match target a with
  | .rom k => (s.mem.get k, s)
  | .cart k => (s.mem.get k, s)
  | .ram k => (s.mem.get k, s)
  | .ramIo k _ => (s.mem.get k, s)
  | .io r =>
    let (v, d) := viaRead (viaReg s.params.viaFlagsSwapped r) s.dev
    (v, s.setDev d)
  | .unmapped => (s.params.openBus, s)

/-- `MemWrite(addr, 1, v)` (`20_memory.md` R93). -/
def writeByte (a : Word) (v : Byte) (s : State) : State :=
  match target a with
  | .ram k => s.setMem (s.mem.set k v)
  | .io r => s.setDev (viaWrite (viaReg s.params.viaFlagsSwapped r) v s.dev)
  | .ramIo k r => (s.setMem (s.mem.set k v)).setDev (viaWrite (viaReg s.params.viaFlagsSwapped r) v s.dev)
  | .rom _ | .cart _ | .unmapped => s

/-- `MemRead(addr, 2)` (`00_scope.md` R11). -/
def readWord (a : Word) (s : State) : Word × State :=
  let (h, s1) := readByte a s
  let (l, s2) := readByte (a + 1) s1
  (wordOf h l, s2)

/-- `MemWrite(addr, 2, v)` (`00_scope.md` R11). -/
def writeWord (a : Word) (v : Word) (s : State) : State :=
  writeByte (a + 1) (loByte v) (writeByte a (hiByte v) s)

/-- The byte a plain memory address holds, without a bus read: none in the IO window, whose reads have side effects
(`20_memory.md` R86). -/
def State.peek (a : Word) (s : State) : Option Byte :=
  match target a with
  | .rom k | .cart k | .ram k | .ramIo k _ => some (s.mem.get k)
  | .unmapped => some s.params.openBus
  | .io _ => none

/-- `Fetch8()` (`00_scope.md` R12). -/
def fetch8 (s : State) : Byte × State :=
  let (v, s1) := readByte s.cpu.pc s
  (v, s1.setPc (s1.cpu.pc + 1))

/-! ### Stacks -/

/-- The stack pointers (`00_scope.md` R13). -/
inductive StackPtr where
  | hw | user
  deriving DecidableEq, Repr

def State.getSp (p : StackPtr) (s : State) : Word :=
  match p with
  | .hw => s.cpu.s
  | .user => s.cpu.u

def State.setSp (p : StackPtr) (v : Word) (s : State) : State :=
  match p with
  | .hw => s.setS v
  | .user => s.setU v

/-- The other stack pointer (`40_load_store_transfer.md` R205). -/
def StackPtr.other : StackPtr → StackPtr
  | .hw => .user
  | .user => .hw

/-- `Push8(sp, v)` (`00_scope.md` R13). -/
def push8 (p : StackPtr) (v : Byte) (s : State) : State :=
  let s1 := s.setSp p (s.getSp p - 1)
  writeByte (s1.getSp p) v s1

/-- `Push16(sp, v)` (`00_scope.md` R13). -/
def push16 (p : StackPtr) (v : Word) (s : State) : State := push8 p (hiByte v) (push8 p (loByte v) s)

/-- `Pull8(sp)` (`00_scope.md` R13). -/
def pull8 (p : StackPtr) (s : State) : Byte × State :=
  let (v, s1) := readByte (s.getSp p) s
  (v, s1.setSp p (s1.getSp p + 1))

/-- `Pull16(sp)` (`00_scope.md` R13). -/
def pull16 (p : StackPtr) (s : State) : Word × State :=
  let (h, s1) := pull8 p s
  let (l, s2) := pull8 p s1
  (wordOf h l, s2)

/-- A step of a list, made where its mask bit is set. -/
def whenBit (mask : Byte) (k : Nat) (f : State → State) (s : State) : State := if mask.getLsbD k then f s else s

/-- `PushList(sp, mask)` (`40_load_store_transfer.md` R205), bit 7 down to bit 0. -/
def pushList (p : StackPtr) (mask : Byte) (s : State) : State :=
  let s7 := whenBit mask 7 (fun s => push16 p s.cpu.pc s) s
  let s6 := whenBit mask 6 (fun s => push16 p (s.getSp p.other) s) s7
  let s5 := whenBit mask 5 (fun s => push16 p s.cpu.y s) s6
  let s4 := whenBit mask 4 (fun s => push16 p s.cpu.x s) s5
  let s3 := whenBit mask 3 (fun s => push8 p s.cpu.dp s) s4
  let s2 := whenBit mask 2 (fun s => push8 p s.cpu.b s) s3
  let s1 := whenBit mask 1 (fun s => push8 p s.cpu.a s) s2
  whenBit mask 0 (fun s => push8 p s.cpu.cc s) s1

/-- A pulled byte given to a register. -/
def pullInto8 (p : StackPtr) (f : Byte → State → State) (s : State) : State :=
  let (v, s1) := pull8 p s
  f v s1

/-- A pulled word given to a register. -/
def pullInto16 (p : StackPtr) (f : Word → State → State) (s : State) : State :=
  let (v, s1) := pull16 p s
  f v s1

/-- `PullList(sp, mask)` (`40_load_store_transfer.md` R205), bit 0 up to bit 7. -/
def pullList (p : StackPtr) (mask : Byte) (s : State) : State :=
  let s0 := whenBit mask 0 (pullInto8 p State.setCc) s
  let s1 := whenBit mask 1 (pullInto8 p State.setA) s0
  let s2 := whenBit mask 2 (pullInto8 p State.setB) s1
  let s3 := whenBit mask 3 (pullInto8 p State.setDp) s2
  let s4 := whenBit mask 4 (pullInto16 p State.setX) s3
  let s5 := whenBit mask 5 (pullInto16 p State.setY) s4
  let s6 := whenBit mask 6 (pullInto16 p (State.setSp p.other)) s5
  whenBit mask 7 (pullInto16 p State.setPc) s6

/-- The bytes a list moves, the `n` of `40_load_store_transfer.md` R205. -/
def listBytes (mask : Byte) : Nat :=
  let n (k w : Nat) : Nat := if mask.getLsbD k then w else 0
  n 0 1 + n 1 1 + n 2 1 + n 3 1 + n 4 2 + n 5 2 + n 6 2 + n 7 2

/-! ### Taking an interrupt and returning from one -/

/-- What diverts control to a vector (`60_exceptions.md` R400). -/
inductive Trap where
  | irq | firq | swi | swi2 | swi3
  deriving DecidableEq, Repr

/-- The vector addresses (`20_memory.md` R96). -/
def Trap.vector : Trap → Word
  | .swi => 0xFFFA
  | .irq => 0xFFF8
  | .firq => 0xFFF6
  | .swi2 => 0xFFF4
  | .swi3 => 0xFFF2

/-- One flag of CC written. -/
def State.writeFlag (fl : Flag) (b : Bool) (s : State) : State := s.setCc (setFlag fl b s.cpu.cc)

/-- The entire frame: E set, then `PushAll()` (`44_system.md` R370). -/
def stackEntire (s : State) : State := pushList .hw 0xFF (s.writeFlag .e true)

/-- The short frame: E cleared, then PC and CC pushed (`60_exceptions.md` R411). -/
def stackShort (s : State) : State := pushList .hw 0x81 (s.writeFlag .e false)

/-- The stacking of an entry, with its cycles: nothing from CWAI, which has stacked already (`60_exceptions.md` R410,
R411; `44_system.md` R371-R373, whose cycles the instruction reports). -/
def Trap.stack (t : Trap) (s : State) : State :=
  match t with
  | .irq => if s.cpu.wait = .cwai then s else (stackEntire s).addCycles 12
  | .firq => if s.cpu.wait = .cwai then s else (stackShort s).addCycles 3
  | .swi | .swi2 | .swi3 => stackEntire s

/-- The masks an entry sets (`60_exceptions.md` R404). -/
def Trap.mask (t : Trap) (s : State) : State :=
  match t with
  | .irq => s.writeFlag .i true
  | .firq | .swi => (s.writeFlag .i true).writeFlag .f true
  | .swi2 | .swi3 => s

/-- Taking an interrupt, one operation for the five kinds (`60_exceptions.md` R410, R411; `44_system.md` R371-R373):
stack, mask, jump through the vector; the entry of a line also ends a wait and reports 7 cycles. -/
def takeTrap (t : Trap) (s : State) : State :=
  let s1 := t.mask (t.stack s)
  let (v, s2) := readWord t.vector s1
  let s3 := s2.setPc v
  match t with
  | .irq | .firq => (s3.setWait .normal).addCycles 7
  | .swi | .swi2 | .swi3 => s3

/-- Return from an interrupt, with its cycles (`44_system.md` R374): E of the CC just pulled decides. -/
def returnFromInterrupt (s : State) : State :=
  let s1 := pullInto8 .hw State.setCc s
  if getFlag .e s1.cpu.cc then (pullList .hw 0xFE s1).addCycles 15
  else (pullInto16 .hw State.setPc s1).addCycles 6

end Sys2Proof.Machine
end

