-- ==== Sys2Proof/Machine/Operands.lean ====
section
/-! DEFINITION. Operand access, every form the spec gives (`40_load_store_transfer.md` R160, `30_encoding.md`
R125-R136). The instruction's own bytes have been fetched: PC is the address of the next instruction. -/

namespace Sys2Proof.Machine

/-- The base register of an indexed mode (`30_encoding.md` R130). -/
def State.getIndex (r : IReg) (s : State) : Word :=
  match r with
  | .x => s.cpu.x
  | .y => s.cpu.y
  | .u => s.cpu.u
  | .s => s.cpu.s

def State.setIndex (r : IReg) (v : Word) (s : State) : State :=
  match r with
  | .x => s.setX v
  | .y => s.setY v
  | .u => s.setU v
  | .s => s.setS v

/-- The address a mode computes before any indirection, and the state with the index register updated
(`30_encoding.md` R131-R135). -/
def directIndexed (m : IdxMode) (s : State) : Word × State :=
  match m with
  | .off5 r n => (s.getIndex r + sext5 n, s)
  | .postInc1 r => (s.getIndex r, s.setIndex r (s.getIndex r + 1))
  | .postInc2 r _ => (s.getIndex r, s.setIndex r (s.getIndex r + 2))
  | .preDec1 r => (s.getIndex r - 1, s.setIndex r (s.getIndex r - 1))
  | .preDec2 r _ => (s.getIndex r - 2, s.setIndex r (s.getIndex r - 2))
  | .zero r _ => (s.getIndex r, s)
  | .accB r _ => (s.getIndex r + sext8 s.cpu.b, s)
  | .accA r _ => (s.getIndex r + sext8 s.cpu.a, s)
  | .off8 r n _ => (s.getIndex r + sext8 n, s)
  | .off16 r n _ => (s.getIndex r + n, s)
  | .accD r _ => (s.getIndex r + s.cpu.d, s)
  | .pcr8 n _ => (s.cpu.pc + sext8 n, s)
  | .pcr16 n _ => (s.cpu.pc + n, s)
  | .extInd p => (p, s)

/-- The mode reads a pointer (`30_encoding.md` R135). -/
def isIndirect : IdxMode → Bool
  | .off5 _ _ | .postInc1 _ | .preDec1 _ => false
  | .postInc2 _ ind | .preDec2 _ ind | .zero _ ind | .accB _ ind | .accA _ ind | .accD _ ind => ind
  | .off8 _ _ ind | .off16 _ _ ind | .pcr8 _ ind | .pcr16 _ ind => ind
  | .extInd _ => true

/-- `xcyc`, the cycles the postbyte adds (`30_encoding.md` R136). -/
def indexedCycles : IdxMode → Nat
  | .off5 _ _ => 1
  | .postInc1 _ => 2
  | .postInc2 _ ind => if ind then 6 else 3
  | .preDec1 _ => 2
  | .preDec2 _ ind => if ind then 6 else 3
  | .zero _ ind => if ind then 3 else 0
  | .accB _ ind => if ind then 4 else 1
  | .accA _ ind => if ind then 4 else 1
  | .off8 _ _ ind => if ind then 4 else 1
  | .off16 _ _ ind => if ind then 7 else 4
  | .accD _ ind => if ind then 7 else 4
  | .pcr8 _ ind => if ind then 4 else 1
  | .pcr16 _ ind => if ind then 8 else 5
  | .extInd _ => 5

/-- The effective address of an indexed operand, with its side effects and its cycles (`30_encoding.md` R131-R136). -/
def indexedEa (m : IdxMode) (s : State) : Word × State :=
  let (a, s1) := directIndexed m (s.addCycles (indexedCycles m))
  if isIndirect m then readWord a s1 else (a, s1)

/-- `EA(fmt)` (`40_load_store_transfer.md` R160). -/
def effectiveAddress (m : MemOp) (s : State) : Word × State :=
  match m with
  | .dir a => (wordOf s.cpu.dp a, s)
  | .ext a => (a, s)
  | .idx mode => indexedEa mode s

/-- `Operand8(fmt)` (`40_load_store_transfer.md` R160). -/
def operand8 (o : Opnd8) (s : State) : Byte × State :=
  match o with
  | .imm v => (v, s)
  | .mem m =>
    let (ea, s1) := effectiveAddress m s
    readByte ea s1

/-- `Operand16(fmt)` (`40_load_store_transfer.md` R160). -/
def operand16 (o : Opnd16) (s : State) : Word × State :=
  match o with
  | .imm v => (v, s)
  | .mem m =>
    let (ea, s1) := effectiveAddress m s
    readWord ea s1

/-- A count by format: the dir, idx and ext columns of `30_encoding.md` R150 (an indexed operand adds `xcyc` besides). -/
def memCycles (dir idx ext : Nat) : MemOp → Nat
  | .dir _ => dir
  | .idx _ => idx
  | .ext _ => ext

/-- A count by format: the imm, dir, idx and ext columns of `30_encoding.md` R150. -/
def opnd8Cycles (imm dir idx ext : Nat) : Opnd8 → Nat
  | .imm _ => imm
  | .mem m => memCycles dir idx ext m

/-- A count by format: the imm, dir, idx and ext columns of `30_encoding.md` R150. -/
def opnd16Cycles (imm dir idx ext : Nat) : Opnd16 → Nat
  | .imm _ => imm
  | .mem m => memCycles dir idx ext m

end Sys2Proof.Machine
end

