-- ==== Sys2Proof/Machine/Arith16.lean ====
section
/-! DEFINITION. 16-bit arithmetic, decimal adjust, multiply and the condition-code instructions (`42_arith16_misc.md`). -/

namespace Sys2Proof.Machine

/-- A 16-bit operation on D that writes D, 4/6/6+x/7 cycles (`42_arith16_misc.md` R281, R282). -/
def arith16 (f : Word → Word → Byte → Word × Byte) (o : Opnd16) (s : State) : State :=
  let (m, s1) := operand16 o s
  let (v, cc) := f s1.cpu.d m s1.cpu.cc
  ((s1.setD v).setCc cc).addCycles (opnd16Cycles 4 6 6 7 o)

/-- A 16-bit compare: the register is read after the operand (`42_arith16_misc.md` R283-R287); `cyc` is the immediate
form's count. -/
def compare16 (r : Reg16) (cyc : Nat) (o : Opnd16) (s : State) : State :=
  let (m, s1) := operand16 o s
  let (_, cc) := sub16 (s1.getReg16 r) m s1.cpu.cc
  (s1.setCc cc).addCycles (opnd16Cycles cyc (cyc + 2) (cyc + 2) (cyc + 3) o)

/-- Decimal adjust (`42_arith16_misc.md` R290): V takes the next draw. -/
def decimalAdjust (s : State) : State :=
  let (v, cc) := daa8 s.cpu.a s.nextDraw s.cpu.cc
  (((s.setA v).setCc cc).takeDraw true).addCycles 2

/-- Unsigned multiply (`42_arith16_misc.md` R291). -/
def multiply (s : State) : State :=
  let (p, cc) := mul8 s.cpu.a s.cpu.b s.cpu.cc
  ((s.setD p).setCc cc).addCycles 11

/-- Sign extension of B into A (`42_arith16_misc.md` R292). -/
def signExtend (s : State) : State :=
  let s1 := s.setA (if s.cpu.b.getLsbD 7 then 0xFF else 0x00)
  (s1.setCc (nz16 s1.cpu.d s1.cpu.cc)).addCycles 2

/-- B added to X, unsigned (`42_arith16_misc.md` R293). -/
def addBToX (s : State) : State := (s.setX (s.cpu.x + zext8 s.cpu.b)).addCycles 3

/-- CC and an immediate (`42_arith16_misc.md` R294). -/
def andCc (v : Byte) (s : State) : State := (s.setCc (s.cpu.cc &&& v)).addCycles 3

/-- CC or an immediate (`42_arith16_misc.md` R295). -/
def orCc (v : Byte) (s : State) : State := (s.setCc (s.cpu.cc ||| v)).addCycles 3

/-- ADDD (`42_arith16_misc.md` R281). -/
def execAddd (o : Opnd16) (s : State) : Host.Outcome State Fault Refusal := .next (arith16 add16 o s)

/-- SUBD (`42_arith16_misc.md` R282). -/
def execSubd (o : Opnd16) (s : State) : Host.Outcome State Fault Refusal := .next (arith16 sub16 o s)

/-- CMPD (`42_arith16_misc.md` R283). -/
def execCmpd (o : Opnd16) (s : State) : Host.Outcome State Fault Refusal := .next (compare16 .d 5 o s)

/-- CMPX (`42_arith16_misc.md` R284). -/
def execCmpx (o : Opnd16) (s : State) : Host.Outcome State Fault Refusal := .next (compare16 .x 4 o s)

/-- CMPY (`42_arith16_misc.md` R285). -/
def execCmpy (o : Opnd16) (s : State) : Host.Outcome State Fault Refusal := .next (compare16 .y 5 o s)

/-- CMPU (`42_arith16_misc.md` R286). -/
def execCmpu (o : Opnd16) (s : State) : Host.Outcome State Fault Refusal := .next (compare16 .u 5 o s)

/-- CMPS (`42_arith16_misc.md` R287). -/
def execCmps (o : Opnd16) (s : State) : Host.Outcome State Fault Refusal := .next (compare16 .s 5 o s)

/-- DAA (`42_arith16_misc.md` R290). -/
def execDaa (s : State) : Host.Outcome State Fault Refusal := .next (decimalAdjust s)

/-- MUL (`42_arith16_misc.md` R291). -/
def execMul (s : State) : Host.Outcome State Fault Refusal := .next (multiply s)

/-- SEX (`42_arith16_misc.md` R292). -/
def execSex (s : State) : Host.Outcome State Fault Refusal := .next (signExtend s)

/-- ABX (`42_arith16_misc.md` R293). -/
def execAbx (s : State) : Host.Outcome State Fault Refusal := .next (addBToX s)

/-- ANDCC (`42_arith16_misc.md` R294). -/
def execAndcc (v : Byte) (s : State) : Host.Outcome State Fault Refusal := .next (andCc v s)

/-- ORCC (`42_arith16_misc.md` R295). -/
def execOrcc (v : Byte) (s : State) : Host.Outcome State Fault Refusal := .next (orCc v s)

/-- NOP (`42_arith16_misc.md` R296). -/
def execNop (s : State) : Host.Outcome State Fault Refusal := .next (s.addCycles 2)

end Sys2Proof.Machine
end

