-- ==== Sys2Proof/Machine/Arith8.lean ====
section
/-! DEFINITION. The 8-bit two-operand instructions (`41_arith_logic8.md` R223-R239, R275). -/

namespace Sys2Proof.Machine

/-- A two-operand instruction on an accumulator that writes the accumulator (`41_arith_logic8.md` R223-R238): the
operand is read first; H takes the next draw where the operation draws. -/
def arith8 (r : Acc) (op : BinOp) (o : Opnd8) (s : State) : State :=
  let (m, s1) := operand8 o s
  let (v, cc) := op.apply (s1.getAcc r) m s1.nextDraw s1.cpu.cc
  (((s1.setAcc r v).setCc cc).takeDraw op.draws).addCycles (opnd8Cycles 2 4 4 5 o)

/-- The same with the result discarded: compare and bit test (`41_arith_logic8.md` R231, R232, R239, R275). -/
def test8 (r : Acc) (op : BinOp) (o : Opnd8) (s : State) : State :=
  let (m, s1) := operand8 o s
  let (_, cc) := op.apply (s1.getAcc r) m s1.nextDraw s1.cpu.cc
  ((s1.setCc cc).takeDraw op.draws).addCycles (opnd8Cycles 2 4 4 5 o)

/-- ADDA (`41_arith_logic8.md` R223). -/
def execAdda (o : Opnd8) (s : State) : Host.Outcome State Fault Refusal := .next (arith8 .a .add o s)

/-- ADDB (`41_arith_logic8.md` R224). -/
def execAddb (o : Opnd8) (s : State) : Host.Outcome State Fault Refusal := .next (arith8 .b .add o s)

/-- ADCA (`41_arith_logic8.md` R225). -/
def execAdca (o : Opnd8) (s : State) : Host.Outcome State Fault Refusal := .next (arith8 .a .adc o s)

/-- ADCB (`41_arith_logic8.md` R226). -/
def execAdcb (o : Opnd8) (s : State) : Host.Outcome State Fault Refusal := .next (arith8 .b .adc o s)

/-- SUBA (`41_arith_logic8.md` R227). -/
def execSuba (o : Opnd8) (s : State) : Host.Outcome State Fault Refusal := .next (arith8 .a .sub o s)

/-- SUBB (`41_arith_logic8.md` R228). -/
def execSubb (o : Opnd8) (s : State) : Host.Outcome State Fault Refusal := .next (arith8 .b .sub o s)

/-- SBCA (`41_arith_logic8.md` R229). -/
def execSbca (o : Opnd8) (s : State) : Host.Outcome State Fault Refusal := .next (arith8 .a .sbc o s)

/-- SBCB (`41_arith_logic8.md` R230). -/
def execSbcb (o : Opnd8) (s : State) : Host.Outcome State Fault Refusal := .next (arith8 .b .sbc o s)

/-- ANDA (`41_arith_logic8.md` R233). -/
def execAnda (o : Opnd8) (s : State) : Host.Outcome State Fault Refusal := .next (arith8 .a .and o s)

/-- ANDB (`41_arith_logic8.md` R234). -/
def execAndb (o : Opnd8) (s : State) : Host.Outcome State Fault Refusal := .next (arith8 .b .and o s)

/-- ORA (`41_arith_logic8.md` R235). -/
def execOra (o : Opnd8) (s : State) : Host.Outcome State Fault Refusal := .next (arith8 .a .or o s)

/-- ORB (`41_arith_logic8.md` R236). -/
def execOrb (o : Opnd8) (s : State) : Host.Outcome State Fault Refusal := .next (arith8 .b .or o s)

/-- EORA (`41_arith_logic8.md` R237). -/
def execEora (o : Opnd8) (s : State) : Host.Outcome State Fault Refusal := .next (arith8 .a .eor o s)

/-- EORB (`41_arith_logic8.md` R238). -/
def execEorb (o : Opnd8) (s : State) : Host.Outcome State Fault Refusal := .next (arith8 .b .eor o s)

/-- CMPA (`41_arith_logic8.md` R231). -/
def execCmpa (o : Opnd8) (s : State) : Host.Outcome State Fault Refusal := .next (test8 .a .sub o s)

/-- CMPB (`41_arith_logic8.md` R232). -/
def execCmpb (o : Opnd8) (s : State) : Host.Outcome State Fault Refusal := .next (test8 .b .sub o s)

/-- BITA (`41_arith_logic8.md` R239). -/
def execBita (o : Opnd8) (s : State) : Host.Outcome State Fault Refusal := .next (test8 .a .and o s)

/-- BITB (`41_arith_logic8.md` R275). -/
def execBitb (o : Opnd8) (s : State) : Host.Outcome State Fault Refusal := .next (test8 .b .and o s)

end Sys2Proof.Machine
end

