-- ==== Sys2Proof/Machine/Branch.lean ====
section
/-! DEFINITION. Branches, calls, jumps and the return from a subroutine (`43_branch_control.md`). -/

namespace Sys2Proof.Machine

/-- The short branch (`43_branch_control.md` R311): 3 cycles, taken or not. -/
def shortBranch (k : Cond) (d : Byte) (s : State) : State :=
  (if k.holds s.cpu.cc then s.setPc (s.cpu.pc + sext8 d) else s).addCycles 3

/-- The long branch (`43_branch_control.md` R312): 6 cycles taken, 5 not. -/
def longBranch (k : Cond) (d : Word) (s : State) : State :=
  if k.holds s.cpu.cc then (s.setPc (s.cpu.pc + d)).addCycles 6 else s.addCycles 5

/-- LBRA, always 5 cycles (`43_branch_control.md` R312, R330). -/
def longBranchAlways (d : Word) (s : State) : State := (s.setPc (s.cpu.pc + d)).addCycles 5

/-- A subroutine call: the return address pushed on S, then the jump (`43_branch_control.md` R350-R353). -/
def call (target : Word) (cyc : Nat) (s : State) : State := ((push16 .hw s.cpu.pc s).setPc target).addCycles cyc

/-- JMP (`43_branch_control.md` R352): the operand is not read. -/
def jump (m : MemOp) (s : State) : State :=
  let (ea, s1) := effectiveAddress m s
  (s1.setPc ea).addCycles (memCycles 3 3 4 m)

/-- JSR (`43_branch_control.md` R353): the address is computed before the push. -/
def jumpSubroutine (m : MemOp) (s : State) : State :=
  let (ea, s1) := effectiveAddress m s
  call ea (memCycles 7 7 8 m) s1

/-- RTS (`43_branch_control.md` R354). -/
def returnSubroutine (s : State) : State := (pullInto16 .hw State.setPc s).addCycles 5

/-- BRA (`43_branch_control.md` R313). -/
def execBra (d : Byte) (s : State) : Host.Outcome State Fault Refusal := .next (shortBranch .always d s)

/-- BRN (`43_branch_control.md` R314). -/
def execBrn (d : Byte) (s : State) : Host.Outcome State Fault Refusal := .next (shortBranch .never d s)

/-- BHI (`43_branch_control.md` R315). -/
def execBhi (d : Byte) (s : State) : Host.Outcome State Fault Refusal := .next (shortBranch .hi d s)

/-- BLS (`43_branch_control.md` R316). -/
def execBls (d : Byte) (s : State) : Host.Outcome State Fault Refusal := .next (shortBranch .ls d s)

/-- BCC (`43_branch_control.md` R317). -/
def execBcc (d : Byte) (s : State) : Host.Outcome State Fault Refusal := .next (shortBranch .cc d s)

/-- BCS (`43_branch_control.md` R318). -/
def execBcs (d : Byte) (s : State) : Host.Outcome State Fault Refusal := .next (shortBranch .cs d s)

/-- BNE (`43_branch_control.md` R319). -/
def execBne (d : Byte) (s : State) : Host.Outcome State Fault Refusal := .next (shortBranch .ne d s)

/-- BEQ (`43_branch_control.md` R320). -/
def execBeq (d : Byte) (s : State) : Host.Outcome State Fault Refusal := .next (shortBranch .eq d s)

/-- BVC (`43_branch_control.md` R321). -/
def execBvc (d : Byte) (s : State) : Host.Outcome State Fault Refusal := .next (shortBranch .vc d s)

/-- BVS (`43_branch_control.md` R322). -/
def execBvs (d : Byte) (s : State) : Host.Outcome State Fault Refusal := .next (shortBranch .vs d s)

/-- BPL (`43_branch_control.md` R323). -/
def execBpl (d : Byte) (s : State) : Host.Outcome State Fault Refusal := .next (shortBranch .pl d s)

/-- BMI (`43_branch_control.md` R324). -/
def execBmi (d : Byte) (s : State) : Host.Outcome State Fault Refusal := .next (shortBranch .mi d s)

/-- BGE (`43_branch_control.md` R325). -/
def execBge (d : Byte) (s : State) : Host.Outcome State Fault Refusal := .next (shortBranch .ge d s)

/-- BLT (`43_branch_control.md` R326). -/
def execBlt (d : Byte) (s : State) : Host.Outcome State Fault Refusal := .next (shortBranch .lt d s)

/-- BGT (`43_branch_control.md` R327). -/
def execBgt (d : Byte) (s : State) : Host.Outcome State Fault Refusal := .next (shortBranch .gt d s)

/-- BLE (`43_branch_control.md` R328). -/
def execBle (d : Byte) (s : State) : Host.Outcome State Fault Refusal := .next (shortBranch .le d s)

/-- LBRA (`43_branch_control.md` R330). -/
def execLbra (d : Word) (s : State) : Host.Outcome State Fault Refusal := .next (longBranchAlways d s)

/-- LBRN (`43_branch_control.md` R331). -/
def execLbrn (d : Word) (s : State) : Host.Outcome State Fault Refusal := .next (longBranch .never d s)

/-- LBHI (`43_branch_control.md` R332). -/
def execLbhi (d : Word) (s : State) : Host.Outcome State Fault Refusal := .next (longBranch .hi d s)

/-- LBLS (`43_branch_control.md` R333). -/
def execLbls (d : Word) (s : State) : Host.Outcome State Fault Refusal := .next (longBranch .ls d s)

/-- LBCC (`43_branch_control.md` R334). -/
def execLbcc (d : Word) (s : State) : Host.Outcome State Fault Refusal := .next (longBranch .cc d s)

/-- LBCS (`43_branch_control.md` R335). -/
def execLbcs (d : Word) (s : State) : Host.Outcome State Fault Refusal := .next (longBranch .cs d s)

/-- LBNE (`43_branch_control.md` R336). -/
def execLbne (d : Word) (s : State) : Host.Outcome State Fault Refusal := .next (longBranch .ne d s)

/-- LBEQ (`43_branch_control.md` R337). -/
def execLbeq (d : Word) (s : State) : Host.Outcome State Fault Refusal := .next (longBranch .eq d s)

/-- LBVC (`43_branch_control.md` R338). -/
def execLbvc (d : Word) (s : State) : Host.Outcome State Fault Refusal := .next (longBranch .vc d s)

/-- LBVS (`43_branch_control.md` R339). -/
def execLbvs (d : Word) (s : State) : Host.Outcome State Fault Refusal := .next (longBranch .vs d s)

/-- LBPL (`43_branch_control.md` R340). -/
def execLbpl (d : Word) (s : State) : Host.Outcome State Fault Refusal := .next (longBranch .pl d s)

/-- LBMI (`43_branch_control.md` R341). -/
def execLbmi (d : Word) (s : State) : Host.Outcome State Fault Refusal := .next (longBranch .mi d s)

/-- LBGE (`43_branch_control.md` R342). -/
def execLbge (d : Word) (s : State) : Host.Outcome State Fault Refusal := .next (longBranch .ge d s)

/-- LBLT (`43_branch_control.md` R343). -/
def execLblt (d : Word) (s : State) : Host.Outcome State Fault Refusal := .next (longBranch .lt d s)

/-- LBGT (`43_branch_control.md` R344). -/
def execLbgt (d : Word) (s : State) : Host.Outcome State Fault Refusal := .next (longBranch .gt d s)

/-- LBLE (`43_branch_control.md` R345). -/
def execLble (d : Word) (s : State) : Host.Outcome State Fault Refusal := .next (longBranch .le d s)

/-- BSR (`43_branch_control.md` R350). -/
def execBsr (d : Byte) (s : State) : Host.Outcome State Fault Refusal := .next (call (s.cpu.pc + sext8 d) 7 s)

/-- LBSR (`43_branch_control.md` R351). -/
def execLbsr (d : Word) (s : State) : Host.Outcome State Fault Refusal := .next (call (s.cpu.pc + d) 9 s)

/-- JMP (`43_branch_control.md` R352). -/
def execJmp (m : MemOp) (s : State) : Host.Outcome State Fault Refusal := .next (jump m s)

/-- JSR (`43_branch_control.md` R353). -/
def execJsr (m : MemOp) (s : State) : Host.Outcome State Fault Refusal := .next (jumpSubroutine m s)

/-- RTS (`43_branch_control.md` R354). -/
def execRts (s : State) : Host.Outcome State Fault Refusal := .next (returnSubroutine s)

end Sys2Proof.Machine
end

