-- ==== Sys2Proof/Machine/Interrupt.lean ====
section
/-! DEFINITION. Software interrupts, return from interrupt, wait instructions, undefined opcodes (`44_system.md`). -/

namespace Sys2Proof.Machine

/-- Clear CC bits, stack the entire state, wait (`44_system.md` R375). -/
def clearAndWait (v : Byte) (s : State) : State :=
  ((stackEntire (s.setCc (s.cpu.cc &&& v))).setWait .cwai).addCycles 20

/-- SWI (`44_system.md` R371). -/
def execSwi (s : State) : Host.Outcome State Fault Refusal := .next ((takeTrap .swi s).addCycles 19)

/-- SWI2 (`44_system.md` R372). -/
def execSwi2 (s : State) : Host.Outcome State Fault Refusal := .next ((takeTrap .swi2 s).addCycles 20)

/-- SWI3 (`44_system.md` R373). -/
def execSwi3 (s : State) : Host.Outcome State Fault Refusal := .next ((takeTrap .swi3 s).addCycles 20)

/-- RTI (`44_system.md` R374). -/
def execRti (s : State) : Host.Outcome State Fault Refusal := .next (returnFromInterrupt s)

/-- CWAI (`44_system.md` R375). -/
def execCwai (v : Byte) (s : State) : Host.Outcome State Fault Refusal := .next (clearAndWait v s)

/-- SYNC (`44_system.md` R376). -/
def execSync (s : State) : Host.Outcome State Fault Refusal := .next ((s.setWait .sync).addCycles 2)

/-- An opcode with no row: nothing but the cycles `UNDEF_OP_CYCLES` (`44_system.md` R380). -/
def execUndefined (_page : Page) (_op : Byte) (s : State) : Host.Outcome State Fault Refusal :=
  .next (s.addCycles s.params.undefOpCycles)

end Sys2Proof.Machine
end

