-- ==== Sys2Proof/Machine/LoadStore.lean ====
section
/-! DEFINITION. Loads, stores and load effective address (`40_load_store_transfer.md` R161-R183). -/

namespace Sys2Proof.Machine

/-- An 8-bit load: operand read, register, `NZ8`, V cleared (`40_load_store_transfer.md` R161). -/
def load8 (r : Acc) (o : Opnd8) (s : State) : State :=
  let (m, s1) := operand8 o s
  ((s1.setAcc r m).setCc (moveFlags8 m s1.cpu.cc)).addCycles (opnd8Cycles 2 4 4 5 o)

/-- A 16-bit load; `cyc` is the immediate form's count, the others add 2, 2, 3 (`40_load_store_transfer.md` R163,
`30_encoding.md` R150). -/
def load16 (r : Reg16) (cyc : Nat) (o : Opnd16) (s : State) : State :=
  let (m, s1) := operand16 o s
  ((s1.setReg16 r m).setCc (moveFlags16 m s1.cpu.cc)).addCycles (opnd16Cycles cyc (cyc + 2) (cyc + 2) (cyc + 3) o)

/-- An 8-bit store: the address first, then the flags and the write of the register (`40_load_store_transfer.md`
R170). -/
def store8 (r : Acc) (m : MemOp) (s : State) : State :=
  let (ea, s1) := effectiveAddress m s
  let s2 := s1.setCc (moveFlags8 (s1.getAcc r) s1.cpu.cc)
  (writeByte ea (s1.getAcc r) s2).addCycles (memCycles 4 4 5 m)

/-- A 16-bit store: the register is read after the address is computed (`40_load_store_transfer.md` R172, R173); `cyc`
is the direct form's count. -/
def store16 (r : Reg16) (cyc : Nat) (m : MemOp) (s : State) : State :=
  let (ea, s1) := effectiveAddress m s
  let s2 := s1.setCc (moveFlags16 (s1.getReg16 r) s1.cpu.cc)
  (writeWord ea (s1.getReg16 r) s2).addCycles (memCycles cyc cyc (cyc + 1) m)

/-- Load effective address, with Z when `setsZ` (`40_load_store_transfer.md` R180-R183). -/
def loadEa (r : IReg) (setsZ : Bool) (m : IdxMode) (s : State) : State :=
  let (ea, s1) := indexedEa m s
  let s2 := s1.setIndex r ea
  (if setsZ then s2.writeFlag .z (decide (ea = 0)) else s2).addCycles 4

/-- LDA (`40_load_store_transfer.md` R161). -/
def execLda (o : Opnd8) (s : State) : Host.Outcome State Fault Refusal := .next (load8 .a o s)

/-- LDB (`40_load_store_transfer.md` R162). -/
def execLdb (o : Opnd8) (s : State) : Host.Outcome State Fault Refusal := .next (load8 .b o s)

/-- LDD (`40_load_store_transfer.md` R163). -/
def execLdd (o : Opnd16) (s : State) : Host.Outcome State Fault Refusal := .next (load16 .d 3 o s)

/-- LDX (`40_load_store_transfer.md` R164). -/
def execLdx (o : Opnd16) (s : State) : Host.Outcome State Fault Refusal := .next (load16 .x 3 o s)

/-- LDY (`40_load_store_transfer.md` R165). -/
def execLdy (o : Opnd16) (s : State) : Host.Outcome State Fault Refusal := .next (load16 .y 4 o s)

/-- LDU (`40_load_store_transfer.md` R166). -/
def execLdu (o : Opnd16) (s : State) : Host.Outcome State Fault Refusal := .next (load16 .u 3 o s)

/-- LDS (`40_load_store_transfer.md` R167). -/
def execLds (o : Opnd16) (s : State) : Host.Outcome State Fault Refusal := .next (load16 .s 4 o s)

/-- STA (`40_load_store_transfer.md` R170). -/
def execSta (m : MemOp) (s : State) : Host.Outcome State Fault Refusal := .next (store8 .a m s)

/-- STB (`40_load_store_transfer.md` R171). -/
def execStb (m : MemOp) (s : State) : Host.Outcome State Fault Refusal := .next (store8 .b m s)

/-- STD (`40_load_store_transfer.md` R172). -/
def execStd (m : MemOp) (s : State) : Host.Outcome State Fault Refusal := .next (store16 .d 5 m s)

/-- STX (`40_load_store_transfer.md` R173). -/
def execStx (m : MemOp) (s : State) : Host.Outcome State Fault Refusal := .next (store16 .x 5 m s)

/-- STY (`40_load_store_transfer.md` R174). -/
def execSty (m : MemOp) (s : State) : Host.Outcome State Fault Refusal := .next (store16 .y 6 m s)

/-- STU (`40_load_store_transfer.md` R175). -/
def execStu (m : MemOp) (s : State) : Host.Outcome State Fault Refusal := .next (store16 .u 5 m s)

/-- STS (`40_load_store_transfer.md` R176). -/
def execSts (m : MemOp) (s : State) : Host.Outcome State Fault Refusal := .next (store16 .s 6 m s)

/-- LEAX (`40_load_store_transfer.md` R180). -/
def execLeax (m : IdxMode) (s : State) : Host.Outcome State Fault Refusal := .next (loadEa .x true m s)

/-- LEAY (`40_load_store_transfer.md` R181). -/
def execLeay (m : IdxMode) (s : State) : Host.Outcome State Fault Refusal := .next (loadEa .y true m s)

/-- LEAS (`40_load_store_transfer.md` R182). -/
def execLeas (m : IdxMode) (s : State) : Host.Outcome State Fault Refusal := .next (loadEa .s false m s)

/-- LEAU (`40_load_store_transfer.md` R183). -/
def execLeau (m : IdxMode) (s : State) : Host.Outcome State Fault Refusal := .next (loadEa .u false m s)

end Sys2Proof.Machine
end

