-- ==== Sys2Proof/Machine/Transfer.lean ====
section
/-! DEFINITION. Register transfer, exchange, push and pull (`40_load_store_transfer.md` R200-R209). -/

namespace Sys2Proof.Machine

/-- Transfer of a register to a register (`40_load_store_transfer.md` R201). -/
def transfer (r1 r2 : BitVec 4) (s : State) : State := (s.regWrite r2 (s.regRead r1)).addCycles 6

/-- Exchange of two registers: the second is read first, written first (`40_load_store_transfer.md` R202). -/
def exchange (r1 r2 : BitVec 4) (s : State) : State :=
  let t := s.regRead r2
  ((s.regWrite r2 (s.regRead r1)).regWrite r1 t).addCycles 8

/-- Push of a register list (`40_load_store_transfer.md` R206, R207). -/
def pushRegisters (p : StackPtr) (mask : Byte) (s : State) : State := (pushList p mask s).addCycles (5 + listBytes mask)

/-- Pull of a register list (`40_load_store_transfer.md` R208, R209). -/
def pullRegisters (p : StackPtr) (mask : Byte) (s : State) : State := (pullList p mask s).addCycles (5 + listBytes mask)

/-- TFR (`40_load_store_transfer.md` R201). -/
def execTfr (r1 r2 : BitVec 4) (s : State) : Host.Outcome State Fault Refusal := .next (transfer r1 r2 s)

/-- EXG (`40_load_store_transfer.md` R202). -/
def execExg (r1 r2 : BitVec 4) (s : State) : Host.Outcome State Fault Refusal := .next (exchange r1 r2 s)

/-- PSHS (`40_load_store_transfer.md` R206). -/
def execPshs (mask : Byte) (s : State) : Host.Outcome State Fault Refusal := .next (pushRegisters .hw mask s)

/-- PSHU (`40_load_store_transfer.md` R207). -/
def execPshu (mask : Byte) (s : State) : Host.Outcome State Fault Refusal := .next (pushRegisters .user mask s)

/-- PULS (`40_load_store_transfer.md` R208). -/
def execPuls (mask : Byte) (s : State) : Host.Outcome State Fault Refusal := .next (pullRegisters .hw mask s)

/-- PULU (`40_load_store_transfer.md` R209). -/
def execPulu (mask : Byte) (s : State) : Host.Outcome State Fault Refusal := .next (pullRegisters .user mask s)

end Sys2Proof.Machine
end

