-- ==== Sys2Proof/Machine/Unary.lean ====
section
/-! DEFINITION. The single-operand instructions (`41_arith_logic8.md` R240-R274). -/

namespace Sys2Proof.Machine

/-- Read, compute, write back: one read then one write of the same address (`41_arith_logic8.md` R241). -/
def modifyMemory (op : UnaryOp) (m : MemOp) (s : State) : State :=
  let (ea, s1) := effectiveAddress m s
  let (v, s2) := readByte ea s1
  let (r, cc) := op.apply v s2.nextDraw s2.cpu.cc
  (writeByte ea r ((s2.setCc cc).takeDraw op.draws)).addCycles (memCycles 6 6 7 m)

/-- The register forms, 2 cycles (`41_arith_logic8.md` R243). -/
def modifyAcc (op : UnaryOp) (r : Acc) (s : State) : State :=
  let (v, cc) := op.apply (s.getAcc r) s.nextDraw s.cpu.cc
  (((s.setAcc r v).setCc cc).takeDraw op.draws).addCycles 2

/-- TST of memory: one read, no write (`41_arith_logic8.md` R269). -/
def testMemory (m : MemOp) (s : State) : State :=
  let (ea, s1) := effectiveAddress m s
  let (v, s2) := readByte ea s1
  (s2.setCc (tstFlags v s2.cpu.cc)).addCycles (memCycles 6 6 7 m)

/-- TST of an accumulator (`41_arith_logic8.md` R270). -/
def testAcc (r : Acc) (s : State) : State := (s.setCc (tstFlags (s.getAcc r) s.cpu.cc)).addCycles 2

/-- CLR of memory: one write and no read (`41_arith_logic8.md` R272). -/
def clearMemory (m : MemOp) (s : State) : State :=
  let (ea, s1) := effectiveAddress m s
  (writeByte ea 0 (s1.setCc (clrFlags s1.cpu.cc))).addCycles (memCycles 6 6 7 m)

/-- CLR of an accumulator (`41_arith_logic8.md` R273). -/
def clearAcc (r : Acc) (s : State) : State := ((s.setAcc r 0).setCc (clrFlags s.cpu.cc)).addCycles 2

/-- NEG (`41_arith_logic8.md` R242). -/
def execNeg (m : MemOp) (s : State) : Host.Outcome State Fault Refusal := .next (modifyMemory .neg m s)

/-- COM (`41_arith_logic8.md` R245). -/
def execCom (m : MemOp) (s : State) : Host.Outcome State Fault Refusal := .next (modifyMemory .com m s)

/-- LSR (`41_arith_logic8.md` R248). -/
def execLsr (m : MemOp) (s : State) : Host.Outcome State Fault Refusal := .next (modifyMemory .lsr m s)

/-- ROR (`41_arith_logic8.md` R251). -/
def execRor (m : MemOp) (s : State) : Host.Outcome State Fault Refusal := .next (modifyMemory .ror m s)

/-- ASR (`41_arith_logic8.md` R254). -/
def execAsr (m : MemOp) (s : State) : Host.Outcome State Fault Refusal := .next (modifyMemory .asr m s)

/-- ASL (`41_arith_logic8.md` R257). -/
def execAsl (m : MemOp) (s : State) : Host.Outcome State Fault Refusal := .next (modifyMemory .asl m s)

/-- ROL (`41_arith_logic8.md` R260). -/
def execRol (m : MemOp) (s : State) : Host.Outcome State Fault Refusal := .next (modifyMemory .rol m s)

/-- DEC (`41_arith_logic8.md` R263). -/
def execDec (m : MemOp) (s : State) : Host.Outcome State Fault Refusal := .next (modifyMemory .dec m s)

/-- INC (`41_arith_logic8.md` R266). -/
def execInc (m : MemOp) (s : State) : Host.Outcome State Fault Refusal := .next (modifyMemory .inc m s)

/-- TST (`41_arith_logic8.md` R269). -/
def execTst (m : MemOp) (s : State) : Host.Outcome State Fault Refusal := .next (testMemory m s)

/-- CLR (`41_arith_logic8.md` R272). -/
def execClr (m : MemOp) (s : State) : Host.Outcome State Fault Refusal := .next (clearMemory m s)

/-- NEGA (`41_arith_logic8.md` R243). -/
def execNega (s : State) : Host.Outcome State Fault Refusal := .next (modifyAcc .neg .a s)

/-- COMA (`41_arith_logic8.md` R246). -/
def execComa (s : State) : Host.Outcome State Fault Refusal := .next (modifyAcc .com .a s)

/-- LSRA (`41_arith_logic8.md` R249). -/
def execLsra (s : State) : Host.Outcome State Fault Refusal := .next (modifyAcc .lsr .a s)

/-- RORA (`41_arith_logic8.md` R252). -/
def execRora (s : State) : Host.Outcome State Fault Refusal := .next (modifyAcc .ror .a s)

/-- ASRA (`41_arith_logic8.md` R255). -/
def execAsra (s : State) : Host.Outcome State Fault Refusal := .next (modifyAcc .asr .a s)

/-- ASLA (`41_arith_logic8.md` R258). -/
def execAsla (s : State) : Host.Outcome State Fault Refusal := .next (modifyAcc .asl .a s)

/-- ROLA (`41_arith_logic8.md` R261). -/
def execRola (s : State) : Host.Outcome State Fault Refusal := .next (modifyAcc .rol .a s)

/-- DECA (`41_arith_logic8.md` R264). -/
def execDeca (s : State) : Host.Outcome State Fault Refusal := .next (modifyAcc .dec .a s)

/-- INCA (`41_arith_logic8.md` R267). -/
def execInca (s : State) : Host.Outcome State Fault Refusal := .next (modifyAcc .inc .a s)

/-- TSTA (`41_arith_logic8.md` R270). -/
def execTsta (s : State) : Host.Outcome State Fault Refusal := .next (testAcc .a s)

/-- CLRA (`41_arith_logic8.md` R273). -/
def execClra (s : State) : Host.Outcome State Fault Refusal := .next (clearAcc .a s)

/-- NEGB (`41_arith_logic8.md` R244). -/
def execNegb (s : State) : Host.Outcome State Fault Refusal := .next (modifyAcc .neg .b s)

/-- COMB (`41_arith_logic8.md` R247). -/
def execComb (s : State) : Host.Outcome State Fault Refusal := .next (modifyAcc .com .b s)

/-- LSRB (`41_arith_logic8.md` R250). -/
def execLsrb (s : State) : Host.Outcome State Fault Refusal := .next (modifyAcc .lsr .b s)

/-- RORB (`41_arith_logic8.md` R253). -/
def execRorb (s : State) : Host.Outcome State Fault Refusal := .next (modifyAcc .ror .b s)

/-- ASRB (`41_arith_logic8.md` R256). -/
def execAsrb (s : State) : Host.Outcome State Fault Refusal := .next (modifyAcc .asr .b s)

/-- ASLB (`41_arith_logic8.md` R259). -/
def execAslb (s : State) : Host.Outcome State Fault Refusal := .next (modifyAcc .asl .b s)

/-- ROLB (`41_arith_logic8.md` R262). -/
def execRolb (s : State) : Host.Outcome State Fault Refusal := .next (modifyAcc .rol .b s)

/-- DECB (`41_arith_logic8.md` R265). -/
def execDecb (s : State) : Host.Outcome State Fault Refusal := .next (modifyAcc .dec .b s)

/-- INCB (`41_arith_logic8.md` R268). -/
def execIncb (s : State) : Host.Outcome State Fault Refusal := .next (modifyAcc .inc .b s)

/-- TSTB (`41_arith_logic8.md` R271). -/
def execTstb (s : State) : Host.Outcome State Fault Refusal := .next (testAcc .b s)

/-- CLRB (`41_arith_logic8.md` R274). -/
def execClrb (s : State) : Host.Outcome State Fault Refusal := .next (clearAcc .b s)

end Sys2Proof.Machine
end

