-- ==== Sys2Proof/Machine/Dispatch.lean ====
section
/-! DEFINITION. The dispatch: one arm for each constructor of `Instr`, one direct call of its meaning. -/

namespace Sys2Proof.Machine

def exec (i : Instr) (s : State) : Host.Outcome State Fault Refusal :=
  match i with
  | .lda o => Sys2Proof.Machine.execLda o s
  | .ldb o => Sys2Proof.Machine.execLdb o s
  | .adda o => Sys2Proof.Machine.execAdda o s
  | .addb o => Sys2Proof.Machine.execAddb o s
  | .adca o => Sys2Proof.Machine.execAdca o s
  | .adcb o => Sys2Proof.Machine.execAdcb o s
  | .suba o => Sys2Proof.Machine.execSuba o s
  | .subb o => Sys2Proof.Machine.execSubb o s
  | .sbca o => Sys2Proof.Machine.execSbca o s
  | .sbcb o => Sys2Proof.Machine.execSbcb o s
  | .cmpa o => Sys2Proof.Machine.execCmpa o s
  | .cmpb o => Sys2Proof.Machine.execCmpb o s
  | .anda o => Sys2Proof.Machine.execAnda o s
  | .andb o => Sys2Proof.Machine.execAndb o s
  | .ora o => Sys2Proof.Machine.execOra o s
  | .orb o => Sys2Proof.Machine.execOrb o s
  | .eora o => Sys2Proof.Machine.execEora o s
  | .eorb o => Sys2Proof.Machine.execEorb o s
  | .bita o => Sys2Proof.Machine.execBita o s
  | .bitb o => Sys2Proof.Machine.execBitb o s
  | .ldd o => Sys2Proof.Machine.execLdd o s
  | .ldx o => Sys2Proof.Machine.execLdx o s
  | .ldy o => Sys2Proof.Machine.execLdy o s
  | .ldu o => Sys2Proof.Machine.execLdu o s
  | .lds o => Sys2Proof.Machine.execLds o s
  | .addd o => Sys2Proof.Machine.execAddd o s
  | .subd o => Sys2Proof.Machine.execSubd o s
  | .cmpd o => Sys2Proof.Machine.execCmpd o s
  | .cmpx o => Sys2Proof.Machine.execCmpx o s
  | .cmpy o => Sys2Proof.Machine.execCmpy o s
  | .cmpu o => Sys2Proof.Machine.execCmpu o s
  | .cmps o => Sys2Proof.Machine.execCmps o s
  | .sta m => Sys2Proof.Machine.execSta m s
  | .stb m => Sys2Proof.Machine.execStb m s
  | .std m => Sys2Proof.Machine.execStd m s
  | .stx m => Sys2Proof.Machine.execStx m s
  | .sty m => Sys2Proof.Machine.execSty m s
  | .stu m => Sys2Proof.Machine.execStu m s
  | .sts m => Sys2Proof.Machine.execSts m s
  | .neg m => Sys2Proof.Machine.execNeg m s
  | .com m => Sys2Proof.Machine.execCom m s
  | .lsr m => Sys2Proof.Machine.execLsr m s
  | .ror m => Sys2Proof.Machine.execRor m s
  | .asr m => Sys2Proof.Machine.execAsr m s
  | .asl m => Sys2Proof.Machine.execAsl m s
  | .rol m => Sys2Proof.Machine.execRol m s
  | .dec m => Sys2Proof.Machine.execDec m s
  | .inc m => Sys2Proof.Machine.execInc m s
  | .tst m => Sys2Proof.Machine.execTst m s
  | .clr m => Sys2Proof.Machine.execClr m s
  | .jmp m => Sys2Proof.Machine.execJmp m s
  | .jsr m => Sys2Proof.Machine.execJsr m s
  | .leax m => Sys2Proof.Machine.execLeax m s
  | .leay m => Sys2Proof.Machine.execLeay m s
  | .leas m => Sys2Proof.Machine.execLeas m s
  | .leau m => Sys2Proof.Machine.execLeau m s
  | .tfr r1 r2 => Sys2Proof.Machine.execTfr r1 r2 s
  | .exg r1 r2 => Sys2Proof.Machine.execExg r1 r2 s
  | .pshs mask => Sys2Proof.Machine.execPshs mask s
  | .puls mask => Sys2Proof.Machine.execPuls mask s
  | .pshu mask => Sys2Proof.Machine.execPshu mask s
  | .pulu mask => Sys2Proof.Machine.execPulu mask s
  | .nega => Sys2Proof.Machine.execNega s
  | .coma => Sys2Proof.Machine.execComa s
  | .lsra => Sys2Proof.Machine.execLsra s
  | .rora => Sys2Proof.Machine.execRora s
  | .asra => Sys2Proof.Machine.execAsra s
  | .asla => Sys2Proof.Machine.execAsla s
  | .rola => Sys2Proof.Machine.execRola s
  | .deca => Sys2Proof.Machine.execDeca s
  | .inca => Sys2Proof.Machine.execInca s
  | .tsta => Sys2Proof.Machine.execTsta s
  | .clra => Sys2Proof.Machine.execClra s
  | .negb => Sys2Proof.Machine.execNegb s
  | .comb => Sys2Proof.Machine.execComb s
  | .lsrb => Sys2Proof.Machine.execLsrb s
  | .rorb => Sys2Proof.Machine.execRorb s
  | .asrb => Sys2Proof.Machine.execAsrb s
  | .aslb => Sys2Proof.Machine.execAslb s
  | .rolb => Sys2Proof.Machine.execRolb s
  | .decb => Sys2Proof.Machine.execDecb s
  | .incb => Sys2Proof.Machine.execIncb s
  | .tstb => Sys2Proof.Machine.execTstb s
  | .clrb => Sys2Proof.Machine.execClrb s
  | .daa => Sys2Proof.Machine.execDaa s
  | .mul => Sys2Proof.Machine.execMul s
  | .sex => Sys2Proof.Machine.execSex s
  | .abx => Sys2Proof.Machine.execAbx s
  | .nop => Sys2Proof.Machine.execNop s
  | .rts => Sys2Proof.Machine.execRts s
  | .swi => Sys2Proof.Machine.execSwi s
  | .swi2 => Sys2Proof.Machine.execSwi2 s
  | .swi3 => Sys2Proof.Machine.execSwi3 s
  | .rti => Sys2Proof.Machine.execRti s
  | .sync => Sys2Proof.Machine.execSync s
  | .andcc v => Sys2Proof.Machine.execAndcc v s
  | .orcc v => Sys2Proof.Machine.execOrcc v s
  | .cwai v => Sys2Proof.Machine.execCwai v s
  | .bra d => Sys2Proof.Machine.execBra d s
  | .brn d => Sys2Proof.Machine.execBrn d s
  | .bhi d => Sys2Proof.Machine.execBhi d s
  | .bls d => Sys2Proof.Machine.execBls d s
  | .bcc d => Sys2Proof.Machine.execBcc d s
  | .bcs d => Sys2Proof.Machine.execBcs d s
  | .bne d => Sys2Proof.Machine.execBne d s
  | .beq d => Sys2Proof.Machine.execBeq d s
  | .bvc d => Sys2Proof.Machine.execBvc d s
  | .bvs d => Sys2Proof.Machine.execBvs d s
  | .bpl d => Sys2Proof.Machine.execBpl d s
  | .bmi d => Sys2Proof.Machine.execBmi d s
  | .bge d => Sys2Proof.Machine.execBge d s
  | .blt d => Sys2Proof.Machine.execBlt d s
  | .bgt d => Sys2Proof.Machine.execBgt d s
  | .ble d => Sys2Proof.Machine.execBle d s
  | .bsr d => Sys2Proof.Machine.execBsr d s
  | .lbra d => Sys2Proof.Machine.execLbra d s
  | .lbrn d => Sys2Proof.Machine.execLbrn d s
  | .lbhi d => Sys2Proof.Machine.execLbhi d s
  | .lbls d => Sys2Proof.Machine.execLbls d s
  | .lbcc d => Sys2Proof.Machine.execLbcc d s
  | .lbcs d => Sys2Proof.Machine.execLbcs d s
  | .lbne d => Sys2Proof.Machine.execLbne d s
  | .lbeq d => Sys2Proof.Machine.execLbeq d s
  | .lbvc d => Sys2Proof.Machine.execLbvc d s
  | .lbvs d => Sys2Proof.Machine.execLbvs d s
  | .lbpl d => Sys2Proof.Machine.execLbpl d s
  | .lbmi d => Sys2Proof.Machine.execLbmi d s
  | .lbge d => Sys2Proof.Machine.execLbge d s
  | .lblt d => Sys2Proof.Machine.execLblt d s
  | .lbgt d => Sys2Proof.Machine.execLbgt d s
  | .lble d => Sys2Proof.Machine.execLble d s
  | .lbsr d => Sys2Proof.Machine.execLbsr d s
  | .undefined page op => Sys2Proof.Machine.execUndefined page op s

end Sys2Proof.Machine
end

