-- ==== Sys2Proof/Machine/System.lean ====
section
/-! DEFINITION. The Step algorithm (`60_exceptions.md` R408), the system loop, Reset, power-on and the host interface
(`70_reset_and_hazards.md` R580-R606). -/

namespace Sys2Proof.Machine

/-! ### The Step algorithm -/

/-- A wait ended by an asserted masked line: SYNC only (`60_exceptions.md` R405). -/
def endSync (s : State) : State := if s.cpu.wait = .sync then s.setWait .normal else s

/-- Step (1): the FIRQ line (`60_exceptions.md` R408). -/
def sampleFirq (line : Bool) (s : State) : State :=
  if line then (if getFlag .f s.cpu.cc then endSync s else takeTrap .firq s) else s

/-- Step (2): the IRQ line, tested against the CC that step (1) left (`60_exceptions.md` R408). -/
def sampleIrq (line : Bool) (s : State) : State :=
  if line then (if getFlag .i s.cpu.cc then endSync s else takeTrap .irq s) else s

/-- Step (4): one instruction, fetched through the bus (`60_exceptions.md` R408, `30_encoding.md` R122, R137). -/
def runInstruction (s : State) : Host.Outcome State Fault Refusal :=
  match decodeFrom fetch8 s with
  | .ok i s1 => exec i s1
  | .undefinedPostbyte pb _ => .fault (.undefinedPostbyte pb)

/-- `Step(irqLine, firqLine)`; the count it returns is `report` of the next state (`60_exceptions.md` R408). -/
def cpuStep (irqLine firqLine : Bool) (s : State) : Host.Outcome State Fault Refusal :=
  let s1 := sampleIrq irqLine (sampleFirq firqLine { s with report := 0 })
  if s1.cpu.wait = .normal then runInstruction s1 else .next (s1.addCycles 1)

/-! ### The system loop -/

/-- What the host is shown at a frame boundary, then the list swap (`62_analog_vector.md` R520, R521). Under the
live-debug flag the CPU registers are delivered with the lists (`70_reset_and_hazards.md` R604, `60_exceptions.md` R426;
that they are delivered here, and as the whole `Cpu` record, is the model's choice: log 25). -/
def frameBoundary (s : State) : State :=
  { s with
    host := { s.host with
      shown := some (s.dev.lists.draw, s.dev.lists.erase)
      snapshot := if s.host.liveDebug then some s.cpu else s.host.snapshot }
    dev := { s.dev with lists := s.dev.lists.swap } }

/-- `FrameCount(n)` (`70_reset_and_hazards.md` R592). -/
def frameCount (n : Nat) (s : State) : State :=
  let f := s.fcycles - n
  if f < 0 then frameBoundary { s with fcycles := f + s.params.fcyclesInit } else { s with fcycles := f }

/-- The device cycles a Step reports (`70_reset_and_hazards.md` R590). -/
def runDevices (n : Nat) (s : State) : State := s.setDev (deviceCycles s.params.vectorHash n s.dev)

/-- The line driven by the timer/IO chip (`60_exceptions.md` R403). -/
def State.irqLine (s : State) : Bool := s.dev.via.ifr.getLsbD 7

/-- `FIRQ_SOURCE` for this Step: the head of the host's list, 0 where it has none (log 13). -/
def State.firqLine (s : State) : Bool := s.host.firq.headD false

/-- The Step's value of `FIRQ_SOURCE` used up. -/
def State.dropFirq (s : State) : State := { s with host := { s.host with firq := s.host.firq.tail } }

/-- What follows the Step: its device cycles, then the frame counter (`70_reset_and_hazards.md` R590). -/
def afterStep (s : State) : State := frameCount s.report (runDevices s.report s)

/-- `RunStep()` (`70_reset_and_hazards.md` R590). -/
def runStep (s : State) : Host.Outcome State Fault Refusal :=
  match cpuStep s.irqLine s.firqLine s.dropFirq with
  | .next s1 => .next (afterStep s1)
  | .fault r => .fault r
  | .refused r => .refused r

/-! ### Host input and frames -/

/-- The level of a joystick channel (`62_analog_vector.md` R504). -/
def joyByte : JoyLevel → Byte
  | .min => Config.joyMin
  | .center => Config.joyCenter
  | .max => Config.joyMax

/-- The input line of a key code, by KEYMAP (`00_scope.md` R7, log 14). -/
def keyLine (keymap : List (Nat × InputLine)) (code : Nat) : Option InputLine := keymap.lookup code

/-- An input line set or cleared: a pressed button clears its bit of sound register 14 (`63_sound_chip.md` R544), an axis
sets its channel (`70_reset_and_hazards.md` R603, `62_analog_vector.md` R504). -/
def driveLine (line : InputLine) (pressed : Bool) (d : Devices) : Devices :=
  match line with
  | .button k =>
    let bit : Byte := 1#8 <<< k.val
    let v := d.psg.read 14
    { d with psg := d.psg.store 14 (if pressed then v &&& ~~~bit else v ||| bit) }
  | .axis channel down up =>
    { d with alg := { d.alg with jch := d.alg.jch.set channel (joyByte (if pressed then down else up)) } }

/-- One collected `Key` call applied, through KEYMAP (`70_reset_and_hazards.md` R603). -/
def applyKey (keymap : List (Nat × InputLine)) (d : Devices) (e : KeyEvent) : Devices :=
  match keyLine keymap e.code with
  | some line => driveLine line e.pressed d
  | none => d

/-- `PsgGenerate(n)` asked for by the host, its buffer kept (`63_sound_chip.md` R558, log 17). -/
def State.psgGenerate (n : Nat) (s : State) : State :=
  let (vs, p) := s.dev.psg.generate n
  { s with dev := { s.dev with psg := p }, host := { s.host with samples := vs } }

/-- The host's latched inputs for the frame that starts, and its sample request (`70_reset_and_hazards.md` R603). -/
def applyInputs (s : State) : State :=
  match s.host.inputs with
  | [] => s
  | inp :: rest =>
    State.psgGenerate inp.samples
      { s with dev := inp.keys.foldl (applyKey s.params.keymap) s.dev, host := { s.host with inputs := rest } }

/-- The start of `Frame()`: inputs, then the budget (`70_reset_and_hazards.md` R591). -/
def beginFrame (s : State) : State :=
  let s1 := applyInputs s
  { s1 with host := { s1.host with budget := s1.params.frameBudget } }

/-- One turn of the loop of `Frame()`: `budget <- budget - RunStep()` (`70_reset_and_hazards.md` R591). -/
def frameTurn (s : State) : Host.Outcome State Fault Refusal :=
  match runStep s with
  | .next s1 => .next { s1 with host := { s1.host with budget := s1.host.budget - s1.report } }
  | .fault r => .fault r
  | .refused r => .refused r

/-- The model's step: one turn of the loop, after the start of a frame where none is running; a host that pauses or
stops is heeded only between frames (log 15, 16; `70_reset_and_hazards.md` R605). -/
def turn (s : State) : Host.Outcome State Fault Refusal :=
  let s1 := if s.host.budget ≤ 0 ∧ s.host.mode = .running then beginFrame s else s
  if s1.host.budget ≤ 0 then .next s1 else frameTurn s1

/-- The loop of `Frame()` with fuel; `none` where the fuel runs out first, for a frame of zero-cycle Steps need not end
(`70_reset_and_hazards.md` R597). -/
def frameLoop : Nat → State → Option (Host.Outcome State Fault Refusal)
  | 0, s => if s.host.budget ≤ 0 then some (.next s) else none
  | fuel + 1, s =>
    if s.host.budget ≤ 0 then some (.next s)
    else
      match frameTurn s with
      | .next s1 => frameLoop fuel s1
      | .fault r => some (.fault r)
      | .refused r => some (.refused r)

/-- `Frame()` (`70_reset_and_hazards.md` R591, R605); its outputs are left in `host` (log 18, 25). -/
def frame (fuel : Nat) (s : State) : Option (Host.Outcome State Fault Refusal) :=
  if s.host.mode = .running then frameLoop fuel (beginFrame s) else some (.next s)

/-! ### Reset and power-on -/

/-- `Reset()` (`70_reset_and_hazards.md` R580); the model's own fields stay (log 19). -/
def State.doReset (s : State) : State :=
  let s1 : State :=
    { s with
      mem := s.mem.resetRam s.params.ramInit
      dev := Devices.reset
      fcycles := s.params.fcyclesInit
      report := 0
      host := { s.host with budget := 0 } }
  let (pc, s2) := readWord 0xFFFE s1
  { s2 with cpu := Cpu.reset s.params.ccReset pc }

/-- The images in memory: the cartridge's first 32768 bytes, the ROM (`70_reset_and_hazards.md` R581, R601). -/
def imageMemory (rom cart : List Byte) : Memory := Memory.load 0xE000 rom (Memory.load 0 (cart.take 32768) [])

/-- Power-on (`70_reset_and_hazards.md` R581): none unless the ROM image has exactly 8192 bytes (R601). -/
def State.powerOn (p : Params) (rom cart : List Byte) : Option State :=
  if rom.length = 8192 then some (State.doReset { State.reset with params := p, mem := imageMemory rom cart }) else none

/-! ### The host's other operations -/

/-- `Key(code, pressed)`: collected for the next frame start (`70_reset_and_hazards.md` R603, log 14). -/
def State.key (code : Nat) (pressed : Bool) (s : State) : State :=
  let e : KeyEvent := { code := code, pressed := pressed }
  let inputs :=
    match s.host.inputs with
    | [] => [{ keys := [e], samples := 0 }]
    | inp :: rest => { inp with keys := inp.keys ++ [e] } :: rest
  { s with host := { s.host with inputs := inputs } }

/-- `Pause()`, `Resume()`, `Stop()` (`70_reset_and_hazards.md` R605). -/
def State.setMode (m : HostMode) (s : State) : State := { s with host := { s.host with mode := m } }

/-- The live-debug flag of `Frame()` set or cleared by the host (`60_exceptions.md` R426). -/
def State.setLiveDebug (b : Bool) (s : State) : State := { s with host := { s.host with liveDebug := b } }

/-- The registers of `GetRegister(id)` by name: the source gives no numeric ids (`70_reset_and_hazards.md` R606). -/
inductive RegName where
  | a | b | d | x | y | u | s | pc | dp | cc
  deriving DecidableEq, Repr

/-- `GetRegister(id)` (`70_reset_and_hazards.md` R606, `60_exceptions.md` R426). DESIGN CHOICE (log 24): the spec does not
give the width returned; the model returns 16 bits for every register, an 8-bit one with zeros above. -/
def State.getRegister (r : RegName) (s : State) : Word :=
  match r with
  | .a => zext8 s.cpu.a
  | .b => zext8 s.cpu.b
  | .d => s.cpu.d
  | .x => s.cpu.x
  | .y => s.cpu.y
  | .u => s.cpu.u
  | .s => s.cpu.s
  | .pc => s.cpu.pc
  | .dp => zext8 s.cpu.dp
  | .cc => zext8 s.cpu.cc

/-! ### An instruction placed where the next Step fetches -/

/-- An address that holds a byte of one of the memories. -/
def isPlain (a : Word) : Bool :=
  match target a with
  | .rom _ | .cart _ | .ram _ | .ramIo _ _ => true
  | .io _ | .unmapped => false

/-- A byte put into the memory behind an address, as the load of an image does. -/
def storeCell (a : Word) (v : Byte) (s : State) : State :=
  match target a with
  | .rom k | .cart k | .ram k | .ramIo k _ => s.setMem (s.mem.set k v)
  | .io _ | .unmapped => s

/-- Bytes put into the memory from an address up. -/
def storeCells (a : Word) : List Byte → State → State
  | [], s => s
  | b :: bs, s => storeCells (a + 1) bs (storeCell a b s)

/-- The PC moved to 0 where the five bytes from it up are not all memory (log 9). -/
def plainPc (s : State) : State :=
  if isPlain s.cpu.pc && isPlain (s.cpu.pc + 1) && isPlain (s.cpu.pc + 2) && isPlain (s.cpu.pc + 3)
    && isPlain (s.cpu.pc + 4) then s else s.setPc 0

/-- No line diverts the next Step: an asserted IRQ line masked, an asserted `FIRQ_SOURCE` value taken as 0 (log 9). -/
def quietLines (s : State) : State :=
  let s1 := if s.irqLine && !getFlag .i s.cpu.cc then s.writeFlag .i true else s
  if s1.firqLine then { s1 with host := { s1.host with firq := false :: s1.host.firq.tail } } else s1

/-- A turn of a frame comes next: a budget of 1 where no frame runs and none could start (log 9). -/
def openFrame (s : State) : State :=
  if s.host.budget ≤ 0 ∧ (s.host.mode ≠ .running ∨ s.params.frameBudget = 0) then
    { s with host := { s.host with budget := 1 } }
  else s

/-- The instruction's bytes stored where the next Step fetches, and nothing in that Step's way (log 9). -/
def placeWord (nbits w : Nat) (s : State) : State :=
  let s1 := plainPc (openFrame (quietLines (s.setWait .normal)))
  storeCells s1.cpu.pc (tableBytes nbits w) s1

end Sys2Proof.Machine
end

