-- ==== Sys2Proof/Machine/Step.lean ====
section
/-! DEFINITION. The machine's step, and an instruction word placed where it fetches. -/

namespace Sys2Proof.Machine

/-- One step of the machine: one turn of the system loop (`70_reset_and_hazards.md` R590, R591; log 15). -/
def step (s : State) : Host.Outcome State Fault Refusal := turn s

/-- `s` with an instruction, given as a word of `opcode_table.json`, where `step` fetches next (log 8, 9). -/
def State.withFetchWord (s : State) (nbits w : Nat) : State := placeWord nbits w s

end Sys2Proof.Machine
end

