-- ==== Sys2Proof/Safety.lean ====
section
/-! DEFINITION. The terms that claims are stated in: safe steps, the frame of an instruction, where bytes lie in memory,
the invariant of the machine. -/

namespace Sys2Proof.Machine

/-! ### Safe runs -/

/-- The step goes on. -/
def safeStep (s : State) : Bool :=
  match step s with
  | .next _ => true
  | .fault _ | .refused _ => false

/-- `n` steps, each a next state. -/
def runsTo : Nat → State → State → Prop
  | 0, s, t => s = t
  | n + 1, s, t => ∃ u, step s = .next u ∧ runsTo n u t

/-! ### Memory as a program sees it -/

/-- The RAM byte an address selects: `addr[15:13] = 110` and `addr[11] = 1`, index `addr[9:0]` (`20_memory.md` R91). -/
def ramIndex (a : Word) : Option (BitVec 10) :=
  if a.extractLsb' 13 3 = 0b110 ∧ a.getLsbD 11 = true then some (a.extractLsb' 0 10) else none

/-- The IO register a write to an address reaches: `addr[15:13] = 110` and `addr[12] = 1`, register `addr[3:0]`
(`20_memory.md` R91). -/
def ioRegister (a : Word) : Option (BitVec 4) :=
  if a.extractLsb' 13 3 = 0b110 ∧ a.getLsbD 12 = true then some (a.extractLsb' 0 4) else none

/-- The two addresses select one RAM byte. -/
def sameRam (a b : Word) : Prop := ramIndex a ≠ none ∧ ramIndex a = ramIndex b

/-- The two states read alike at an address. -/
def readsAlike (s t : State) (a : Word) : Prop := t.peek a = s.peek a

/-- Every address reads as before. -/
def keepsMemory (s t : State) : Prop := ∀ a, readsAlike s t a

/-- Every address but those that select a RAM byte of the `n` addresses from `base` up reads as before. -/
def keepsMemoryBut (base : Word) (n : Nat) (s t : State) : Prop :=
  ∀ a, (∀ k < n, ¬ sameRam a (base + BitVec.ofNat 16 k)) → readsAlike s t a

/-- The bytes stored from `base` up read back, each where its address selects RAM (a write elsewhere is ignored or goes
to the IO chip alone, `20_memory.md` R93). -/
def storesBytes (base : Word) (bs : List Byte) (t : State) : Prop :=
  ∀ k (h : k < bs.length), ramIndex (base + BitVec.ofNat 16 k) ≠ none →
    t.peek (base + BitVec.ofNat 16 k) = some bs[k]

/-- The bytes lie at `base` and up, in memory. -/
def bytesAt (base : Word) (bs : List Byte) (s : State) : Prop :=
  ∀ k (h : k < bs.length), s.peek (base + BitVec.ofNat 16 k) = some bs[k]

/-- None of the `n` addresses from `base` up reaches the IO chip. -/
def avoidsIo (base : Word) (n : Nat) : Prop := ∀ k < n, ioRegister (base + BitVec.ofNat 16 k) = none

/-- Each of the `n` addresses from `base` up selects RAM. -/
def inRam (base : Word) (n : Nat) : Prop := ∀ k < n, ramIndex (base + BitVec.ofNat 16 k) ≠ none

/-! ### Frames -/

/-- Every register but the listed ones reads as before (`GetRegister`, `70_reset_and_hazards.md` R606). -/
def keepsRegisters (written : List RegName) (s t : State) : Prop :=
  ∀ r, r ∉ written → t.getRegister r = s.getRegister r

/-- Every flag but the listed ones is as before. -/
def keepsFlags (written : List Flag) (s t : State) : Prop :=
  ∀ fl, fl ∉ written → getFlag fl t.cpu.cc = getFlag fl s.cpu.cc

/-- What no instruction's own effect touches but by the bus: the frame counter, the parameters, the host's side. -/
def keepsSystem (s t : State) : Prop :=
  t.fcycles = s.fcycles ∧ t.params = s.params ∧ t.host = s.host

/-- The wait flag and what `keepsSystem` says. -/
def keepsControl (s t : State) : Prop := t.cpu.wait = s.cpu.wait ∧ keepsSystem s t

/-! ### What an operand updates -/

/-- The register's name for `GetRegister`. -/
def iregName : IReg → RegName
  | .x => .x
  | .y => .y
  | .u => .u
  | .s => .s

/-- The name of an accumulator. -/
def Acc.name : Acc → RegName
  | .a => .a
  | .b => .b

/-- The names a write of a 16-bit register changes; D is A and B. -/
def Reg16.names : Reg16 → List RegName
  | .d => [.d, .a, .b]
  | .x => [.x]
  | .y => [.y]
  | .u => [.u]
  | .s => [.s]

/-- The stack pointer's name. -/
def StackPtr.name : StackPtr → RegName
  | .hw => .s
  | .user => .u

/-- The base register an auto-increment or auto-decrement mode updates (`30_encoding.md` R132). -/
def modeUpdates : IdxMode → List RegName
  | .postInc1 r | .postInc2 r _ | .preDec1 r | .preDec2 r _ => [iregName r]
  | .off5 _ _ | .zero _ _ | .accB _ _ | .accA _ _ | .off8 _ _ _ | .off16 _ _ _ | .accD _ _
  | .pcr8 _ _ | .pcr16 _ _ | .extInd _ => []

/-- The register a memory operand's addressing updates. -/
def memUpdates : MemOp → List RegName
  | .idx m => modeUpdates m
  | .dir _ | .ext _ => []

/-- The register an 8-bit operand's addressing updates. -/
def opnd8Updates : Opnd8 → List RegName
  | .imm _ => []
  | .mem m => memUpdates m

/-- The register a 16-bit operand's addressing updates. -/
def opnd16Updates : Opnd16 → List RegName
  | .imm _ => []
  | .mem m => memUpdates m

/-- The cycles an operand's postbyte adds (`30_encoding.md` R136). -/
def memExtra : MemOp → Nat
  | .idx m => indexedCycles m
  | .dir _ | .ext _ => 0

def opnd8Extra : Opnd8 → Nat
  | .imm _ => 0
  | .mem m => memExtra m

def opnd16Extra : Opnd16 → Nat
  | .imm _ => 0
  | .mem m => memExtra m

/-- The registers after an instruction that reached its operand first: `s1` is the state with the operand reached, `upd`
what its addressing updates. Nothing but `written` differs from `s1`, nothing but `written` and `upd` from `s`. -/
def registerFrame (written upd : List RegName) (s s1 t : State) : Prop :=
  keepsRegisters written s1 t ∧ keepsRegisters (written ++ upd) s t ∧ keepsControl s t

/-- Memory, devices, draws and control as in `s`: the frame of an instruction that works on registers alone. -/
def keepsRest (s t : State) : Prop := keepsMemory s t ∧ t.dev = s.dev ∧ t.draws = s.draws ∧ keepsControl s t

/-- The devices after one bus write (`20_memory.md` R93). -/
def busWriteDev (p : Params) (a : Word) (v : Byte) (d : Devices) : Devices :=
  match ioRegister a with
  | some r => viaWrite (viaReg p.viaFlagsSwapped r) v d
  | none => d

/-! ### Instructions by family -/

/-- LDA, LDB. -/
def loadAcc : Acc → Opnd8 → Instr
  | .a => .lda
  | .b => .ldb

/-- LDD, LDX, LDY, LDU, LDS. -/
def loadReg : Reg16 → Opnd16 → Instr
  | .d => .ldd
  | .x => .ldx
  | .y => .ldy
  | .u => .ldu
  | .s => .lds

/-- STA, STB. -/
def storeAcc : Acc → MemOp → Instr
  | .a => .sta
  | .b => .stb

/-- STD, STX, STY, STU, STS. -/
def storeReg : Reg16 → MemOp → Instr
  | .d => .std
  | .x => .stx
  | .y => .sty
  | .u => .stu
  | .s => .sts

/-- LEAX, LEAY, LEAU, LEAS. -/
def leaReg : IReg → IdxMode → Instr
  | .x => .leax
  | .y => .leay
  | .u => .leau
  | .s => .leas

/-- PSHS, PSHU. -/
def pushInstr : StackPtr → Byte → Instr
  | .hw => .pshs
  | .user => .pshu

/-- PULS, PULU. -/
def pullInstr : StackPtr → Byte → Instr
  | .hw => .puls
  | .user => .pulu

/-- ADDA, ADDB; with carry ADCA, ADCB. -/
def addInstr : Bool → Acc → Opnd8 → Instr
  | false, .a => .adda
  | false, .b => .addb
  | true, .a => .adca
  | true, .b => .adcb

/-- SUBA, SUBB; with borrow SBCA, SBCB. -/
def subInstr : Bool → Acc → Opnd8 → Instr
  | false, .a => .suba
  | false, .b => .subb
  | true, .a => .sbca
  | true, .b => .sbcb

/-- CMPA, CMPB. -/
def cmpInstr : Acc → Opnd8 → Instr
  | .a => .cmpa
  | .b => .cmpb

/-- The bitwise operations. -/
inductive LogicOp where
  | and | or | eor
  deriving DecidableEq, Repr

/-- The bitwise result. -/
def LogicOp.result : LogicOp → Byte → Byte → Byte
  | .and, a, m => a &&& m
  | .or, a, m => a ||| m
  | .eor, a, m => a ^^^ m

/-- ANDA, ANDB, ORA, ORB, EORA, EORB. -/
def logicInstr : LogicOp → Acc → Opnd8 → Instr
  | .and, .a => .anda
  | .and, .b => .andb
  | .or, .a => .ora
  | .or, .b => .orb
  | .eor, .a => .eora
  | .eor, .b => .eorb

/-- BITA, BITB. -/
def bitInstr : Acc → Opnd8 → Instr
  | .a => .bita
  | .b => .bitb

/-- NEG, COM, LSR, ROR, ASR, ASL, ROL, DEC, INC on memory. -/
def unaryMem : UnaryOp → MemOp → Instr
  | .neg => .neg
  | .com => .com
  | .lsr => .lsr
  | .ror => .ror
  | .asr => .asr
  | .asl => .asl
  | .rol => .rol
  | .dec => .dec
  | .inc => .inc

/-- The same on A and on B. -/
def unaryAcc : UnaryOp → Acc → Instr
  | .neg, .a => .nega
  | .com, .a => .coma
  | .lsr, .a => .lsra
  | .ror, .a => .rora
  | .asr, .a => .asra
  | .asl, .a => .asla
  | .rol, .a => .rola
  | .dec, .a => .deca
  | .inc, .a => .inca
  | .neg, .b => .negb
  | .com, .b => .comb
  | .lsr, .b => .lsrb
  | .ror, .b => .rorb
  | .asr, .b => .asrb
  | .asl, .b => .aslb
  | .rol, .b => .rolb
  | .dec, .b => .decb
  | .inc, .b => .incb

/-- TSTA, TSTB. -/
def tstAcc : Acc → Instr
  | .a => .tsta
  | .b => .tstb

/-- CLRA, CLRB. -/
def clrAcc : Acc → Instr
  | .a => .clra
  | .b => .clrb

/-- CMPD, CMPX, CMPY, CMPU, CMPS. -/
def cmpReg : Reg16 → Opnd16 → Instr
  | .d => .cmpd
  | .x => .cmpx
  | .y => .cmpy
  | .u => .cmpu
  | .s => .cmps

/-- The short branches, by condition (`43_branch_control.md` R310). -/
def shortInstr : Cond → Byte → Instr
  | .always => .bra
  | .never => .brn
  | .hi => .bhi
  | .ls => .bls
  | .cc => .bcc
  | .cs => .bcs
  | .ne => .bne
  | .eq => .beq
  | .vc => .bvc
  | .vs => .bvs
  | .pl => .bpl
  | .mi => .bmi
  | .ge => .bge
  | .lt => .blt
  | .gt => .bgt
  | .le => .ble

/-- The long branches, by condition (`43_branch_control.md` R310). -/
def longInstr : Cond → Word → Instr
  | .always => .lbra
  | .never => .lbrn
  | .hi => .lbhi
  | .ls => .lbls
  | .cc => .lbcc
  | .cs => .lbcs
  | .ne => .lbne
  | .eq => .lbeq
  | .vc => .lbvc
  | .vs => .lbvs
  | .pl => .lbpl
  | .mi => .lbmi
  | .ge => .lbge
  | .lt => .lblt
  | .gt => .lbgt
  | .le => .lble

/-- The CC digit N:Z:V:C for which each branch is taken, the last column of `43_branch_control.md` R310. -/
def Cond.takenFor : Cond → List Nat
  | .always => [0x0, 0x1, 0x2, 0x3, 0x4, 0x5, 0x6, 0x7, 0x8, 0x9, 0xA, 0xB, 0xC, 0xD, 0xE, 0xF]
  | .never => []
  | .hi => [0x0, 0x2, 0x8, 0xA]
  | .ls => [0x1, 0x3, 0x4, 0x5, 0x6, 0x7, 0x9, 0xB, 0xC, 0xD, 0xE, 0xF]
  | .cc => [0x0, 0x2, 0x4, 0x6, 0x8, 0xA, 0xC, 0xE]
  | .cs => [0x1, 0x3, 0x5, 0x7, 0x9, 0xB, 0xD, 0xF]
  | .ne => [0x0, 0x1, 0x2, 0x3, 0x8, 0x9, 0xA, 0xB]
  | .eq => [0x4, 0x5, 0x6, 0x7, 0xC, 0xD, 0xE, 0xF]
  | .vc => [0x0, 0x1, 0x4, 0x5, 0x8, 0x9, 0xC, 0xD]
  | .vs => [0x2, 0x3, 0x6, 0x7, 0xA, 0xB, 0xE, 0xF]
  | .pl => [0x0, 0x1, 0x2, 0x3, 0x4, 0x5, 0x6, 0x7]
  | .mi => [0x8, 0x9, 0xA, 0xB, 0xC, 0xD, 0xE, 0xF]
  | .ge => [0x0, 0x1, 0x4, 0x5, 0xA, 0xB, 0xE, 0xF]
  | .lt => [0x2, 0x3, 0x6, 0x7, 0x8, 0x9, 0xC, 0xD]
  | .gt => [0x0, 0x1, 0xA, 0xB]
  | .le => [0x2, 0x3, 0x4, 0x5, 0x6, 0x7, 0x8, 0x9, 0xC, 0xD, 0xE, 0xF]

/-- The branch is taken for a CC byte, read off the table. -/
def takenByTable (k : Cond) (cc : Byte) : Bool := k.takenFor.contains (cc.toNat % 16)

/-- One cycle more on pages 2 and 3 (`30_encoding.md` R150). -/
def pageTwoLoad : Reg16 → Nat
  | .y | .s => 1
  | .d | .x | .u => 0

def pageTwoCompare : Reg16 → Nat
  | .d | .y | .u | .s => 1
  | .x => 0

/-! ### Register codes -/

/-- The register of a TFR or EXG code (`40_load_store_transfer.md` R200). -/
def codeName (code : BitVec 4) : Option RegName :=
  match code.toNat with
  | 0 => some .d
  | 1 => some .x
  | 2 => some .y
  | 3 => some .u
  | 4 => some .s
  | 5 => some .pc
  | 8 => some .a
  | 9 => some .b
  | 10 => some .cc
  | 11 => some .dp
  | _ => none

/-- The names a write of a code's register changes. -/
def codeWrites (code : BitVec 4) : List RegName :=
  match codeName code with
  | some .d => [.d, .a, .b]
  | some .a => [.a, .d]
  | some .b => [.b, .d]
  | some r => [r]
  | none => []

/-- What a code reads: a 16-bit register, an 8-bit one below 0xFF, 0xFFFF where no register has the code
(`40_load_store_transfer.md` R200). -/
def codeValue (code : BitVec 4) (s : State) : Word :=
  match codeName code with
  | some r => if code.toNat < 8 then s.getRegister r else 0xFF00 ||| s.getRegister r
  | none => 0xFFFF

/-- What a code's register reads after a 16-bit value was written to it. -/
def codeStored (code : BitVec 4) (v : Word) : Word := if code.toNat < 8 then v else v &&& 0x00FF

/-! ### Stacked registers -/

/-- The other stack pointer's value (`40_load_store_transfer.md` R205). -/
def Cpu.otherSp (p : StackPtr) (c : Cpu) : Word :=
  match p with
  | .hw => c.u
  | .user => c.s

/-- The bytes a list push leaves, from the final stack pointer upward: CC, A, B, DP, X, Y, the other stack pointer, PC,
each where its mask bit is set, high bytes first (`40_load_store_transfer.md` R205). -/
def listContents (p : StackPtr) (mask : Byte) (c : Cpu) : List Byte :=
  (if mask.getLsbD 0 then [c.cc] else []) ++ (if mask.getLsbD 1 then [c.a] else [])
    ++ (if mask.getLsbD 2 then [c.b] else []) ++ (if mask.getLsbD 3 then [c.dp] else [])
    ++ (if mask.getLsbD 4 then [hiByte c.x, loByte c.x] else [])
    ++ (if mask.getLsbD 5 then [hiByte c.y, loByte c.y] else [])
    ++ (if mask.getLsbD 6 then [hiByte (c.otherSp p), loByte (c.otherSp p)] else [])
    ++ (if mask.getLsbD 7 then [hiByte c.pc, loByte c.pc] else [])

/-- The CPU after the list's registers took the values they have in `c` and the stack pointer moved up by the bytes
pulled (`40_load_store_transfer.md` R205). -/
def restoredCpu (p : StackPtr) (mask : Byte) (c old : Cpu) : Cpu :=
  let n := BitVec.ofNat 16 (listBytes mask)
  { cc := if mask.getLsbD 0 then c.cc else old.cc
    a := if mask.getLsbD 1 then c.a else old.a
    b := if mask.getLsbD 2 then c.b else old.b
    dp := if mask.getLsbD 3 then c.dp else old.dp
    x := if mask.getLsbD 4 then c.x else old.x
    y := if mask.getLsbD 5 then c.y else old.y
    u := match p with
      | .hw => if mask.getLsbD 6 then c.u else old.u
      | .user => old.u + n
    s := match p with
      | .hw => old.s + n
      | .user => if mask.getLsbD 6 then c.s else old.s
    pc := if mask.getLsbD 7 then c.pc else old.pc
    wait := old.wait }

/-! ### Interrupt frames, vectors, turns of the system loop -/

/-- The big-endian word of a vector of the ROM (`20_memory.md` R96). -/
def State.vectorWord (a : Word) (s : State) : Word := wordOf (s.mem.get a.toNat) (s.mem.get (a.toNat + 1))

/-- The CPU with E written in CC. -/
def Cpu.withE (b : Bool) (c : Cpu) : Cpu := { c with cc := setFlag .e b c.cc }

/-- The twelve bytes of the entire frame, from the final S upward; the stacked CC has E = 1 (`44_system.md` R370). -/
def Cpu.entireFrame (c : Cpu) : List Byte :=
  [setFlag .e true c.cc, c.a, c.b, c.dp, hiByte c.x, loByte c.x, hiByte c.y, loByte c.y, hiByte c.u, loByte c.u,
    hiByte c.pc, loByte c.pc]

/-- The three bytes of the short frame; the stacked CC has E = 0 (`44_system.md` R370). -/
def Cpu.shortFrame (c : Cpu) : List Byte := [setFlag .e false c.cc, hiByte c.pc, loByte c.pc]

/-- `n` bytes stacked on S and nothing else done but to `written`: the registers, flags and memory of an entry. -/
def stacksFrame (bytes : List Byte) (s t : State) : Prop :=
  t.cpu.s = s.cpu.s - BitVec.ofNat 16 bytes.length ∧ storesBytes t.cpu.s bytes t ∧
    keepsMemoryBut t.cpu.s bytes.length s t ∧ (avoidsIo t.cpu.s bytes.length → t.dev = s.dev)

/-- No line diverts the next Step, and no wait stops it (`60_exceptions.md` R404, R408). -/
def readyToRun (s : State) : Prop :=
  s.cpu.wait = .normal ∧ (s.irqLine = true → getFlag .i s.cpu.cc = true) ∧
    (s.firqLine = true → getFlag .f s.cpu.cc = true)

/-- What the system loop makes of the state a Step left: device cycles, frame counter, budget
(`70_reset_and_hazards.md` R590, R591). -/
def endTurn (t : State) : State :=
  { afterStep t with host := { (afterStep t).host with budget := (afterStep t).host.budget - t.report } }

/-- The 39 postbytes that select no documented mode (`30_encoding.md` R137). -/
def undefinedPostbytes : List Byte :=
  [0x87, 0xA7, 0xC7, 0xE7, 0x8A, 0xAA, 0xCA, 0xEA, 0x8E, 0xAE, 0xCE, 0xEE, 0x8F, 0xAF, 0xCF, 0xEF]
    ++ [0x90, 0xB0, 0xD0, 0xF0, 0x92, 0xB2, 0xD2, 0xF2, 0x97, 0xB7, 0xD7, 0xF7, 0x9A, 0xBA, 0xDA, 0xFA]
    ++ [0x9E, 0xBE, 0xDE, 0xFE, 0xBF, 0xDF, 0xFF]

/-- The bits of a flag byte after some flags changed: the low seven are `low`, bit 7 is the OR of the enabled ones
(`61_timer_io_chip.md` R442). -/
def flagByte (low : Nat → Bool) (ier ifr : Byte) : Prop :=
  (∀ k < 7, ifr.getLsbD k = low k) ∧ (ifr.getLsbD 7 = true ↔ ∃ k < 7, low k = true ∧ ier.getLsbD k = true)

/-- The write masks of the sound registers, the mask column of `63_sound_chip.md` R541. -/
def soundMasks : List Byte :=
  [0xFF, 0x0F, 0xFF, 0x0F, 0xFF, 0x0F, 0x1F, 0xFF, 0x1F, 0x1F, 0x1F, 0xFF, 0xFF, 0x0F, 0xFF, 0xFF]

/-! ### The invariant of the machine -/

/-- `10_state.md` R38, R39: the bit count, the unstored enable bit, and bit 7 of the flag byte as the OR of the enabled
flags. -/
structure Via.Inv (v : Via) : Prop where
  srb : v.srb ≤ 8
  ier : v.ier.getLsbD 7 = false
  ifr : v.ifr.getLsbD 7 = decide ((v.ifr &&& v.ier &&& 0x7F) ≠ 0)

/-- A point of the logical space (`62_analog_vector.md` R501). -/
def onScreen (x y : Int) : Prop := 0 ≤ x ∧ x < Config.algMaxX ∧ 0 ≤ y ∧ y < Config.algMaxY

/-- `10_state.md` R46, R48: the intensity's range, the cached deltas, the candidate's points and colour. -/
structure Alg.Inv (a : Alg) : Prop where
  zsh : a.zsh ≤ 127
  dx : a.dx = (a.xsh.toNat : Int) - a.rsh.toNat
  dy : a.dy = (a.rsh.toNat : Int) - a.ysh.toNat
  vec : ∀ c, a.vec = some c → onScreen c.x0 c.y0 ∧ onScreen c.x1 c.y1 ∧ c.color ≤ 127

/-- A list entry with a colour up to `bound`. -/
def Segment.ok (bound : Nat) (e : Segment) : Prop := onScreen e.x0 e.y0 ∧ onScreen e.x1 e.y1 ∧ e.color ≤ bound

/-- `62_analog_vector.md` R522. -/
structure Lists.Inv (l : Lists) : Prop where
  drawLength : l.draw.length ≤ Config.vectorCnt
  eraseLength : l.erase.length ≤ Config.vectorCnt
  draw : ∀ e ∈ l.draw, e.ok 127
  erase : ∀ e ∈ l.erase, e.ok Config.colorRange
  hashWf : sparseWf (fun _ => 0) l.hash = true
  hash : ∀ c ∈ l.hash, c.2 < Config.vectorCnt

/-- `63_sound_chip.md` R541, R556: every register within its mask, the attack mask 0 or 31. -/
structure Psg.Inv (p : Psg) : Prop where
  reg : ∀ r : BitVec 4, p.read r &&& ~~~(psgMask r) = 0
  eatt : p.eatt = 0 ∨ p.eatt = 31

/-- The devices' invariants together. -/
structure Devices.Inv (d : Devices) : Prop where
  via : d.via.Inv
  alg : d.alg.Inv
  lists : d.lists.Inv
  psg : d.psg.Inv

/-- The invariant of the machine: memory in canonical form, and the devices' invariants. -/
structure State.Inv (s : State) : Prop where
  mem : s.mem.wf = true
  dev : s.dev.Inv

end Sys2Proof.Machine
end

