-- ==== Sys2Proof/Certificates/Slice0/Obligations.lean ====
section
/-! DEFINITION. The statements for the provers. Each docstring names the rules of the spec it formalises. -/

section

open Sys2Proof Sys2Proof.Machine

/-! ### Loads, stores, address loads, transfers, stacks -/

/-- LDA, LDB (R161, R162), every operand form: the register takes the operand, N and Z from it, V cleared, every other
flag, register and byte of memory as before. -/
def Obligations.LoadsOfEightBits : Prop :=
  ∀ (r : Acc) (o : Opnd8) (s : State), ∃ t, exec (loadAcc r o) s = .next t ∧
    t.getAcc r = (operand8 o s).1 ∧
    getFlag .n t.cpu.cc = (operand8 o s).1.getLsbD 7 ∧
    getFlag .z t.cpu.cc = decide ((operand8 o s).1 = 0) ∧
    getFlag .v t.cpu.cc = false ∧
    keepsFlags [.n, .z, .v] s t ∧
    registerFrame [r.name, .d, .cc] (opnd8Updates o) s (operand8 o s).2 t ∧
    keepsMemory s t ∧ t.dev = (operand8 o s).2.dev ∧ t.draws = s.draws ∧
    t.report = s.report + opnd8Cycles 2 4 4 5 o + opnd8Extra o

/-- LDD, LDX, LDY, LDU, LDS (R163-R167), every operand form; a load of the register that the operand's addressing
updates ends with the loaded value. -/
def Obligations.LoadsOfSixteenBits : Prop :=
  ∀ (r : Reg16) (o : Opnd16) (s : State), ∃ t, exec (loadReg r o) s = .next t ∧
    t.getReg16 r = (operand16 o s).1 ∧
    getFlag .n t.cpu.cc = (operand16 o s).1.getLsbD 15 ∧
    getFlag .z t.cpu.cc = decide ((operand16 o s).1 = 0) ∧
    getFlag .v t.cpu.cc = false ∧
    keepsFlags [.n, .z, .v] s t ∧
    registerFrame (r.names ++ [.cc]) (opnd16Updates o) s (operand16 o s).2 t ∧
    keepsMemory s t ∧ t.dev = (operand16 o s).2.dev ∧ t.draws = s.draws ∧
    t.report = s.report + pageTwoLoad r + opnd16Cycles 3 5 5 6 o + opnd16Extra o

/-- STA, STB (R170, R171), every form: one write of the register at the effective address, which reads back where the
address selects RAM, goes to the IO chip where it reaches it, and is lost elsewhere; the flags are set all the same. -/
def Obligations.StoresOfEightBits : Prop :=
  ∀ (r : Acc) (m : MemOp) (s : State), ∃ t, exec (storeAcc r m) s = .next t ∧
    getFlag .n t.cpu.cc = (s.getAcc r).getLsbD 7 ∧
    getFlag .z t.cpu.cc = decide (s.getAcc r = 0) ∧
    getFlag .v t.cpu.cc = false ∧
    keepsFlags [.n, .z, .v] s t ∧
    registerFrame [.cc] (memUpdates m) s (effectiveAddress m s).2 t ∧
    storesBytes (effectiveAddress m s).1 [s.getAcc r] t ∧
    keepsMemoryBut (effectiveAddress m s).1 1 s t ∧
    t.dev = busWriteDev s.params (effectiveAddress m s).1 (s.getAcc r) (effectiveAddress m s).2.dev ∧
    t.draws = s.draws ∧ t.report = s.report + memCycles 4 4 5 m + memExtra m

/-- STD, STX, STY, STU, STS (R172-R176), every form: the register as it is AFTER the address is computed, high byte at
the effective address, low byte at the next; two bus writes in that order. -/
def Obligations.StoresOfSixteenBits : Prop :=
  ∀ (r : Reg16) (m : MemOp) (s : State), ∃ t, exec (storeReg r m) s = .next t ∧
    getFlag .n t.cpu.cc = ((effectiveAddress m s).2.getReg16 r).getLsbD 15 ∧
    getFlag .z t.cpu.cc = decide ((effectiveAddress m s).2.getReg16 r = 0) ∧
    getFlag .v t.cpu.cc = false ∧
    keepsFlags [.n, .z, .v] s t ∧
    registerFrame [.cc] (memUpdates m) s (effectiveAddress m s).2 t ∧
    storesBytes (effectiveAddress m s).1
      [hiByte ((effectiveAddress m s).2.getReg16 r), loByte ((effectiveAddress m s).2.getReg16 r)] t ∧
    keepsMemoryBut (effectiveAddress m s).1 2 s t ∧
    t.dev = busWriteDev s.params ((effectiveAddress m s).1 + 1) (loByte ((effectiveAddress m s).2.getReg16 r))
      (busWriteDev s.params (effectiveAddress m s).1 (hiByte ((effectiveAddress m s).2.getReg16 r))
        (effectiveAddress m s).2.dev) ∧
    t.draws = s.draws ∧ t.report = s.report + pageTwoLoad r + memCycles 5 5 6 m + memExtra m

/-- LEAX, LEAY, LEAU, LEAS (R180-R183), every mode: the register takes the address, over any update of the mode; Z only,
and only in LEAX and LEAY. -/
def Obligations.LoadsOfAddresses : Prop :=
  ∀ (r : IReg) (m : IdxMode) (s : State), ∃ t, exec (leaReg r m) s = .next t ∧
    t.getIndex r = (indexedEa m s).1 ∧
    (r = .x ∨ r = .y → getFlag .z t.cpu.cc = decide ((indexedEa m s).1 = 0) ∧ keepsFlags [.z] s t) ∧
    (r = .u ∨ r = .s → keepsFlags [] s t) ∧
    registerFrame [iregName r, .cc] (modeUpdates m) s (indexedEa m s).2 t ∧
    keepsMemory s t ∧ t.dev = (indexedEa m s).2.dev ∧ t.draws = s.draws ∧
    t.report = s.report + 4 + indexedCycles m

/-- TFR (R201) and EXG (R202), every pair of codes, codes without a register included: the destination takes the source's
16-bit reading, cut to its width; EXG writes the second register first, so that where the two share no byte the old
readings are exchanged, and where A or B meets D the last clauses say what both halves of D hold. Nothing else changes,
CC only as a destination. -/
def Obligations.TransferAndExchange : Prop :=
  ∀ (r1 r2 : BitVec 4) (s : State),
    (∃ t, exec (.tfr r1 r2) s = .next t ∧
      (∀ n, codeName r2 = some n → t.getRegister n = codeStored r2 (codeValue r1 s)) ∧
      keepsRegisters (codeWrites r2) s t ∧ keepsRest s t ∧ t.report = s.report + 6) ∧
    (∃ t, exec (.exg r1 r2) s = .next t ∧
      (∀ n, codeName r1 = some n → t.getRegister n = codeStored r1 (codeValue r2 s)) ∧
      (∀ n, codeName r2 = some n → n ∉ codeWrites r1 → t.getRegister n = codeStored r2 (codeValue r1 s)) ∧
      (r1 = 8 → r2 = 0 → t.cpu.a = s.cpu.b ∧ t.cpu.b = s.cpu.a) ∧
      (r1 = 0 → r2 = 8 → t.cpu.a = 0xFF ∧ t.cpu.b = s.cpu.a) ∧
      (r1 = 9 ∧ r2 = 0 ∨ r1 = 0 ∧ r2 = 9 → t.cpu.a = 0xFF ∧ t.cpu.b = s.cpu.b) ∧
      keepsRegisters (codeWrites r1 ++ codeWrites r2) s t ∧ keepsRest s t ∧ t.report = s.report + 8)

/-- PSHS, PSHU (R205-R207), every mask: the listed registers as they are at the start lie from the final stack pointer
upward in the order CC A B DP X Y other PC; the pointer moves down by their bytes. -/
def Obligations.PushStacksRegisters : Prop :=
  ∀ (p : StackPtr) (mask : Byte) (s : State), ∃ t, exec (pushInstr p mask) s = .next t ∧
    t.getSp p = s.getSp p - BitVec.ofNat 16 (listBytes mask) ∧
    storesBytes (t.getSp p) (listContents p mask s.cpu) t ∧
    keepsMemoryBut (t.getSp p) (listBytes mask) s t ∧
    keepsRegisters [p.name] s t ∧ keepsControl s t ∧ t.draws = s.draws ∧
    (avoidsIo (t.getSp p) (listBytes mask) → t.dev = s.dev) ∧
    t.report = s.report + 5 + listBytes mask

/-- PULS, PULU (R205, R208, R209), every mask: the listed registers, and no other, take the values pulled, the pointer
moves up by their bytes; where the bytes of the list's registers as some CPU `c` has them lie in memory at the pointer,
those are the values pulled. -/
def Obligations.PullRestoresRegisters : Prop :=
  ∀ (p : StackPtr) (mask : Byte) (s : State), ∃ t, exec (pullInstr p mask) s = .next t ∧
    (∃ c, t.cpu = restoredCpu p mask c s.cpu) ∧
    (∀ c, bytesAt (s.getSp p) (listContents p mask c) s → t.cpu = restoredCpu p mask c s.cpu ∧ t.dev = s.dev) ∧
    keepsMemory s t ∧ keepsSystem s t ∧ t.draws = s.draws ∧ t.report = s.report + 5 + listBytes mask

/-- A list pushed and pulled again with the same mask, from RAM that no IO register shares, gives back every register of
the list and the stack pointer (R205: "a pull with the same mask restores exactly what was pushed"). -/
def Obligations.PullUndoesPush : Prop :=
  ∀ (p : StackPtr) (mask : Byte) (s : State),
    inRam (s.getSp p - BitVec.ofNat 16 (listBytes mask)) (listBytes mask) →
    ∃ t u, exec (pushInstr p mask) s = .next t ∧ exec (pullInstr p mask) t = .next u ∧ u.cpu = s.cpu

/-! ### Eight-bit arithmetic and logic -/

/-- ADDA, ADDB, ADCA, ADCB (R220, R223-R226), every operand form: the sum with the carry in, the carry out of bit 7, the
half-carry out of bit 3, the overflow by change of sign. -/
def Obligations.AddsOfEightBits : Prop :=
  ∀ (withCarry : Bool) (r : Acc) (o : Opnd8) (s : State), ∃ t, exec (addInstr withCarry r o) s = .next t ∧
    let a := s.getAcc r
    let m := (operand8 o s).1
    let c := (withCarry && getFlag .c s.cpu.cc).toNat
    (t.getAcc r).toNat = (a.toNat + m.toNat + c) % 256 ∧
    getFlag .c t.cpu.cc = decide (a.toNat + m.toNat + c > 255) ∧
    getFlag .h t.cpu.cc = decide (a.toNat % 16 + m.toNat % 16 + c > 15) ∧
    getFlag .v t.cpu.cc = ((a.msb == m.msb) && (a.msb != (t.getAcc r).msb)) ∧
    getFlag .n t.cpu.cc = (t.getAcc r).getLsbD 7 ∧
    getFlag .z t.cpu.cc = decide (t.getAcc r = 0) ∧
    keepsFlags [.c, .h, .v, .n, .z] s t ∧
    registerFrame [r.name, .d, .cc] (opnd8Updates o) s (operand8 o s).2 t ∧
    keepsMemory s t ∧ t.dev = (operand8 o s).2.dev ∧ t.draws = s.draws ∧
    t.report = s.report + opnd8Cycles 2 4 4 5 o + opnd8Extra o

/-- SUBA, SUBB, SBCA, SBCB (R221, R227-R230), every operand form; H is left undefined: it takes the
next draw (the model's form of a draw, log 3). -/
def Obligations.SubtractsOfEightBits : Prop :=
  ∀ (withBorrow : Bool) (r : Acc) (o : Opnd8) (s : State), ∃ t, exec (subInstr withBorrow r o) s = .next t ∧
    let a := s.getAcc r
    let m := (operand8 o s).1
    let c := (withBorrow && getFlag .c s.cpu.cc).toNat
    (t.getAcc r).toNat = (a.toNat + 512 - m.toNat - c) % 256 ∧
    getFlag .c t.cpu.cc = decide (a.toNat < m.toNat + c) ∧
    getFlag .v t.cpu.cc = ((a.msb != m.msb) && (a.msb != (t.getAcc r).msb)) ∧
    getFlag .n t.cpu.cc = (t.getAcc r).getLsbD 7 ∧
    getFlag .z t.cpu.cc = decide (t.getAcc r = 0) ∧
    getFlag .h t.cpu.cc = Config.drawBit s.draws ∧ t.draws = s.draws + 1 ∧
    keepsFlags [.c, .v, .n, .z, .h] s t ∧
    registerFrame [r.name, .d, .cc] (opnd8Updates o) s (operand8 o s).2 t ∧
    keepsMemory s t ∧ t.dev = (operand8 o s).2.dev ∧
    t.report = s.report + opnd8Cycles 2 4 4 5 o + opnd8Extra o

/-- CMPA, CMPB (R231, R232): the flags of the subtraction, H the next draw (the model's form, log 3); BITA, BITB (R239,
R275): the flags of the and; every operand form; no register written but CC. -/
def Obligations.ComparesAndBitTests : Prop :=
  ∀ (r : Acc) (o : Opnd8) (s : State),
    let a := s.getAcc r
    let m := (operand8 o s).1
    (∃ t, exec (cmpInstr r o) s = .next t ∧
      getFlag .c t.cpu.cc = decide (a.toNat < m.toNat) ∧
      getFlag .v t.cpu.cc = ((a.msb != m.msb) && (a.msb != (a - m).msb)) ∧
      getFlag .n t.cpu.cc = (a - m).getLsbD 7 ∧
      getFlag .z t.cpu.cc = decide (a = m) ∧
      getFlag .h t.cpu.cc = Config.drawBit s.draws ∧ t.draws = s.draws + 1 ∧
      keepsFlags [.c, .v, .n, .z, .h] s t ∧
      registerFrame [.cc] (opnd8Updates o) s (operand8 o s).2 t ∧
      keepsMemory s t ∧ t.dev = (operand8 o s).2.dev ∧
      t.report = s.report + opnd8Cycles 2 4 4 5 o + opnd8Extra o) ∧
    (∃ t, exec (bitInstr r o) s = .next t ∧
      getFlag .n t.cpu.cc = (a &&& m).getLsbD 7 ∧
      getFlag .z t.cpu.cc = decide (a &&& m = 0) ∧
      getFlag .v t.cpu.cc = false ∧
      keepsFlags [.n, .z, .v] s t ∧
      registerFrame [.cc] (opnd8Updates o) s (operand8 o s).2 t ∧
      keepsMemory s t ∧ t.dev = (operand8 o s).2.dev ∧ t.draws = s.draws ∧
      t.report = s.report + opnd8Cycles 2 4 4 5 o + opnd8Extra o)

/-- ANDA, ANDB, ORA, ORB, EORA, EORB (R222, R233-R238), every operand form. -/
def Obligations.LogicOfEightBits : Prop :=
  ∀ (op : LogicOp) (r : Acc) (o : Opnd8) (s : State), ∃ t, exec (logicInstr op r o) s = .next t ∧
    t.getAcc r = op.result (s.getAcc r) (operand8 o s).1 ∧
    getFlag .n t.cpu.cc = (t.getAcc r).getLsbD 7 ∧
    getFlag .z t.cpu.cc = decide (t.getAcc r = 0) ∧
    getFlag .v t.cpu.cc = false ∧
    keepsFlags [.n, .z, .v] s t ∧
    registerFrame [r.name, .d, .cc] (opnd8Updates o) s (operand8 o s).2 t ∧
    keepsMemory s t ∧ t.dev = (operand8 o s).2.dev ∧ t.draws = s.draws ∧
    t.report = s.report + opnd8Cycles 2 4 4 5 o + opnd8Extra o

/-- The single-operand functions of the table of R240 in numbers: the result of each, its C and its V, and the flags it
leaves. `h` is the value H takes where it is left undefined. -/
def Obligations.SingleOperandTable : Prop :=
  ∀ (v : Byte) (h : Bool) (cc : Byte),
    let c := getFlag .c cc
    (∀ op : UnaryOp, getFlag .n (op.apply v h cc).2 = (op.apply v h cc).1.getLsbD 7 ∧
      getFlag .z (op.apply v h cc).2 = decide ((op.apply v h cc).1 = 0) ∧
      (∀ fl, fl = .i ∨ fl = .f ∨ fl = .e → getFlag fl (op.apply v h cc).2 = getFlag fl cc) ∧
      getFlag .h (op.apply v h cc).2 = if op = .neg ∨ op = .asr ∨ op = .asl then h else getFlag .h cc) ∧
    ((UnaryOp.neg.apply v h cc).1.toNat = (256 - v.toNat) % 256 ∧
      getFlag .c (UnaryOp.neg.apply v h cc).2 = decide (v ≠ 0) ∧
      getFlag .v (UnaryOp.neg.apply v h cc).2 = decide (v = 0x80)) ∧
    ((UnaryOp.com.apply v h cc).1.toNat = 255 - v.toNat ∧
      getFlag .c (UnaryOp.com.apply v h cc).2 = true ∧ getFlag .v (UnaryOp.com.apply v h cc).2 = false) ∧
    ((UnaryOp.lsr.apply v h cc).1.toNat = v.toNat / 2 ∧
      getFlag .c (UnaryOp.lsr.apply v h cc).2 = v.getLsbD 0 ∧
      getFlag .v (UnaryOp.lsr.apply v h cc).2 = getFlag .v cc) ∧
    ((UnaryOp.ror.apply v h cc).1.toNat = v.toNat / 2 + 128 * c.toNat ∧
      getFlag .c (UnaryOp.ror.apply v h cc).2 = v.getLsbD 0 ∧
      getFlag .v (UnaryOp.ror.apply v h cc).2 = getFlag .v cc) ∧
    ((UnaryOp.asr.apply v h cc).1.toInt = v.toInt / 2 ∧
      getFlag .c (UnaryOp.asr.apply v h cc).2 = v.getLsbD 0 ∧
      getFlag .v (UnaryOp.asr.apply v h cc).2 = getFlag .v cc) ∧
    ((UnaryOp.asl.apply v h cc).1.toNat = 2 * v.toNat % 256 ∧
      getFlag .c (UnaryOp.asl.apply v h cc).2 = v.getLsbD 7 ∧
      getFlag .v (UnaryOp.asl.apply v h cc).2 = (v.getLsbD 7 ^^ v.getLsbD 6)) ∧
    ((UnaryOp.rol.apply v h cc).1.toNat = (2 * v.toNat + c.toNat) % 256 ∧
      getFlag .c (UnaryOp.rol.apply v h cc).2 = v.getLsbD 7 ∧
      getFlag .v (UnaryOp.rol.apply v h cc).2 = (v.getLsbD 7 ^^ v.getLsbD 6)) ∧
    ((UnaryOp.dec.apply v h cc).1.toNat = (v.toNat + 255) % 256 ∧
      getFlag .c (UnaryOp.dec.apply v h cc).2 = c ∧
      getFlag .v (UnaryOp.dec.apply v h cc).2 = decide (v = 0x80)) ∧
    ((UnaryOp.inc.apply v h cc).1.toNat = (v.toNat + 1) % 256 ∧
      getFlag .c (UnaryOp.inc.apply v h cc).2 = c ∧
      getFlag .v (UnaryOp.inc.apply v h cc).2 = decide (v = 0x7F)) ∧
    (∀ fl, getFlag fl (tstFlags v cc) = if fl = .n then v.getLsbD 7 else if fl = .z then decide (v = 0)
      else if fl = .v then false else getFlag fl cc) ∧
    (∀ fl, getFlag fl (clrFlags cc) = if fl = .z then true
      else if fl = .n ∨ fl = .v ∨ fl = .c then false else getFlag fl cc)

/-- NEG, COM, LSR, ROR, ASR, ASL, ROL, DEC, INC on memory (R241 and one rule each), every form: one read, then one write
of the function's result at the same address; the flags are the function's (`SingleOperandTable`), also where the write
is lost; an undefined H is the next draw (the model's form, log 3). -/
def Obligations.ReadModifyWrites : Prop :=
  ∀ (op : UnaryOp) (m : MemOp) (s : State), ∃ t, exec (unaryMem op m) s = .next t ∧
    let ea := (effectiveAddress m s).1
    let s1 := (effectiveAddress m s).2
    let v := (readByte ea s1).1
    let out := op.apply v (Config.drawBit s.draws) s.cpu.cc
    t.cpu.cc = out.2 ∧
    t.draws = s.draws + (if op = .neg ∨ op = .asr ∨ op = .asl then 1 else 0) ∧
    registerFrame [.cc] (memUpdates m) s s1 t ∧
    storesBytes ea [out.1] t ∧ keepsMemoryBut ea 1 s t ∧
    t.dev = busWriteDev s.params ea out.1 (readByte ea s1).2.dev ∧
    t.report = s.report + memCycles 6 6 7 m + memExtra m

/-- The register forms of the same nine (R243 and one rule each), on A and on B; an undefined H is the next draw (the
model's form, log 3). -/
def Obligations.SingleOperandOnAccumulators : Prop :=
  ∀ (op : UnaryOp) (r : Acc) (s : State), ∃ t, exec (unaryAcc op r) s = .next t ∧
    let out := op.apply (s.getAcc r) (Config.drawBit s.draws) s.cpu.cc
    t.getAcc r = out.1 ∧ t.cpu.cc = out.2 ∧
    t.draws = s.draws + (if op = .neg ∨ op = .asr ∨ op = .asl then 1 else 0) ∧
    keepsRegisters [r.name, .d, .cc] s t ∧ keepsMemory s t ∧ t.dev = s.dev ∧ keepsControl s t ∧
    t.report = s.report + 2

/-- TST and CLR on memory, every form, and on A and B (R269-R274): TST reads and does not write; CLR writes 0 and does
not read. -/
def Obligations.TestAndClear : Prop :=
  (∀ (m : MemOp) (s : State),
    let ea := (effectiveAddress m s).1
    let s1 := (effectiveAddress m s).2
    (∃ t, exec (.tst m) s = .next t ∧
      getFlag .n t.cpu.cc = (readByte ea s1).1.getLsbD 7 ∧
      getFlag .z t.cpu.cc = decide ((readByte ea s1).1 = 0) ∧
      getFlag .v t.cpu.cc = false ∧ keepsFlags [.n, .z, .v] s t ∧
      registerFrame [.cc] (memUpdates m) s s1 t ∧ keepsMemory s t ∧
      t.dev = (readByte ea s1).2.dev ∧ t.draws = s.draws ∧
      t.report = s.report + memCycles 6 6 7 m + memExtra m) ∧
    (∃ t, exec (.clr m) s = .next t ∧
      getFlag .n t.cpu.cc = false ∧ getFlag .z t.cpu.cc = true ∧ getFlag .v t.cpu.cc = false ∧
      getFlag .c t.cpu.cc = false ∧ keepsFlags [.n, .z, .v, .c] s t ∧
      registerFrame [.cc] (memUpdates m) s s1 t ∧ storesBytes ea [0] t ∧ keepsMemoryBut ea 1 s t ∧
      t.dev = busWriteDev s.params ea 0 s1.dev ∧ t.draws = s.draws ∧
      t.report = s.report + memCycles 6 6 7 m + memExtra m)) ∧
  (∀ (r : Acc) (s : State),
    (∃ t, exec (tstAcc r) s = .next t ∧
      getFlag .n t.cpu.cc = (s.getAcc r).getLsbD 7 ∧ getFlag .z t.cpu.cc = decide (s.getAcc r = 0) ∧
      getFlag .v t.cpu.cc = false ∧ keepsFlags [.n, .z, .v] s t ∧
      keepsRegisters [.cc] s t ∧ keepsRest s t ∧ t.report = s.report + 2) ∧
    (∃ t, exec (clrAcc r) s = .next t ∧ t.getAcc r = 0 ∧
      getFlag .n t.cpu.cc = false ∧ getFlag .z t.cpu.cc = true ∧ getFlag .v t.cpu.cc = false ∧
      getFlag .c t.cpu.cc = false ∧ keepsFlags [.n, .z, .v, .c] s t ∧
      keepsRegisters [r.name, .d, .cc] s t ∧ keepsRest s t ∧ t.report = s.report + 2))

/-! ### Sixteen-bit arithmetic and the condition codes -/

/-- ADDD, SUBD (R280-R282), every operand form: no half-carry, no carry in. -/
def Obligations.ArithmeticOnD : Prop :=
  ∀ (o : Opnd16) (s : State),
    let a := s.cpu.d
    let m := (operand16 o s).1
    (∃ t, exec (.addd o) s = .next t ∧ t.cpu.d.toNat = (a.toNat + m.toNat) % 65536 ∧
      getFlag .c t.cpu.cc = decide (a.toNat + m.toNat > 65535) ∧
      getFlag .v t.cpu.cc = ((a.msb == m.msb) && (a.msb != t.cpu.d.msb)) ∧
      getFlag .n t.cpu.cc = t.cpu.d.getLsbD 15 ∧ getFlag .z t.cpu.cc = decide (t.cpu.d = 0) ∧
      keepsFlags [.c, .v, .n, .z] s t ∧
      registerFrame [.d, .a, .b, .cc] (opnd16Updates o) s (operand16 o s).2 t ∧
      keepsMemory s t ∧ t.dev = (operand16 o s).2.dev ∧ t.draws = s.draws ∧
      t.report = s.report + opnd16Cycles 4 6 6 7 o + opnd16Extra o) ∧
    (∃ t, exec (.subd o) s = .next t ∧ t.cpu.d = a - m ∧
      getFlag .c t.cpu.cc = decide (a.toNat < m.toNat) ∧
      getFlag .v t.cpu.cc = ((a.msb != m.msb) && (a.msb != (a - m).msb)) ∧
      getFlag .n t.cpu.cc = (a - m).getLsbD 15 ∧ getFlag .z t.cpu.cc = decide (a = m) ∧
      keepsFlags [.c, .v, .n, .z] s t ∧
      registerFrame [.d, .a, .b, .cc] (opnd16Updates o) s (operand16 o s).2 t ∧
      keepsMemory s t ∧ t.dev = (operand16 o s).2.dev ∧ t.draws = s.draws ∧
      t.report = s.report + opnd16Cycles 4 6 6 7 o + opnd16Extra o)

/-- CMPD, CMPX, CMPY, CMPU, CMPS (R283-R287), every operand form: the register as it is after the operand is reached is
compared, and no register is written but CC. -/
def Obligations.ComparesOfSixteenBits : Prop :=
  ∀ (r : Reg16) (o : Opnd16) (s : State), ∃ t, exec (cmpReg r o) s = .next t ∧
    let a := (operand16 o s).2.getReg16 r
    let m := (operand16 o s).1
    getFlag .c t.cpu.cc = decide (a.toNat < m.toNat) ∧
    getFlag .v t.cpu.cc = ((a.msb != m.msb) && (a.msb != (a - m).msb)) ∧
    getFlag .n t.cpu.cc = (a - m).getLsbD 15 ∧
    getFlag .z t.cpu.cc = decide (a = m) ∧
    keepsFlags [.c, .v, .n, .z] s t ∧
    registerFrame [.cc] (opnd16Updates o) s (operand16 o s).2 t ∧
    keepsMemory s t ∧ t.dev = (operand16 o s).2.dev ∧ t.draws = s.draws ∧
    t.report = s.report + pageTwoCompare r + opnd16Cycles 4 6 6 7 o + opnd16Extra o

/-- DAA (R290) in every state: A grows by the correction that its digits, H and C call for, C is set by a carry and never
cleared, N and Z are the result's; V is left undefined: it is the next draw (the model's form, log 3). After an addition
of two two-digit BCD numbers by ADDA or ADCA, A holds the sum's two digits and C the hundreds. -/
def Obligations.DecimalAdjust : Prop :=
  ∀ s : State, ∃ t, exec .daa s = .next t ∧
    (let a := s.cpu.a.toNat
     let low := if a % 16 > 9 ∨ getFlag .h s.cpu.cc = true then 6 else 0
     let high := if a / 16 > 9 ∨ getFlag .c s.cpu.cc = true ∨ (a / 16 > 8 ∧ a % 16 > 9) then 0x60 else 0
     t.cpu.a.toNat = (a + low + high) % 256 ∧
     getFlag .c t.cpu.cc = (getFlag .c s.cpu.cc || decide (a + low + high > 255))) ∧
    getFlag .n t.cpu.cc = t.cpu.a.getLsbD 7 ∧ getFlag .z t.cpu.cc = decide (t.cpu.a = 0) ∧
    getFlag .v t.cpu.cc = Config.drawBit s.draws ∧ t.draws = s.draws + 1 ∧
    (∀ x1 x0 y1 y0 k : Nat, x1 ≤ 9 → x0 ≤ 9 → y1 ≤ 9 → y0 ≤ 9 → k ≤ 1 →
      s.cpu.a.toNat = (16 * x1 + x0 + (16 * y1 + y0) + k) % 256 →
      getFlag .c s.cpu.cc = decide (16 * x1 + x0 + (16 * y1 + y0) + k > 255) →
      getFlag .h s.cpu.cc = decide (x0 + y0 + k > 15) →
      100 * (getFlag .c t.cpu.cc).toNat + 10 * (t.cpu.a.toNat / 16) + t.cpu.a.toNat % 16
        = 10 * x1 + x0 + (10 * y1 + y0) + k) ∧
    keepsFlags [.c, .n, .z, .v] s t ∧ keepsRegisters [.a, .d, .cc] s t ∧
    keepsMemory s t ∧ t.dev = s.dev ∧ keepsControl s t ∧ t.report = s.report + 2

/-- MUL (R291): the exact product in D, Z from it, C its bit 7; N, V, H as before. -/
def Obligations.Multiply : Prop :=
  ∀ s : State, ∃ t, exec .mul s = .next t ∧
    t.cpu.d.toNat = s.cpu.a.toNat * s.cpu.b.toNat ∧
    getFlag .z t.cpu.cc = decide (s.cpu.a = 0 ∨ s.cpu.b = 0) ∧
    getFlag .c t.cpu.cc = t.cpu.b.getLsbD 7 ∧
    keepsFlags [.z, .c] s t ∧ keepsRegisters [.d, .a, .b, .cc] s t ∧ keepsRest s t ∧ t.report = s.report + 11

/-- SEX (R292) and ABX (R293): D is B as a signed number, V and C as before; X grows by B as an unsigned number, no flag
changes. -/
def Obligations.SignExtendAndAddB : Prop :=
  ∀ s : State,
    (∃ t, exec .sex s = .next t ∧ t.cpu.d.toInt = s.cpu.b.toInt ∧
      getFlag .n t.cpu.cc = t.cpu.d.getLsbD 15 ∧ getFlag .z t.cpu.cc = decide (t.cpu.d = 0) ∧
      keepsFlags [.n, .z] s t ∧ keepsRegisters [.d, .a, .cc] s t ∧ keepsRest s t ∧ t.report = s.report + 2) ∧
    (∃ t, exec .abx s = .next t ∧ t.cpu.x.toNat = (s.cpu.x.toNat + s.cpu.b.toNat) % 65536 ∧
      keepsRegisters [.x] s t ∧ keepsRest s t ∧ t.report = s.report + 3)

/-- ANDCC (R294), ORCC (R295) bit by bit over all of CC, and NOP (R296), which changes nothing. -/
def Obligations.ConditionCodesAndNop : Prop :=
  ∀ (v : Byte) (s : State),
    (∃ t, exec (.andcc v) s = .next t ∧ (∀ k, t.cpu.cc.getLsbD k = (s.cpu.cc.getLsbD k && v.getLsbD k)) ∧
      keepsRegisters [.cc] s t ∧ keepsRest s t ∧ t.report = s.report + 3) ∧
    (∃ t, exec (.orcc v) s = .next t ∧ (∀ k, t.cpu.cc.getLsbD k = (s.cpu.cc.getLsbD k || v.getLsbD k)) ∧
      keepsRegisters [.cc] s t ∧ keepsRest s t ∧ t.report = s.report + 3) ∧
    (∃ t, exec .nop s = .next t ∧ keepsRegisters [] s t ∧ keepsRest s t ∧ t.report = s.report + 2)

/-! ### Branches, calls, jumps -/

/-- The sixteen short branches (R310, R311), their long forms (R312) and LBRA: taken exactly for the CC digits of the
table's last column; the offset is from the next instruction; no flag changes; 3 cycles short, 6 or 5 long, LBRA 5. -/
def Obligations.Branches : Prop :=
  ∀ (k : Cond) (s : State),
    (∀ d : Byte, ∃ t, exec (shortInstr k d) s = .next t ∧
      t.cpu.pc = (if takenByTable k s.cpu.cc then s.cpu.pc + d.signExtend 16 else s.cpu.pc) ∧
      keepsRegisters [.pc] s t ∧ keepsRest s t ∧ t.report = s.report + 3) ∧
    (∀ d : Word, ∃ t, exec (longInstr k d) s = .next t ∧
      t.cpu.pc = (if takenByTable k s.cpu.cc then s.cpu.pc + d else s.cpu.pc) ∧
      keepsRegisters [.pc] s t ∧ keepsRest s t ∧
      t.report = s.report + (if k ≠ .always ∧ takenByTable k s.cpu.cc then 6 else 5))

/-- The signed and unsigned readings of the conditions after a compare or a subtraction of the same width (R310): with
the register's value `a` and the operand `m`, the branch for "higher" is taken exactly when `a > m` unsigned, the one
for "greater" exactly when `a > m` signed, and so for the other eight. -/
def Obligations.ConditionsAfterCompare : Prop :=
  (∀ (r : Acc) (o : Opnd8) (s t : State),
    exec (cmpInstr r o) s = .next t ∨ exec (subInstr false r o) s = .next t →
    let a := s.getAcc r
    let m := (operand8 o s).1
    takenByTable .hi t.cpu.cc = decide (m.toNat < a.toNat) ∧ takenByTable .ls t.cpu.cc = decide (a.toNat ≤ m.toNat) ∧
    takenByTable .cc t.cpu.cc = decide (m.toNat ≤ a.toNat) ∧ takenByTable .cs t.cpu.cc = decide (a.toNat < m.toNat) ∧
    takenByTable .ne t.cpu.cc = decide (a ≠ m) ∧ takenByTable .eq t.cpu.cc = decide (a = m) ∧
    takenByTable .ge t.cpu.cc = decide (m.toInt ≤ a.toInt) ∧ takenByTable .lt t.cpu.cc = decide (a.toInt < m.toInt) ∧
    takenByTable .gt t.cpu.cc = decide (m.toInt < a.toInt) ∧ takenByTable .le t.cpu.cc = decide (a.toInt ≤ m.toInt)) ∧
  (∀ (r : Reg16) (o : Opnd16) (s t : State),
    exec (cmpReg r o) s = .next t ∨ (r = .d ∧ exec (.subd o) s = .next t) →
    let a := (operand16 o s).2.getReg16 r
    let m := (operand16 o s).1
    takenByTable .hi t.cpu.cc = decide (m.toNat < a.toNat) ∧ takenByTable .ls t.cpu.cc = decide (a.toNat ≤ m.toNat) ∧
    takenByTable .cc t.cpu.cc = decide (m.toNat ≤ a.toNat) ∧ takenByTable .cs t.cpu.cc = decide (a.toNat < m.toNat) ∧
    takenByTable .ne t.cpu.cc = decide (a ≠ m) ∧ takenByTable .eq t.cpu.cc = decide (a = m) ∧
    takenByTable .ge t.cpu.cc = decide (m.toInt ≤ a.toInt) ∧ takenByTable .lt t.cpu.cc = decide (a.toInt < m.toInt) ∧
    takenByTable .gt t.cpu.cc = decide (m.toInt < a.toInt) ∧ takenByTable .le t.cpu.cc = decide (a.toInt ≤ m.toInt))

/-- BSR, LBSR (R350, R351) and JSR in every form (R353): the address of the next instruction is stacked on S, high byte
at the lower address, and control goes to the target; JSR computes its address before the push. -/
def Obligations.SubroutineCalls : Prop :=
  (∀ (d : Byte) (s : State), ∃ t, exec (.bsr d) s = .next t ∧
    t.cpu.pc = s.cpu.pc + d.signExtend 16 ∧ stacksFrame [hiByte s.cpu.pc, loByte s.cpu.pc] s t ∧
    keepsRegisters [.s, .pc] s t ∧ keepsControl s t ∧ t.draws = s.draws ∧ t.report = s.report + 7) ∧
  (∀ (d : Word) (s : State), ∃ t, exec (.lbsr d) s = .next t ∧
    t.cpu.pc = s.cpu.pc + d ∧ stacksFrame [hiByte s.cpu.pc, loByte s.cpu.pc] s t ∧
    keepsRegisters [.s, .pc] s t ∧ keepsControl s t ∧ t.draws = s.draws ∧ t.report = s.report + 9) ∧
  (∀ (m : MemOp) (s : State), ∃ t, exec (.jsr m) s = .next t ∧
    t.cpu.pc = (effectiveAddress m s).1 ∧
    stacksFrame [hiByte s.cpu.pc, loByte s.cpu.pc] (effectiveAddress m s).2 t ∧
    registerFrame [.s, .pc] (memUpdates m) s (effectiveAddress m s).2 t ∧ t.draws = s.draws ∧
    t.report = s.report + memCycles 7 7 8 m + memExtra m)

/-- JMP in every form (R352): the address itself is the target. RTS (R354): the word at S is the new PC, high byte
first, and S moves up by 2. -/
def Obligations.JumpsAndReturns : Prop :=
  (∀ (m : MemOp) (s : State), ∃ t, exec (.jmp m) s = .next t ∧
    t.cpu.pc = (effectiveAddress m s).1 ∧
    registerFrame [.pc] (memUpdates m) s (effectiveAddress m s).2 t ∧ keepsMemory s t ∧
    t.dev = (effectiveAddress m s).2.dev ∧ t.draws = s.draws ∧
    t.report = s.report + memCycles 3 3 4 m + memExtra m) ∧
  (∀ s : State, ∃ t, exec .rts s = .next t ∧
    t.cpu.pc = (readWord s.cpu.s s).1 ∧ t.cpu.s = s.cpu.s + 2 ∧
    keepsRegisters [.s, .pc] s t ∧ keepsMemory s t ∧ t.dev = (readWord s.cpu.s s).2.dev ∧ t.draws = s.draws ∧
    keepsControl s t ∧ t.report = s.report + 5)

/-- A subroutine called with BSR, LBSR or JSR with its stack slot in RAM returns with RTS to the instruction after the
call, with S as it was when the address was known. -/
def Obligations.ReturnUndoesCall : Prop :=
  ∀ (i : Instr) (s s1 : State),
    ((∃ d, i = .bsr d) ∧ s1 = s ∨ (∃ d, i = .lbsr d) ∧ s1 = s ∨ (∃ m, i = .jsr m ∧ s1 = (effectiveAddress m s).2)) →
    inRam (s1.cpu.s - 2) 2 →
    ∃ t u, exec i s = .next t ∧ exec .rts t = .next u ∧ u.cpu.pc = s.cpu.pc ∧ keepsRegisters [] s1 u ∧ u.dev = t.dev

/-! ### Software interrupts, return from interrupt, waits, undefined opcodes -/

/-- SWI (R371), SWI2 (R372), SWI3 (R373): the entire frame stacked on S with E = 1 and the address of the next
instruction, PC from the instruction's own vector; SWI sets I and F, the other two leave them. -/
def Obligations.SoftwareInterrupts : Prop :=
  ∀ s : State,
    (∃ t, exec .swi s = .next t ∧ t.cpu.pc = s.vectorWord 0xFFFA ∧ stacksFrame s.cpu.entireFrame s t ∧
      getFlag .e t.cpu.cc = true ∧ getFlag .i t.cpu.cc = true ∧ getFlag .f t.cpu.cc = true ∧
      keepsFlags [.e, .i, .f] s t ∧ keepsRegisters [.s, .pc, .cc] s t ∧ keepsControl s t ∧ t.draws = s.draws ∧
      t.report = s.report + 19) ∧
    (∃ t, exec .swi2 s = .next t ∧ t.cpu.pc = s.vectorWord 0xFFF4 ∧ stacksFrame s.cpu.entireFrame s t ∧
      getFlag .e t.cpu.cc = true ∧ keepsFlags [.e] s t ∧ keepsRegisters [.s, .pc, .cc] s t ∧ keepsControl s t ∧
      t.draws = s.draws ∧ t.report = s.report + 20) ∧
    (∃ t, exec .swi3 s = .next t ∧ t.cpu.pc = s.vectorWord 0xFFF2 ∧ stacksFrame s.cpu.entireFrame s t ∧
      getFlag .e t.cpu.cc = true ∧ keepsFlags [.e] s t ∧ keepsRegisters [.s, .pc, .cc] s t ∧ keepsControl s t ∧
      t.draws = s.draws ∧ t.report = s.report + 20)

/-- RTI (R374): it completes in every state; where an entire frame, or a short one, of a CPU `c` lies in memory at S, that
frame is restored, as the E of the stacked CC says; the E held before does not matter; `wait` is not touched. -/
def Obligations.ReturnFromInterrupt : Prop :=
  ∀ s : State, ∃ t, exec .rti s = .next t ∧
    (∀ c : Cpu, bytesAt s.cpu.s (c.withE true).entireFrame s →
      t.cpu = restoredCpu .hw 0xFF (c.withE true) s.cpu ∧ t.dev = s.dev ∧ t.report = s.report + 15) ∧
    (∀ c : Cpu, bytesAt s.cpu.s (c.withE false).shortFrame s →
      t.cpu = restoredCpu .hw 0x81 (c.withE false) s.cpu ∧ t.dev = s.dev ∧ t.report = s.report + 6) ∧
    keepsMemory s t ∧ keepsControl s t ∧ t.draws = s.draws

/-- CWAI (R375), SYNC (R376) and the undefined opcodes (R380): CWAI masks CC, sets E, stacks the entire frame and waits;
SYNC waits and changes nothing else; an undefined opcode changes nothing but the report. -/
def Obligations.WaitsAndUndefinedOpcodes : Prop :=
  ∀ s : State,
    (∀ v : Byte, ∃ t, exec (.cwai v) s = .next t ∧ t.cpu.wait = .cwai ∧
      t.cpu.cc = setFlag .e true (s.cpu.cc &&& v) ∧
      stacksFrame (Cpu.entireFrame { s.cpu with cc := s.cpu.cc &&& v }) s t ∧
      keepsRegisters [.s, .cc] s t ∧ keepsSystem s t ∧ t.draws = s.draws ∧ t.report = s.report + 20) ∧
    (∃ t, exec .sync s = .next t ∧ t.cpu.wait = .sync ∧ keepsRegisters [] s t ∧ keepsMemory s t ∧ t.dev = s.dev ∧
      keepsSystem s t ∧ t.draws = s.draws ∧ t.report = s.report + 2) ∧
    (∀ (page : Page) (op : Byte), ∃ t, exec (.undefined page op) s = .next t ∧ keepsRegisters [] s t ∧
      keepsRest s t ∧ t.report = s.report + s.params.undefOpCycles)

/-! ### Addressing -/

/-- The address each indexed mode computes, before any indirection, and the register it updates (R131-R134): offsets
and accumulators are signed, `n,PCR` counts from the next instruction, the auto modes step the register by 1 or 2. -/
def Obligations.IndexedAddresses : Prop :=
  ∀ (r : IReg) (ind : Bool) (s : State),
    let R := (s.getIndex r).toNat
    (∀ n, ((directIndexed (.off5 r n) s).1.toNat : Int) = (R + n.toInt) % 65536 ∧
      (directIndexed (.off5 r n) s).2 = s) ∧
    ((directIndexed (.postInc1 r) s).1 = s.getIndex r ∧
      ((directIndexed (.postInc1 r) s).2.getIndex r).toNat = (R + 1) % 65536) ∧
    ((directIndexed (.postInc2 r ind) s).1 = s.getIndex r ∧
      ((directIndexed (.postInc2 r ind) s).2.getIndex r).toNat = (R + 2) % 65536) ∧
    ((directIndexed (.preDec1 r) s).1.toNat = (R + 65535) % 65536 ∧
      (directIndexed (.preDec1 r) s).2.getIndex r = (directIndexed (.preDec1 r) s).1) ∧
    ((directIndexed (.preDec2 r ind) s).1.toNat = (R + 65534) % 65536 ∧
      (directIndexed (.preDec2 r ind) s).2.getIndex r = (directIndexed (.preDec2 r ind) s).1) ∧
    (directIndexed (.zero r ind) s = (s.getIndex r, s)) ∧
    (((directIndexed (.accB r ind) s).1.toNat : Int) = (R + s.cpu.b.toInt) % 65536 ∧
      (directIndexed (.accB r ind) s).2 = s) ∧
    (((directIndexed (.accA r ind) s).1.toNat : Int) = (R + s.cpu.a.toInt) % 65536 ∧
      (directIndexed (.accA r ind) s).2 = s) ∧
    ((directIndexed (.accD r ind) s).1.toNat = (R + 256 * s.cpu.a.toNat + s.cpu.b.toNat) % 65536 ∧
      (directIndexed (.accD r ind) s).2 = s) ∧
    (∀ n, ((directIndexed (.off8 r n ind) s).1.toNat : Int) = (R + n.toInt) % 65536 ∧
      (directIndexed (.off8 r n ind) s).2 = s) ∧
    (∀ n, (directIndexed (.off16 r n ind) s).1.toNat = (R + n.toNat) % 65536 ∧
      (directIndexed (.off16 r n ind) s).2 = s) ∧
    (∀ n, ((directIndexed (.pcr8 n ind) s).1.toNat : Int) = (s.cpu.pc.toNat + n.toInt) % 65536 ∧
      (directIndexed (.pcr8 n ind) s).2 = s) ∧
    (∀ n, (directIndexed (.pcr16 n ind) s).1.toNat = (s.cpu.pc.toNat + n.toNat) % 65536 ∧
      (directIndexed (.pcr16 n ind) s).2 = s)

/-- Effective addresses (R126, R135): direct is DP and the byte, extended the word; a direct indexed mode gives its
computed address; an indirect one gives the big-endian word that lies there, `[n16]` the word at `n16`, read through
the bus with its side effects, also where the IO chip answers; the mode changes the registers as without indirection and
adds its cycles. -/
def Obligations.EffectiveAddresses : Prop :=
  ∀ s : State,
    (∀ a : Byte, (effectiveAddress (.dir a) s).1.toNat = 256 * s.cpu.dp.toNat + a.toNat ∧
      (effectiveAddress (.dir a) s).2 = s) ∧
    (∀ a : Word, effectiveAddress (.ext a) s = (a, s)) ∧
    (∀ m : IdxMode, (effectiveAddress (.idx m) s).2.cpu = (directIndexed m s).2.cpu ∧
      (effectiveAddress (.idx m) s).2.report = s.report + indexedCycles m ∧
      keepsRegisters (modeUpdates m) s (effectiveAddress (.idx m) s).2 ∧ keepsMemory s (effectiveAddress (.idx m) s).2 ∧
      (isIndirect m = false → (effectiveAddress (.idx m) s).1 = (directIndexed m s).1 ∧
        (effectiveAddress (.idx m) s).2.dev = s.dev) ∧
      (isIndirect m = true → (effectiveAddress (.idx m) s).1 = (readWord (directIndexed m s).1 s).1 ∧
        (effectiveAddress (.idx m) s).2.dev = (readWord (directIndexed m s).1 s).2.dev) ∧
      (isIndirect m = true → ∀ h l : Byte,
        s.peek (directIndexed m s).1 = some h → s.peek ((directIndexed m s).1 + 1) = some l →
        (effectiveAddress (.idx m) s).1.toNat = 256 * h.toNat + l.toNat ∧
        (effectiveAddress (.idx m) s).2.dev = s.dev)) ∧
    (∀ p : Word, (directIndexed (.extInd p) s).1 = p ∧ isIndirect (.extInd p) = true)

/-! ### The Step: fetch, interrupts, waits -/

/-- A STEP RUNS THE DECODED INSTRUCTION (R122, R408, R590, R591): in a running frame, with no wait and no unmasked line,
where the bytes at PC decode to `i`, one step is `exec i` with PC past the bytes, then the device cycles it reports, the
frame counter and the budget. That a step is one turn of the frame loop is the model's choice (log 15). -/
def Obligations.StepRunsDecodedInstruction : Prop :=
  ∀ (s : State) (bs : List Byte) (i : Instr), 0 < s.host.budget → readyToRun s → decode bs = .ok (i, []) →
    bytesAt s.cpu.pc bs s →
    ∃ t, exec i (State.setPc (s.cpu.pc + BitVec.ofNat 16 bs.length) { s.dropFirq with report := 0 }) = .next t ∧
      step s = .next (endTurn t)

/-- The 39 undefined postbytes (R137): after any opcode of the indexed format exactly these do not decode, and a step
that fetches one stops with the fault that names it. -/
def Obligations.UndefinedPostbyteFaults : Prop :=
  (∀ (page : Page) (op pb : Byte) (f : IdxMode → Instr), lookup page op = some (.idx f) →
    (decode (pageBytes page ++ [op, pb]) = .error (.undefinedPostbyte pb) ↔ pb ∈ undefinedPostbytes)) ∧
  (∀ (s : State) (bs : List Byte) (pb : Byte), 0 < s.host.budget → readyToRun s →
    decode bs = .error (.undefinedPostbyte pb) → bytesAt s.cpu.pc bs s → step s = .fault (.undefinedPostbyte pb))

/-- A waiting Step (R408 point 3): with no line that ends the wait, it reports one cycle and changes nothing. -/
def Obligations.WaitingStep : Prop :=
  ∀ (irq firq : Bool) (s : State), s.cpu.wait ≠ .normal →
    (irq = true → s.cpu.wait = .cwai ∧ getFlag .i s.cpu.cc = true) →
    (firq = true → s.cpu.wait = .cwai ∧ getFlag .f s.cpu.cc = true) →
    cpuStep irq firq s = .next { s with report := 1 }

/-- IRQ entry (R410): with I clear and no FIRQ entry in the same Step, the Step goes on to run the instruction at the
handler from a state in which the entire frame is stacked with E = 1, or nothing where CWAI has stacked it; I is set, F
is not changed, the wait is over, 19 or 7 cycles. -/
def Obligations.InterruptEntry : Prop :=
  ∀ (firq : Bool) (s : State), getFlag .i s.cpu.cc = false → (firq = true → getFlag .f s.cpu.cc = true) →
    ∃ t, cpuStep true firq s = runInstruction t ∧ t.cpu.pc = s.vectorWord 0xFFF8 ∧ t.cpu.wait = .normal ∧
      getFlag .i t.cpu.cc = true ∧ keepsFlags [.e, .i] s t ∧ keepsRegisters [.s, .pc, .cc] s t ∧ keepsSystem s t ∧
      t.draws = s.draws ∧
      (s.cpu.wait ≠ .cwai → stacksFrame s.cpu.entireFrame s t ∧ getFlag .e t.cpu.cc = true ∧ t.report = 19) ∧
      (s.cpu.wait = .cwai → t.cpu.s = s.cpu.s ∧ keepsMemory s t ∧ t.dev = s.dev ∧
        getFlag .e t.cpu.cc = getFlag .e s.cpu.cc ∧ t.report = 7)

/-- FIRQ entry (R411): the same with the short frame, E = 0, both masks set, 10 or 7 cycles; it comes before any IRQ. -/
def Obligations.FastInterruptEntry : Prop :=
  ∀ (irq : Bool) (s : State), getFlag .f s.cpu.cc = false →
    ∃ t, cpuStep irq true s = runInstruction t ∧ t.cpu.pc = s.vectorWord 0xFFF6 ∧ t.cpu.wait = .normal ∧
      getFlag .i t.cpu.cc = true ∧ getFlag .f t.cpu.cc = true ∧ keepsFlags [.e, .i, .f] s t ∧
      keepsRegisters [.s, .pc, .cc] s t ∧ keepsSystem s t ∧ t.draws = s.draws ∧
      (s.cpu.wait ≠ .cwai → stacksFrame s.cpu.shortFrame s t ∧ getFlag .e t.cpu.cc = false ∧ t.report = 10) ∧
      (s.cpu.wait = .cwai → t.cpu.s = s.cpu.s ∧ keepsMemory s t ∧ t.dev = s.dev ∧
        getFlag .e t.cpu.cc = getFlag .e s.cpu.cc ∧ t.report = 7)

/-- Masks and priority (R404, R405, R406): where every asserted line is masked, by its own mask and whatever the other
one, the Step is the one without lines, after a SYNC is ended by any of them; an unmasked FIRQ is entered whatever the IRQ
line, and the IRQ not in that Step; with F set an unmasked IRQ is entered whatever the FIRQ line. -/
def Obligations.MasksAndPriority : Prop :=
  ∀ (irq firq : Bool) (s : State),
    ((irq = true → getFlag .i s.cpu.cc = true) → (firq = true → getFlag .f s.cpu.cc = true) →
      cpuStep irq firq s = cpuStep false false
        (if (irq || firq) = true ∧ s.cpu.wait = .sync then s.setWait .normal else s)) ∧
    (getFlag .f s.cpu.cc = false → cpuStep irq true s = cpuStep false true s) ∧
    (getFlag .f s.cpu.cc = true → getFlag .i s.cpu.cc = false → cpuStep true firq s = cpuStep true false s)

/-- An entry whose frame lies in RAM, then RTI, gives back every register and flag as they were but E (R374, R410, R411,
R415), for the three software interrupts and for the two lines. -/
def Obligations.ReturnUndoesEntry : Prop :=
  ∀ s : State,
    (inRam (s.cpu.s - 12) 12 → ∀ i, i = .swi ∨ i = .swi2 ∨ i = .swi3 →
      ∃ t u, exec i s = .next t ∧ exec .rti t = .next u ∧ u.cpu = s.cpu.withE true) ∧
    (inRam (s.cpu.s - 12) 12 → s.cpu.wait ≠ .cwai →
      ∃ u, exec .rti (takeTrap .irq s) = .next u ∧ u.cpu = { s.cpu.withE true with wait := .normal }) ∧
    (inRam (s.cpu.s - 3) 3 → s.cpu.wait ≠ .cwai →
      ∃ u, exec .rti (takeTrap .firq s) = .next u ∧ u.cpu = { s.cpu.withE false with wait := .normal })

/-! ### Reset, the schedule, what no step changes -/

/-- What Reset leaves (R60-R66, R551), from any state: the spec's value in every register, RAM at the default
`RAM_INIT` where the parameter is the default, ROM and cartridge as they were. -/
def Obligations.ResetValues : Prop :=
  ∀ s : State,
    let t := s.doReset
    t.cpu.pc = s.vectorWord 0xFFFE ∧
    (let c := t.cpu
     c.a = 0 ∧ c.b = 0 ∧ c.dp = 0 ∧ c.cc = s.params.ccReset ∧ c.x = 0 ∧ c.y = 0 ∧ c.u = 0 ∧ c.s = 0 ∧
     c.wait = .normal) ∧
    (∀ k, isRamCell k = false → t.mem.get k = s.mem.get k) ∧
    (s.params.ramInit = [] → ∀ k < 1024, t.mem.get (0xC800 + k) = BitVec.ofNat 8 k) ∧
    (let v := t.dev.via
     v.ora = 0 ∧ v.orb = 0 ∧ v.ddra = 0 ∧ v.ddrb = 0 ∧ v.t1on = false ∧ v.t1int = false ∧ v.t1c = 0 ∧ v.t1ll = 0 ∧
     v.t1lh = 0 ∧ v.t1pb7Byte = 0x80 ∧ v.t2on = false ∧ v.t2int = false ∧ v.t2c = 0 ∧ v.t2ll = 0 ∧ v.sr = 0 ∧
     v.srb = 8 ∧ v.src = 0 ∧ v.srclk = false ∧ v.acr = 0 ∧ v.pcr = 0 ∧ v.ifr = 0 ∧ v.ier = 0 ∧ v.ca2 = true ∧
     v.cb2h = true ∧ v.cb2s = false) ∧
    (let g := t.dev.alg
     g.rsh = 128 ∧ g.xsh = 128 ∧ g.ysh = 128 ∧ g.zsh = 0 ∧ (∀ k : Fin 4, g.jch[k] = 128) ∧ g.jsh = 128 ∧
     g.compareByte = 0 ∧ g.dx = 0 ∧ g.dy = 0 ∧ g.currX = 16500 ∧ g.currY = 20500 ∧ g.vectoring = false) ∧
    t.dev.lists.draw = [] ∧ t.dev.lists.erase = [] ∧ (∀ k, t.dev.lists.slot k = 0) ∧
    (let p := t.dev.psg
     (∀ r : BitVec 4, p.read r = if r = 14 then 0xFF else 0) ∧ p.select = 0 ∧
     (∀ c : Fin 3, p.tcnt[c] = 0 ∧ p.tout[c] = false) ∧ p.ncnt = 0 ∧ p.rng = 1 ∧ p.nout = true ∧ p.ecnt = 0 ∧
     p.epos = 31 ∧ p.eatt = 0 ∧ p.ehold = true ∧ p.ealt = false ∧ p.eholding = false) ∧
    t.fcycles = s.params.fcyclesInit

/-- Reset twice is Reset once (R582), and PC is the ROM's reset vector (R583). -/
def Obligations.ResetIdempotent : Prop :=
  ∀ s : State, s.doReset.doReset = s.doReset ∧
    s.doReset.cpu.pc.toNat = 256 * (s.mem.get 0xFFFE).toNat + (s.mem.get 0xFFFF).toNat

/-- The invariant of the machine holds right after reset. -/
def Obligations.ResetMeetsInvariant : Prop := State.reset.Inv

/-- EVERY STEP KEEPS THE INVARIANT: memory in canonical form; the flag byte's bit 7 the OR of the enabled flags (R39), the
enable register's bit 7 clear, the bit count at most 8; the cached deltas, the intensity's range and the candidate's
bounds; the lists' lengths, coordinates and colours (R522); the sound registers within their masks (R541). -/
def Obligations.StepKeepsInvariant : Prop := ∀ s t : State, s.Inv → step s = .next t → t.Inv

/-- No step changes a byte of the ROM or of the cartridge (R93, R97), or a parameter: memory changes in RAM cells
alone. -/
def Obligations.StepKeepsRomAndCartridge : Prop :=
  ∀ s t : State, step s = .next t → (∀ k, isRamCell k = false → t.mem.get k = s.mem.get k) ∧ t.params = s.params

/-- The frame counter (R592, R520): below zero it is refilled, the lists are shown as they stand and swapped; at zero or
above nothing but the counter changes. Under the live-debug flag the CPU's registers are delivered as well (R604). That
the state keeps what was delivered is the model's choice, and so is the registers' form (log 18, 25). -/
def Obligations.FrameBoundary : Prop :=
  ∀ (n : Nat) (s : State),
    (0 ≤ s.fcycles - n → frameCount n s = { s with fcycles := s.fcycles - n }) ∧
    (s.fcycles - n < 0 →
      let t := frameCount n s
      t.fcycles = s.fcycles - n + s.params.fcyclesInit ∧
      t.host = { s.host with
        shown := some (s.dev.lists.draw, s.dev.lists.erase)
        snapshot := if s.host.liveDebug = true then some s.cpu else s.host.snapshot } ∧
      t.dev = { s.dev with lists := { draw := [], erase := s.dev.lists.draw, hash := s.dev.lists.hash } } ∧
      t.cpu = s.cpu ∧ t.mem = s.mem ∧ t.report = s.report ∧ t.draws = s.draws ∧ t.params = s.params)

/-- The schedule of `Frame()` (R591, R603, R605) and its length (R593): between frames a paused or stopped host makes a
step do nothing, a running one starts a frame, whose inputs reach only the joystick channels, the button port and the
generators; a frame that ends has run at least its budget, and less than its last Step over it. The `Key` calls collected
for the frame are applied in their order, the latest call last: through KEYMAP a button clears its bit of sound register
14 when pressed and sets it when released (R544), an axis sets its joystick channel to one of the three levels (R504), and
nothing else changes. Where a step stands in the loop, when samples are asked for, and the form of KEYMAP are the model's
choices (log 14 to 17). -/
def Obligations.FrameSchedule : Prop :=
  (∀ s : State, s.host.budget ≤ 0 → s.host.mode ≠ .running → step s = .next s) ∧
  (∀ s : State, s.host.budget ≤ 0 → s.host.mode = .running →
    step s = (if s.params.frameBudget = 0 then .next (beginFrame s) else step (beginFrame s)) ∧
    (beginFrame s).host.budget = s.params.frameBudget ∧ (beginFrame s).cpu = s.cpu ∧ (beginFrame s).mem = s.mem ∧
    (beginFrame s).dev.via = s.dev.via ∧ (beginFrame s).dev.lists = s.dev.lists ∧
    (beginFrame s).dev.alg = { s.dev.alg with jch := (beginFrame s).dev.alg.jch } ∧
    (∀ r : BitVec 4, r ≠ 14 → (beginFrame s).dev.psg.read r = s.dev.psg.read r) ∧
    (beginFrame s).dev.psg.select = s.dev.psg.select ∧ (beginFrame s).fcycles = s.fcycles) ∧
  (∀ s t : State, 0 < s.host.budget → step s = .next t → t.host.budget = s.host.budget - t.report) ∧
  (∀ (fuel : Nat) (s t : State), s.host.mode = .running → 0 < s.params.frameBudget → frame fuel s = some (.next t) →
    t.host.budget ≤ 0 ∧ -(t.report : Int) < t.host.budget) ∧
  (∀ (code : Nat) (pressed : Bool) (s : State),
    let d := ((s.host.inputs.head?.map FrameInput.keys).getD []).foldl (applyKey s.params.keymap) s.dev
    let e := applyKey s.params.keymap d { code := code, pressed := pressed }
    let t := beginFrame s
    let u := beginFrame (s.key code pressed)
    t.dev.alg = d.alg ∧ t.dev.psg.reg = d.psg.reg ∧ t.host.inputs = s.host.inputs.tail ∧
    u.dev.alg = e.alg ∧ u.dev.psg.reg = e.psg.reg ∧ u.host.inputs = s.host.inputs.tail) ∧
  (∀ (keymap : List (Nat × InputLine)) (e : KeyEvent) (d : Devices),
    let t := applyKey keymap d e
    (keyLine keymap e.code = none → t = d) ∧
    (∀ k : Fin 8, keyLine keymap e.code = some (.button k) →
      t = { d with psg := { d.psg with reg := t.psg.reg } } ∧
      (∀ r : BitVec 4, r ≠ 14 → t.psg.read r = d.psg.read r) ∧
      ∀ j : Fin 8, (t.psg.read 14).getLsbD j = if j = k then !e.pressed else (d.psg.read 14).getLsbD j) ∧
    (∀ (c : Fin 4) (down up : JoyLevel), keyLine keymap e.code = some (.axis c down up) →
      t = { d with alg := { d.alg with jch := t.alg.jch } } ∧
      ∀ j : Fin 4, t.alg.jch[j] = if j = c then
          (match (if e.pressed then down else up) with
            | .min => 0x00
            | .center => 0x80
            | .max => 0xFF)
        else d.alg.jch[j]))

/-! ### The bus -/

/-- Every address read and written (R90-R93): cartridge, nothing, RAM by address bit 11, the IO chip by bit 12, ROM; RAM
repeats every 1024 bytes; with both bits a read is RAM only and a write reaches both; every other write is lost. `OPEN_BUS` is
one constant byte in the model (log 6). -/
def Obligations.BusMap : Prop :=
  ∀ (a : Word) (v : Byte) (s : State),
    let n := a.toNat
    let cell := 0xC800 + n % 1024
    let io := viaReg s.params.viaFlagsSwapped (BitVec.ofNat 4 n)
    (n < 0x8000 → readByte a s = (s.mem.get n, s) ∧ writeByte a v s = s) ∧
    (0x8000 ≤ n → n < 0xC000 → readByte a s = (s.params.openBus, s) ∧ writeByte a v s = s) ∧
    (0xC000 ≤ n → n < 0xC800 → readByte a s = (s.params.openBus, s) ∧ writeByte a v s = s) ∧
    (0xC800 ≤ n → n < 0xD000 → readByte a s = (s.mem.get cell, s) ∧
      writeByte a v s = { s with mem := s.mem.set cell v }) ∧
    (0xD000 ≤ n → n < 0xD800 → readByte a s = ((viaRead io s.dev).1, { s with dev := (viaRead io s.dev).2 }) ∧
      writeByte a v s = { s with dev := viaWrite io v s.dev }) ∧
    (0xD800 ≤ n → n < 0xE000 → readByte a s = (s.mem.get cell, s) ∧
      writeByte a v s = { s with mem := s.mem.set cell v, dev := viaWrite io v s.dev }) ∧
    (0xE000 ≤ n → readByte a s = (s.mem.get n, s) ∧ writeByte a v s = s)

/-! ### The timer/IO chip -/

/-- Reads of the timer/IO chip (R86, R441, R452-R459), the value of every index: port B with the comparator on bit 5 and, so
configured, the toggle on bit 7; port A, driven by the sound chip in the send state; the stored bytes of the others, the
enable register with bit 7 set. Only indices 1, 4, 8 and 10 change anything, each exactly the elements its rule names; the
flag byte's bit 7 follows its enabled flags. -/
def Obligations.ChipReads : Prop :=
  ∀ (sw : Bool) (d : Devices),
    (∀ r : BitVec 4, r ≠ 1 → r ≠ 4 → r ≠ 8 → r ≠ 10 → (viaRead (viaReg sw r) d).2 = d) ∧
    (∀ k < 8, (viaRead (viaReg sw 0) d).1.getLsbD k = if k = 5 then d.alg.compare
      else if k = 7 ∧ d.via.acr.getLsbD 7 = true then d.via.t1pb7 else d.via.orb.getLsbD k) ∧
    ((viaRead (viaReg sw 15) d).1 = if d.via.orb.getLsbD 4 = false ∧ d.via.orb.getLsbD 3 = true
      then d.psg.read d.psg.select else d.via.ora) ∧
    (let value (r : BitVec 4) : Byte := (viaRead (viaReg sw r) d).1
     value 2 = d.via.ddrb ∧ value 3 = d.via.ddra ∧ (value 5).toNat = d.via.t1c.toNat / 256 ∧ value 6 = d.via.t1ll ∧
     value 7 = d.via.t1lh ∧ (value 9).toNat = d.via.t2c.toNat / 256 ∧ value 11 = d.via.acr ∧ value 12 = d.via.pcr ∧
     value (if sw then 14 else 13) = d.via.ifr ∧
     ∀ k < 8, (value (if sw then 13 else 14)).getLsbD k = (decide (k = 7) || d.via.ier.getLsbD k)) ∧
    ((viaRead (viaReg sw 1) d).1 = (viaRead (viaReg sw 15) d).1 ∧
      (viaRead (viaReg sw 1) d).2 = { d with via := { d.via with
        ca2 := if d.via.pcr.getLsbD 3 = true ∧ d.via.pcr.getLsbD 2 = false then false else d.via.ca2 } }) ∧
    (∃ f, (viaRead (viaReg sw 4) d).1.toNat = d.via.t1c.toNat % 256 ∧
      (viaRead (viaReg sw 4) d).2
        = { d with via := { d.via with ifr := f, t1on := false, t1int := false, t1pb7 := true } } ∧
      flagByte (fun k => k != 6 && d.via.ifr.getLsbD k) d.via.ier f) ∧
    (∃ f, (viaRead (viaReg sw 8) d).1.toNat = d.via.t2c.toNat % 256 ∧
      (viaRead (viaReg sw 8) d).2 = { d with via := { d.via with ifr := f, t2on := false, t2int := false } } ∧
      flagByte (fun k => k != 5 && d.via.ifr.getLsbD k) d.via.ier f) ∧
    (∃ f, (viaRead (viaReg sw 10) d).1 = d.via.sr ∧
      (viaRead (viaReg sw 10) d).2 = { d with via := { d.via with ifr := f, srb := 0, srclk := true } } ∧
      flagByte (fun k => k != 2 && d.via.ifr.getLsbD k) d.via.ier f)

/-- Writes of the flag and the enable register (R468, R469), at indices 13 and 14 or exchanged (R441): a 1 clears a flag,
bit 7 is ignored; bit 7 set enables the named flags, clear disables them; nothing else changes. Writes of the direction
bytes, the mode register and the control register, which sets both control lines afresh (R467). The two lines over every
access of the chip: a port access pulls its line low in the handshake and pulse modes, the control register sets both, and
nothing else moves them; over a device cycle: half-step 2 raises a line in pulse mode, after the analog step, which sees
the lines as the accesses left them (R476). -/
def Obligations.FlagAndEnableWrites : Prop :=
  ∀ (sw : Bool) (v : Byte) (d : Devices),
    (∃ f, viaWrite (viaReg sw (if sw then 14 else 13)) v d = { d with via := { d.via with ifr := f } } ∧
      flagByte (fun k => d.via.ifr.getLsbD k && !v.getLsbD k) d.via.ier f) ∧
    (∃ e f, viaWrite (viaReg sw (if sw then 13 else 14)) v d = { d with via := { d.via with ier := e, ifr := f } } ∧
      (∀ k < 7, e.getLsbD k = if v.getLsbD 7 then d.via.ier.getLsbD k || v.getLsbD k
        else d.via.ier.getLsbD k && !v.getLsbD k) ∧
      e.getLsbD 7 = d.via.ier.getLsbD 7 ∧
      flagByte (fun k => d.via.ifr.getLsbD k) e f) ∧
    (viaWrite (viaReg sw 2) v d = { d with via := { d.via with ddrb := v } } ∧
      viaWrite (viaReg sw 3) v d = { d with via := { d.via with ddra := v } } ∧
      viaWrite (viaReg sw 11) v d = { d with via := { d.via with acr := v } } ∧
      viaWrite (viaReg sw 12) v d = { d with via := { d.via with
        pcr := v
        ca2 := if v.extractLsb' 1 3 = 0b110 then false else true
        cb2h := if v.extractLsb' 5 3 = 0b110 then false else true } }) ∧
    (∀ r : ViaReg,
      (viaWrite r v d).via.ca2 = (if r = .pcr then decide (v.extractLsb' 1 3 ≠ 0b110)
        else if r = .portA ∧ d.via.pcr.extractLsb' 2 2 = 0b10 then false else d.via.ca2) ∧
      (viaWrite r v d).via.cb2h = (if r = .pcr then decide (v.extractLsb' 5 3 ≠ 0b110)
        else if r = .portB ∧ d.via.pcr.extractLsb' 6 2 = 0b10 then false else d.via.cb2h) ∧
      (viaRead r d).2.via.ca2 = (if r = .portA ∧ d.via.pcr.extractLsb' 2 2 = 0b10 then false else d.via.ca2) ∧
      (viaRead r d).2.via.cb2h = d.via.cb2h) ∧
    (∀ vh : Nat,
      let e := deviceCycle vh d
      let first := d.via.halfStep1
      first.ca2 = d.via.ca2 ∧ first.cb2h = d.via.cb2h ∧ e.alg = (algStep vh { d with via := first }).alg ∧
      e.lists = (algStep vh { d with via := first }).lists ∧ e.via.pcr = d.via.pcr ∧
      e.via.ca2 = (if d.via.pcr.extractLsb' 1 3 = 0b101 then true else d.via.ca2) ∧
      e.via.cb2h = (if d.via.pcr.extractLsb' 5 3 = 0b101 then true else d.via.cb2h))

/-- Timer 1, timer 2 and the shifter: what a write of each of their indices does (R464, R465, R466), and what device cycles
do (R471, R472, R474, R475). A latch write touches its latch alone; a write of index 5 or 9 starts its timer from the
latches and clears its flag; a write of index 10 restarts the bit count. A running timer at `n` raises its flag
in cycle `n + 1` and not before; one-shot leaves the output high and disarms, continuous toggles it and reloads; a byte
shifted out under the system clock is back after 8 cycles, with the flag raised. -/
def Obligations.TimersAndShifter : Prop :=
  ∀ (vh : Nat) (d : Devices),
    (∀ (sw : Bool) (v : Byte),
      (viaWrite (viaReg sw 4) v d = { d with via := { d.via with t1ll := v } } ∧
        viaWrite (viaReg sw 6) v d = { d with via := { d.via with t1ll := v } } ∧
        viaWrite (viaReg sw 7) v d = { d with via := { d.via with t1lh := v } } ∧
        viaWrite (viaReg sw 8) v d = { d with via := { d.via with t2ll := v } }) ∧
      (∃ c f, viaWrite (viaReg sw 5) v d = { d with via := { d.via with
          t1lh := v, t1c := c, t1on := true, t1int := true, t1pb7 := false, ifr := f } } ∧
        c.toNat = 256 * v.toNat + d.via.t1ll.toNat ∧
        flagByte (fun k => k != 6 && d.via.ifr.getLsbD k) d.via.ier f) ∧
      (∃ c f, viaWrite (viaReg sw 9) v d = { d with via := { d.via with
          t2c := c, t2on := true, t2int := true, ifr := f } } ∧
        c.toNat = 256 * v.toNat + d.via.t2ll.toNat ∧
        flagByte (fun k => k != 5 && d.via.ifr.getLsbD k) d.via.ier f) ∧
      (∃ f, viaWrite (viaReg sw 10) v d = { d with via := { d.via with sr := v, srb := 0, srclk := true, ifr := f } } ∧
        flagByte (fun k => k != 2 && d.via.ifr.getLsbD k) d.via.ier f)) ∧
    (d.via.t1on = true → d.via.ifr.getLsbD 6 = false → (d.via.acr.getLsbD 6 = true ∨ d.via.t1int = true) →
      (∀ k ≤ d.via.t1c.toNat, (deviceCycles vh k d).via.ifr.getLsbD 6 = false ∧
        (deviceCycles vh k d).via.t1c.toNat = d.via.t1c.toNat - k) ∧
      (let e := (deviceCycles vh (d.via.t1c.toNat + 1) d).via
       e.ifr.getLsbD 6 = true ∧ (d.via.ier.getLsbD 6 = true → e.ifr.getLsbD 7 = true) ∧
       (d.via.acr.getLsbD 6 = true → e.t1c.toNat = 256 * d.via.t1lh.toNat + d.via.t1ll.toNat ∧ e.t1pb7 = !d.via.t1pb7) ∧
       (d.via.acr.getLsbD 6 = false → e.t1c = 0xFFFF ∧ e.t1pb7 = true ∧ e.t1int = false))) ∧
    (d.via.t2on = true → d.via.ifr.getLsbD 5 = false → d.via.acr.getLsbD 5 = false → d.via.t2int = true →
      (∀ k ≤ d.via.t2c.toNat, (deviceCycles vh k d).via.ifr.getLsbD 5 = false) ∧
      (let e := (deviceCycles vh (d.via.t2c.toNat + 1) d).via
       e.ifr.getLsbD 5 = true ∧ (d.via.ier.getLsbD 5 = true → e.ifr.getLsbD 7 = true) ∧ e.t2c = 0xFFFF ∧
       e.t2int = false)) ∧
    (d.via.srb = 0 → d.via.acr.extractLsb' 2 3 = 0b110 →
      (∀ k < 8, (deviceCycles vh (k + 1) d).via.cb2s = d.via.sr.getLsbD (7 - k)) ∧
      (let e := (deviceCycles vh 8 d).via
       e.sr = d.via.sr ∧ e.srb = 8 ∧ e.ifr.getLsbD 2 = true))

/-! ### Sound bus, analog holds, beam, lists -/

/-- A write of a data port on the sound bus (R460, R462, R463, R541, R542): the port's byte is stored, then, by the control
bits of port B as they now are, in the receive state the selected register takes port A's byte within its mask, but for the
button port; in the latch state the low nibble selects, if the high one is 0; else the sound chip does not change. The
control lines apart (`FlagAndEnableWrites`) nothing else of the IO chip changes. No write of the IO chip changes the
button port. -/
def Obligations.SoundBus : Prop :=
  (∀ (r : ViaReg) (v : Byte) (d : Devices), (viaWrite r v d).psg.read 14 = d.psg.read 14) ∧
  (∀ (r : ViaReg) (v : Byte) (d : Devices), r = .portA ∨ r = .portANoHandshake ∨ r = .portB →
    let t := viaWrite r v d
    let orb := if r = .portB then v else d.via.orb
    let ora := if r = .portB then d.via.ora else v
    let control := (orb.extractLsb' 3 2).toNat
    t.via = { d.via with orb := orb, ora := ora, ca2 := t.via.ca2, cb2h := t.via.cb2h } ∧ t.lists = d.lists ∧
    (control = 2 → d.psg.select ≠ 14 →
      t.psg.read d.psg.select = ora &&& soundMasks.getD d.psg.select.toNat 0 ∧ t.psg.select = d.psg.select ∧
      ∀ q, q ≠ d.psg.select → t.psg.read q = d.psg.read q) ∧
    (control = 2 → d.psg.select = 14 → t.psg = d.psg) ∧
    (control = 3 → t.psg = { d.psg with
      select := if ora.toNat < 16 then BitVec.ofNat 4 ora.toNat else d.psg.select }) ∧
    (control < 2 → t.psg = d.psg))

/-- A write of a data port drives the holds (R462, R463, R502, R503): port A the X hold, with bit 7 inverted; then, by
port B as it now is, the multiplexer copies the X hold to one other hold or none, and the comparator and the deltas are
refreshed; the beam does not move. -/
def Obligations.PortADrivesHolds : Prop :=
  ∀ (r : ViaReg) (v : Byte) (d : Devices), r = .portA ∨ r = .portANoHandshake ∨ r = .portB →
    let g := d.alg
    let t := (viaWrite r v d).alg
    let orb := if r = .portB then v else d.via.orb
    let x := if r = .portB then g.xsh else v ^^^ 0x80
    let sel := orb.extractLsb' 1 2
    let on := orb.getLsbD 0 = false
    t.xsh = x ∧
    t.ysh = (if on ∧ sel = 0 then x else g.ysh) ∧
    t.rsh = (if on ∧ sel = 1 then x else g.rsh) ∧
    t.zsh = (if on ∧ sel = 2 then x.toNat - 0x80 else g.zsh) ∧
    t.jsh = g.jch[sel.toNat]'(by have := sel.isLt; omega) ∧
    t.compare = decide (x.toNat < t.jsh.toNat) ∧
    t.dx = (t.xsh.toNat : Int) - t.rsh.toNat ∧ t.dy = (t.rsh.toNat : Int) - t.ysh.toNat ∧
    t.jch = g.jch ∧ t.currX = g.currX ∧ t.currY = g.currY ∧ t.vec = g.vec

/-- The analog step (R505, R506, R510): with CA2 low the beam is at the centre; else the ramp signal integrates the
deltas or holds; a candidate opens, follows the beam while it is in bounds, and is added to the lists when the beam is
blanked or the delta or the intensity changes. -/
def Obligations.BeamStep : Prop :=
  ∀ (vh : Nat) (d : Devices),
    let v := d.via
    let g := d.alg
    let t := algStep vh d
    let blank := if v.acr.getLsbD 4 then v.cb2s else v.cb2h
    let ramp := if v.acr.getLsbD 7 then v.t1pb7 else v.orb.getLsbD 7
    let dx := t.alg.currX - g.currX
    let dy := t.alg.currY - g.currY
    let fresh : Candidate := ⟨g.currX, g.currY, g.currX, g.currY, dx, dy, g.zsh⟩
    let moved (c : Candidate) : Candidate :=
      if inBounds t.alg.currX t.alg.currY then { c with x1 := t.alg.currX, y1 := t.alg.currY } else c
    (v.ca2 = false → t.alg.currX = 16500 ∧ t.alg.currY = 20500) ∧
    (v.ca2 = true → ramp = false → dx = g.dx ∧ dy = g.dy) ∧
    (v.ca2 = true → ramp = true → dx = 0 ∧ dy = 0) ∧
    (g.vec = none → t.lists = d.lists ∧
      t.alg.vec = if blank = true ∧ inBounds g.currX g.currY = true then some (moved fresh) else none) ∧
    (∀ c, g.vec = some c → blank = false → t.alg.vec = none ∧ t.lists = emit vh c d.lists) ∧
    (∀ c, g.vec = some c → blank = true → (dx ≠ c.dx ∨ dy ≠ c.dy ∨ g.zsh ≠ c.color) → t.lists = emit vh c d.lists ∧
      t.alg.vec = if inBounds g.currX g.currY = true then some (moved fresh) else none) ∧
    (∀ c, g.vec = some c → blank = true → dx = c.dx → dy = c.dy → g.zsh = c.color →
      t.lists = d.lists ∧ t.alg.vec = some (moved c)) ∧
    t.via = d.via ∧ t.psg = d.psg ∧
    t.alg = { g with currX := t.alg.currX, currY := t.alg.currY, vec := t.alg.vec }

/-- `AddLine` (R515, R518): an exact match in the draw list changes that entry's colour and nothing else; without one the
segment is appended, its index goes to its slot, and a twin in the erase list is cancelled; at capacity it is dropped.
Added again at once, the same segment adds no entry. Where its slot points at every entry of the draw list with its
coordinates, it does so after an `AddLine` of the segment, whose draw list then has at most one such entry, and after an
`AddLine` of a segment with another key: only a collision ends it (R517). -/
def Obligations.SegmentLists : Prop :=
  ∀ (vh : Nat) (x0 y0 x1 y1 : Int) (color color2 : Nat) (l : Lists),
    let key := segmentHash vh x0 y0 x1 y1
    let t := addLine vh x0 y0 x1 y1 color l
    let seg : Segment := { x0 := x0, y0 := y0, x1 := x1, y1 := y1, color := color }
    let twin (e : Segment) : Prop := e.x0 = x0 ∧ e.y0 = y0 ∧ e.x1 = x1 ∧ e.y1 = y1
    let pointed (m : Lists) : Prop := ∀ (i : Nat) (e : Segment), m.draw[i]? = some e → twin e → i = m.slot key
    ((∃ e, l.draw[l.slot key]? = some e ∧ twin e) → t.draw = l.draw.set (l.slot key) seg ∧ t.erase = l.erase ∧
      t.hash = l.hash) ∧
    ((∀ e, l.draw[l.slot key]? = some e → ¬ twin e) →
      (l.draw.length < 2048 → t.draw = l.draw ++ [seg] ∧ t.slot key = l.draw.length ∧
        (∀ k, k ≠ key → t.slot k = l.slot k)) ∧
      (2048 ≤ l.draw.length → t.draw = l.draw ∧ t.hash = l.hash) ∧
      ((∃ e, l.erase[l.slot key]? = some e ∧ twin e) →
        t.erase = l.erase.set (l.slot key) { seg with color := 128 }) ∧
      ((∀ e, l.erase[l.slot key]? = some e → ¬ twin e) → t.erase = l.erase)) ∧
    (l.draw.length < 2048 → (addLine vh x0 y0 x1 y1 color2 t).draw.length = t.draw.length) ∧
    (pointed l → pointed t ∧
      (∀ (i j : Nat) (e f : Segment), t.draw[i]? = some e → twin e → t.draw[j]? = some f → twin f → i = j) ∧
      ∀ a b c d : Int, segmentHash vh a b c d ≠ key → pointed (addLine vh a b c d color2 l))

/-- `PsgGenerate` (R558, R559): as many samples as were asked for, each the sum of three table entries or zeros; no
register of the chip changes, nor the selection. The table is the model's free one (log 11). -/
def Obligations.SampleRequests : Prop :=
  ∀ (n : Nat) (p : Psg),
    (p.generate n).1.length = n ∧ (p.generate n).2.reg = p.reg ∧ (p.generate n).2.select = p.select ∧
    (∀ v ∈ (p.generate n).1, ∃ i j k : Nat, i < 32 ∧ j < 32 ∧ k < 32 ∧ v = volTable i + volTable j + volTable k)

/-! ### Decoding and encoding -/

/-- DECODE UNDOES ENCODE: for every well-formed instruction and whatever bytes follow, with every operand at every value
(R120-R143). -/
def Obligations.DecodeUndoesEncode : Prop :=
  ∀ (i : Instr) (rest : List Byte), i.wf = true → decode (encode i ++ rest) = .ok (i, rest)

/-- What decodes is a well-formed instruction of 1 to 5 bytes (R120), and only the bytes used count. -/
def Obligations.DecodedIsWellFormed : Prop :=
  ∀ (bs rest : List Byte) (i : Instr), decode bs = .ok (i, rest) →
    i.wf = true ∧ ∃ used, bs = used ++ rest ∧ 1 ≤ used.length ∧ used.length ≤ 5 ∧
      ∀ other, decode (used ++ other) = .ok (i, other)

/-- The undefined opcodes (R122, R123, R143): a page-1 byte that is no prefix, or a byte after a prefix, has no row exactly
where the rule lists it, and then the instruction ends with it, whatever follows; 10 86 is not LDA and 10 10 is no second
prefix. -/
def Obligations.UndefinedOpcodesDecode : Prop :=
  ∀ (page : Page) (op : Byte) (rest : List Byte), (page = .p1 → op ≠ 0x10 ∧ op ≠ 0x11) →
    ((lookup page op).isNone = isUndefinedOpcode page op) ∧
    (isUndefinedOpcode page op = true →
      decode (pageBytes page ++ op :: rest) = .ok (.undefined page op, rest))

/-- A few words written out from the encoding tables (R121, R136, R140-R142) decode to the instructions they stand
for. -/
def Obligations.WordsDecode : Prop :=
  decode [0x86, 0x7F] = .ok (.lda (.imm 0x7F), []) ∧
  decode [0xF7, 0xC8, 0x10] = .ok (.stb (.ext 0xC810), []) ∧
  decode [0x10, 0xAE, 0x99, 0x12, 0x34] = .ok (.ldy (.mem (.idx (.off16 .x 0x1234 true))), []) ∧
  decode [0x11, 0x83, 0x12, 0x34] = .ok (.cmpu (.imm 0x1234), []) ∧
  decode [0x6C, 0xA0] = .ok (.inc (.idx (.postInc1 .y)), []) ∧
  decode [0x30, 0x1F] = .ok (.leax (.off5 .x 0x1F), []) ∧
  decode [0x1F, 0x8B] = .ok (.tfr 8 11, []) ∧
  decode [0x34, 0x81] = .ok (.pshs 0x81, []) ∧
  decode [0x10, 0x27, 0x01, 0x00] = .ok (.lbeq 0x0100, []) ∧
  decode [0xAD, 0x9F, 0xC8, 0x10] = .ok (.jsr (.idx (.extInd 0xC810)), []) ∧
  decode [0x10, 0x3F] = .ok (.swi2, []) ∧
  decode [0x3C, 0xEF] = .ok (.cwai 0xEF, [])

end
end

