-- ==== Sys2Proof/Laws/Bits.lean ====
section
/-! SUPPORT. Byte order: the halves of a word and the word of two bytes undo each other. -/

namespace Sys2Proof

theorem wordOf_toNat (h l : Byte) : (wordOf h l).toNat = h.toNat * 256 + l.toNat := by
  have e : (wordOf h l).toNat = h.toNat <<< 8 ||| l.toNat := BitVec.toNat_append h l
  have hl := l.isLt
  rw [e, Nat.shiftLeft_eq, Nat.mul_comm, ← Nat.two_pow_add_eq_or_of_lt hl, Nat.mul_comm]

theorem hiByte_toNat (w : Word) : (hiByte w).toNat = w.toNat / 256 := by
  have := w.isLt
  simp [hiByte, BitVec.extractLsb'_toNat, Nat.shiftRight_eq_div_pow]
  omega

theorem loByte_toNat (w : Word) : (loByte w).toNat = w.toNat % 256 := by
  simp [loByte, BitVec.extractLsb'_toNat]

@[simp] theorem hiByte_wordOf (h l : Byte) : hiByte (wordOf h l) = h := by
  apply BitVec.eq_of_toNat_eq
  have := l.isLt
  rw [hiByte_toNat, wordOf_toNat]
  omega

@[simp] theorem loByte_wordOf (h l : Byte) : loByte (wordOf h l) = l := by
  apply BitVec.eq_of_toNat_eq
  have := l.isLt
  rw [loByte_toNat, wordOf_toNat]
  omega

@[simp] theorem wordOf_hiByte_loByte (w : Word) : wordOf (hiByte w) (loByte w) = w := by
  apply BitVec.eq_of_toNat_eq
  rw [wordOf_toNat, hiByte_toNat, loByte_toNat]
  omega

end Sys2Proof
end

