-- ==== Sys2Proof/Laws/Memory.lean ====
section
/-! SUPPORT. The laws of sparse tables and of the memories: read after write, the canonical form kept by every
operation. -/

namespace Sys2Proof.Machine

variable {α : Type} (dflt : Nat → α)

/-! ### Read after write -/

theorem sparseGet_erase_same (t : List (Nat × α)) (k : Nat) : sparseGet dflt (sparseErase t k) k = dflt k := by
  induction t with
  | nil => rfl
  | cons c t ih =>
    obtain ⟨j, v⟩ := c
    by_cases h : j = k
    · simp [sparseErase, h, ih]
    · simp [sparseErase, h, sparseGet, ih]

theorem sparseGet_erase_ne (t : List (Nat × α)) {k j : Nat} (h : j ≠ k) :
    sparseGet dflt (sparseErase t k) j = sparseGet dflt t j := by
  induction t with
  | nil => rfl
  | cons c t ih =>
    obtain ⟨i, v⟩ := c
    by_cases hi : i = k
    · subst hi
      simp [sparseErase, sparseGet, ih, Ne.symm h]
    · simp [sparseErase, hi, sparseGet, ih]

theorem sparseGet_insert_same (t : List (Nat × α)) (k : Nat) (v : α) (h : sparseGet dflt t k = dflt k)
    (hk : ∀ c ∈ t, c.1 ≠ k) : sparseGet dflt (sparseInsert k v t) k = v := by
  induction t with
  | nil => simp [sparseInsert, sparseGet]
  | cons c t ih =>
    obtain ⟨j, w⟩ := c
    have hj : j ≠ k := hk (j, w) (by simp)
    simp only [sparseInsert]
    split
    · simp [sparseGet]
    · simp only [sparseGet, hj, if_false] at h ⊢
      exact ih h (fun c hc => hk c (by simp [hc]))

theorem sparseGet_insert_ne (t : List (Nat × α)) {k j : Nat} (v : α) (h : j ≠ k) :
    sparseGet dflt (sparseInsert k v t) j = sparseGet dflt t j := by
  induction t with
  | nil => simp [sparseInsert, sparseGet, Ne.symm h]
  | cons c t ih =>
    obtain ⟨i, w⟩ := c
    simp only [sparseInsert]
    split
    · simp [sparseGet, Ne.symm h]
    · simp [sparseGet, ih]

theorem sparseErase_keys (t : List (Nat × α)) (k : Nat) : ∀ c ∈ sparseErase t k, c.1 ≠ k := by
  induction t with
  | nil => simp [sparseErase]
  | cons c t ih =>
    obtain ⟨j, v⟩ := c
    by_cases h : j = k
    · simpa [sparseErase, h] using ih
    · intro c hc
      simp only [sparseErase, h, if_false, List.mem_cons] at hc
      rcases hc with rfl | hc
      · exact h
      · exact ih c hc

theorem sparseErase_subset (t : List (Nat × α)) (k : Nat) : ∀ c ∈ sparseErase t k, c ∈ t := by
  induction t with
  | nil => simp [sparseErase]
  | cons c t ih =>
    obtain ⟨j, v⟩ := c
    intro c hc
    by_cases h : j = k
    · simp only [sparseErase, h, if_true] at hc
      exact List.mem_cons_of_mem _ (ih c hc)
    · simp only [sparseErase, h, if_false, List.mem_cons] at hc
      rcases hc with rfl | hc
      · simp
      · exact List.mem_cons_of_mem _ (ih c hc)

theorem sparseInsert_mem (t : List (Nat × α)) (k : Nat) (v : α) :
    ∀ c ∈ sparseInsert k v t, c = (k, v) ∨ c ∈ t := by
  induction t with
  | nil => simp [sparseInsert]
  | cons c t ih =>
    obtain ⟨j, w⟩ := c
    intro c hc
    simp only [sparseInsert] at hc
    split at hc
    · simpa using hc
    · simp only [List.mem_cons] at hc ⊢
      rcases hc with rfl | hc
      · simp
      · rcases ih c hc with h | h
        · exact Or.inl h
        · exact Or.inr (Or.inr h)

variable [DecidableEq α]

/-- Reading the key just written. -/
@[simp] theorem sparseGet_set_same (t : List (Nat × α)) (k : Nat) (v : α) :
    sparseGet dflt (sparseSet dflt t k v) k = v := by
  unfold sparseSet
  split
  · rw [sparseGet_erase_same]; simp_all
  · exact sparseGet_insert_same dflt _ k v (sparseGet_erase_same dflt t k) (sparseErase_keys t k)

/-- Reading any other key. -/
theorem sparseGet_set_ne (t : List (Nat × α)) {k j : Nat} (v : α) (h : j ≠ k) :
    sparseGet dflt (sparseSet dflt t k v) j = sparseGet dflt t j := by
  unfold sparseSet
  split
  · exact sparseGet_erase_ne dflt t h
  · rw [sparseGet_insert_ne dflt _ v h, sparseGet_erase_ne dflt t h]

/-- What a written table can hold: the new entry and old ones. -/
theorem sparseSet_mem (t : List (Nat × α)) (k : Nat) (v : α) :
    ∀ c ∈ sparseSet dflt t k v, c = (k, v) ∨ c ∈ t := by
  intro c hc
  unfold sparseSet at hc
  split at hc
  · exact Or.inr (sparseErase_subset t k c hc)
  · rcases sparseInsert_mem _ k v c hc with h | h
    · exact Or.inl h
    · exact Or.inr (sparseErase_subset t k c h)

/-! ### The canonical form -/

omit [DecidableEq α] in
theorem sparseErase_all_lt (t : List (Nat × α)) (k b : Nat) (h : t.all (fun c => decide (b < c.1)) = true) :
    (sparseErase t k).all (fun c => decide (b < c.1)) = true := by
  rw [List.all_eq_true] at h ⊢
  exact fun c hc => h c (sparseErase_subset t k c hc)

theorem sparseWf_erase (t : List (Nat × α)) (k : Nat) (h : sparseWf dflt t = true) :
    sparseWf dflt (sparseErase t k) = true := by
  induction t with
  | nil => rfl
  | cons c t ih =>
    obtain ⟨j, v⟩ := c
    simp only [sparseWf, Bool.and_eq_true] at h
    by_cases hj : j = k
    · simp only [sparseErase, hj, if_true]
      exact ih h.2
    · simp only [sparseErase, hj, if_false, sparseWf, Bool.and_eq_true]
      exact ⟨⟨h.1.1, sparseErase_all_lt t k j h.1.2⟩, ih h.2⟩

theorem sparseWf_insert (t : List (Nat × α)) (k : Nat) (v : α) (h : sparseWf dflt t = true) (hv : v ≠ dflt k)
    (hk : ∀ c ∈ t, c.1 ≠ k) : sparseWf dflt (sparseInsert k v t) = true := by
  induction t with
  | nil => simp [sparseInsert, sparseWf, hv]
  | cons c t ih =>
    obtain ⟨j, w⟩ := c
    have hj : j ≠ k := hk (j, w) (by simp)
    have h0 := h
    simp only [sparseWf, Bool.and_eq_true] at h
    simp only [sparseInsert]
    split
    · rename_i hlt
      simp only [sparseWf, Bool.and_eq_true, decide_eq_true_eq, List.all_cons]
      refine ⟨⟨hv, hlt, ?_⟩, ?_⟩
      · have := h.1.2
        rw [List.all_eq_true] at this ⊢
        intro c hc
        have := this c hc
        simp only [decide_eq_true_eq] at this ⊢
        omega
      · simpa [sparseWf] using h0
    · rename_i hlt
      simp only [sparseWf, Bool.and_eq_true]
      refine ⟨⟨h.1.1, ?_⟩, ih h.2 (fun c hc => hk c (by simp [hc]))⟩
      have hall := h.1.2
      rw [List.all_eq_true] at hall ⊢
      intro c hc
      rcases sparseInsert_mem t k v c hc with rfl | hc
      · simp only [decide_eq_true_eq]; omega
      · exact hall c hc

/-- Every write keeps the canonical form. -/
theorem sparseWf_set (t : List (Nat × α)) (k : Nat) (v : α) (h : sparseWf dflt t = true) :
    sparseWf dflt (sparseSet dflt t k v) = true := by
  unfold sparseSet
  split
  · exact sparseWf_erase dflt t k h
  · exact sparseWf_insert dflt _ k v (sparseWf_erase dflt t k h) ‹_› (sparseErase_keys t k)

theorem sparseWf_filter (t : List (Nat × α)) (p : Nat × α → Bool) (h : sparseWf dflt t = true) :
    sparseWf dflt (t.filter p) = true := by
  induction t with
  | nil => rfl
  | cons c t ih =>
    obtain ⟨j, v⟩ := c
    simp only [sparseWf, Bool.and_eq_true] at h
    simp only [List.filter_cons]
    split
    · simp only [sparseWf, Bool.and_eq_true]
      refine ⟨⟨h.1.1, ?_⟩, ih h.2⟩
      have hall := h.1.2
      rw [List.all_eq_true] at hall ⊢
      exact fun c hc => hall c (List.mem_of_mem_filter hc)
    · exact ih h.2

/-! ### The machine's memories -/

@[simp] theorem Memory.get_set_same (m : Memory) (k : Nat) (v : Byte) : (m.set k v).get k = v :=
  sparseGet_set_same _ m k v

theorem Memory.get_set_ne (m : Memory) {k j : Nat} (v : Byte) (h : j ≠ k) : (m.set k v).get j = m.get j :=
  sparseGet_set_ne _ m v h

theorem Memory.get_set (m : Memory) (k j : Nat) (v : Byte) :
    (m.set k v).get j = if j = k then v else m.get j := by
  split
  · subst j; simp
  · exact Memory.get_set_ne m v ‹_›

/-- A write to an existing cell keeps the form. -/
theorem Memory.wf_set (m : Memory) (k : Nat) (v : Byte) (h : m.wf = true) (hk : isCell k = true) :
    (m.set k v).wf = true := by
  simp only [Memory.wf, Bool.and_eq_true, List.all_eq_true] at h ⊢
  refine ⟨sparseWf_set _ m k v h.1, fun c hc => ?_⟩
  rcases sparseSet_mem _ m k v c hc with rfl | hc
  · exact hk
  · exact h.2 c hc

/-- Loading an image into existing cells keeps the form. -/
theorem Memory.wf_load (bs : List Byte) : ∀ (base : Nat) (m : Memory), m.wf = true →
    (∀ k < bs.length, isCell (base + k) = true) → (Memory.load base bs m).wf = true := by
  induction bs with
  | nil => intro _ _ h _; exact h
  | cons b bs ih =>
    intro base m h hk
    simp only [Memory.load]
    apply ih
    · exact Memory.wf_set m base b h (by simpa using hk 0 (by simp))
    · intro k hlt
      have := hk (k + 1) (by simp; omega)
      rwa [show base + (k + 1) = base + 1 + k by omega] at this

theorem isCell_of_isRamCell {k : Nat} (h : isRamCell k = true) : isCell k = true := by
  simp only [isRamCell, isCell, Bool.or_eq_true, Bool.and_eq_true] at *
  exact Or.inl (Or.inr h)

theorem isRamCell_index (i : Nat) (h : i < 1024) : isRamCell (Config.ramBase + i) = true := by
  simp [isRamCell, h]

theorem Memory.wf_filter (m : Memory) (p : Host.Cell → Bool) (h : m.wf = true) : Memory.wf (m.filter p) = true := by
  simp only [Memory.wf, Bool.and_eq_true, List.all_eq_true] at h ⊢
  exact ⟨sparseWf_filter _ m p h.1, fun c hc => h.2 c (List.mem_of_mem_filter hc)⟩

/-- Reset's filling of RAM keeps the form. -/
theorem Memory.wf_resetRam (ramInit : List (Nat × Byte)) (m : Memory) (h : m.wf = true) :
    (m.resetRam ramInit).wf = true := by
  unfold Memory.resetRam
  generalize hm : List.filter (fun c => !isRamCell c.1) m = m0
  have h0 : Memory.wf m0 = true := hm ▸ Memory.wf_filter m _ h
  clear hm
  induction ramInit generalizing m0 with
  | nil => exact h0
  | cons c t ih =>
    simp only [List.foldl_cons]
    exact ih _ (Memory.wf_set m0 _ _ h0 (isCell_of_isRamCell (isRamCell_index _ (Nat.mod_lt _ (by decide)))))

/-- What a cell outside RAM holds is not changed by the filling of RAM. -/
theorem Memory.get_resetRam (ramInit : List (Nat × Byte)) (m : Memory) (k : Nat) (hk : isRamCell k = false) :
    (m.resetRam ramInit).get k = m.get k := by
  have hf : Memory.get (List.filter (fun c => !isRamCell c.1) m) k = m.get k := by
    unfold Memory.get
    induction m with
    | nil => rfl
    | cons c t ih =>
      obtain ⟨j, v⟩ := c
      by_cases hj : j = k
      · subst hj; simp [hk, sparseGet]
      · by_cases hr : isRamCell j = true
        · simp [hr, sparseGet, hj, ih]
        · simp [hr, sparseGet, hj, ih]
  unfold Memory.resetRam
  rw [← hf]
  generalize List.filter (fun c => !isRamCell c.1) m = m0
  clear hf
  induction ramInit generalizing m0 with
  | nil => rfl
  | cons c t ih =>
    simp only [List.foldl_cons]
    rw [ih]
    apply Memory.get_set_ne
    rintro rfl
    rw [isRamCell_index _ (Nat.mod_lt _ (by decide))] at hk
    exact absurd hk (by decide)

omit [DecidableEq α] in
theorem sparseErase_filter (t : List (Nat × α)) (k : Nat) (p : Nat → Bool) (hp : p k = false) :
    (sparseErase t k).filter (fun c => p c.1) = t.filter (fun c => p c.1) := by
  induction t with
  | nil => rfl
  | cons c t ih =>
    obtain ⟨j, v⟩ := c
    by_cases h : j = k
    · subst h; simp [sparseErase, hp, ih]
    · simp [sparseErase, h, List.filter_cons, ih]

omit [DecidableEq α] in
theorem sparseInsert_filter (t : List (Nat × α)) (k : Nat) (v : α) (p : Nat → Bool) (hp : p k = false) :
    (sparseInsert k v t).filter (fun c => p c.1) = t.filter (fun c => p c.1) := by
  induction t with
  | nil => simp [sparseInsert, hp]
  | cons c t ih =>
    obtain ⟨j, w⟩ := c
    simp only [sparseInsert]
    split
    · simp [hp]
    · simp [List.filter_cons, ih]

/-- A write to a cell that a filter drops is not seen by the filter. -/
theorem sparseSet_filter (t : List (Nat × α)) (k : Nat) (v : α) (p : Nat → Bool) (hp : p k = false) :
    (sparseSet dflt t k v).filter (fun c => p c.1) = t.filter (fun c => p c.1) := by
  unfold sparseSet
  split
  · exact sparseErase_filter t k p hp
  · rw [sparseInsert_filter _ k v p hp, sparseErase_filter t k p hp]

end Sys2Proof.Machine
end

