-- ==== Sys2Proof/Laws/State.lean ====
section
/-! SUPPORT. One lemma for each field and each update of the state, true by `rfl`. -/

namespace Sys2Proof.Machine

/-! `setA` -/

@[simp] theorem setA_a (v : Byte) (st : State) : (st.setA v).cpu.a = v := rfl
@[simp] theorem setA_b (v : Byte) (st : State) : (st.setA v).cpu.b = st.cpu.b := rfl
@[simp] theorem setA_dp (v : Byte) (st : State) : (st.setA v).cpu.dp = st.cpu.dp := rfl
@[simp] theorem setA_cc (v : Byte) (st : State) : (st.setA v).cpu.cc = st.cpu.cc := rfl
@[simp] theorem setA_x (v : Byte) (st : State) : (st.setA v).cpu.x = st.cpu.x := rfl
@[simp] theorem setA_y (v : Byte) (st : State) : (st.setA v).cpu.y = st.cpu.y := rfl
@[simp] theorem setA_u (v : Byte) (st : State) : (st.setA v).cpu.u = st.cpu.u := rfl
@[simp] theorem setA_s (v : Byte) (st : State) : (st.setA v).cpu.s = st.cpu.s := rfl
@[simp] theorem setA_pc (v : Byte) (st : State) : (st.setA v).cpu.pc = st.cpu.pc := rfl
@[simp] theorem setA_wait (v : Byte) (st : State) : (st.setA v).cpu.wait = st.cpu.wait := rfl
@[simp] theorem setA_mem (v : Byte) (st : State) : (st.setA v).mem = st.mem := rfl
@[simp] theorem setA_dev (v : Byte) (st : State) : (st.setA v).dev = st.dev := rfl
@[simp] theorem setA_fcycles (v : Byte) (st : State) : (st.setA v).fcycles = st.fcycles := rfl
@[simp] theorem setA_report (v : Byte) (st : State) : (st.setA v).report = st.report := rfl
@[simp] theorem setA_draws (v : Byte) (st : State) : (st.setA v).draws = st.draws := rfl
@[simp] theorem setA_params (v : Byte) (st : State) : (st.setA v).params = st.params := rfl
@[simp] theorem setA_host (v : Byte) (st : State) : (st.setA v).host = st.host := rfl

/-! `setB` -/

@[simp] theorem setB_a (v : Byte) (st : State) : (st.setB v).cpu.a = st.cpu.a := rfl
@[simp] theorem setB_b (v : Byte) (st : State) : (st.setB v).cpu.b = v := rfl
@[simp] theorem setB_dp (v : Byte) (st : State) : (st.setB v).cpu.dp = st.cpu.dp := rfl
@[simp] theorem setB_cc (v : Byte) (st : State) : (st.setB v).cpu.cc = st.cpu.cc := rfl
@[simp] theorem setB_x (v : Byte) (st : State) : (st.setB v).cpu.x = st.cpu.x := rfl
@[simp] theorem setB_y (v : Byte) (st : State) : (st.setB v).cpu.y = st.cpu.y := rfl
@[simp] theorem setB_u (v : Byte) (st : State) : (st.setB v).cpu.u = st.cpu.u := rfl
@[simp] theorem setB_s (v : Byte) (st : State) : (st.setB v).cpu.s = st.cpu.s := rfl
@[simp] theorem setB_pc (v : Byte) (st : State) : (st.setB v).cpu.pc = st.cpu.pc := rfl
@[simp] theorem setB_wait (v : Byte) (st : State) : (st.setB v).cpu.wait = st.cpu.wait := rfl
@[simp] theorem setB_mem (v : Byte) (st : State) : (st.setB v).mem = st.mem := rfl
@[simp] theorem setB_dev (v : Byte) (st : State) : (st.setB v).dev = st.dev := rfl
@[simp] theorem setB_fcycles (v : Byte) (st : State) : (st.setB v).fcycles = st.fcycles := rfl
@[simp] theorem setB_report (v : Byte) (st : State) : (st.setB v).report = st.report := rfl
@[simp] theorem setB_draws (v : Byte) (st : State) : (st.setB v).draws = st.draws := rfl
@[simp] theorem setB_params (v : Byte) (st : State) : (st.setB v).params = st.params := rfl
@[simp] theorem setB_host (v : Byte) (st : State) : (st.setB v).host = st.host := rfl

/-! `setDp` -/

@[simp] theorem setDp_a (v : Byte) (st : State) : (st.setDp v).cpu.a = st.cpu.a := rfl
@[simp] theorem setDp_b (v : Byte) (st : State) : (st.setDp v).cpu.b = st.cpu.b := rfl
@[simp] theorem setDp_dp (v : Byte) (st : State) : (st.setDp v).cpu.dp = v := rfl
@[simp] theorem setDp_cc (v : Byte) (st : State) : (st.setDp v).cpu.cc = st.cpu.cc := rfl
@[simp] theorem setDp_x (v : Byte) (st : State) : (st.setDp v).cpu.x = st.cpu.x := rfl
@[simp] theorem setDp_y (v : Byte) (st : State) : (st.setDp v).cpu.y = st.cpu.y := rfl
@[simp] theorem setDp_u (v : Byte) (st : State) : (st.setDp v).cpu.u = st.cpu.u := rfl
@[simp] theorem setDp_s (v : Byte) (st : State) : (st.setDp v).cpu.s = st.cpu.s := rfl
@[simp] theorem setDp_pc (v : Byte) (st : State) : (st.setDp v).cpu.pc = st.cpu.pc := rfl
@[simp] theorem setDp_wait (v : Byte) (st : State) : (st.setDp v).cpu.wait = st.cpu.wait := rfl
@[simp] theorem setDp_mem (v : Byte) (st : State) : (st.setDp v).mem = st.mem := rfl
@[simp] theorem setDp_dev (v : Byte) (st : State) : (st.setDp v).dev = st.dev := rfl
@[simp] theorem setDp_fcycles (v : Byte) (st : State) : (st.setDp v).fcycles = st.fcycles := rfl
@[simp] theorem setDp_report (v : Byte) (st : State) : (st.setDp v).report = st.report := rfl
@[simp] theorem setDp_draws (v : Byte) (st : State) : (st.setDp v).draws = st.draws := rfl
@[simp] theorem setDp_params (v : Byte) (st : State) : (st.setDp v).params = st.params := rfl
@[simp] theorem setDp_host (v : Byte) (st : State) : (st.setDp v).host = st.host := rfl

/-! `setCc` -/

@[simp] theorem setCc_a (v : Byte) (st : State) : (st.setCc v).cpu.a = st.cpu.a := rfl
@[simp] theorem setCc_b (v : Byte) (st : State) : (st.setCc v).cpu.b = st.cpu.b := rfl
@[simp] theorem setCc_dp (v : Byte) (st : State) : (st.setCc v).cpu.dp = st.cpu.dp := rfl
@[simp] theorem setCc_cc (v : Byte) (st : State) : (st.setCc v).cpu.cc = v := rfl
@[simp] theorem setCc_x (v : Byte) (st : State) : (st.setCc v).cpu.x = st.cpu.x := rfl
@[simp] theorem setCc_y (v : Byte) (st : State) : (st.setCc v).cpu.y = st.cpu.y := rfl
@[simp] theorem setCc_u (v : Byte) (st : State) : (st.setCc v).cpu.u = st.cpu.u := rfl
@[simp] theorem setCc_s (v : Byte) (st : State) : (st.setCc v).cpu.s = st.cpu.s := rfl
@[simp] theorem setCc_pc (v : Byte) (st : State) : (st.setCc v).cpu.pc = st.cpu.pc := rfl
@[simp] theorem setCc_wait (v : Byte) (st : State) : (st.setCc v).cpu.wait = st.cpu.wait := rfl
@[simp] theorem setCc_mem (v : Byte) (st : State) : (st.setCc v).mem = st.mem := rfl
@[simp] theorem setCc_dev (v : Byte) (st : State) : (st.setCc v).dev = st.dev := rfl
@[simp] theorem setCc_fcycles (v : Byte) (st : State) : (st.setCc v).fcycles = st.fcycles := rfl
@[simp] theorem setCc_report (v : Byte) (st : State) : (st.setCc v).report = st.report := rfl
@[simp] theorem setCc_draws (v : Byte) (st : State) : (st.setCc v).draws = st.draws := rfl
@[simp] theorem setCc_params (v : Byte) (st : State) : (st.setCc v).params = st.params := rfl
@[simp] theorem setCc_host (v : Byte) (st : State) : (st.setCc v).host = st.host := rfl

/-! `setX` -/

@[simp] theorem setX_a (v : Word) (st : State) : (st.setX v).cpu.a = st.cpu.a := rfl
@[simp] theorem setX_b (v : Word) (st : State) : (st.setX v).cpu.b = st.cpu.b := rfl
@[simp] theorem setX_dp (v : Word) (st : State) : (st.setX v).cpu.dp = st.cpu.dp := rfl
@[simp] theorem setX_cc (v : Word) (st : State) : (st.setX v).cpu.cc = st.cpu.cc := rfl
@[simp] theorem setX_x (v : Word) (st : State) : (st.setX v).cpu.x = v := rfl
@[simp] theorem setX_y (v : Word) (st : State) : (st.setX v).cpu.y = st.cpu.y := rfl
@[simp] theorem setX_u (v : Word) (st : State) : (st.setX v).cpu.u = st.cpu.u := rfl
@[simp] theorem setX_s (v : Word) (st : State) : (st.setX v).cpu.s = st.cpu.s := rfl
@[simp] theorem setX_pc (v : Word) (st : State) : (st.setX v).cpu.pc = st.cpu.pc := rfl
@[simp] theorem setX_wait (v : Word) (st : State) : (st.setX v).cpu.wait = st.cpu.wait := rfl
@[simp] theorem setX_mem (v : Word) (st : State) : (st.setX v).mem = st.mem := rfl
@[simp] theorem setX_dev (v : Word) (st : State) : (st.setX v).dev = st.dev := rfl
@[simp] theorem setX_fcycles (v : Word) (st : State) : (st.setX v).fcycles = st.fcycles := rfl
@[simp] theorem setX_report (v : Word) (st : State) : (st.setX v).report = st.report := rfl
@[simp] theorem setX_draws (v : Word) (st : State) : (st.setX v).draws = st.draws := rfl
@[simp] theorem setX_params (v : Word) (st : State) : (st.setX v).params = st.params := rfl
@[simp] theorem setX_host (v : Word) (st : State) : (st.setX v).host = st.host := rfl

/-! `setY` -/

@[simp] theorem setY_a (v : Word) (st : State) : (st.setY v).cpu.a = st.cpu.a := rfl
@[simp] theorem setY_b (v : Word) (st : State) : (st.setY v).cpu.b = st.cpu.b := rfl
@[simp] theorem setY_dp (v : Word) (st : State) : (st.setY v).cpu.dp = st.cpu.dp := rfl
@[simp] theorem setY_cc (v : Word) (st : State) : (st.setY v).cpu.cc = st.cpu.cc := rfl
@[simp] theorem setY_x (v : Word) (st : State) : (st.setY v).cpu.x = st.cpu.x := rfl
@[simp] theorem setY_y (v : Word) (st : State) : (st.setY v).cpu.y = v := rfl
@[simp] theorem setY_u (v : Word) (st : State) : (st.setY v).cpu.u = st.cpu.u := rfl
@[simp] theorem setY_s (v : Word) (st : State) : (st.setY v).cpu.s = st.cpu.s := rfl
@[simp] theorem setY_pc (v : Word) (st : State) : (st.setY v).cpu.pc = st.cpu.pc := rfl
@[simp] theorem setY_wait (v : Word) (st : State) : (st.setY v).cpu.wait = st.cpu.wait := rfl
@[simp] theorem setY_mem (v : Word) (st : State) : (st.setY v).mem = st.mem := rfl
@[simp] theorem setY_dev (v : Word) (st : State) : (st.setY v).dev = st.dev := rfl
@[simp] theorem setY_fcycles (v : Word) (st : State) : (st.setY v).fcycles = st.fcycles := rfl
@[simp] theorem setY_report (v : Word) (st : State) : (st.setY v).report = st.report := rfl
@[simp] theorem setY_draws (v : Word) (st : State) : (st.setY v).draws = st.draws := rfl
@[simp] theorem setY_params (v : Word) (st : State) : (st.setY v).params = st.params := rfl
@[simp] theorem setY_host (v : Word) (st : State) : (st.setY v).host = st.host := rfl

/-! `setU` -/

@[simp] theorem setU_a (v : Word) (st : State) : (st.setU v).cpu.a = st.cpu.a := rfl
@[simp] theorem setU_b (v : Word) (st : State) : (st.setU v).cpu.b = st.cpu.b := rfl
@[simp] theorem setU_dp (v : Word) (st : State) : (st.setU v).cpu.dp = st.cpu.dp := rfl
@[simp] theorem setU_cc (v : Word) (st : State) : (st.setU v).cpu.cc = st.cpu.cc := rfl
@[simp] theorem setU_x (v : Word) (st : State) : (st.setU v).cpu.x = st.cpu.x := rfl
@[simp] theorem setU_y (v : Word) (st : State) : (st.setU v).cpu.y = st.cpu.y := rfl
@[simp] theorem setU_u (v : Word) (st : State) : (st.setU v).cpu.u = v := rfl
@[simp] theorem setU_s (v : Word) (st : State) : (st.setU v).cpu.s = st.cpu.s := rfl
@[simp] theorem setU_pc (v : Word) (st : State) : (st.setU v).cpu.pc = st.cpu.pc := rfl
@[simp] theorem setU_wait (v : Word) (st : State) : (st.setU v).cpu.wait = st.cpu.wait := rfl
@[simp] theorem setU_mem (v : Word) (st : State) : (st.setU v).mem = st.mem := rfl
@[simp] theorem setU_dev (v : Word) (st : State) : (st.setU v).dev = st.dev := rfl
@[simp] theorem setU_fcycles (v : Word) (st : State) : (st.setU v).fcycles = st.fcycles := rfl
@[simp] theorem setU_report (v : Word) (st : State) : (st.setU v).report = st.report := rfl
@[simp] theorem setU_draws (v : Word) (st : State) : (st.setU v).draws = st.draws := rfl
@[simp] theorem setU_params (v : Word) (st : State) : (st.setU v).params = st.params := rfl
@[simp] theorem setU_host (v : Word) (st : State) : (st.setU v).host = st.host := rfl

/-! `setS` -/

@[simp] theorem setS_a (v : Word) (st : State) : (st.setS v).cpu.a = st.cpu.a := rfl
@[simp] theorem setS_b (v : Word) (st : State) : (st.setS v).cpu.b = st.cpu.b := rfl
@[simp] theorem setS_dp (v : Word) (st : State) : (st.setS v).cpu.dp = st.cpu.dp := rfl
@[simp] theorem setS_cc (v : Word) (st : State) : (st.setS v).cpu.cc = st.cpu.cc := rfl
@[simp] theorem setS_x (v : Word) (st : State) : (st.setS v).cpu.x = st.cpu.x := rfl
@[simp] theorem setS_y (v : Word) (st : State) : (st.setS v).cpu.y = st.cpu.y := rfl
@[simp] theorem setS_u (v : Word) (st : State) : (st.setS v).cpu.u = st.cpu.u := rfl
@[simp] theorem setS_s (v : Word) (st : State) : (st.setS v).cpu.s = v := rfl
@[simp] theorem setS_pc (v : Word) (st : State) : (st.setS v).cpu.pc = st.cpu.pc := rfl
@[simp] theorem setS_wait (v : Word) (st : State) : (st.setS v).cpu.wait = st.cpu.wait := rfl
@[simp] theorem setS_mem (v : Word) (st : State) : (st.setS v).mem = st.mem := rfl
@[simp] theorem setS_dev (v : Word) (st : State) : (st.setS v).dev = st.dev := rfl
@[simp] theorem setS_fcycles (v : Word) (st : State) : (st.setS v).fcycles = st.fcycles := rfl
@[simp] theorem setS_report (v : Word) (st : State) : (st.setS v).report = st.report := rfl
@[simp] theorem setS_draws (v : Word) (st : State) : (st.setS v).draws = st.draws := rfl
@[simp] theorem setS_params (v : Word) (st : State) : (st.setS v).params = st.params := rfl
@[simp] theorem setS_host (v : Word) (st : State) : (st.setS v).host = st.host := rfl

/-! `setPc` -/

@[simp] theorem setPc_a (v : Word) (st : State) : (st.setPc v).cpu.a = st.cpu.a := rfl
@[simp] theorem setPc_b (v : Word) (st : State) : (st.setPc v).cpu.b = st.cpu.b := rfl
@[simp] theorem setPc_dp (v : Word) (st : State) : (st.setPc v).cpu.dp = st.cpu.dp := rfl
@[simp] theorem setPc_cc (v : Word) (st : State) : (st.setPc v).cpu.cc = st.cpu.cc := rfl
@[simp] theorem setPc_x (v : Word) (st : State) : (st.setPc v).cpu.x = st.cpu.x := rfl
@[simp] theorem setPc_y (v : Word) (st : State) : (st.setPc v).cpu.y = st.cpu.y := rfl
@[simp] theorem setPc_u (v : Word) (st : State) : (st.setPc v).cpu.u = st.cpu.u := rfl
@[simp] theorem setPc_s (v : Word) (st : State) : (st.setPc v).cpu.s = st.cpu.s := rfl
@[simp] theorem setPc_pc (v : Word) (st : State) : (st.setPc v).cpu.pc = v := rfl
@[simp] theorem setPc_wait (v : Word) (st : State) : (st.setPc v).cpu.wait = st.cpu.wait := rfl
@[simp] theorem setPc_mem (v : Word) (st : State) : (st.setPc v).mem = st.mem := rfl
@[simp] theorem setPc_dev (v : Word) (st : State) : (st.setPc v).dev = st.dev := rfl
@[simp] theorem setPc_fcycles (v : Word) (st : State) : (st.setPc v).fcycles = st.fcycles := rfl
@[simp] theorem setPc_report (v : Word) (st : State) : (st.setPc v).report = st.report := rfl
@[simp] theorem setPc_draws (v : Word) (st : State) : (st.setPc v).draws = st.draws := rfl
@[simp] theorem setPc_params (v : Word) (st : State) : (st.setPc v).params = st.params := rfl
@[simp] theorem setPc_host (v : Word) (st : State) : (st.setPc v).host = st.host := rfl

/-! `setWait` -/

@[simp] theorem setWait_a (v : Wait) (st : State) : (st.setWait v).cpu.a = st.cpu.a := rfl
@[simp] theorem setWait_b (v : Wait) (st : State) : (st.setWait v).cpu.b = st.cpu.b := rfl
@[simp] theorem setWait_dp (v : Wait) (st : State) : (st.setWait v).cpu.dp = st.cpu.dp := rfl
@[simp] theorem setWait_cc (v : Wait) (st : State) : (st.setWait v).cpu.cc = st.cpu.cc := rfl
@[simp] theorem setWait_x (v : Wait) (st : State) : (st.setWait v).cpu.x = st.cpu.x := rfl
@[simp] theorem setWait_y (v : Wait) (st : State) : (st.setWait v).cpu.y = st.cpu.y := rfl
@[simp] theorem setWait_u (v : Wait) (st : State) : (st.setWait v).cpu.u = st.cpu.u := rfl
@[simp] theorem setWait_s (v : Wait) (st : State) : (st.setWait v).cpu.s = st.cpu.s := rfl
@[simp] theorem setWait_pc (v : Wait) (st : State) : (st.setWait v).cpu.pc = st.cpu.pc := rfl
@[simp] theorem setWait_wait (v : Wait) (st : State) : (st.setWait v).cpu.wait = v := rfl
@[simp] theorem setWait_mem (v : Wait) (st : State) : (st.setWait v).mem = st.mem := rfl
@[simp] theorem setWait_dev (v : Wait) (st : State) : (st.setWait v).dev = st.dev := rfl
@[simp] theorem setWait_fcycles (v : Wait) (st : State) : (st.setWait v).fcycles = st.fcycles := rfl
@[simp] theorem setWait_report (v : Wait) (st : State) : (st.setWait v).report = st.report := rfl
@[simp] theorem setWait_draws (v : Wait) (st : State) : (st.setWait v).draws = st.draws := rfl
@[simp] theorem setWait_params (v : Wait) (st : State) : (st.setWait v).params = st.params := rfl
@[simp] theorem setWait_host (v : Wait) (st : State) : (st.setWait v).host = st.host := rfl

/-! `setMem` -/

@[simp] theorem setMem_cpu (v : Memory) (st : State) : (st.setMem v).cpu = st.cpu := rfl
@[simp] theorem setMem_mem (v : Memory) (st : State) : (st.setMem v).mem = v := rfl
@[simp] theorem setMem_dev (v : Memory) (st : State) : (st.setMem v).dev = st.dev := rfl
@[simp] theorem setMem_fcycles (v : Memory) (st : State) : (st.setMem v).fcycles = st.fcycles := rfl
@[simp] theorem setMem_report (v : Memory) (st : State) : (st.setMem v).report = st.report := rfl
@[simp] theorem setMem_draws (v : Memory) (st : State) : (st.setMem v).draws = st.draws := rfl
@[simp] theorem setMem_params (v : Memory) (st : State) : (st.setMem v).params = st.params := rfl
@[simp] theorem setMem_host (v : Memory) (st : State) : (st.setMem v).host = st.host := rfl

/-! `setDev` -/

@[simp] theorem setDev_cpu (v : Devices) (st : State) : (st.setDev v).cpu = st.cpu := rfl
@[simp] theorem setDev_mem (v : Devices) (st : State) : (st.setDev v).mem = st.mem := rfl
@[simp] theorem setDev_dev (v : Devices) (st : State) : (st.setDev v).dev = v := rfl
@[simp] theorem setDev_fcycles (v : Devices) (st : State) : (st.setDev v).fcycles = st.fcycles := rfl
@[simp] theorem setDev_report (v : Devices) (st : State) : (st.setDev v).report = st.report := rfl
@[simp] theorem setDev_draws (v : Devices) (st : State) : (st.setDev v).draws = st.draws := rfl
@[simp] theorem setDev_params (v : Devices) (st : State) : (st.setDev v).params = st.params := rfl
@[simp] theorem setDev_host (v : Devices) (st : State) : (st.setDev v).host = st.host := rfl

/-! `addCycles` -/

@[simp] theorem addCycles_cpu (v : Nat) (st : State) : (st.addCycles v).cpu = st.cpu := rfl
@[simp] theorem addCycles_mem (v : Nat) (st : State) : (st.addCycles v).mem = st.mem := rfl
@[simp] theorem addCycles_dev (v : Nat) (st : State) : (st.addCycles v).dev = st.dev := rfl
@[simp] theorem addCycles_fcycles (v : Nat) (st : State) : (st.addCycles v).fcycles = st.fcycles := rfl
@[simp] theorem addCycles_report (v : Nat) (st : State) : (st.addCycles v).report = st.report + v := rfl
@[simp] theorem addCycles_draws (v : Nat) (st : State) : (st.addCycles v).draws = st.draws := rfl
@[simp] theorem addCycles_params (v : Nat) (st : State) : (st.addCycles v).params = st.params := rfl
@[simp] theorem addCycles_host (v : Nat) (st : State) : (st.addCycles v).host = st.host := rfl

/-! `takeDraw` -/

@[simp] theorem takeDraw_cpu (v : Bool) (st : State) : (st.takeDraw v).cpu = st.cpu := rfl
@[simp] theorem takeDraw_mem (v : Bool) (st : State) : (st.takeDraw v).mem = st.mem := rfl
@[simp] theorem takeDraw_dev (v : Bool) (st : State) : (st.takeDraw v).dev = st.dev := rfl
@[simp] theorem takeDraw_fcycles (v : Bool) (st : State) : (st.takeDraw v).fcycles = st.fcycles := rfl
@[simp] theorem takeDraw_report (v : Bool) (st : State) : (st.takeDraw v).report = st.report := rfl
@[simp] theorem takeDraw_draws (v : Bool) (st : State) : (st.takeDraw v).draws = if v then st.draws + 1 else st.draws := rfl
@[simp] theorem takeDraw_params (v : Bool) (st : State) : (st.takeDraw v).params = st.params := rfl
@[simp] theorem takeDraw_host (v : Bool) (st : State) : (st.takeDraw v).host = st.host := rfl

/-! `setD` -/

@[simp] theorem setD_a (v : Word) (st : State) : (st.setD v).cpu.a = hiByte v := rfl
@[simp] theorem setD_b (v : Word) (st : State) : (st.setD v).cpu.b = loByte v := rfl
@[simp] theorem setD_dp (v : Word) (st : State) : (st.setD v).cpu.dp = st.cpu.dp := rfl
@[simp] theorem setD_cc (v : Word) (st : State) : (st.setD v).cpu.cc = st.cpu.cc := rfl
@[simp] theorem setD_x (v : Word) (st : State) : (st.setD v).cpu.x = st.cpu.x := rfl
@[simp] theorem setD_y (v : Word) (st : State) : (st.setD v).cpu.y = st.cpu.y := rfl
@[simp] theorem setD_u (v : Word) (st : State) : (st.setD v).cpu.u = st.cpu.u := rfl
@[simp] theorem setD_s (v : Word) (st : State) : (st.setD v).cpu.s = st.cpu.s := rfl
@[simp] theorem setD_pc (v : Word) (st : State) : (st.setD v).cpu.pc = st.cpu.pc := rfl
@[simp] theorem setD_wait (v : Word) (st : State) : (st.setD v).cpu.wait = st.cpu.wait := rfl
@[simp] theorem setD_mem (v : Word) (st : State) : (st.setD v).mem = st.mem := rfl
@[simp] theorem setD_dev (v : Word) (st : State) : (st.setD v).dev = st.dev := rfl
@[simp] theorem setD_fcycles (v : Word) (st : State) : (st.setD v).fcycles = st.fcycles := rfl
@[simp] theorem setD_report (v : Word) (st : State) : (st.setD v).report = st.report := rfl
@[simp] theorem setD_draws (v : Word) (st : State) : (st.setD v).draws = st.draws := rfl
@[simp] theorem setD_params (v : Word) (st : State) : (st.setD v).params = st.params := rfl
@[simp] theorem setD_host (v : Word) (st : State) : (st.setD v).host = st.host := rfl

/-! `writeFlag` -/

@[simp] theorem writeFlag_a (fl : Flag) (v : Bool) (st : State) : (st.writeFlag fl v).cpu.a = st.cpu.a := rfl
@[simp] theorem writeFlag_b (fl : Flag) (v : Bool) (st : State) : (st.writeFlag fl v).cpu.b = st.cpu.b := rfl
@[simp] theorem writeFlag_dp (fl : Flag) (v : Bool) (st : State) : (st.writeFlag fl v).cpu.dp = st.cpu.dp := rfl
@[simp] theorem writeFlag_cc (fl : Flag) (v : Bool) (st : State) : (st.writeFlag fl v).cpu.cc = setFlag fl v st.cpu.cc := rfl
@[simp] theorem writeFlag_x (fl : Flag) (v : Bool) (st : State) : (st.writeFlag fl v).cpu.x = st.cpu.x := rfl
@[simp] theorem writeFlag_y (fl : Flag) (v : Bool) (st : State) : (st.writeFlag fl v).cpu.y = st.cpu.y := rfl
@[simp] theorem writeFlag_u (fl : Flag) (v : Bool) (st : State) : (st.writeFlag fl v).cpu.u = st.cpu.u := rfl
@[simp] theorem writeFlag_s (fl : Flag) (v : Bool) (st : State) : (st.writeFlag fl v).cpu.s = st.cpu.s := rfl
@[simp] theorem writeFlag_pc (fl : Flag) (v : Bool) (st : State) : (st.writeFlag fl v).cpu.pc = st.cpu.pc := rfl
@[simp] theorem writeFlag_wait (fl : Flag) (v : Bool) (st : State) : (st.writeFlag fl v).cpu.wait = st.cpu.wait := rfl
@[simp] theorem writeFlag_mem (fl : Flag) (v : Bool) (st : State) : (st.writeFlag fl v).mem = st.mem := rfl
@[simp] theorem writeFlag_dev (fl : Flag) (v : Bool) (st : State) : (st.writeFlag fl v).dev = st.dev := rfl
@[simp] theorem writeFlag_fcycles (fl : Flag) (v : Bool) (st : State) : (st.writeFlag fl v).fcycles = st.fcycles := rfl
@[simp] theorem writeFlag_report (fl : Flag) (v : Bool) (st : State) : (st.writeFlag fl v).report = st.report := rfl
@[simp] theorem writeFlag_draws (fl : Flag) (v : Bool) (st : State) : (st.writeFlag fl v).draws = st.draws := rfl
@[simp] theorem writeFlag_params (fl : Flag) (v : Bool) (st : State) : (st.writeFlag fl v).params = st.params := rfl
@[simp] theorem writeFlag_host (fl : Flag) (v : Bool) (st : State) : (st.writeFlag fl v).host = st.host := rfl

/-! `setAcc` -/

@[simp] theorem setAcc_dp (r : Acc) (v : Byte) (st : State) : (st.setAcc r v).cpu.dp = st.cpu.dp := by
  cases r <;> rfl
@[simp] theorem setAcc_cc (r : Acc) (v : Byte) (st : State) : (st.setAcc r v).cpu.cc = st.cpu.cc := by
  cases r <;> rfl
@[simp] theorem setAcc_x (r : Acc) (v : Byte) (st : State) : (st.setAcc r v).cpu.x = st.cpu.x := by
  cases r <;> rfl
@[simp] theorem setAcc_y (r : Acc) (v : Byte) (st : State) : (st.setAcc r v).cpu.y = st.cpu.y := by
  cases r <;> rfl
@[simp] theorem setAcc_u (r : Acc) (v : Byte) (st : State) : (st.setAcc r v).cpu.u = st.cpu.u := by
  cases r <;> rfl
@[simp] theorem setAcc_s (r : Acc) (v : Byte) (st : State) : (st.setAcc r v).cpu.s = st.cpu.s := by
  cases r <;> rfl
@[simp] theorem setAcc_pc (r : Acc) (v : Byte) (st : State) : (st.setAcc r v).cpu.pc = st.cpu.pc := by
  cases r <;> rfl
@[simp] theorem setAcc_wait (r : Acc) (v : Byte) (st : State) : (st.setAcc r v).cpu.wait = st.cpu.wait := by
  cases r <;> rfl
@[simp] theorem setAcc_mem (r : Acc) (v : Byte) (st : State) : (st.setAcc r v).mem = st.mem := by
  cases r <;> rfl
@[simp] theorem setAcc_dev (r : Acc) (v : Byte) (st : State) : (st.setAcc r v).dev = st.dev := by
  cases r <;> rfl
@[simp] theorem setAcc_fcycles (r : Acc) (v : Byte) (st : State) : (st.setAcc r v).fcycles = st.fcycles := by
  cases r <;> rfl
@[simp] theorem setAcc_report (r : Acc) (v : Byte) (st : State) : (st.setAcc r v).report = st.report := by
  cases r <;> rfl
@[simp] theorem setAcc_draws (r : Acc) (v : Byte) (st : State) : (st.setAcc r v).draws = st.draws := by
  cases r <;> rfl
@[simp] theorem setAcc_params (r : Acc) (v : Byte) (st : State) : (st.setAcc r v).params = st.params := by
  cases r <;> rfl
@[simp] theorem setAcc_host (r : Acc) (v : Byte) (st : State) : (st.setAcc r v).host = st.host := by
  cases r <;> rfl
@[simp] theorem getAcc_setAcc (r : Acc) (v : Byte) (st : State) : (st.setAcc r v).getAcc r = v := by
  cases r <;> rfl

/-! `setReg16` -/

@[simp] theorem setReg16_dp (r : Reg16) (v : Word) (st : State) : (st.setReg16 r v).cpu.dp = st.cpu.dp := by
  cases r <;> rfl
@[simp] theorem setReg16_cc (r : Reg16) (v : Word) (st : State) : (st.setReg16 r v).cpu.cc = st.cpu.cc := by
  cases r <;> rfl
@[simp] theorem setReg16_pc (r : Reg16) (v : Word) (st : State) : (st.setReg16 r v).cpu.pc = st.cpu.pc := by
  cases r <;> rfl
@[simp] theorem setReg16_wait (r : Reg16) (v : Word) (st : State) : (st.setReg16 r v).cpu.wait = st.cpu.wait := by
  cases r <;> rfl
@[simp] theorem setReg16_mem (r : Reg16) (v : Word) (st : State) : (st.setReg16 r v).mem = st.mem := by
  cases r <;> rfl
@[simp] theorem setReg16_dev (r : Reg16) (v : Word) (st : State) : (st.setReg16 r v).dev = st.dev := by
  cases r <;> rfl
@[simp] theorem setReg16_fcycles (r : Reg16) (v : Word) (st : State) : (st.setReg16 r v).fcycles = st.fcycles := by
  cases r <;> rfl
@[simp] theorem setReg16_report (r : Reg16) (v : Word) (st : State) : (st.setReg16 r v).report = st.report := by
  cases r <;> rfl
@[simp] theorem setReg16_draws (r : Reg16) (v : Word) (st : State) : (st.setReg16 r v).draws = st.draws := by
  cases r <;> rfl
@[simp] theorem setReg16_params (r : Reg16) (v : Word) (st : State) : (st.setReg16 r v).params = st.params := by
  cases r <;> rfl
@[simp] theorem setReg16_host (r : Reg16) (v : Word) (st : State) : (st.setReg16 r v).host = st.host := by
  cases r <;> rfl
@[simp] theorem getReg16_setReg16 (r : Reg16) (v : Word) (st : State) : (st.setReg16 r v).getReg16 r = v := by
  cases r <;> simp [State.getReg16, State.setReg16, Cpu.d]

/-! `setIndex` -/

@[simp] theorem setIndex_a (r : IReg) (v : Word) (st : State) : (st.setIndex r v).cpu.a = st.cpu.a := by
  cases r <;> rfl
@[simp] theorem setIndex_b (r : IReg) (v : Word) (st : State) : (st.setIndex r v).cpu.b = st.cpu.b := by
  cases r <;> rfl
@[simp] theorem setIndex_dp (r : IReg) (v : Word) (st : State) : (st.setIndex r v).cpu.dp = st.cpu.dp := by
  cases r <;> rfl
@[simp] theorem setIndex_cc (r : IReg) (v : Word) (st : State) : (st.setIndex r v).cpu.cc = st.cpu.cc := by
  cases r <;> rfl
@[simp] theorem setIndex_pc (r : IReg) (v : Word) (st : State) : (st.setIndex r v).cpu.pc = st.cpu.pc := by
  cases r <;> rfl
@[simp] theorem setIndex_wait (r : IReg) (v : Word) (st : State) : (st.setIndex r v).cpu.wait = st.cpu.wait := by
  cases r <;> rfl
@[simp] theorem setIndex_mem (r : IReg) (v : Word) (st : State) : (st.setIndex r v).mem = st.mem := by
  cases r <;> rfl
@[simp] theorem setIndex_dev (r : IReg) (v : Word) (st : State) : (st.setIndex r v).dev = st.dev := by
  cases r <;> rfl
@[simp] theorem setIndex_fcycles (r : IReg) (v : Word) (st : State) : (st.setIndex r v).fcycles = st.fcycles := by
  cases r <;> rfl
@[simp] theorem setIndex_report (r : IReg) (v : Word) (st : State) : (st.setIndex r v).report = st.report := by
  cases r <;> rfl
@[simp] theorem setIndex_draws (r : IReg) (v : Word) (st : State) : (st.setIndex r v).draws = st.draws := by
  cases r <;> rfl
@[simp] theorem setIndex_params (r : IReg) (v : Word) (st : State) : (st.setIndex r v).params = st.params := by
  cases r <;> rfl
@[simp] theorem setIndex_host (r : IReg) (v : Word) (st : State) : (st.setIndex r v).host = st.host := by
  cases r <;> rfl
@[simp] theorem getIndex_setIndex (r : IReg) (v : Word) (st : State) : (st.setIndex r v).getIndex r = v := by
  cases r <;> rfl

/-! `setSp` -/

@[simp] theorem setSp_a (r : StackPtr) (v : Word) (st : State) : (st.setSp r v).cpu.a = st.cpu.a := by
  cases r <;> rfl
@[simp] theorem setSp_b (r : StackPtr) (v : Word) (st : State) : (st.setSp r v).cpu.b = st.cpu.b := by
  cases r <;> rfl
@[simp] theorem setSp_dp (r : StackPtr) (v : Word) (st : State) : (st.setSp r v).cpu.dp = st.cpu.dp := by
  cases r <;> rfl
@[simp] theorem setSp_cc (r : StackPtr) (v : Word) (st : State) : (st.setSp r v).cpu.cc = st.cpu.cc := by
  cases r <;> rfl
@[simp] theorem setSp_x (r : StackPtr) (v : Word) (st : State) : (st.setSp r v).cpu.x = st.cpu.x := by
  cases r <;> rfl
@[simp] theorem setSp_y (r : StackPtr) (v : Word) (st : State) : (st.setSp r v).cpu.y = st.cpu.y := by
  cases r <;> rfl
@[simp] theorem setSp_pc (r : StackPtr) (v : Word) (st : State) : (st.setSp r v).cpu.pc = st.cpu.pc := by
  cases r <;> rfl
@[simp] theorem setSp_wait (r : StackPtr) (v : Word) (st : State) : (st.setSp r v).cpu.wait = st.cpu.wait := by
  cases r <;> rfl
@[simp] theorem setSp_mem (r : StackPtr) (v : Word) (st : State) : (st.setSp r v).mem = st.mem := by
  cases r <;> rfl
@[simp] theorem setSp_dev (r : StackPtr) (v : Word) (st : State) : (st.setSp r v).dev = st.dev := by
  cases r <;> rfl
@[simp] theorem setSp_fcycles (r : StackPtr) (v : Word) (st : State) : (st.setSp r v).fcycles = st.fcycles := by
  cases r <;> rfl
@[simp] theorem setSp_report (r : StackPtr) (v : Word) (st : State) : (st.setSp r v).report = st.report := by
  cases r <;> rfl
@[simp] theorem setSp_draws (r : StackPtr) (v : Word) (st : State) : (st.setSp r v).draws = st.draws := by
  cases r <;> rfl
@[simp] theorem setSp_params (r : StackPtr) (v : Word) (st : State) : (st.setSp r v).params = st.params := by
  cases r <;> rfl
@[simp] theorem setSp_host (r : StackPtr) (v : Word) (st : State) : (st.setSp r v).host = st.host := by
  cases r <;> rfl
@[simp] theorem getSp_setSp (r : StackPtr) (v : Word) (st : State) : (st.setSp r v).getSp r = v := by
  cases r <;> rfl

/-! `regWrite`: the device side and the system stay -/

@[simp] theorem regWrite_wait (c : BitVec 4) (v : Word) (st : State) : (st.regWrite c v).cpu.wait = st.cpu.wait := by
  unfold State.regWrite
  split <;> rfl
@[simp] theorem regWrite_mem (c : BitVec 4) (v : Word) (st : State) : (st.regWrite c v).mem = st.mem := by
  unfold State.regWrite
  split <;> rfl
@[simp] theorem regWrite_dev (c : BitVec 4) (v : Word) (st : State) : (st.regWrite c v).dev = st.dev := by
  unfold State.regWrite
  split <;> rfl
@[simp] theorem regWrite_fcycles (c : BitVec 4) (v : Word) (st : State) : (st.regWrite c v).fcycles = st.fcycles := by
  unfold State.regWrite
  split <;> rfl
@[simp] theorem regWrite_report (c : BitVec 4) (v : Word) (st : State) : (st.regWrite c v).report = st.report := by
  unfold State.regWrite
  split <;> rfl
@[simp] theorem regWrite_draws (c : BitVec 4) (v : Word) (st : State) : (st.regWrite c v).draws = st.draws := by
  unfold State.regWrite
  split <;> rfl
@[simp] theorem regWrite_params (c : BitVec 4) (v : Word) (st : State) : (st.regWrite c v).params = st.params := by
  unfold State.regWrite
  split <;> rfl
@[simp] theorem regWrite_host (c : BitVec 4) (v : Word) (st : State) : (st.regWrite c v).host = st.host := by
  unfold State.regWrite
  split <;> rfl

end Sys2Proof.Machine
end

