-- ==== Sys2Proof/Laws/Bus.lean ====
section
/-! SUPPORT. Everything a bus read and a bus write can do, and what a program sees of memory afterwards. -/

namespace Sys2Proof.Machine

/-! ### Address decoding -/

theorem target_of_ram {a : Word} {i : BitVec 10} (h : ramIndex a = some i) :
    target a = (match ioRegister a with
      | some r => .ramIo (Config.ramBase + i.toNat) r
      | none => .ram (Config.ramBase + i.toNat)) := by
  unfold ramIndex at h
  split at h
  · rename_i hc
    simp only [Option.some.injEq] at h
    subst h
    unfold target ioRegister
    by_cases h12 : a.getLsbD 12 = true
    · simp [-BitVec.getLsbD_eq_getElem, hc.1, hc.2, h12]
    · simp [-BitVec.getLsbD_eq_getElem, hc.1, hc.2, h12]
  · exact absurd h (by simp)

theorem target_of_io {a : Word} {r : BitVec 4} (h : ioRegister a = some r) (hr : ramIndex a = none) :
    target a = .io r := by
  unfold ioRegister at h
  split at h
  · rename_i hc
    simp only [Option.some.injEq] at h
    subst h
    unfold ramIndex at hr
    have h11 : a.getLsbD 11 = false := by
      by_contra hn
      simp [-BitVec.getLsbD_eq_getElem, hc.1, hn] at hr
    simp [-BitVec.getLsbD_eq_getElem, target, hc.1, h11, hc.2]
  · exact absurd h (by simp)

/-- What an address that selects neither RAM nor the IO chip selects. -/
theorem target_of_neither {a : Word} (h : ramIndex a = none) (hi : ioRegister a = none) :
    target a = .rom a.toNat ∧ 0xE000 ≤ a.toNat ∨ target a = .cart a.toNat ∧ a.toNat < 0x8000 ∨ target a = .unmapped := by
  unfold target
  split
  · rename_i h7
    refine Or.inl ⟨rfl, ?_⟩
    have : (a.extractLsb' 13 3).toNat = 7 := by rw [h7]; rfl
    simp [BitVec.extractLsb'_toNat, Nat.shiftRight_eq_div_pow] at this
    omega
  · split
    · rename_i h6
      unfold ramIndex at h
      unfold ioRegister at hi
      simp only [h6, true_and, ite_eq_right_iff, reduceCtorEq, imp_false, Bool.not_eq_true] at h hi
      simp [-BitVec.getLsbD_eq_getElem, h, hi]
    · split
      · rename_i h15
        refine Or.inr (Or.inl ⟨rfl, ?_⟩)
        have := a.isLt
        have h' : a.msb = false := by simpa [BitVec.msb_eq_getLsbD_last] using h15
        have := BitVec.toNat_lt_of_msb_false h'
        omega
      · exact Or.inr (Or.inr rfl)

/-! ### Reads -/

@[simp] theorem readByte_cpu (a : Word) (s : State) : (readByte a s).2.cpu = s.cpu := by
  unfold readByte; split <;> rfl
@[simp] theorem readByte_mem (a : Word) (s : State) : (readByte a s).2.mem = s.mem := by
  unfold readByte; split <;> rfl
@[simp] theorem readByte_fcycles (a : Word) (s : State) : (readByte a s).2.fcycles = s.fcycles := by
  unfold readByte; split <;> rfl
@[simp] theorem readByte_report (a : Word) (s : State) : (readByte a s).2.report = s.report := by
  unfold readByte; split <;> rfl
@[simp] theorem readByte_draws (a : Word) (s : State) : (readByte a s).2.draws = s.draws := by
  unfold readByte; split <;> rfl
@[simp] theorem readByte_params (a : Word) (s : State) : (readByte a s).2.params = s.params := by
  unfold readByte; split <;> rfl
@[simp] theorem readByte_host (a : Word) (s : State) : (readByte a s).2.host = s.host := by
  unfold readByte; split <;> rfl

/-- A read changes the devices and nothing else. -/
theorem readByte_state (a : Word) (s : State) : (readByte a s).2 = s.setDev (readByte a s).2.dev := by
  unfold readByte; split <;> rfl

/-- A read of a plain address gives its byte and changes nothing. -/
theorem readByte_of_peek {a : Word} {v : Byte} {s : State} (h : s.peek a = some v) : readByte a s = (v, s) := by
  unfold State.peek at h
  unfold readByte
  split at h <;> simp_all

/-- A read whose address does not reach the IO chip changes nothing. -/
theorem readByte_snd_of_not_io {a : Word} (s : State) (h : ioRegister a = none ∨ ramIndex a ≠ none) :
    (readByte a s).2 = s := by
  unfold readByte
  split
  all_goals first | rfl | skip
  rename_i r heq
  exfalso
  rcases h with h | h
  · cases hr : ramIndex a with
    | none =>
      rcases target_of_neither hr h with ⟨ht, _⟩ | ⟨ht, _⟩ | ht <;> simp_all
    | some i =>
      have := target_of_ram hr
      simp [h] at this
      simp_all
  · cases hr : ramIndex a with
    | none => exact h hr
    | some i =>
      have := target_of_ram hr
      cases hio : ioRegister a <;> simp_all

/-- Reading depends on memory and the parameters alone. -/
theorem peek_congr {s t : State} (hm : t.mem = s.mem) (hp : t.params = s.params) (a : Word) : t.peek a = s.peek a := by
  unfold State.peek
  split <;> simp [hm, hp]

theorem keepsMemory_of_mem {s t : State} (hm : t.mem = s.mem) (hp : t.params = s.params) : keepsMemory s t :=
  fun a => peek_congr hm hp a

@[simp] theorem readByte_peek (a b : Word) (s : State) : (readByte a s).2.peek b = s.peek b :=
  peek_congr (by simp) (by simp) b

@[simp] theorem readWord_cpu (a : Word) (s : State) : (readWord a s).2.cpu = s.cpu := by simp [readWord]
@[simp] theorem readWord_mem (a : Word) (s : State) : (readWord a s).2.mem = s.mem := by simp [readWord]
@[simp] theorem readWord_fcycles (a : Word) (s : State) : (readWord a s).2.fcycles = s.fcycles := by simp [readWord]
@[simp] theorem readWord_report (a : Word) (s : State) : (readWord a s).2.report = s.report := by simp [readWord]
@[simp] theorem readWord_draws (a : Word) (s : State) : (readWord a s).2.draws = s.draws := by simp [readWord]
@[simp] theorem readWord_params (a : Word) (s : State) : (readWord a s).2.params = s.params := by simp [readWord]
@[simp] theorem readWord_host (a : Word) (s : State) : (readWord a s).2.host = s.host := by simp [readWord]

/-- A read of two plain bytes gives their word, high byte first, and changes nothing. -/
theorem readWord_of_peek {a : Word} {h l : Byte} {s : State} (hh : s.peek a = some h) (hl : s.peek (a + 1) = some l) :
    readWord a s = (wordOf h l, s) := by
  simp only [readWord, readByte_of_peek hh, readByte_of_peek hl]

/-! ### Writes -/

@[simp] theorem writeByte_cpu (a : Word) (v : Byte) (s : State) : (writeByte a v s).cpu = s.cpu := by
  unfold writeByte; split <;> rfl
@[simp] theorem writeByte_fcycles (a : Word) (v : Byte) (s : State) : (writeByte a v s).fcycles = s.fcycles := by
  unfold writeByte; split <;> rfl
@[simp] theorem writeByte_report (a : Word) (v : Byte) (s : State) : (writeByte a v s).report = s.report := by
  unfold writeByte; split <;> rfl
@[simp] theorem writeByte_draws (a : Word) (v : Byte) (s : State) : (writeByte a v s).draws = s.draws := by
  unfold writeByte; split <;> rfl
@[simp] theorem writeByte_params (a : Word) (v : Byte) (s : State) : (writeByte a v s).params = s.params := by
  unfold writeByte; split <;> rfl
@[simp] theorem writeByte_host (a : Word) (v : Byte) (s : State) : (writeByte a v s).host = s.host := by
  unfold writeByte; split <;> rfl

/-- The memory after a write: the RAM byte the address selects, if it selects one. -/
theorem writeByte_mem (a : Word) (v : Byte) (s : State) :
    (writeByte a v s).mem = (match ramIndex a with
      | some i => s.mem.set (Config.ramBase + i.toNat) v
      | none => s.mem) := by
  unfold writeByte
  cases hr : ramIndex a with
  | some i =>
    rw [target_of_ram hr]
    cases ioRegister a <;> rfl
  | none =>
    cases hi : ioRegister a with
    | some r => rw [target_of_io hi hr]; rfl
    | none => rcases target_of_neither hr hi with ⟨ht, _⟩ | ⟨ht, _⟩ | ht <;> rw [ht]

/-- The devices after a write: the IO register the address reaches, if it reaches one. -/
theorem writeByte_dev (a : Word) (v : Byte) (s : State) :
    (writeByte a v s).dev = (match ioRegister a with
      | some r => viaWrite (viaReg s.params.viaFlagsSwapped r) v s.dev
      | none => s.dev) := by
  unfold writeByte
  cases hr : ramIndex a with
  | some i =>
    rw [target_of_ram hr]
    cases ioRegister a <;> rfl
  | none =>
    cases hi : ioRegister a with
    | some r => rw [target_of_io hi hr]; rfl
    | none => rcases target_of_neither hr hi with ⟨ht, _⟩ | ⟨ht, _⟩ | ht <;> rw [ht]

theorem peek_of_ram {a : Word} {i : BitVec 10} (h : ramIndex a = some i) (s : State) :
    s.peek a = some (s.mem.get (Config.ramBase + i.toNat)) := by
  unfold State.peek
  rw [target_of_ram h]
  cases ioRegister a <;> rfl

/-- A byte written to RAM reads back. -/
theorem peek_writeByte_same {a : Word} (h : ramIndex a ≠ none) (v : Byte) (s : State) :
    (writeByte a v s).peek a = some v := by
  cases hr : ramIndex a with
  | none => exact absurd hr h
  | some i => rw [peek_of_ram hr, writeByte_mem, hr]; simp

/-- A write leaves every address that selects another byte, or none, reading as before. -/
theorem peek_writeByte_ne {a b : Word} (h : ¬ sameRam b a) (v : Byte) (s : State) :
    (writeByte a v s).peek b = s.peek b := by
  cases ha : ramIndex a with
  | none => exact peek_congr (by rw [writeByte_mem, ha]) (by simp) b
  | some i =>
    cases hb : ramIndex b with
    | some j =>
      rw [peek_of_ram hb, peek_of_ram hb, writeByte_mem, ha]
      rw [Memory.get_set_ne]
      intro heq
      apply h
      refine ⟨by simp [hb], ?_⟩
      rw [ha, hb, Option.some.injEq]
      apply BitVec.eq_of_toNat_eq
      omega
    | none =>
      unfold State.peek
      have hp : (writeByte a v s).params = s.params := by simp
      have hi := i.isLt
      cases hio : ioRegister b with
      | some r => rw [target_of_io hio hb]
      | none =>
        rcases target_of_neither hb hio with ⟨ht, hle⟩ | ⟨ht, hlt⟩ | ht <;>
          simp only [ht, hp, writeByte_mem, ha] <;> try rw [Memory.get_set_ne]
        · simp [Config.ramBase]; omega
        · simp [Config.ramBase]; omega

/-- A write that does not select RAM leaves all of memory as it was. -/
theorem keepsMemory_writeByte_of_not_ram {a : Word} (h : ramIndex a = none) (v : Byte) (s : State) :
    keepsMemory s (writeByte a v s) :=
  keepsMemory_of_mem (by rw [writeByte_mem, h]) (by simp)

@[simp] theorem writeWord_cpu (a v : Word) (s : State) : (writeWord a v s).cpu = s.cpu := by simp [writeWord]
@[simp] theorem writeWord_fcycles (a v : Word) (s : State) : (writeWord a v s).fcycles = s.fcycles := by
  simp [writeWord]
@[simp] theorem writeWord_report (a v : Word) (s : State) : (writeWord a v s).report = s.report := by simp [writeWord]
@[simp] theorem writeWord_draws (a v : Word) (s : State) : (writeWord a v s).draws = s.draws := by simp [writeWord]
@[simp] theorem writeWord_params (a v : Word) (s : State) : (writeWord a v s).params = s.params := by simp [writeWord]
@[simp] theorem writeWord_host (a v : Word) (s : State) : (writeWord a v s).host = s.host := by simp [writeWord]

/-! ### Which addresses share a RAM byte -/

theorem ramIndex_toNat {a : Word} {i : BitVec 10} (h : ramIndex a = some i) : i.toNat = a.toNat % 1024 := by
  unfold ramIndex at h
  split at h
  · simp only [Option.some.injEq] at h
    subst h
    simp [BitVec.extractLsb'_toNat]
  · exact absurd h (by simp)

/-- Two addresses less than 1024 apart do not share a byte. -/
theorem not_sameRam_add (a : Word) (k : Nat) (h0 : 0 < k) (hk : k < 1024) : ¬ sameRam a (a + BitVec.ofNat 16 k) := by
  rintro ⟨hne, heq⟩
  cases ha : ramIndex a with
  | none => exact hne ha
  | some i =>
    have h1 := ramIndex_toNat ha
    have h2 := ramIndex_toNat (heq ▸ ha)
    simp only [BitVec.toNat_add, BitVec.toNat_ofNat] at h2
    have := a.isLt
    omega

theorem sameRam_symm {a b : Word} (h : sameRam a b) : sameRam b a := ⟨h.2 ▸ h.1, h.2.symm⟩

end Sys2Proof.Machine
end

