-- ==== Sys2Proof/Laws/Operands.lean ====
section
/-! SUPPORT. Everything that computing an address and reading an operand can do to the state. -/

namespace Sys2Proof.Machine

/-! ### The computed address -/

@[simp] theorem directIndexed_mem (m : IdxMode) (s : State) : (directIndexed m s).2.mem = s.mem := by
  cases m <;> simp [directIndexed]
@[simp] theorem directIndexed_fcycles (m : IdxMode) (s : State) : (directIndexed m s).2.fcycles = s.fcycles := by
  cases m <;> simp [directIndexed]
@[simp] theorem directIndexed_draws (m : IdxMode) (s : State) : (directIndexed m s).2.draws = s.draws := by
  cases m <;> simp [directIndexed]
@[simp] theorem directIndexed_params (m : IdxMode) (s : State) : (directIndexed m s).2.params = s.params := by
  cases m <;> simp [directIndexed]
@[simp] theorem directIndexed_host (m : IdxMode) (s : State) : (directIndexed m s).2.host = s.host := by
  cases m <;> simp [directIndexed]
@[simp] theorem directIndexed_a (m : IdxMode) (s : State) : (directIndexed m s).2.cpu.a = s.cpu.a := by
  cases m <;> simp [directIndexed]
@[simp] theorem directIndexed_b (m : IdxMode) (s : State) : (directIndexed m s).2.cpu.b = s.cpu.b := by
  cases m <;> simp [directIndexed]
@[simp] theorem directIndexed_dp (m : IdxMode) (s : State) : (directIndexed m s).2.cpu.dp = s.cpu.dp := by
  cases m <;> simp [directIndexed]
@[simp] theorem directIndexed_cc (m : IdxMode) (s : State) : (directIndexed m s).2.cpu.cc = s.cpu.cc := by
  cases m <;> simp [directIndexed]
@[simp] theorem directIndexed_pc (m : IdxMode) (s : State) : (directIndexed m s).2.cpu.pc = s.cpu.pc := by
  cases m <;> simp [directIndexed]
@[simp] theorem directIndexed_wait (m : IdxMode) (s : State) : (directIndexed m s).2.cpu.wait = s.cpu.wait := by
  cases m <;> simp [directIndexed]
@[simp] theorem directIndexed_dev (m : IdxMode) (s : State) : (directIndexed m s).2.dev = s.dev := by
  cases m <;> simp [directIndexed]
@[simp] theorem directIndexed_report (m : IdxMode) (s : State) : (directIndexed m s).2.report = s.report := by
  cases m <;> simp [directIndexed]

/-! ### The effective address of an indexed operand -/

@[simp] theorem indexedEa_mem (m : IdxMode) (s : State) : (indexedEa m s).2.mem = s.mem := by
  simp only [indexedEa]; split <;> simp
@[simp] theorem indexedEa_fcycles (m : IdxMode) (s : State) : (indexedEa m s).2.fcycles = s.fcycles := by
  simp only [indexedEa]; split <;> simp
@[simp] theorem indexedEa_draws (m : IdxMode) (s : State) : (indexedEa m s).2.draws = s.draws := by
  simp only [indexedEa]; split <;> simp
@[simp] theorem indexedEa_params (m : IdxMode) (s : State) : (indexedEa m s).2.params = s.params := by
  simp only [indexedEa]; split <;> simp
@[simp] theorem indexedEa_host (m : IdxMode) (s : State) : (indexedEa m s).2.host = s.host := by
  simp only [indexedEa]; split <;> simp
@[simp] theorem indexedEa_a (m : IdxMode) (s : State) : (indexedEa m s).2.cpu.a = s.cpu.a := by
  simp only [indexedEa]; split <;> simp
@[simp] theorem indexedEa_b (m : IdxMode) (s : State) : (indexedEa m s).2.cpu.b = s.cpu.b := by
  simp only [indexedEa]; split <;> simp
@[simp] theorem indexedEa_dp (m : IdxMode) (s : State) : (indexedEa m s).2.cpu.dp = s.cpu.dp := by
  simp only [indexedEa]; split <;> simp
@[simp] theorem indexedEa_cc (m : IdxMode) (s : State) : (indexedEa m s).2.cpu.cc = s.cpu.cc := by
  simp only [indexedEa]; split <;> simp
@[simp] theorem indexedEa_pc (m : IdxMode) (s : State) : (indexedEa m s).2.cpu.pc = s.cpu.pc := by
  simp only [indexedEa]; split <;> simp
@[simp] theorem indexedEa_wait (m : IdxMode) (s : State) : (indexedEa m s).2.cpu.wait = s.cpu.wait := by
  simp only [indexedEa]; split <;> simp
@[simp] theorem indexedEa_report (m : IdxMode) (s : State) :
    (indexedEa m s).2.report = s.report + indexedCycles m := by
  simp only [indexedEa]; split <;> simp

/-- The registers after an address is computed are those of the mode, indirect or not. -/
theorem indexedEa_cpu (m : IdxMode) (s : State) : (indexedEa m s).2.cpu = (directIndexed m s).2.cpu := by
  have h : ∀ n, (directIndexed m (s.addCycles n)).2.cpu = (directIndexed m s).2.cpu := by
    intro n
    cases m with
    | postInc1 r => cases r <;> rfl
    | postInc2 r _ => cases r <;> rfl
    | preDec1 r => cases r <;> rfl
    | preDec2 r _ => cases r <;> rfl
    | _ => rfl
  simp only [indexedEa]; split <;> simp [h]

/-- The devices after an address is computed: as before where no pointer is read. -/
theorem indexedEa_dev_direct (m : IdxMode) (s : State) (h : isIndirect m = false) : (indexedEa m s).2.dev = s.dev := by
  simp [indexedEa, h]

/-! ### The effective address -/

@[simp] theorem effectiveAddress_mem (m : MemOp) (s : State) : (effectiveAddress m s).2.mem = s.mem := by
  cases m <;> simp [effectiveAddress]
@[simp] theorem effectiveAddress_fcycles (m : MemOp) (s : State) : (effectiveAddress m s).2.fcycles = s.fcycles := by
  cases m <;> simp [effectiveAddress]
@[simp] theorem effectiveAddress_draws (m : MemOp) (s : State) : (effectiveAddress m s).2.draws = s.draws := by
  cases m <;> simp [effectiveAddress]
@[simp] theorem effectiveAddress_params (m : MemOp) (s : State) : (effectiveAddress m s).2.params = s.params := by
  cases m <;> simp [effectiveAddress]
@[simp] theorem effectiveAddress_host (m : MemOp) (s : State) : (effectiveAddress m s).2.host = s.host := by
  cases m <;> simp [effectiveAddress]
@[simp] theorem effectiveAddress_a (m : MemOp) (s : State) : (effectiveAddress m s).2.cpu.a = s.cpu.a := by
  cases m <;> simp [effectiveAddress]
@[simp] theorem effectiveAddress_b (m : MemOp) (s : State) : (effectiveAddress m s).2.cpu.b = s.cpu.b := by
  cases m <;> simp [effectiveAddress]
@[simp] theorem effectiveAddress_dp (m : MemOp) (s : State) : (effectiveAddress m s).2.cpu.dp = s.cpu.dp := by
  cases m <;> simp [effectiveAddress]
@[simp] theorem effectiveAddress_cc (m : MemOp) (s : State) : (effectiveAddress m s).2.cpu.cc = s.cpu.cc := by
  cases m <;> simp [effectiveAddress]
@[simp] theorem effectiveAddress_pc (m : MemOp) (s : State) : (effectiveAddress m s).2.cpu.pc = s.cpu.pc := by
  cases m <;> simp [effectiveAddress]
@[simp] theorem effectiveAddress_wait (m : MemOp) (s : State) : (effectiveAddress m s).2.cpu.wait = s.cpu.wait := by
  cases m <;> simp [effectiveAddress]
@[simp] theorem effectiveAddress_report (m : MemOp) (s : State) :
    (effectiveAddress m s).2.report = s.report + memExtra m := by
  cases m <;> simp [effectiveAddress, memExtra]

@[simp] theorem effectiveAddress_peek (m : MemOp) (s : State) (a : Word) :
    (effectiveAddress m s).2.peek a = s.peek a := peek_congr (by simp) (by simp) a

/-- Computing an address changes no register but the one its mode updates. -/
theorem indexedEa_keeps (m : IdxMode) (s : State) : keepsRegisters (modeUpdates m) s (indexedEa m s).2 := by
  intro r hr
  have hc := indexedEa_cpu m s
  have hg : ∀ t u : State, t.cpu = u.cpu → t.getRegister r = u.getRegister r := by
    intro t u h
    cases r <;> simp [State.getRegister, h]
  rw [hg _ _ hc]
  cases m with
  | postInc1 i => cases i <;> cases r <;> first | rfl | exact absurd (by simp [modeUpdates, iregName]) hr
  | postInc2 i _ => cases i <;> cases r <;> first | rfl | exact absurd (by simp [modeUpdates, iregName]) hr
  | preDec1 i => cases i <;> cases r <;> first | rfl | exact absurd (by simp [modeUpdates, iregName]) hr
  | preDec2 i _ => cases i <;> cases r <;> first | rfl | exact absurd (by simp [modeUpdates, iregName]) hr
  | _ => rfl

theorem effectiveAddress_keeps (m : MemOp) (s : State) : keepsRegisters (memUpdates m) s (effectiveAddress m s).2 := by
  cases m with
  | dir a => exact fun _ _ => rfl
  | ext a => exact fun _ _ => rfl
  | idx m => exact indexedEa_keeps m s

/-! ### Operands -/

@[simp] theorem operand8_mem (o : Opnd8) (s : State) : (operand8 o s).2.mem = s.mem := by
  cases o <;> simp [operand8]
@[simp] theorem operand16_mem (o : Opnd16) (s : State) : (operand16 o s).2.mem = s.mem := by
  cases o <;> simp [operand16]
@[simp] theorem operand8_fcycles (o : Opnd8) (s : State) : (operand8 o s).2.fcycles = s.fcycles := by
  cases o <;> simp [operand8]
@[simp] theorem operand16_fcycles (o : Opnd16) (s : State) : (operand16 o s).2.fcycles = s.fcycles := by
  cases o <;> simp [operand16]
@[simp] theorem operand8_draws (o : Opnd8) (s : State) : (operand8 o s).2.draws = s.draws := by
  cases o <;> simp [operand8]
@[simp] theorem operand16_draws (o : Opnd16) (s : State) : (operand16 o s).2.draws = s.draws := by
  cases o <;> simp [operand16]
@[simp] theorem operand8_params (o : Opnd8) (s : State) : (operand8 o s).2.params = s.params := by
  cases o <;> simp [operand8]
@[simp] theorem operand16_params (o : Opnd16) (s : State) : (operand16 o s).2.params = s.params := by
  cases o <;> simp [operand16]
@[simp] theorem operand8_host (o : Opnd8) (s : State) : (operand8 o s).2.host = s.host := by
  cases o <;> simp [operand8]
@[simp] theorem operand16_host (o : Opnd16) (s : State) : (operand16 o s).2.host = s.host := by
  cases o <;> simp [operand16]
@[simp] theorem operand8_a (o : Opnd8) (s : State) : (operand8 o s).2.cpu.a = s.cpu.a := by
  cases o <;> simp [operand8]
@[simp] theorem operand16_a (o : Opnd16) (s : State) : (operand16 o s).2.cpu.a = s.cpu.a := by
  cases o <;> simp [operand16]
@[simp] theorem operand8_b (o : Opnd8) (s : State) : (operand8 o s).2.cpu.b = s.cpu.b := by
  cases o <;> simp [operand8]
@[simp] theorem operand16_b (o : Opnd16) (s : State) : (operand16 o s).2.cpu.b = s.cpu.b := by
  cases o <;> simp [operand16]
@[simp] theorem operand8_dp (o : Opnd8) (s : State) : (operand8 o s).2.cpu.dp = s.cpu.dp := by
  cases o <;> simp [operand8]
@[simp] theorem operand16_dp (o : Opnd16) (s : State) : (operand16 o s).2.cpu.dp = s.cpu.dp := by
  cases o <;> simp [operand16]
@[simp] theorem operand8_cc (o : Opnd8) (s : State) : (operand8 o s).2.cpu.cc = s.cpu.cc := by
  cases o <;> simp [operand8]
@[simp] theorem operand16_cc (o : Opnd16) (s : State) : (operand16 o s).2.cpu.cc = s.cpu.cc := by
  cases o <;> simp [operand16]
@[simp] theorem operand8_pc (o : Opnd8) (s : State) : (operand8 o s).2.cpu.pc = s.cpu.pc := by
  cases o <;> simp [operand8]
@[simp] theorem operand16_pc (o : Opnd16) (s : State) : (operand16 o s).2.cpu.pc = s.cpu.pc := by
  cases o <;> simp [operand16]
@[simp] theorem operand8_wait (o : Opnd8) (s : State) : (operand8 o s).2.cpu.wait = s.cpu.wait := by
  cases o <;> simp [operand8]
@[simp] theorem operand16_wait (o : Opnd16) (s : State) : (operand16 o s).2.cpu.wait = s.cpu.wait := by
  cases o <;> simp [operand16]
@[simp] theorem operand8_report (o : Opnd8) (s : State) :
    (operand8 o s).2.report = s.report + opnd8Extra o := by
  cases o <;> simp [operand8, opnd8Extra]

/-- Reading an operand changes no register but the one its addressing updates. -/
theorem operand8_keeps (o : Opnd8) (s : State) : keepsRegisters (opnd8Updates o) s (operand8 o s).2 := by
  cases o with
  | imm v => exact fun _ _ => rfl
  | mem m =>
    intro r hr
    have h : (operand8 (.mem m) s).2.cpu = (effectiveAddress m s).2.cpu := by simp [operand8]
    have hg : ∀ t u : State, t.cpu = u.cpu → t.getRegister r = u.getRegister r := by
      intro t u h
      cases r <;> simp [State.getRegister, h]
    rw [hg _ _ h]
    exact effectiveAddress_keeps m s r hr

@[simp] theorem operand16_report (o : Opnd16) (s : State) :
    (operand16 o s).2.report = s.report + opnd16Extra o := by
  cases o <;> simp [operand16, opnd16Extra]

/-- Reading an operand changes no register but the one its addressing updates. -/
theorem operand16_keeps (o : Opnd16) (s : State) : keepsRegisters (opnd16Updates o) s (operand16 o s).2 := by
  cases o with
  | imm v => exact fun _ _ => rfl
  | mem m =>
    intro r hr
    have h : (operand16 (.mem m) s).2.cpu = (effectiveAddress m s).2.cpu := by simp [operand16]
    have hg : ∀ t u : State, t.cpu = u.cpu → t.getRegister r = u.getRegister r := by
      intro t u h
      cases r <;> simp [State.getRegister, h]
    rw [hg _ _ h]
    exact effectiveAddress_keeps m s r hr

end Sys2Proof.Machine
end

