-- ==== Sys2Proof/Laws/Stack.lean ====
section
/-! SUPPORT. Everything a push, a pull, a push of a list and a pull of a list can do. -/

namespace Sys2Proof.Machine

/-! ### Pushes -/

/-- One push further down. -/
theorem sub_ofNat_sub_one (sp : Word) (n : Nat) : sp - BitVec.ofNat 16 n - 1 = sp - BitVec.ofNat 16 (n + 1) := by
  apply BitVec.eq_of_toNat_eq
  have h1 : (1 : Word).toNat = 1 := rfl
  simp only [BitVec.toNat_sub, BitVec.toNat_ofNat, h1]
  have := sp.isLt
  omega

/-- Bytes pushed so that they lie in list order from the final stack pointer upward. -/
def pushBytes (p : StackPtr) : List Byte → State → State
  | [], s => s
  | b :: bs, s => push8 p b (pushBytes p bs s)

theorem pushBytes_append (p : StackPtr) (xs ys : List Byte) (s : State) :
    pushBytes p (xs ++ ys) s = pushBytes p xs (pushBytes p ys s) := by
  induction xs with
  | nil => rfl
  | cons b xs ih => simp [pushBytes, ih]

theorem push8_cpu (p : StackPtr) (v : Byte) (s : State) :
    (push8 p v s).cpu = (s.setSp p (s.getSp p - 1)).cpu := by
  simp [push8]

@[simp] theorem push8_fcycles (p : StackPtr) (v : Byte) (s : State) : (push8 p v s).fcycles = s.fcycles := by
  simp [push8]
@[simp] theorem push8_report (p : StackPtr) (v : Byte) (s : State) : (push8 p v s).report = s.report := by
  simp [push8]
@[simp] theorem push8_draws (p : StackPtr) (v : Byte) (s : State) : (push8 p v s).draws = s.draws := by simp [push8]
@[simp] theorem push8_params (p : StackPtr) (v : Byte) (s : State) : (push8 p v s).params = s.params := by
  simp [push8]
@[simp] theorem push8_host (p : StackPtr) (v : Byte) (s : State) : (push8 p v s).host = s.host := by simp [push8]

theorem push8_getSp (p : StackPtr) (v : Byte) (s : State) : (push8 p v s).getSp p = s.getSp p - 1 := by
  cases p <;> simp [push8, State.getSp, State.setSp]

theorem push8_peek (p : StackPtr) (v : Byte) (s : State) (a : Word) (h : ¬ sameRam a (s.getSp p - 1)) :
    (push8 p v s).peek a = s.peek a := by
  unfold push8
  simp only [getSp_setSp]
  rw [peek_writeByte_ne h]
  exact peek_congr (by simp) (by simp) a

theorem push8_peek_same (p : StackPtr) (v : Byte) (s : State) (h : ramIndex (s.getSp p - 1) ≠ none) :
    (push8 p v s).peek (s.getSp p - 1) = some v := by
  unfold push8
  simp only [getSp_setSp]
  exact peek_writeByte_same h v _

theorem push8_dev (p : StackPtr) (v : Byte) (s : State) (h : ioRegister (s.getSp p - 1) = none) :
    (push8 p v s).dev = s.dev := by
  unfold push8
  simp only [getSp_setSp]
  rw [writeByte_dev, h]
  simp

section
variable (p : StackPtr) (bs : List Byte) (s : State)

@[simp] theorem pushBytes_fcycles : (pushBytes p bs s).fcycles = s.fcycles := by
  induction bs with
  | nil => rfl
  | cons b bs ih => simp [pushBytes, ih]
@[simp] theorem pushBytes_report : (pushBytes p bs s).report = s.report := by
  induction bs with
  | nil => rfl
  | cons b bs ih => simp [pushBytes, ih]
@[simp] theorem pushBytes_draws : (pushBytes p bs s).draws = s.draws := by
  induction bs with
  | nil => rfl
  | cons b bs ih => simp [pushBytes, ih]
@[simp] theorem pushBytes_params : (pushBytes p bs s).params = s.params := by
  induction bs with
  | nil => rfl
  | cons b bs ih => simp [pushBytes, ih]
@[simp] theorem pushBytes_host : (pushBytes p bs s).host = s.host := by
  induction bs with
  | nil => rfl
  | cons b bs ih => simp [pushBytes, ih]

theorem pushBytes_getSp : (pushBytes p bs s).getSp p = s.getSp p - BitVec.ofNat 16 bs.length := by
  induction bs with
  | nil => simp [pushBytes]
  | cons b bs ih =>
    rw [pushBytes, push8_getSp, ih, sub_ofNat_sub_one]
    rfl

/-- Pushing changes the stack pointer and no other register. -/
theorem pushBytes_cpu : (pushBytes p bs s).cpu = (s.setSp p (s.getSp p - BitVec.ofNat 16 bs.length)).cpu := by
  have hsp := pushBytes_getSp p bs s
  have hrest : ∃ v, (pushBytes p bs s).cpu = (s.setSp p v).cpu := by
    clear hsp
    induction bs with
    | nil => exact ⟨s.getSp p, by cases p <;> rfl⟩
    | cons b bs ih =>
      obtain ⟨v, hv⟩ := ih
      refine ⟨(pushBytes p bs s).getSp p - 1, ?_⟩
      rw [pushBytes, push8_cpu]
      cases p <;> simp_all [State.setSp, State.getSp, State.setS, State.setU]
  obtain ⟨v, hv⟩ := hrest
  have : v = s.getSp p - BitVec.ofNat 16 bs.length := by
    rw [← hsp]
    cases p <;> simp [State.getSp, hv, State.setSp]
  rw [hv, this]

end

/-- The address `k` up from the final stack pointer, as seen from one push earlier. -/
theorem sub_add_index (sp : Word) (n k : Nat) (hk : k ≤ n) :
    sp - BitVec.ofNat 16 n + BitVec.ofNat 16 k = sp - BitVec.ofNat 16 (n - k) := by
  apply BitVec.eq_of_toNat_eq
  simp only [BitVec.toNat_add, BitVec.toNat_sub, BitVec.toNat_ofNat]
  have := sp.isLt
  omega

/-- The pushed bytes lie from the final stack pointer upward. -/
theorem pushBytes_stores (p : StackPtr) (bs : List Byte) (s : State) (hl : bs.length ≤ 1024) :
    storesBytes (s.getSp p - BitVec.ofNat 16 bs.length) bs (pushBytes p bs s) := by
  induction bs with
  | nil => intro k h; exact absurd h (by simp)
  | cons b bs ih =>
    have ih := ih (by simp at hl; omega)
    intro k h hr
    have hsp := pushBytes_getSp p bs s
    have hbase : s.getSp p - BitVec.ofNat 16 (b :: bs).length = (pushBytes p bs s).getSp p - 1 := by
      rw [hsp, sub_ofNat_sub_one]
      rfl
    rw [hbase] at hr ⊢
    cases k with
    | zero =>
      simp only [BitVec.ofNat_eq_ofNat, BitVec.add_zero, List.getElem_cons_zero] at hr ⊢
      exact push8_peek_same p b _ hr
    | succ k =>
      rw [pushBytes, push8_peek]
      · have hk : k < bs.length := by simpa using h
        have he : (pushBytes p bs s).getSp p - 1 + BitVec.ofNat 16 (k + 1)
            = s.getSp p - BitVec.ofNat 16 bs.length + BitVec.ofNat 16 k := by
          rw [hsp, sub_ofNat_sub_one, sub_add_index _ _ _ (by omega), sub_add_index _ _ _ (by omega)]
          congr 2
          omega
        rw [he] at hr ⊢
        simpa using ih k hk hr
      · intro hs
        exact not_sameRam_add _ (k + 1) (by omega) (by simp at h hl; omega) (sameRam_symm hs)

/-- Pushing leaves every other RAM byte. -/
theorem pushBytes_keeps (p : StackPtr) (bs : List Byte) (s : State) :
    keepsMemoryBut (s.getSp p - BitVec.ofNat 16 bs.length) bs.length s (pushBytes p bs s) := by
  induction bs with
  | nil => intro a _; rfl
  | cons b bs ih =>
    intro a ha
    have hsp := pushBytes_getSp p bs s
    unfold readsAlike
    rw [pushBytes, push8_peek]
    · apply ih
      intro k hk
      have := ha (k + 1) (by simp; omega)
      rw [sub_add_index _ _ _ (by simp; omega)] at this
      rw [sub_add_index _ _ _ (by omega)]
      simpa using this
    · have := ha 0 (by simp)
      rw [sub_add_index _ _ _ (by simp)] at this
      rw [hsp, sub_ofNat_sub_one]
      exact this

/-- Pushing where no address reaches the IO chip leaves the devices. -/
theorem pushBytes_dev (p : StackPtr) (bs : List Byte) (s : State)
    (h : avoidsIo (s.getSp p - BitVec.ofNat 16 bs.length) bs.length) : (pushBytes p bs s).dev = s.dev := by
  induction bs with
  | nil => rfl
  | cons b bs ih =>
    have hsp := pushBytes_getSp p bs s
    rw [pushBytes, push8_dev]
    · apply ih
      intro k hk
      have := h (k + 1) (by simp; omega)
      rw [sub_add_index _ _ _ (by simp; omega)] at this
      rw [sub_add_index _ _ _ (by omega)]
      simpa using this
    · have := h 0 (by simp)
      rw [sub_add_index _ _ _ (by simp)] at this
      rw [hsp, sub_ofNat_sub_one]
      exact this

/-- The number of bytes of a list. -/
theorem listContents_length (p : StackPtr) (mask : Byte) (c : Cpu) :
    (listContents p mask c).length = listBytes mask := by
  unfold listContents listBytes
  simp only [List.length_append]
  repeat' split
  all_goals rfl

theorem listBytes_le (mask : Byte) : listBytes mask ≤ 12 := by
  unfold listBytes
  dsimp only
  repeat' split
  all_goals omega

/-- A push of a list is a push of its bytes. -/
theorem pushList_eq (p : StackPtr) (mask : Byte) (s : State) :
    pushList p mask s = pushBytes p (listContents p mask s.cpu) s := by
  unfold listContents
  simp only [pushBytes_append]
  have hother : ∀ bs t, (pushBytes p bs t).getSp p.other = t.getSp p.other := by
    intro bs t
    have := pushBytes_cpu p bs t
    cases p <;> simp [State.getSp, StackPtr.other, this, State.setSp]
  have hreg : ∀ bs t, (pushBytes p bs t).cpu.cc = t.cpu.cc ∧ (pushBytes p bs t).cpu.a = t.cpu.a
      ∧ (pushBytes p bs t).cpu.b = t.cpu.b ∧ (pushBytes p bs t).cpu.dp = t.cpu.dp
      ∧ (pushBytes p bs t).cpu.x = t.cpu.x ∧ (pushBytes p bs t).cpu.y = t.cpu.y := by
    intro bs t
    simp [pushBytes_cpu p bs t]
  have hcc := fun bs t => (hreg bs t).1
  have ha := fun bs t => (hreg bs t).2.1
  have hb := fun bs t => (hreg bs t).2.2.1
  have hdp := fun bs t => (hreg bs t).2.2.2.1
  have hx := fun bs t => (hreg bs t).2.2.2.2.1
  have hy := fun bs t => (hreg bs t).2.2.2.2.2
  have ho : s.cpu.otherSp p = s.getSp p.other := by cases p <;> rfl
  have hw8 : ∀ k (v : Byte) t, whenBit mask k (fun s => push8 p v s) t
      = pushBytes p (if mask.getLsbD k then [v] else []) t := by
    intro k v t
    unfold whenBit
    split <;> rfl
  have hw16 : ∀ k (v : Word) t, whenBit mask k (fun s => push16 p v s) t
      = pushBytes p (if mask.getLsbD k then [hiByte v, loByte v] else []) t := by
    intro k v t
    unfold whenBit
    split <;> rfl
  have e8 : ∀ k (f : State → Byte) t, whenBit mask k (fun s => push8 p (f s) s) t
      = pushBytes p (if mask.getLsbD k then [f t] else []) t := by
    intro k f t
    rw [← hw8]; rfl
  have e16 : ∀ k (f : State → Word) t, whenBit mask k (fun s => push16 p (f s) s) t
      = pushBytes p (if mask.getLsbD k then [hiByte (f t), loByte (f t)] else []) t := by
    intro k f t
    rw [← hw16]; rfl
  unfold pushList
  simp only [e8 _ (fun s => s.cpu.cc), e8 _ (fun s => s.cpu.a), e8 _ (fun s => s.cpu.b), e8 _ (fun s => s.cpu.dp),
    e16 _ (fun s => s.cpu.x), e16 _ (fun s => s.cpu.y), e16 _ (fun s => s.cpu.pc), e16 _ (fun s => s.getSp p.other),
    hcc, ha, hb, hdp, hx, hy, hother, ho]

/-! ### Pulls -/

@[simp] theorem pull8_mem (p : StackPtr) (s : State) : (pull8 p s).2.mem = s.mem := by simp [pull8]
@[simp] theorem pull8_fcycles (p : StackPtr) (s : State) : (pull8 p s).2.fcycles = s.fcycles := by simp [pull8]
@[simp] theorem pull8_report (p : StackPtr) (s : State) : (pull8 p s).2.report = s.report := by simp [pull8]
@[simp] theorem pull8_draws (p : StackPtr) (s : State) : (pull8 p s).2.draws = s.draws := by simp [pull8]
@[simp] theorem pull8_params (p : StackPtr) (s : State) : (pull8 p s).2.params = s.params := by simp [pull8]
@[simp] theorem pull8_host (p : StackPtr) (s : State) : (pull8 p s).2.host = s.host := by simp [pull8]

/-- A pull changes the stack pointer and no other register. -/
theorem pull8_cpu (p : StackPtr) (s : State) : (pull8 p s).2.cpu = (s.setSp p (s.getSp p + 1)).cpu := by
  cases p <;> simp [pull8, State.setSp, State.setS, State.setU, State.getSp]

@[simp] theorem pull16_mem (p : StackPtr) (s : State) : (pull16 p s).2.mem = s.mem := by simp [pull16]
@[simp] theorem pull16_fcycles (p : StackPtr) (s : State) : (pull16 p s).2.fcycles = s.fcycles := by simp [pull16]
@[simp] theorem pull16_report (p : StackPtr) (s : State) : (pull16 p s).2.report = s.report := by simp [pull16]
@[simp] theorem pull16_draws (p : StackPtr) (s : State) : (pull16 p s).2.draws = s.draws := by simp [pull16]
@[simp] theorem pull16_params (p : StackPtr) (s : State) : (pull16 p s).2.params = s.params := by simp [pull16]
@[simp] theorem pull16_host (p : StackPtr) (s : State) : (pull16 p s).2.host = s.host := by simp [pull16]

/-- A pull of a plain byte. -/
theorem pull8_of_peek {p : StackPtr} {s : State} {v : Byte} (h : s.peek (s.getSp p) = some v) :
    pull8 p s = (v, s.setSp p (s.getSp p + 1)) := by
  simp only [pull8, readByte_of_peek h]

theorem setSp_setSp (p : StackPtr) (v w : Word) (s : State) : (s.setSp p v).setSp p w = s.setSp p w := by
  cases p <;> rfl

/-- A pull of two plain bytes. -/
theorem pull16_of_peek {p : StackPtr} {s : State} {v : Word} (h : s.peek (s.getSp p) = some (hiByte v))
    (l : s.peek (s.getSp p + 1) = some (loByte v)) : pull16 p s = (v, s.setSp p (s.getSp p + 2)) := by
  have h1 := pull8_of_peek h
  have h2 : pull8 p (s.setSp p (s.getSp p + 1)) = (loByte v, s.setSp p (s.getSp p + 2)) := by
    have hp : (s.setSp p (s.getSp p + 1)).peek ((s.setSp p (s.getSp p + 1)).getSp p) = some (loByte v) := by
      rw [getSp_setSp, ← l]
      exact peek_congr (by simp) (by simp) _
    rw [pull8_of_peek hp, getSp_setSp, setSp_setSp]
    congr 2
    rw [BitVec.add_assoc]
    rfl
  simp only [pull16, h1, h2, wordOf_hiByte_loByte]

/-! ### Bytes in memory -/

theorem bytesAt_append {base : Word} {xs ys : List Byte} {s : State} :
    bytesAt base (xs ++ ys) s ↔ bytesAt base xs s ∧ bytesAt (base + BitVec.ofNat 16 xs.length) ys s := by
  constructor
  · intro h
    constructor
    · intro k hk
      have := h k (by simp; omega)
      rwa [List.getElem_append_left hk] at this
    · intro k hk
      have := h (xs.length + k) (by simp; omega)
      rw [List.getElem_append_right (by omega), BitVec.ofNat_add, ← BitVec.add_assoc] at this
      simpa using this
  · rintro ⟨h1, h2⟩ k hk
    by_cases hlt : k < xs.length
    · rw [List.getElem_append_left hlt]
      exact h1 k hlt
    · rw [List.getElem_append_right (by omega)]
      have := h2 (k - xs.length) (by simp at hk; omega)
      rwa [BitVec.add_assoc, ← BitVec.ofNat_add, show xs.length + (k - xs.length) = k by omega] at this

theorem bytesAt_congr {base : Word} {bs : List Byte} {s t : State} (hm : t.mem = s.mem) (hp : t.params = s.params)
    (h : bytesAt base bs s) : bytesAt base bs t :=
  fun k hk => (peek_congr hm hp _).trans (h k hk)

/-- A single byte in memory. -/
theorem bytesAt_one {base : Word} {v : Byte} {s : State} (h : bytesAt base [v] s) : s.peek base = some v := by
  simpa using h 0 (by simp)

/-- Two bytes in memory. -/
theorem bytesAt_two {base : Word} {u v : Byte} {s : State} (h : bytesAt base [u, v] s) :
    s.peek base = some u ∧ s.peek (base + 1) = some v := by
  refine ⟨by simpa using h 0 (by simp), ?_⟩
  exact h 1 (by simp)

/-- A pull changes the devices and the stack pointer. -/
theorem pull8_state (p : StackPtr) (s : State) :
    (pull8 p s).2 = (s.setDev (pull8 p s).2.dev).setSp p (s.getSp p + 1) := by
  simp only [pull8]
  rw [readByte_state]
  cases p <;> rfl

/-- A 16-bit pull changes the devices and the stack pointer. -/
theorem pull16_state (p : StackPtr) (s : State) :
    (pull16 p s).2 = (s.setDev (pull16 p s).2.dev).setSp p (s.getSp p + 2) := by
  have h1 := pull8_state p s
  have h2 := pull8_state p (pull8 p s).2
  have h12 : (pull16 p s).2 = (pull8 p (pull8 p s).2).2 := rfl
  rw [h12]
  generalize (pull8 p (pull8 p s).2).2.dev = d2 at *
  generalize (pull8 p s).2.dev = d1 at *
  rw [h2, h1]
  have e : s.getSp p + 2 = s.getSp p + 1 + 1 := by rw [BitVec.add_assoc]; rfl
  rw [e]
  cases p <;> rfl

/-- One pull of a list, of any byte: the devices, the stack pointer and one register. -/
theorem whenBit_pullInto8 (p : StackPtr) (mask : Byte) (k : Nat) (f : Byte → State → State) (st : State) :
    ∃ v d, whenBit mask k (pullInto8 p f) st
        = (if mask.getLsbD k then f v ((st.setDev d).setSp p (st.getSp p + 1)) else st)
      ∧ ∀ w, bytesAt (st.getSp p) (if mask.getLsbD k then [w] else []) st → mask.getLsbD k = true →
        v = w ∧ d = st.dev := by
  refine ⟨(readByte (st.getSp p) st).1, (readByte (st.getSp p) st).2.dev, ?_, ?_⟩
  · unfold whenBit
    split
    · simp only [pullInto8, pull8]
      rw [readByte_state]
      cases p <;> rfl
    · rfl
  · intro w h hb
    simp only [hb, if_true] at h
    rw [readByte_of_peek (bytesAt_one h)]
    exact ⟨rfl, rfl⟩

/-- One pull of a list, of any word. -/
theorem whenBit_pullInto16 (p : StackPtr) (mask : Byte) (k : Nat) (f : Word → State → State) (st : State) :
    ∃ v d, whenBit mask k (pullInto16 p f) st
        = (if mask.getLsbD k then f v ((st.setDev d).setSp p (st.getSp p + 2)) else st)
      ∧ ∀ w, bytesAt (st.getSp p) (if mask.getLsbD k then [hiByte w, loByte w] else []) st →
        mask.getLsbD k = true → v = w ∧ d = st.dev := by
  refine ⟨(pull16 p st).1, (pull16 p st).2.dev, ?_, ?_⟩
  · unfold whenBit
    split
    · simp only [pullInto16]
      rw [← pull16_state]
    · rfl
  · intro w h hb
    simp only [hb, if_true] at h
    rw [pull16_of_peek (bytesAt_two h).1 (bytesAt_two h).2]
    exact ⟨rfl, by simp⟩

/-- A state whose CPU and devices alone are replaced. -/
def State.withCpuDev (s : State) (c : Cpu) (d : Devices) : State := { s with cpu := c, dev := d }

/-- The CPU with the stack pointer moved up. -/
def Cpu.bumpSp (p : StackPtr) (n : Word) (c : Cpu) : Cpu :=
  match p with
  | .hw => { c with s := c.s + n }
  | .user => { c with u := c.u + n }

/-- The stack pointer of a CPU. -/
def Cpu.sp (p : StackPtr) (c : Cpu) : Word :=
  match p with
  | .hw => c.s
  | .user => c.u

theorem getSp_eq (p : StackPtr) (s : State) : s.getSp p = s.cpu.sp p := by cases p <;> rfl

/-- One 8-bit pull of a list as a change of the CPU alone: `g` is the register's update, `G` the whole change. -/
theorem whenBit_pull8_cpu (p : StackPtr) (mask : Byte) (k : Nat) (f : Byte → State → State) (g : Byte → Cpu → Cpu)
    (G : Bool → Byte → Cpu → Cpu) (hf : ∀ v st, f v st = st.withCpuDev (g v st.cpu) st.dev)
    (hG : ∀ b v c, (if b then g v (c.bumpSp p 1) else c) = G b v c)
    (hs : ∀ b v c, (G b v c).sp p = c.sp p + if b then 1 else 0) (st : State) :
    ∃ v d, whenBit mask k (pullInto8 p f) st = st.withCpuDev (G (mask.getLsbD k) v st.cpu) d
      ∧ (∀ w, bytesAt (st.cpu.sp p) (if mask.getLsbD k then [w] else []) st →
        G (mask.getLsbD k) v st.cpu = G (mask.getLsbD k) w st.cpu ∧ d = st.dev)
      ∧ (∀ w v' c', (G (mask.getLsbD k) v' c').sp p
        = c'.sp p + BitVec.ofNat 16 (if mask.getLsbD k then ([(w : Byte)] : List Byte) else []).length) := by
  obtain ⟨v, d, e, h⟩ := whenBit_pullInto8 p mask k f st
  refine ⟨v, if mask.getLsbD k then d else st.dev, ?_, ?_, ?_⟩
  · rw [e, ← hG]
    split
    · rw [hf]
      cases p <;> rfl
    · rfl
  · intro w hw
    rw [← getSp_eq] at hw
    cases hb : mask.getLsbD k with
    | true => rw [(h w hw hb).1]; exact ⟨rfl, by simp [(h w hw hb).2]⟩
    | false => rw [← hG, ← hG]; simp
  · intro w v' c'
    rw [hs]
    cases mask.getLsbD k <;> rfl

/-- One 16-bit pull of a list as a change of the CPU alone: `g` is the register's update, `G` the whole change. -/
theorem whenBit_pull16_cpu (p : StackPtr) (mask : Byte) (k : Nat) (f : Word → State → State) (g : Word → Cpu → Cpu)
    (G : Bool → Word → Cpu → Cpu) (hf : ∀ v st, f v st = st.withCpuDev (g v st.cpu) st.dev)
    (hG : ∀ b v c, (if b then g v (c.bumpSp p 2) else c) = G b v c)
    (hs : ∀ b v c, (G b v c).sp p = c.sp p + if b then 2 else 0) (st : State) :
    ∃ v d, whenBit mask k (pullInto16 p f) st = st.withCpuDev (G (mask.getLsbD k) v st.cpu) d
      ∧ (∀ w, bytesAt (st.cpu.sp p) (if mask.getLsbD k then [hiByte w, loByte w] else []) st →
        G (mask.getLsbD k) v st.cpu = G (mask.getLsbD k) w st.cpu ∧ d = st.dev)
      ∧ (∀ w v' c', (G (mask.getLsbD k) v' c').sp p
        = c'.sp p + BitVec.ofNat 16 (if mask.getLsbD k then ([hiByte (w : Word), loByte w] : List Byte) else []).length) := by
  obtain ⟨v, d, e, h⟩ := whenBit_pullInto16 p mask k f st
  refine ⟨v, if mask.getLsbD k then d else st.dev, ?_, ?_, ?_⟩
  · rw [e, ← hG]
    split
    · rw [hf]
      cases p <;> rfl
    · rfl
  · intro w hw
    rw [← getSp_eq] at hw
    cases hb : mask.getLsbD k with
    | true => rw [(h w hw hb).1]; exact ⟨rfl, by simp [(h w hw hb).2]⟩
    | false => rw [← hG, ← hG]; simp
  · intro w v' c'
    rw [hs]
    cases mask.getLsbD k <;> rfl

/-- The other stack pointer replaced. -/
def Cpu.setOther (p : StackPtr) (v : Word) (c : Cpu) : Cpu :=
  match p with
  | .hw => { c with u := v }
  | .user => { c with s := v }

/-- The bytes of a list as the sum of its parts. -/
theorem ofNat_listBytes (mask : Byte) : BitVec.ofNat 16 (listBytes mask)
    = (if mask.getLsbD 0 then 1 else 0) + (if mask.getLsbD 1 then 1 else 0) + (if mask.getLsbD 2 then 1 else 0)
      + (if mask.getLsbD 3 then 1 else 0) + (if mask.getLsbD 4 then 2 else 0) + (if mask.getLsbD 5 then 2 else 0)
      + (if mask.getLsbD 6 then 2 else 0) + (if mask.getLsbD 7 then 2 else 0) := by
  have h1 : ∀ b : Bool, BitVec.ofNat 16 (if b then 1 else 0) = (if b then 1 else 0) := by decide
  have h2 : ∀ b : Bool, BitVec.ofNat 16 (if b then 2 else 0) = (if b then 2 else 0) := by decide
  simp only [listBytes, BitVec.ofNat_add, h1, h2]

theorem withCpuDev_withCpuDev (s : State) (c c' : Cpu) (d d' : Devices) :
    (s.withCpuDev c d).withCpuDev c' d' = s.withCpuDev c' d' := rfl

theorem bytesAt_withCpuDev {s : State} {c : Cpu} {d : Devices} {base : Word} {bs : List Byte}
    (h : bytesAt base bs s) : bytesAt base bs (s.withCpuDev c d) := bytesAt_congr rfl rfl h

/-- The CPU after one conditional pull. -/
def Cpu.pullCc (p : StackPtr) (b : Bool) (v : Byte) (c : Cpu) : Cpu :=
  { c.bumpSp p (if b then 1 else 0) with cc := if b then v else c.cc }

/-- The CPU after one conditional pull. -/
def Cpu.pullA (p : StackPtr) (b : Bool) (v : Byte) (c : Cpu) : Cpu :=
  { c.bumpSp p (if b then 1 else 0) with a := if b then v else c.a }

/-- The CPU after one conditional pull. -/
def Cpu.pullB (p : StackPtr) (b : Bool) (v : Byte) (c : Cpu) : Cpu :=
  { c.bumpSp p (if b then 1 else 0) with b := if b then v else c.b }

/-- The CPU after one conditional pull. -/
def Cpu.pullDp (p : StackPtr) (b : Bool) (v : Byte) (c : Cpu) : Cpu :=
  { c.bumpSp p (if b then 1 else 0) with dp := if b then v else c.dp }

/-- The CPU after one conditional pull. -/
def Cpu.pullX (p : StackPtr) (b : Bool) (v : Word) (c : Cpu) : Cpu :=
  { c.bumpSp p (if b then 2 else 0) with x := if b then v else c.x }

/-- The CPU after one conditional pull. -/
def Cpu.pullY (p : StackPtr) (b : Bool) (v : Word) (c : Cpu) : Cpu :=
  { c.bumpSp p (if b then 2 else 0) with y := if b then v else c.y }

/-- The CPU after one conditional pull. -/
def Cpu.pullOther (p : StackPtr) (b : Bool) (v : Word) (c : Cpu) : Cpu :=
  Cpu.setOther p (if b then v else c.otherSp p) (c.bumpSp p (if b then 2 else 0))

/-- The CPU after one conditional pull. -/
def Cpu.pullPc (p : StackPtr) (b : Bool) (v : Word) (c : Cpu) : Cpu :=
  { c.bumpSp p (if b then 2 else 0) with pc := if b then v else c.pc }

/-- Everything a pull of a list can do: registers of the list take some values `c`, the stack pointer moves up, the
devices may change by the reads; where the list's bytes lie in memory for some values, those are the values, and the
devices do not change. -/
theorem pullList_cases (p : StackPtr) (mask : Byte) (s : State) :
    ∃ c d, pullList p mask s = s.withCpuDev (restoredCpu p mask c s.cpu) d
      ∧ ∀ c', bytesAt (s.getSp p) (listContents p mask c') s →
        restoredCpu p mask c s.cpu = restoredCpu p mask c' s.cpu ∧ d = s.dev := by
  obtain ⟨v0, d0, e0, h0, l0⟩ := whenBit_pull8_cpu p mask 0 State.setCc (fun v c => { c with cc := v })
    (Cpu.pullCc p) (fun _ _ => rfl)
    (fun b v c => by cases b <;> cases p <;> simp [Cpu.bumpSp, Cpu.pullCc])
    (fun b v c => by cases p <;> rfl) s
  generalize hc0 : Cpu.pullCc p (mask.getLsbD 0) v0 s.cpu = c0 at e0 h0
  obtain ⟨v1, d1, e1, h1, l1⟩ := whenBit_pull8_cpu p mask 1 State.setA (fun v c => { c with a := v })
    (Cpu.pullA p) (fun _ _ => rfl)
    (fun b v c => by cases b <;> cases p <;> simp [Cpu.bumpSp, Cpu.pullA])
    (fun b v c => by cases p <;> rfl) (s.withCpuDev c0 d0)
  simp only [withCpuDev_withCpuDev] at e1 h1
  generalize hc1 : Cpu.pullA p (mask.getLsbD 1) v1 (s.withCpuDev c0 d0).cpu = c1 at e1 h1
  obtain ⟨v2, d2, e2, h2, l2⟩ := whenBit_pull8_cpu p mask 2 State.setB (fun v c => { c with b := v })
    (Cpu.pullB p) (fun _ _ => rfl)
    (fun b v c => by cases b <;> cases p <;> simp [Cpu.bumpSp, Cpu.pullB])
    (fun b v c => by cases p <;> rfl) (s.withCpuDev c1 d1)
  simp only [withCpuDev_withCpuDev] at e2 h2
  generalize hc2 : Cpu.pullB p (mask.getLsbD 2) v2 (s.withCpuDev c1 d1).cpu = c2 at e2 h2
  obtain ⟨v3, d3, e3, h3, l3⟩ := whenBit_pull8_cpu p mask 3 State.setDp (fun v c => { c with dp := v })
    (Cpu.pullDp p) (fun _ _ => rfl)
    (fun b v c => by cases b <;> cases p <;> simp [Cpu.bumpSp, Cpu.pullDp])
    (fun b v c => by cases p <;> rfl) (s.withCpuDev c2 d2)
  simp only [withCpuDev_withCpuDev] at e3 h3
  generalize hc3 : Cpu.pullDp p (mask.getLsbD 3) v3 (s.withCpuDev c2 d2).cpu = c3 at e3 h3
  obtain ⟨v4, d4, e4, h4, l4⟩ := whenBit_pull16_cpu p mask 4 State.setX (fun v c => { c with x := v })
    (Cpu.pullX p) (fun _ _ => rfl)
    (fun b v c => by cases b <;> cases p <;> simp [Cpu.bumpSp, Cpu.pullX])
    (fun b v c => by cases p <;> rfl) (s.withCpuDev c3 d3)
  simp only [withCpuDev_withCpuDev] at e4 h4
  generalize hc4 : Cpu.pullX p (mask.getLsbD 4) v4 (s.withCpuDev c3 d3).cpu = c4 at e4 h4
  obtain ⟨v5, d5, e5, h5, l5⟩ := whenBit_pull16_cpu p mask 5 State.setY (fun v c => { c with y := v })
    (Cpu.pullY p) (fun _ _ => rfl)
    (fun b v c => by cases b <;> cases p <;> simp [Cpu.bumpSp, Cpu.pullY])
    (fun b v c => by cases p <;> rfl) (s.withCpuDev c4 d4)
  simp only [withCpuDev_withCpuDev] at e5 h5
  generalize hc5 : Cpu.pullY p (mask.getLsbD 5) v5 (s.withCpuDev c4 d4).cpu = c5 at e5 h5
  obtain ⟨v6, d6, e6, h6, l6⟩ := whenBit_pull16_cpu p mask 6 (State.setSp p.other) (Cpu.setOther p)
    (Cpu.pullOther p) (fun _ _ => by cases p <;> rfl)
    (fun b v c => by cases b <;> cases p <;> simp [Cpu.bumpSp, Cpu.setOther, Cpu.otherSp, Cpu.pullOther])
    (fun b v c => by cases p <;> rfl) (s.withCpuDev c5 d5)
  simp only [withCpuDev_withCpuDev] at e6 h6
  generalize hc6 : Cpu.pullOther p (mask.getLsbD 6) v6 (s.withCpuDev c5 d5).cpu = c6 at e6 h6
  obtain ⟨v7, d7, e7, h7, l7⟩ := whenBit_pull16_cpu p mask 7 State.setPc (fun v c => { c with pc := v })
    (Cpu.pullPc p) (fun _ _ => rfl)
    (fun b v c => by cases b <;> cases p <;> simp [Cpu.bumpSp, Cpu.pullPc])
    (fun b v c => by cases p <;> rfl) (s.withCpuDev c6 d6)
  simp only [withCpuDev_withCpuDev] at e7 h7
  generalize hc7 : Cpu.pullPc p (mask.getLsbD 7) v7 (s.withCpuDev c6 d6).cpu = c7 at e7 h7
  have hall : pullList p mask s = s.withCpuDev c7 d7 := by
    unfold pullList
    simp only [e0, e1, e2, e3, e4, e5, e6, e7]
  refine ⟨{ cc := v0, a := v1, b := v2, dp := v3, x := v4, y := v5, u := v6, s := v6, pc := v7, wait := .normal }, d7,
    ?_, ?_⟩
  · rw [hall, ← hc7, ← hc6, ← hc5, ← hc4, ← hc3, ← hc2, ← hc1, ← hc0]
    congr 1
    cases p <;>
      simp [restoredCpu, Cpu.bumpSp, Cpu.setOther, Cpu.otherSp, State.withCpuDev, ofNat_listBytes, BitVec.add_assoc,
        Cpu.pullCc, Cpu.pullA, Cpu.pullB, Cpu.pullDp, Cpu.pullX, Cpu.pullY, Cpu.pullOther, Cpu.pullPc]
  · intro c' hb
    rw [getSp_eq] at hb
    unfold listContents at hb
    obtain ⟨hb, b7⟩ := bytesAt_append.1 hb
    obtain ⟨hb, b6⟩ := bytesAt_append.1 hb
    obtain ⟨hb, b5⟩ := bytesAt_append.1 hb
    obtain ⟨hb, b4⟩ := bytesAt_append.1 hb
    obtain ⟨hb, b3⟩ := bytesAt_append.1 hb
    obtain ⟨hb, b2⟩ := bytesAt_append.1 hb
    obtain ⟨b0, b1⟩ := bytesAt_append.1 hb
    simp only [List.length_append, BitVec.ofNat_add, ← BitVec.add_assoc] at b1 b2 b3 b4 b5 b6 b7
    obtain ⟨g0, q0⟩ := h0 (c'.cc) b0
    have s0 := l0 (c'.cc) v0 s.cpu
    rw [hc0] at s0
    rw [← s0] at b1 b2 b3 b4 b5 b6 b7
    obtain ⟨g1, q1⟩ := h1 (c'.a) (bytesAt_withCpuDev (c := c0) (d := d0) b1)
    have s1 := l1 (c'.a) v1 (s.withCpuDev c0 d0).cpu
    rw [hc1, show (s.withCpuDev c0 d0).cpu = c0 from rfl] at s1
    rw [← s1] at b2 b3 b4 b5 b6 b7
    obtain ⟨g2, q2⟩ := h2 (c'.b) (bytesAt_withCpuDev (c := c1) (d := d1) b2)
    have s2 := l2 (c'.b) v2 (s.withCpuDev c1 d1).cpu
    rw [hc2, show (s.withCpuDev c1 d1).cpu = c1 from rfl] at s2
    rw [← s2] at b3 b4 b5 b6 b7
    obtain ⟨g3, q3⟩ := h3 (c'.dp) (bytesAt_withCpuDev (c := c2) (d := d2) b3)
    have s3 := l3 (c'.dp) v3 (s.withCpuDev c2 d2).cpu
    rw [hc3, show (s.withCpuDev c2 d2).cpu = c2 from rfl] at s3
    rw [← s3] at b4 b5 b6 b7
    obtain ⟨g4, q4⟩ := h4 (c'.x) (bytesAt_withCpuDev (c := c3) (d := d3) b4)
    have s4 := l4 (c'.x) v4 (s.withCpuDev c3 d3).cpu
    rw [hc4, show (s.withCpuDev c3 d3).cpu = c3 from rfl] at s4
    rw [← s4] at b5 b6 b7
    obtain ⟨g5, q5⟩ := h5 (c'.y) (bytesAt_withCpuDev (c := c4) (d := d4) b5)
    have s5 := l5 (c'.y) v5 (s.withCpuDev c4 d4).cpu
    rw [hc5, show (s.withCpuDev c4 d4).cpu = c4 from rfl] at s5
    rw [← s5] at b6 b7
    obtain ⟨g6, q6⟩ := h6 (c'.otherSp p) (bytesAt_withCpuDev (c := c5) (d := d5) b6)
    have s6 := l6 (c'.otherSp p) v6 (s.withCpuDev c5 d5).cpu
    rw [hc6, show (s.withCpuDev c5 d5).cpu = c5 from rfl] at s6
    rw [← s6] at b7
    obtain ⟨g7, q7⟩ := h7 (c'.pc) (bytesAt_withCpuDev (c := c6) (d := d6) b7)
    refine ⟨?_, ?_⟩
    · have e1 : c7 = restoredCpu p mask c' s.cpu := by
        rw [g7, g6, g5, g4, g3, g2, g1, g0]
        cases p <;>
          simp [restoredCpu, Cpu.bumpSp, Cpu.setOther, Cpu.otherSp, State.withCpuDev, ofNat_listBytes,
            BitVec.add_assoc, Cpu.pullCc, Cpu.pullA, Cpu.pullB, Cpu.pullDp, Cpu.pullX, Cpu.pullY, Cpu.pullOther, Cpu.pullPc]
      rw [← e1, ← hc7, ← hc6, ← hc5, ← hc4, ← hc3, ← hc2, ← hc1, ← hc0]
      cases p <;>
        simp [restoredCpu, Cpu.bumpSp, Cpu.setOther, Cpu.otherSp, State.withCpuDev, ofNat_listBytes, BitVec.add_assoc,
        Cpu.pullCc, Cpu.pullA, Cpu.pullB, Cpu.pullDp, Cpu.pullX, Cpu.pullY, Cpu.pullOther, Cpu.pullPc]
    · rw [q7]
      show d6 = _
      rw [q6]
      show d5 = _
      rw [q5]
      show d4 = _
      rw [q4]
      show d3 = _
      rw [q3]
      show d2 = _
      rw [q2]
      show d1 = _
      rw [q1]
      exact q0

end Sys2Proof.Machine
end

