-- ==== Sys2Proof/Laws/Closure.lean ====
section
/-! SUPPORT. What one Step can do to memory, devices, parameters and the host's side, said once: it reads and writes
bytes on the bus and nothing else. A property of the state that bus reads and writes keep is kept by every
instruction, interrupt entry and fetch. -/

namespace Sys2Proof.Machine

/-- A property that depends on memory, devices, parameters, frame counter and host alone, and that bus reads and writes
keep. -/
structure BusClosed (P : State → Prop) : Prop where
  congr : ∀ s t : State, t.mem = s.mem → t.dev = s.dev → t.params = s.params → t.fcycles = s.fcycles →
    t.host = s.host → P s → P t
  read : ∀ (a : Word) (s : State), P s → P (readByte a s).2
  write : ∀ (a : Word) (v : Byte) (s : State), P s → P (writeByte a v s)

namespace BusClosed

variable {P : State → Prop} (C : BusClosed P)
include C

theorem setCpu {s : State} (c : Cpu) (h : P s) : P { s with cpu := c } := C.congr s _ rfl rfl rfl rfl rfl h
theorem addCycles {s : State} (n : Nat) (h : P s) : P (s.addCycles n) := C.congr s _ rfl rfl rfl rfl rfl h
theorem takeDraw {s : State} (b : Bool) (h : P s) : P (s.takeDraw b) := C.congr s _ rfl rfl rfl rfl rfl h
theorem setReport {s : State} (n : Nat) (h : P s) : P { s with report := n } := C.congr s _ rfl rfl rfl rfl rfl h

theorem setAcc {s : State} (r : Acc) (v : Byte) (h : P s) : P (s.setAcc r v) := by
  cases r <;> exact C.setCpu _ h
theorem setReg16 {s : State} (r : Reg16) (v : Word) (h : P s) : P (s.setReg16 r v) := by
  cases r <;> exact C.congr s _ rfl rfl rfl rfl rfl h
theorem setIndex {s : State} (r : IReg) (v : Word) (h : P s) : P (s.setIndex r v) := by
  cases r <;> exact C.setCpu _ h
theorem setSp {s : State} (p : StackPtr) (v : Word) (h : P s) : P (s.setSp p v) := by
  cases p <;> exact C.setCpu _ h
theorem regWrite {s : State} (code : BitVec 4) (v : Word) (h : P s) : P (s.regWrite code v) := by
  refine C.congr s _ ?_ ?_ ?_ ?_ ?_ h <;> unfold State.regWrite <;> split <;> rfl

theorem readWord {s : State} (a : Word) (h : P s) : P (Machine.readWord a s).2 := C.read _ _ (C.read _ _ h)
theorem writeWord {s : State} (a v : Word) (h : P s) : P (Machine.writeWord a v s) := C.write _ _ _ (C.write _ _ _ h)

theorem directIndexed {s : State} (m : IdxMode) (h : P s) : P (Machine.directIndexed m s).2 := by
  refine C.congr s _ ?_ ?_ ?_ ?_ ?_ h <;> simp

theorem indexedEa {s : State} (m : IdxMode) (h : P s) : P (Machine.indexedEa m s).2 := by
  simp only [Machine.indexedEa]
  split
  · exact C.readWord _ (C.directIndexed _ (C.addCycles _ h))
  · exact C.directIndexed _ (C.addCycles _ h)

theorem effectiveAddress {s : State} (m : MemOp) (h : P s) : P (Machine.effectiveAddress m s).2 := by
  cases m with
  | dir a => exact h
  | ext a => exact h
  | idx m => exact C.indexedEa m h

theorem operand8 {s : State} (o : Opnd8) (h : P s) : P (Machine.operand8 o s).2 := by
  cases o with
  | imm v => exact h
  | mem m => exact C.read _ _ (C.effectiveAddress m h)

theorem operand16 {s : State} (o : Opnd16) (h : P s) : P (Machine.operand16 o s).2 := by
  cases o with
  | imm v => exact h
  | mem m => exact C.readWord _ (C.effectiveAddress m h)

theorem pushBytes {s : State} (p : StackPtr) (bs : List Byte) (h : P s) : P (Machine.pushBytes p bs s) := by
  induction bs with
  | nil => exact h
  | cons b bs ih => exact C.write _ _ _ (C.setSp _ _ ih)

theorem pushList {s : State} (p : StackPtr) (mask : Byte) (h : P s) : P (Machine.pushList p mask s) := by
  rw [pushList_eq]
  exact C.pushBytes p _ h

theorem push16 {s : State} (p : StackPtr) (v : Word) (h : P s) : P (Machine.push16 p v s) :=
  C.pushBytes p [hiByte v, loByte v] h

theorem pull8 {s : State} (p : StackPtr) (h : P s) : P (Machine.pull8 p s).2 := C.setSp _ _ (C.read _ _ h)
theorem pull16 {s : State} (p : StackPtr) (h : P s) : P (Machine.pull16 p s).2 := C.pull8 p (C.pull8 p h)

theorem pullInto8 {s : State} (p : StackPtr) {f : Byte → State → State} (hf : ∀ v t, P t → P (f v t)) (h : P s) :
    P (Machine.pullInto8 p f s) := hf _ _ (C.pull8 p h)
theorem pullInto16 {s : State} (p : StackPtr) {f : Word → State → State} (hf : ∀ v t, P t → P (f v t)) (h : P s) :
    P (Machine.pullInto16 p f s) := hf _ _ (C.pull16 p h)

omit C in
theorem whenBit {s : State} (mask : Byte) (k : Nat) {f : State → State} (hf : ∀ t, P t → P (f t)) (h : P s) :
    P (Machine.whenBit mask k f s) := by
  unfold Machine.whenBit
  split
  · exact hf _ h
  · exact h

theorem pullList {s : State} (p : StackPtr) (mask : Byte) (h : P s) : P (Machine.pullList p mask s) := by
  have s8 : ∀ {f : Byte → State → State}, (∀ v t, P t → P (f v t)) → ∀ t, P t → P (Machine.pullInto8 p f t) :=
    fun hf t ht => C.pullInto8 p hf ht
  have s16 : ∀ {f : Word → State → State}, (∀ v t, P t → P (f v t)) → ∀ t, P t → P (Machine.pullInto16 p f t) :=
    fun hf t ht => C.pullInto16 p hf ht
  unfold Machine.pullList
  apply BusClosed.whenBit _ _ (s16 fun _ _ ht => C.setCpu _ ht)
  apply BusClosed.whenBit _ _ (s16 fun _ _ ht => C.setSp _ _ ht)
  apply BusClosed.whenBit _ _ (s16 fun _ _ ht => C.setCpu _ ht)
  apply BusClosed.whenBit _ _ (s16 fun _ _ ht => C.setCpu _ ht)
  apply BusClosed.whenBit _ _ (s8 fun _ _ ht => C.setCpu _ ht)
  apply BusClosed.whenBit _ _ (s8 fun _ _ ht => C.setCpu _ ht)
  apply BusClosed.whenBit _ _ (s8 fun _ _ ht => C.setCpu _ ht)
  exact BusClosed.whenBit _ _ (s8 fun _ _ ht => C.setCpu _ ht) h

theorem stackEntire {s : State} (h : P s) : P (Machine.stackEntire s) := C.pushList _ _ (C.setCpu _ h)
theorem stackShort {s : State} (h : P s) : P (Machine.stackShort s) := C.pushList _ _ (C.setCpu _ h)

theorem trapStack {s : State} (t : Trap) (h : P s) : P (t.stack s) := by
  cases t with
  | irq => simp only [Trap.stack]; split; exacts [h, C.addCycles _ (C.stackEntire h)]
  | firq => simp only [Trap.stack]; split; exacts [h, C.addCycles _ (C.stackShort h)]
  | swi => exact C.stackEntire h
  | swi2 => exact C.stackEntire h
  | swi3 => exact C.stackEntire h

theorem trapMask {s : State} (t : Trap) (h : P s) : P (t.mask s) := by
  cases t <;> first | exact h | exact C.setCpu _ h | exact C.setCpu _ (C.setCpu _ h)

theorem takeTrap {s : State} (t : Trap) (h : P s) : P (Machine.takeTrap t s) := by
  have h3 : P ((Machine.readWord t.vector (t.mask (t.stack s))).2.setPc
      (Machine.readWord t.vector (t.mask (t.stack s))).1) :=
    C.setCpu _ (C.readWord _ (C.trapMask _ (C.trapStack _ h)))
  cases t <;> first | exact h3 | exact C.addCycles _ (C.setCpu _ h3)

theorem returnFromInterrupt {s : State} (h : P s) : P (Machine.returnFromInterrupt s) := by
  have h1 : P (Machine.pullInto8 .hw State.setCc s) := C.pullInto8 _ (fun _ _ ht => C.setCpu _ ht) h
  simp only [Machine.returnFromInterrupt]
  split
  · exact C.addCycles _ (C.pullList _ _ h1)
  · exact C.addCycles _ (C.pullInto16 _ (fun _ _ ht => C.setCpu _ ht) h1)

/-! The meanings. -/

theorem load8 {s : State} (r : Acc) (o : Opnd8) (h : P s) : P (Machine.load8 r o s) :=
  C.addCycles _ (C.setCpu _ (C.setAcc _ _ (C.operand8 o h)))
theorem load16 {s : State} (r : Reg16) (n : Nat) (o : Opnd16) (h : P s) : P (Machine.load16 r n o s) :=
  C.addCycles _ (C.setCpu _ (C.setReg16 _ _ (C.operand16 o h)))
theorem store8 {s : State} (r : Acc) (m : MemOp) (h : P s) : P (Machine.store8 r m s) :=
  C.addCycles _ (C.write _ _ _ (C.setCpu _ (C.effectiveAddress m h)))
theorem store16 {s : State} (r : Reg16) (n : Nat) (m : MemOp) (h : P s) : P (Machine.store16 r n m s) :=
  C.addCycles _ (C.writeWord _ _ (C.setCpu _ (C.effectiveAddress m h)))
theorem loadEa {s : State} (r : IReg) (z : Bool) (m : IdxMode) (h : P s) : P (Machine.loadEa r z m s) := by
  have h1 := C.setIndex r (Machine.indexedEa m s).1 (C.indexedEa m h)
  cases z
  · exact C.addCycles _ h1
  · exact C.addCycles _ (C.setCpu _ h1)
theorem transfer {s : State} (r1 r2 : BitVec 4) (h : P s) : P (Machine.transfer r1 r2 s) :=
  C.addCycles _ (C.regWrite _ _ h)
theorem exchange {s : State} (r1 r2 : BitVec 4) (h : P s) : P (Machine.exchange r1 r2 s) :=
  C.addCycles _ (C.regWrite _ _ (C.regWrite _ _ h))
theorem pushRegisters {s : State} (p : StackPtr) (mask : Byte) (h : P s) : P (Machine.pushRegisters p mask s) :=
  C.addCycles _ (C.pushList _ _ h)
theorem pullRegisters {s : State} (p : StackPtr) (mask : Byte) (h : P s) : P (Machine.pullRegisters p mask s) :=
  C.addCycles _ (C.pullList _ _ h)
theorem arith8 {s : State} (r : Acc) (op : BinOp) (o : Opnd8) (h : P s) : P (Machine.arith8 r op o s) :=
  C.addCycles _ (C.takeDraw _ (C.setCpu _ (C.setAcc _ _ (C.operand8 o h))))
theorem test8 {s : State} (r : Acc) (op : BinOp) (o : Opnd8) (h : P s) : P (Machine.test8 r op o s) :=
  C.addCycles _ (C.takeDraw _ (C.setCpu _ (C.operand8 o h)))
theorem modifyMemory {s : State} (op : UnaryOp) (m : MemOp) (h : P s) : P (Machine.modifyMemory op m s) :=
  C.addCycles _ (C.write _ _ _ (C.takeDraw _ (C.setCpu _ (C.read _ _ (C.effectiveAddress m h)))))
theorem modifyAcc {s : State} (op : UnaryOp) (r : Acc) (h : P s) : P (Machine.modifyAcc op r s) :=
  C.addCycles _ (C.takeDraw _ (C.setCpu _ (C.setAcc _ _ h)))
theorem testMemory {s : State} (m : MemOp) (h : P s) : P (Machine.testMemory m s) :=
  C.addCycles _ (C.setCpu _ (C.read _ _ (C.effectiveAddress m h)))
theorem clearMemory {s : State} (m : MemOp) (h : P s) : P (Machine.clearMemory m s) :=
  C.addCycles _ (C.write _ _ _ (C.setCpu _ (C.effectiveAddress m h)))
theorem clearAcc {s : State} (r : Acc) (h : P s) : P (Machine.clearAcc r s) :=
  C.addCycles _ (C.setCpu _ (C.setAcc _ _ h))
theorem arith16 {s : State} (f : Word → Word → Byte → Word × Byte) (o : Opnd16) (h : P s) :
    P (Machine.arith16 f o s) :=
  C.congr (Machine.operand16 o s).2 _ rfl rfl rfl rfl rfl (C.operand16 o h)
theorem compare16 {s : State} (r : Reg16) (n : Nat) (o : Opnd16) (h : P s) : P (Machine.compare16 r n o s) :=
  C.congr (Machine.operand16 o s).2 _ rfl rfl rfl rfl rfl (C.operand16 o h)
theorem shortBranch {s : State} (k : Cond) (d : Byte) (h : P s) : P (Machine.shortBranch k d s) := by
  unfold Machine.shortBranch
  split
  · exact C.addCycles _ (C.setCpu _ h)
  · exact C.addCycles _ h
theorem longBranch {s : State} (k : Cond) (d : Word) (h : P s) : P (Machine.longBranch k d s) := by
  unfold Machine.longBranch
  split
  · exact C.addCycles _ (C.setCpu _ h)
  · exact C.addCycles _ h
theorem call {s : State} (t : Word) (n : Nat) (h : P s) : P (Machine.call t n s) :=
  C.addCycles _ (C.setCpu _ (C.push16 _ _ h))
theorem jump {s : State} (m : MemOp) (h : P s) : P (Machine.jump m s) :=
  C.addCycles _ (C.setCpu _ (C.effectiveAddress m h))
theorem jumpSubroutine {s : State} (m : MemOp) (h : P s) : P (Machine.jumpSubroutine m s) :=
  C.call _ _ (C.effectiveAddress m h)
theorem returnSubroutine {s : State} (h : P s) : P (Machine.returnSubroutine s) :=
  C.addCycles _ (C.pullInto16 _ (fun _ _ ht => C.setCpu _ ht) h)
theorem clearAndWait {s : State} (v : Byte) (h : P s) : P (Machine.clearAndWait v s) :=
  C.addCycles _ (C.setCpu _ (C.stackEntire (C.setCpu _ h)))

/-- Every instruction keeps a property that the bus keeps. -/
theorem exec {s t : State} (i : Instr) (h : P s) (he : Machine.exec i s = .next t) : P t := by
  cases i with
  | lda _ => cases he; exact C.load8 _ _ h
  | ldb _ => cases he; exact C.load8 _ _ h
  | adda _ => cases he; exact C.arith8 _ _ _ h
  | addb _ => cases he; exact C.arith8 _ _ _ h
  | adca _ => cases he; exact C.arith8 _ _ _ h
  | adcb _ => cases he; exact C.arith8 _ _ _ h
  | suba _ => cases he; exact C.arith8 _ _ _ h
  | subb _ => cases he; exact C.arith8 _ _ _ h
  | sbca _ => cases he; exact C.arith8 _ _ _ h
  | sbcb _ => cases he; exact C.arith8 _ _ _ h
  | cmpa _ => cases he; exact C.test8 _ _ _ h
  | cmpb _ => cases he; exact C.test8 _ _ _ h
  | anda _ => cases he; exact C.arith8 _ _ _ h
  | andb _ => cases he; exact C.arith8 _ _ _ h
  | ora _ => cases he; exact C.arith8 _ _ _ h
  | orb _ => cases he; exact C.arith8 _ _ _ h
  | eora _ => cases he; exact C.arith8 _ _ _ h
  | eorb _ => cases he; exact C.arith8 _ _ _ h
  | bita _ => cases he; exact C.test8 _ _ _ h
  | bitb _ => cases he; exact C.test8 _ _ _ h
  | ldd _ => cases he; exact C.load16 _ _ _ h
  | ldx _ => cases he; exact C.load16 _ _ _ h
  | ldy _ => cases he; exact C.load16 _ _ _ h
  | ldu _ => cases he; exact C.load16 _ _ _ h
  | lds _ => cases he; exact C.load16 _ _ _ h
  | addd _ => cases he; exact C.arith16 _ _ h
  | subd _ => cases he; exact C.arith16 _ _ h
  | cmpd _ => cases he; exact C.compare16 _ _ _ h
  | cmpx _ => cases he; exact C.compare16 _ _ _ h
  | cmpy _ => cases he; exact C.compare16 _ _ _ h
  | cmpu _ => cases he; exact C.compare16 _ _ _ h
  | cmps _ => cases he; exact C.compare16 _ _ _ h
  | sta _ => cases he; exact C.store8 _ _ h
  | stb _ => cases he; exact C.store8 _ _ h
  | std _ => cases he; exact C.store16 _ _ _ h
  | stx _ => cases he; exact C.store16 _ _ _ h
  | sty _ => cases he; exact C.store16 _ _ _ h
  | stu _ => cases he; exact C.store16 _ _ _ h
  | sts _ => cases he; exact C.store16 _ _ _ h
  | neg _ => cases he; exact C.modifyMemory _ _ h
  | com _ => cases he; exact C.modifyMemory _ _ h
  | lsr _ => cases he; exact C.modifyMemory _ _ h
  | ror _ => cases he; exact C.modifyMemory _ _ h
  | asr _ => cases he; exact C.modifyMemory _ _ h
  | asl _ => cases he; exact C.modifyMemory _ _ h
  | rol _ => cases he; exact C.modifyMemory _ _ h
  | dec _ => cases he; exact C.modifyMemory _ _ h
  | inc _ => cases he; exact C.modifyMemory _ _ h
  | tst _ => cases he; exact C.testMemory _ h
  | clr _ => cases he; exact C.clearMemory _ h
  | jmp _ => cases he; exact C.jump _ h
  | jsr _ => cases he; exact C.jumpSubroutine _ h
  | leax _ => cases he; exact C.loadEa _ _ _ h
  | leay _ => cases he; exact C.loadEa _ _ _ h
  | leas _ => cases he; exact C.loadEa _ _ _ h
  | leau _ => cases he; exact C.loadEa _ _ _ h
  | tfr _ _ => cases he; exact C.transfer _ _ h
  | exg _ _ => cases he; exact C.exchange _ _ h
  | pshs _ => cases he; exact C.pushRegisters _ _ h
  | puls _ => cases he; exact C.pullRegisters _ _ h
  | pshu _ => cases he; exact C.pushRegisters _ _ h
  | pulu _ => cases he; exact C.pullRegisters _ _ h
  | nega => cases he; exact C.modifyAcc _ _ h
  | coma => cases he; exact C.modifyAcc _ _ h
  | lsra => cases he; exact C.modifyAcc _ _ h
  | rora => cases he; exact C.modifyAcc _ _ h
  | asra => cases he; exact C.modifyAcc _ _ h
  | asla => cases he; exact C.modifyAcc _ _ h
  | rola => cases he; exact C.modifyAcc _ _ h
  | deca => cases he; exact C.modifyAcc _ _ h
  | inca => cases he; exact C.modifyAcc _ _ h
  | tsta => cases he; exact C.congr s _ rfl rfl rfl rfl rfl h
  | clra => cases he; exact C.clearAcc _ h
  | negb => cases he; exact C.modifyAcc _ _ h
  | comb => cases he; exact C.modifyAcc _ _ h
  | lsrb => cases he; exact C.modifyAcc _ _ h
  | rorb => cases he; exact C.modifyAcc _ _ h
  | asrb => cases he; exact C.modifyAcc _ _ h
  | aslb => cases he; exact C.modifyAcc _ _ h
  | rolb => cases he; exact C.modifyAcc _ _ h
  | decb => cases he; exact C.modifyAcc _ _ h
  | incb => cases he; exact C.modifyAcc _ _ h
  | tstb => cases he; exact C.congr s _ rfl rfl rfl rfl rfl h
  | clrb => cases he; exact C.clearAcc _ h
  | daa => cases he; exact C.congr s _ rfl rfl rfl rfl rfl h
  | mul => cases he; exact C.congr s _ rfl rfl rfl rfl rfl h
  | sex => cases he; exact C.congr s _ rfl rfl rfl rfl rfl h
  | abx => cases he; exact C.congr s _ rfl rfl rfl rfl rfl h
  | nop => cases he; exact C.congr s _ rfl rfl rfl rfl rfl h
  | rts => cases he; exact C.returnSubroutine h
  | swi => cases he; exact C.addCycles _ (C.takeTrap _ h)
  | swi2 => cases he; exact C.addCycles _ (C.takeTrap _ h)
  | swi3 => cases he; exact C.addCycles _ (C.takeTrap _ h)
  | rti => cases he; exact C.returnFromInterrupt h
  | sync => cases he; exact C.congr s _ rfl rfl rfl rfl rfl h
  | andcc _ => cases he; exact C.congr s _ rfl rfl rfl rfl rfl h
  | orcc _ => cases he; exact C.congr s _ rfl rfl rfl rfl rfl h
  | cwai _ => cases he; exact C.clearAndWait _ h
  | bra _ => cases he; exact C.shortBranch _ _ h
  | brn _ => cases he; exact C.shortBranch _ _ h
  | bhi _ => cases he; exact C.shortBranch _ _ h
  | bls _ => cases he; exact C.shortBranch _ _ h
  | bcc _ => cases he; exact C.shortBranch _ _ h
  | bcs _ => cases he; exact C.shortBranch _ _ h
  | bne _ => cases he; exact C.shortBranch _ _ h
  | beq _ => cases he; exact C.shortBranch _ _ h
  | bvc _ => cases he; exact C.shortBranch _ _ h
  | bvs _ => cases he; exact C.shortBranch _ _ h
  | bpl _ => cases he; exact C.shortBranch _ _ h
  | bmi _ => cases he; exact C.shortBranch _ _ h
  | bge _ => cases he; exact C.shortBranch _ _ h
  | blt _ => cases he; exact C.shortBranch _ _ h
  | bgt _ => cases he; exact C.shortBranch _ _ h
  | ble _ => cases he; exact C.shortBranch _ _ h
  | bsr _ => cases he; exact C.call _ _ h
  | lbra _ => cases he; exact C.congr s _ rfl rfl rfl rfl rfl h
  | lbrn _ => cases he; exact C.longBranch _ _ h
  | lbhi _ => cases he; exact C.longBranch _ _ h
  | lbls _ => cases he; exact C.longBranch _ _ h
  | lbcc _ => cases he; exact C.longBranch _ _ h
  | lbcs _ => cases he; exact C.longBranch _ _ h
  | lbne _ => cases he; exact C.longBranch _ _ h
  | lbeq _ => cases he; exact C.longBranch _ _ h
  | lbvc _ => cases he; exact C.longBranch _ _ h
  | lbvs _ => cases he; exact C.longBranch _ _ h
  | lbpl _ => cases he; exact C.longBranch _ _ h
  | lbmi _ => cases he; exact C.longBranch _ _ h
  | lbge _ => cases he; exact C.longBranch _ _ h
  | lblt _ => cases he; exact C.longBranch _ _ h
  | lbgt _ => cases he; exact C.longBranch _ _ h
  | lble _ => cases he; exact C.longBranch _ _ h
  | lbsr _ => cases he; exact C.call _ _ h
  | undefined _ _ => cases he; exact C.congr s _ rfl rfl rfl rfl rfl h

end BusClosed

/-- Every instruction answers a next state. -/
theorem exec_next (i : Instr) (s : State) : ∃ t, exec i s = .next t := by
  cases i <;> exact ⟨_, rfl⟩

end Sys2Proof.Machine
end

