-- ==== Sys2Proof/Laws/Frames.lean ====
section
/-! SUPPORT. How the frame predicates of Safety.lean follow from equations of fields: registers, memory, devices. -/

namespace Sys2Proof.Machine

theorem getRegister_congr {s t : State} (h : t.cpu = s.cpu) (r : RegName) : t.getRegister r = s.getRegister r := by
  cases r <;> simp [State.getRegister, h]

/-- A register frame from its three parts. -/
theorem registerFrame_of {written upd : List RegName} {s s1 t : State} (h1 : keepsRegisters written s1 t)
    (h2 : keepsRegisters upd s s1) (h3 : keepsControl s t) : registerFrame written upd s s1 t := by
  refine ⟨h1, fun r hr => ?_, h3⟩
  rw [List.mem_append, not_or] at hr
  rw [h1 r hr.1, h2 r hr.2]

/-- The devices after a bus write. -/
theorem writeByte_busWriteDev (a : Word) (v : Byte) (s : State) :
    (writeByte a v s).dev = busWriteDev s.params a v s.dev := writeByte_dev a v s

theorem writeWord_busWriteDev (a v : Word) (s : State) :
    (writeWord a v s).dev = busWriteDev s.params (a + 1) (loByte v) (busWriteDev s.params a (hiByte v) s.dev) := by
  simp [writeWord, writeByte_busWriteDev]

/-- One bus write stores its byte. -/
theorem storesBytes_writeByte {a : Word} {v : Byte} {u t : State} (hm : t.mem = (writeByte a v u).mem)
    (hp : t.params = u.params) : storesBytes a [v] t := by
  intro k hk hr
  obtain rfl : k = 0 := by simpa using hk
  have h0 : a + BitVec.ofNat 16 0 = a := BitVec.add_zero a
  rw [h0] at hr ⊢
  rw [peek_congr hm (by simpa using hp), peek_writeByte_same hr]
  rfl

/-- One bus write leaves every other byte. -/
theorem keepsMemoryBut_writeByte {a : Word} {v : Byte} {s u t : State} (hu : keepsMemory s u)
    (hm : t.mem = (writeByte a v u).mem) (hp : t.params = u.params) : keepsMemoryBut a 1 s t := by
  intro b hb
  have hb0 := hb 0 (by decide)
  rw [show a + BitVec.ofNat 16 0 = a from BitVec.add_zero a] at hb0
  exact (peek_congr hm (by simpa using hp) b).trans ((peek_writeByte_ne hb0 v u).trans (hu b))

/-- Two bus writes store a word, high byte first. -/
theorem storesBytes_writeWord {a v : Word} {u t : State} (hm : t.mem = (writeWord a v u).mem)
    (hp : t.params = u.params) : storesBytes a [hiByte v, loByte v] t := by
  intro k hk hr
  have hk2 : k < 2 := by simpa using hk
  rw [peek_congr hm (by simpa using hp)]
  match k, hk2 with
  | 0, _ =>
    rw [show a + BitVec.ofNat 16 0 = a from BitVec.add_zero a] at hr ⊢
    have hne := not_sameRam_add a 1 (by decide) (by decide)
    rw [show a + BitVec.ofNat 16 1 = a + 1 from rfl] at hne
    exact (peek_writeByte_ne hne _ _).trans (peek_writeByte_same hr _ _)
  | 1, _ => exact peek_writeByte_same hr _ _

/-- Two bus writes leave every other byte. -/
theorem keepsMemoryBut_writeWord {a v : Word} {s u t : State} (hu : keepsMemory s u)
    (hm : t.mem = (writeWord a v u).mem) (hp : t.params = u.params) : keepsMemoryBut a 2 s t := by
  intro b hb
  have hb0 := hb 0 (by decide)
  have hb1 := hb 1 (by decide)
  rw [show a + BitVec.ofNat 16 0 = a from BitVec.add_zero a] at hb0
  rw [show a + BitVec.ofNat 16 1 = a + 1 from rfl] at hb1
  exact (peek_congr hm (by simpa using hp) b).trans
    ((peek_writeByte_ne hb1 _ _).trans ((peek_writeByte_ne hb0 _ u).trans (hu b)))

theorem keepsMemoryBut_of_keepsMemory {a : Word} {n : Nat} {s t : State} (h : keepsMemory s t) :
    keepsMemoryBut a n s t := fun b _ => h b

end Sys2Proof.Machine
end

