-- ==== Sys2Proof/Laws/Transfer.lean ====
section
/-! SUPPORT. What reading and writing a register by its TFR or EXG code does, in the terms of `GetRegister`. -/

namespace Sys2Proof.Machine

theorem wordOf_ff : ∀ v : Byte, wordOf 255#8 v = 65280#16 ||| zext8 v := by decide +kernel

theorem zext8_loByte (w : Word) : zext8 (loByte w) = w &&& 0x00FF := by
  apply BitVec.eq_of_toNat_eq
  rw [BitVec.toNat_and, show (0x00FF : Word).toNat = 2 ^ 8 - 1 from rfl, Nat.and_two_pow_sub_one_eq_mod]
  simp [zext8, loByte, BitVec.extractLsb'_toNat]
  omega

/-- The sixteen codes. -/
theorem code_cases (c : BitVec 4) : c = 0 ∨ c = 1 ∨ c = 2 ∨ c = 3 ∨ c = 4 ∨ c = 5 ∨ c = 6 ∨ c = 7 ∨ c = 8 ∨ c = 9
    ∨ c = 10 ∨ c = 11 ∨ c = 12 ∨ c = 13 ∨ c = 14 ∨ c = 15 := by
  revert c; decide

theorem regRead_eq (code : BitVec 4) (s : State) : s.regRead code = codeValue code s := by
  rcases code_cases code with h|h|h|h|h|h|h|h|h|h|h|h|h|h|h|h <;> subst h <;>
    simp [State.regRead, codeValue, codeName, State.getRegister, wordOf_ff]

theorem regWrite_same (code : BitVec 4) (v : Word) (s : State) (n : RegName) (h : codeName code = some n) :
    (s.regWrite code v).getRegister n = codeStored code v := by
  rcases code_cases code with e|e|e|e|e|e|e|e|e|e|e|e|e|e|e|e <;> subst e <;>
    simp [codeName] at h <;> subst h <;>
    simp [State.regWrite, codeStored, State.getRegister, Cpu.d, State.setD, zext8_loByte]

theorem regWrite_ne (code : BitVec 4) (v : Word) (s : State) : keepsRegisters (codeWrites code) s (s.regWrite code v) := by
  intro n h
  rcases code_cases code with e|e|e|e|e|e|e|e|e|e|e|e|e|e|e|e <;> subst e <;>
    cases n <;> first | rfl | exact absurd (by decide) h

end Sys2Proof.Machine
end

