-- ==== Sys2Proof/Laws/Decode.lean ====
section
/-! SUPPORT. The decoder over any source of bytes: what every source keeps, when two sources give the same instruction,
and how the machine's fetch reads the bytes that lie at PC. -/

namespace Sys2Proof

/-- The source after the bytes read. -/
def Decoded.rest {σ : Type} : Decoded σ → σ
  | .ok _ s => s
  | .undefinedPostbyte _ s => s

/-- What was decoded, without the source. -/
def Decoded.outcome {σ : Type} : Decoded σ → Except Byte Instr
  | .ok i _ => .ok i
  | .undefinedPostbyte pb _ => .error pb

theorem Decoded.eq_ok {σ : Type} {x : Decoded σ} {i : Instr} (h : x.outcome = .ok i) : x = .ok i x.rest := by
  cases x <;> simp_all [outcome, rest]

theorem Decoded.eq_undefinedPostbyte {σ : Type} {x : Decoded σ} {pb : Byte} (h : x.outcome = .error pb) :
    x = .undefinedPostbyte pb x.rest := by
  cases x <;> simp_all [outcome, rest]

section keeps

variable {σ : Type} {next : σ → Byte × σ} {P : σ → Prop} (hP : ∀ s, P s → P (next s).2)
include hP

theorem decodeForm_keeps (form : Form) {s : σ} (h : P s) : P (decodeForm next form s).rest := by
  cases form with
  | inh i => exact h
  | byte f => exact hP _ h
  | word f => exact hP _ (hP _ h)
  | idx f =>
    simp only [decodeForm, decodeIndexed]
    split
    · exact hP _ h
    · exact hP _ (hP _ h)
    · exact hP _ (hP _ (hP _ h))
    · exact hP _ h

theorem decodeOpcode_keeps (page : Page) (op : Byte) {s : σ} (h : P s) : P (decodeOpcode next page op s).rest := by
  unfold decodeOpcode
  split
  · exact decodeForm_keeps hP _ h
  · exact h

/-- A property that reading a byte keeps is kept by the decoder. -/
theorem decodeFrom_keeps {s : σ} (h : P s) : P (decodeFrom next s).rest := by
  simp only [decodeFrom]
  split
  · exact decodeOpcode_keeps hP _ _ (hP _ (hP _ h))
  · split
    · exact decodeOpcode_keeps hP _ _ (hP _ (hP _ h))
    · exact decodeOpcode_keeps hP _ _ (hP _ h)

end keeps

section sim

variable {σ τ : Type} {nextS : σ → Byte × σ} {nextT : τ → Byte × τ} {bad : σ → Prop} {R : σ → τ → Prop}

/-- The first source went bad, or both decode alike and stay related. -/
def Decoded.alike (bad : σ → Prop) (R : σ → τ → Prop) (x : Decoded σ) (y : Decoded τ) : Prop :=
  bad x.rest ∨ (x.outcome = y.outcome ∧ R x.rest y.rest)

variable (hb : ∀ s, bad s → bad (nextS s).2)
  (hn : ∀ s t, R s t → bad (nextS s).2 ∨ ((nextS s).1 = (nextT t).1 ∧ R (nextS s).2 (nextT t).2))
include hb hn

theorem decodeForm_alike (form : Form) {s : σ} {t : τ} (h : R s t) :
    Decoded.alike bad R (decodeForm nextS form s) (decodeForm nextT form t) := by
  rcases hn s t h with h1 | ⟨e1, h1⟩
  · cases form with
    | inh i => exact .inr ⟨rfl, h⟩
    | byte f => exact .inl h1
    | word f => exact .inl (hb _ h1)
    | idx f =>
      left
      simp only [decodeForm, decodeIndexed]
      split
      · exact h1
      · exact hb _ h1
      · exact hb _ (hb _ h1)
      · exact h1
  · have h2 := hn _ _ h1
    cases form with
    | inh i => exact .inr ⟨rfl, h⟩
    | byte f =>
      refine .inr ⟨?_, h1⟩
      simp only [decodeForm, Decoded.outcome, e1]
    | word f =>
      rcases h2 with h2 | ⟨e2, h2⟩
      · exact .inl h2
      · refine .inr ⟨?_, h2⟩
        simp only [decodeForm, nextWord, Decoded.outcome, e1, e2]
    | idx f =>
      simp only [decodeForm, decodeIndexed, e1]
      split
      · exact .inr ⟨rfl, h1⟩
      · rcases h2 with h2 | ⟨e2, h2⟩
        · exact .inl h2
        · refine .inr ⟨?_, h2⟩
          simp only [Decoded.outcome, e2]
      · rcases h2 with h2 | ⟨e2, h2⟩
        · exact .inl (hb _ h2)
        · rcases hn _ _ h2 with h3 | ⟨e3, h3⟩
          · exact .inl h3
          · refine .inr ⟨?_, h3⟩
            simp only [nextWord, Decoded.outcome, e2, e3]
      · exact .inr ⟨rfl, h1⟩

theorem decodeOpcode_alike (page : Page) (op : Byte) {s : σ} {t : τ} (h : R s t) :
    Decoded.alike bad R (decodeOpcode nextS page op s) (decodeOpcode nextT page op t) := by
  unfold decodeOpcode
  split
  · exact decodeForm_alike hb hn _ h
  · exact .inr ⟨rfl, h⟩

/-- Two sources that give equal bytes, as long as the first does not go bad, decode alike. -/
theorem decodeFrom_alike {s : σ} {t : τ} (h : R s t) :
    Decoded.alike bad R (decodeFrom nextS s) (decodeFrom nextT t) := by
  simp only [decodeFrom]
  rcases hn s t h with h1 | ⟨e1, h1⟩
  · left
    split
    · exact decodeOpcode_keeps hb _ _ (hb _ h1)
    · split
      · exact decodeOpcode_keeps hb _ _ (hb _ h1)
      · exact decodeOpcode_keeps hb _ _ h1
  · rw [← e1]
    have two : ∀ page, Decoded.alike bad R (decodeOpcode nextS page (nextS (nextS s).2).1 (nextS (nextS s).2).2)
        (decodeOpcode nextT page (nextT (nextT t).2).1 (nextT (nextT t).2).2) := by
      intro page
      rcases hn _ _ h1 with h2 | ⟨e2, h2⟩
      · exact .inl (decodeOpcode_keeps hb _ _ h2)
      · rw [← e2]
        exact decodeOpcode_alike hb hn _ _ h2
    split
    · exact two _
    · split
      · exact two _
      · exact decodeOpcode_alike hb hn _ _ h1

end sim

/-- A starved list stays starved. -/
theorem ByteList.next_starved {l : ByteList} (h : l.starved = true) : l.next.2.starved = true := by
  unfold ByteList.next
  split <;> simp [h]

/-- What a list decodes to, in the terms of the decoder over a source. -/
theorem decode_ok_iff {bs rest : List Byte} {i : Instr} :
    decode bs = .ok (i, rest) ↔ decodeFrom ByteList.next ⟨bs, false⟩ = .ok i ⟨rest, false⟩ := by
  unfold decode
  split
  · rename_i j l hl
    obtain ⟨b, st⟩ := l
    rw [hl]
    cases st <;> simp
  · rename_i pb l hl
    rw [hl]
    split <;> simp

theorem decode_undefinedPostbyte_iff {bs : List Byte} {pb : Byte} :
    decode bs = .error (.undefinedPostbyte pb) ↔
      ∃ rest, decodeFrom ByteList.next ⟨bs, false⟩ = .undefinedPostbyte pb ⟨rest, false⟩ := by
  unfold decode
  split
  · rename_i j l hl
    rw [hl]
    split <;> simp
  · rename_i p l hl
    obtain ⟨b, st⟩ := l
    rw [hl]
    cases st <;> simp

namespace Machine

/-- The list is what is left of `bs`, the state is `s0` with PC moved past what is gone. -/
def fetched (bs : List Byte) (s0 : State) (l : ByteList) (t : State) : Prop :=
  l.starved = false ∧ ∃ used, bs = used ++ l.bytes ∧ t = s0.setPc (s0.cpu.pc + BitVec.ofNat 16 used.length)

/-- A fetch of a byte that lies in memory at PC reads it and moves PC by 1. -/
theorem fetch8_of_peek {v : Byte} {s : State} (h : s.peek s.cpu.pc = some v) :
    fetch8 s = (v, s.setPc (s.cpu.pc + 1)) := by
  have := readByte_of_peek h
  simp [fetch8, this]

/-- Decoding through the bus reads the bytes that lie at PC as the list gives them. -/
theorem fetch_alike {bs : List Byte} {s0 : State} (h : bytesAt s0.cpu.pc bs s0) :
    Decoded.alike (fun l => l.starved = true) (fetched bs s0) (decodeFrom ByteList.next ⟨bs, false⟩)
      (decodeFrom fetch8 s0) := by
  refine decodeFrom_alike (fun l hl => ByteList.next_starved hl) ?_ ⟨rfl, [], by simp, by simp [State.setPc]⟩
  rintro ⟨bytes, starved⟩ t ⟨hs, used, hu, ht⟩
  simp only at hs hu
  subst hs
  cases bytes with
  | nil => exact .inl rfl
  | cons b rest =>
    right
    have hk : used.length < bs.length := by rw [hu]; simp
    have hb : bs[used.length] = b := by simp [hu]
    have hp : t.peek t.cpu.pc = some b := by
      rw [ht, ← hb, ← h used.length hk]
      rfl
    rw [fetch8_of_peek hp]
    refine ⟨rfl, rfl, used ++ [b], by simp [hu, ByteList.next], ?_⟩
    subst ht
    simp only [State.setPc, List.length_append, List.length_singleton, BitVec.ofNat_add, BitVec.add_assoc]
    rfl

end Machine

end Sys2Proof
end

