-- ==== Sys2Proof/Laws/Devices.lean ====
section
/-! SUPPORT. Every operation of the timer/IO chip, the analog block, the lists and the sound chip keeps its invariant, and
what each leaves alone. -/

namespace Sys2Proof.Machine

/-! ### The timer/IO chip -/

/-- What `IntUpdate` leaves in the flag byte. -/
theorem intUpdate_bit7 (f e : Byte) :
    (if (f &&& e &&& 0x7F) ≠ 0 then f ||| 0x80 else f &&& 0x7F).getLsbD 7
      = decide (((if (f &&& e &&& 0x7F) ≠ 0 then f ||| 0x80 else f &&& 0x7F) &&& e &&& 0x7F) ≠ 0) := by
  by_cases h : (f &&& e &&& 0x7F) ≠ 0
  · have : (f ||| 0x80) &&& e &&& 0x7F = f &&& e &&& 0x7F := by
      ext i hi
      interval_cases i <;> simp
    rw [if_pos h, this, decide_eq_true h]
    simp
  · have : (f &&& 0x7F) &&& e &&& 0x7F = f &&& e &&& 0x7F := by
      ext i hi
      interval_cases i <;> simp
    rw [if_neg h, this, decide_eq_false h]
    simp

theorem and_7F_ne_zero_iff (f e : Byte) :
    (f &&& e &&& 0x7F) ≠ 0 ↔ ∃ k < 7, f.getLsbD k = true ∧ e.getLsbD k = true := by
  constructor
  · intro h
    by_contra hn
    apply h
    ext i hi
    by_cases h7 : i < 7
    · have := fun hf he => hn ⟨i, h7, hf, he⟩
      interval_cases i <;> simp_all
    · interval_cases i
      simp
  · rintro ⟨k, hk, hf, he⟩ h0
    have := congrArg (fun b : Byte => b.getLsbD k) h0
    simp only [BitVec.getLsbD_and, hf, he] at this
    interval_cases k <;> simp at this

/-- `IntUpdate` keeps the low seven flags and makes bit 7 the OR of the enabled ones. -/
theorem Via.intUpdate_flagByte (v : Via) : flagByte (fun k => v.ifr.getLsbD k) v.ier v.intUpdate.ifr := by
  unfold Via.intUpdate flagByte
  simp only []
  by_cases h : (v.ifr &&& v.ier &&& 0x7F) ≠ 0
  · rw [if_pos h]
    refine ⟨fun k hk => ?_, ?_⟩
    · interval_cases k <;> simp
    · have := (and_7F_ne_zero_iff v.ifr v.ier).mp h
      simpa using this
  · rw [if_neg h]
    refine ⟨fun k hk => ?_, ?_⟩
    · interval_cases k <;> simp
    · have := mt (and_7F_ne_zero_iff v.ifr v.ier).mpr h
      simpa using this

theorem flagByte_congr {low low' : Nat → Bool} {ier ifr : Byte} (h : ∀ k < 7, low' k = low k)
    (hf : flagByte low ier ifr) : flagByte low' ier ifr := by
  refine ⟨fun k hk => (hf.1 k hk).trans (h k hk).symm, hf.2.trans ?_⟩
  constructor
  · rintro ⟨k, hk, h1, h2⟩; exact ⟨k, hk, (h k hk).trans h1, h2⟩
  · rintro ⟨k, hk, h1, h2⟩; exact ⟨k, hk, (h k hk).symm.trans h1, h2⟩

theorem Via.inv_intUpdate {v : Via} (hs : v.srb ≤ 8) (he : v.ier.getLsbD 7 = false) : v.intUpdate.Inv :=
  ⟨hs, he, intUpdate_bit7 v.ifr v.ier⟩

theorem Via.inv_congr {v w : Via} (h : v.Inv) (hs : w.srb ≤ 8) (he : w.ier = v.ier) (hf : w.ifr = v.ifr) : w.Inv :=
  ⟨hs, by rw [he]; exact h.ier, by rw [he, hf]; exact h.ifr⟩

theorem Via.inv_clearFlags {v : Via} (mask : Byte) (hs : v.srb ≤ 8) (he : v.ier.getLsbD 7 = false) :
    (v.clearFlags mask).Inv := Via.inv_intUpdate hs he

theorem Via.inv_raiseFlag {v : Via} (mask : Byte) (hs : v.srb ≤ 8) (he : v.ier.getLsbD 7 = false) :
    (v.raiseFlag mask).Inv := Via.inv_intUpdate hs he

theorem Via.inv_pulseCa2 {v : Via} (h : v.Inv) : v.pulseCa2.Inv := by
  unfold Via.pulseCa2
  split
  · exact Via.inv_congr h h.srb rfl rfl
  · exact h

theorem Via.inv_pulseCb2 {v : Via} (h : v.Inv) : v.pulseCb2.Inv := by
  unfold Via.pulseCb2
  split
  · exact Via.inv_congr h h.srb rfl rfl
  · exact h

theorem Via.inv_writeIer {v : Via} (b : Byte) (h : v.Inv) : (v.writeIer b).Inv := by
  refine Via.inv_intUpdate (v := { v with ier := _ }) h.srb ?_
  have := h.ier
  show (if b.getLsbD 7 = true then v.ier ||| (b &&& 0x7F) else v.ier &&& ~~~(b &&& 0x7F)).getLsbD 7 = false
  split <;> simp_all [-BitVec.getLsbD_eq_getElem]

theorem Via.inv_tickT1 {v : Via} (h : v.Inv) : v.tickT1.Inv := by
  have hr : ∀ w : Via, w.Inv → w.rolloverT1.Inv := by
    intro w hw
    have hf := Via.inv_raiseFlag (v := w) 0x40 hw.srb hw.ier
    unfold Via.rolloverT1
    split
    · exact Via.inv_congr hf hf.srb rfl rfl
    · split
      · exact Via.inv_congr hf hf.srb rfl rfl
      · exact hw
  have h1 : Via.Inv { v with t1c := v.t1c - 1 } := Via.inv_congr h h.srb rfl rfl
  unfold Via.tickT1
  split
  · simp only []
    split
    · exact hr _ h1
    · exact h1
  · exact h

theorem Via.inv_tickT2 {v : Via} (h : v.Inv) : v.tickT2.Inv := by
  have h1 : Via.Inv { v with t2c := v.t2c - 1 } := Via.inv_congr h h.srb rfl rfl
  have hf := Via.inv_raiseFlag 0x20 h1.srb h1.ier
  unfold Via.tickT2
  split
  · simp only []
    split
    · exact Via.inv_congr hf hf.srb rfl rfl
    · exact h1
  · exact h

theorem Via.inv_shiftClock {v : Via} (h : v.Inv) : v.shiftClock.2.Inv := by
  unfold Via.shiftClock
  simp only []
  split
  · split <;> exact Via.inv_congr h h.srb rfl rfl
  · exact Via.inv_congr h h.srb rfl rfl

theorem Via.inv_countShift {v : Via} (h : v.Inv) (hb : v.srb < 8) : v.countShift.Inv := by
  have h1 : Via.Inv { v with srb := v.srb + 1 } := Via.inv_congr h (by simp; omega) rfl rfl
  unfold Via.countShift
  simp only []
  split
  · exact Via.inv_raiseFlag 0x04 h1.srb h1.ier
  · exact h1

theorem Via.inv_shifter {v : Via} (event : Bool) (h : v.Inv) : (v.shifter event).Inv := by
  have ho : v.rotateOut.Inv := Via.inv_congr h h.srb rfl rfl
  have hi : v.shiftIn.Inv := Via.inv_congr h h.srb rfl rfl
  unfold Via.shifter
  split
  · rename_i hb
    split
    · split
      · exact Via.inv_countShift hi hb
      · exact h
    · exact Via.inv_countShift hi hb
    · split
      · exact ho
      · exact h
    · split
      · exact Via.inv_countShift ho hb
      · exact h
    · exact Via.inv_countShift ho hb
    · exact h
  · exact h

theorem Via.inv_halfStep1 {v : Via} (h : v.Inv) : v.halfStep1.Inv :=
  Via.inv_shifter _ (Via.inv_shiftClock (Via.inv_tickT2 (Via.inv_tickT1 h)))

theorem Via.inv_halfStep2 {v : Via} (h : v.Inv) : v.halfStep2.Inv := Via.inv_congr h h.srb rfl rfl

/-! ### The analog block and the lists -/

theorem inBounds_iff (x y : Int) : inBounds x y = true ↔ onScreen x y := by simp [inBounds, onScreen]

theorem Alg.inv_update (orb : Byte) {a : Alg} (hz : a.zsh ≤ 127)
    (hv : ∀ c, a.vec = some c → onScreen c.x0 c.y0 ∧ onScreen c.x1 c.y1 ∧ c.color ≤ 127) : (a.update orb).Inv := by
  have key : ∀ (j : Byte), (Alg.multiplex (orb.extractLsb' 1 2) { a with jsh := j }).zsh ≤ 127 ∧
      (Alg.multiplex (orb.extractLsb' 1 2) { a with jsh := j }).vec = a.vec := by
    intro j
    unfold Alg.multiplex
    have := a.xsh.isLt
    split
    · exact ⟨hz, rfl⟩
    · exact ⟨hz, rfl⟩
    · refine ⟨?_, rfl⟩
      simp only []
      split <;> omega
    · exact ⟨hz, rfl⟩
  unfold Alg.update
  simp only []
  split
  · exact ⟨(key _).1, rfl, rfl, by simp only [Alg.refreshDeltas, (key _).2]; exact hv⟩
  · exact ⟨hz, rfl, rfl, hv⟩

theorem matchesAt_iff (l : List Segment) (i : Nat) (x0 y0 x1 y1 : Int) :
    matchesAt l i x0 y0 x1 y1 = true ↔ ∃ e, l[i]? = some e ∧ e.x0 = x0 ∧ e.y0 = y0 ∧ e.x1 = x1 ∧ e.y1 = y1 := by
  unfold matchesAt
  cases l[i]? <;> simp

theorem recolor_length (l : List Segment) (i color : Nat) : (recolor l i color).length = l.length := by simp [recolor]

theorem recolor_ok {l : List Segment} {i color bound : Nat} (hc : color ≤ bound) (h : ∀ e ∈ l, e.ok bound) :
    ∀ e ∈ recolor l i color, e.ok bound := by
  intro e he
  obtain ⟨k, hk, rfl⟩ := List.getElem_of_mem he
  have hk' : k < l.length := by simpa [recolor] using hk
  have hm := h _ (List.getElem_mem hk')
  simp only [recolor, List.getElem_modify]
  split
  · exact ⟨hm.1, hm.2.1, hc⟩
  · exact hm

theorem Lists.inv_addLine (vh : Nat) {x0 y0 x1 y1 : Int} {color : Nat} {l : Lists} (h : l.Inv)
    (h0 : onScreen x0 y0) (h1 : onScreen x1 y1) (hc : color ≤ 127) : (addLine vh x0 y0 x1 y1 color l).Inv := by
  have he : ∀ (b : Bool) (i : Nat),
      Lists.Inv (if b then { l with erase := recolor l.erase i Config.colorRange } else l) := by
    intro b i
    split
    · exact ⟨h.drawLength, by simpa [recolor] using h.eraseLength, h.draw, recolor_ok (Nat.le_refl _) h.erase,
        h.hashWf, h.hash⟩
    · exact h
  unfold addLine
  simp only []
  split
  · exact ⟨by simpa [recolor] using h.drawLength, h.eraseLength, recolor_ok hc h.draw, h.erase, h.hashWf, h.hash⟩
  · have step : ∀ (l1 : Lists) (k : Nat), l1.Inv → (if l1.draw.length ≥ Config.vectorCnt then l1 else
        { l1 with
          draw := l1.draw ++ [{ x0 := x0, y0 := y0, x1 := x1, y1 := y1, color := color }]
          hash := sparseSet (fun _ => 0) l1.hash k l1.draw.length }).Inv := by
      intro l1 k h2
      split
      · exact h2
      · rename_i hlt
        refine ⟨?_, h2.eraseLength, ?_, h2.erase, sparseWf_set _ _ _ _ h2.hashWf, ?_⟩
        · simp only [List.length_append, List.length_singleton]; omega
        · intro e hm
          rcases List.mem_append.mp hm with hm | hm
          · exact h2.draw e hm
          · rw [List.mem_singleton] at hm
            subst hm
            exact ⟨h0, h1, hc⟩
        · intro c hm
          rcases sparseSet_mem (fun _ => 0) l1.hash k l1.draw.length c hm with hm | hm
          · subst hm; show _ < _; omega
          · exact h2.hash c hm
    exact step _ _ (he _ _)

theorem Lists.inv_swap {l : Lists} (h : l.Inv) : l.swap.Inv :=
  ⟨Nat.zero_le _, h.drawLength, by simp [Lists.swap], fun e he => ⟨(h.draw e he).1, (h.draw e he).2.1,
    Nat.le_trans (h.draw e he).2.2 (by decide)⟩, h.hashWf, h.hash⟩

/-- The analog step keeps the invariants of the analog block and of the lists. -/
theorem algStep_inv (vh : Nat) {d : Devices} (ha : d.alg.Inv) (hl : d.lists.Inv) :
    (algStep vh d).alg.Inv ∧ (algStep vh d).lists.Inv := by
  have key : ∀ sdx sdy, (∀ c, (candidateStep vh d.via sdx sdy d.alg d.lists).1 = some c →
      onScreen c.x0 c.y0 ∧ onScreen c.x1 c.y1 ∧ c.color ≤ 127) ∧
      (candidateStep vh d.via sdx sdy d.alg d.lists).2.Inv := by
    intro sdx sdy
    have hopen : inBounds d.alg.currX d.alg.currY = true → ∀ c, some (d.alg.openCandidate sdx sdy) = some c →
        onScreen c.x0 c.y0 ∧ onScreen c.x1 c.y1 ∧ c.color ≤ 127 := by
      intro hb c hc
      cases hc
      exact ⟨(inBounds_iff _ _).mp hb, (inBounds_iff _ _).mp hb, ha.zsh⟩
    unfold candidateStep
    split
    · split
      · rename_i hb
        exact ⟨hopen (by simp_all), hl⟩
      · exact ⟨by simp, hl⟩
    · rename_i c hc
      have hcv := ha.vec c hc
      have hem : (emit vh c d.lists).Inv := Lists.inv_addLine vh hl hcv.1 hcv.2.1 hcv.2.2
      split
      · exact ⟨by simp, hem⟩
      · split
        · refine ⟨?_, hem⟩
          simp only []
          split
          · rename_i hb; exact hopen hb
          · simp
        · refine ⟨fun c' hc' => ?_, hl⟩
          cases hc'
          exact hcv
  unfold algStep
  simp only []
  refine ⟨⟨ha.zsh, ha.dx, ha.dy, ?_⟩, (key _ _).2⟩
  intro c hc
  obtain ⟨c0, hc0, rfl⟩ := Option.map_eq_some_iff.mp hc
  have h0 := (key _ _).1 c0 hc0
  unfold extendTo
  split
  · rename_i hb
    exact ⟨h0.1, (inBounds_iff _ _).mp hb, h0.2.2⟩
  · exact h0

@[simp] theorem algStep_via (vh : Nat) (d : Devices) : (algStep vh d).via = d.via := rfl
@[simp] theorem algStep_psg (vh : Nat) (d : Devices) : (algStep vh d).psg = d.psg := rfl

/-- The via after one device cycle: the two half-steps. -/
@[simp] theorem deviceCycle_via (vh : Nat) (d : Devices) : (deviceCycle vh d).via = d.via.halfStep1.halfStep2 := rfl
@[simp] theorem deviceCycle_psg (vh : Nat) (d : Devices) : (deviceCycle vh d).psg = d.psg := rfl

/-! ### The sound chip -/

theorem Psg.read_store (p : Psg) (r q : BitVec 4) (v : Byte) :
    (p.store r v).read q = if q = r then v else p.read q := by
  unfold Psg.read Psg.store
  have hr := r.isLt
  have hq := q.isLt
  by_cases h : q = r
  · subst h; simp
  · have : r.toNat ≠ q.toNat := fun e => h (BitVec.eq_of_toNat_eq e.symm)
    simp only [h, if_false]
    exact Vector.getElem_set_ne (by omega) (by omega) this

theorem Psg.inv_store {p : Psg} (h : p.Inv) (r : BitVec 4) {v : Byte} (hv : v &&& ~~~(psgMask r) = 0) :
    (p.store r v).Inv := by
  refine ⟨fun q => ?_, h.eatt⟩
  rw [Psg.read_store]
  split
  · rename_i e; subst e; exact hv
  · exact h.reg q

theorem Psg.inv_congr {p q : Psg} (h : p.Inv) (hr : q.reg = p.reg) (he : q.eatt = 0 ∨ q.eatt = 31) : q.Inv := by
  refine ⟨fun r => ?_, he⟩
  have : q.read r = p.read r := by unfold Psg.read; simp only [hr]
  rw [this]
  exact h.reg r

theorem Psg.inv_write {p : Psg} (h : p.Inv) (r : BitVec 4) (v : Byte) : (p.write r v).Inv := by
  have h1 : (p.store r (v &&& psgMask r)).Inv := Psg.inv_store h r (by
    ext i hi
    simp)
  unfold Psg.write
  simp only []
  split
  · refine Psg.inv_congr h1 rfl ?_
    unfold Psg.envRestart
    simp only []
    split
    · exact .inr rfl
    · exact .inl rfl
  · exact h1

theorem Psg.write_read_ne (p : Psg) {r q : BitVec 4} (v : Byte) (h : q ≠ r) : (p.write r v).read q = p.read q := by
  have h1 : ∀ p1 : Psg, (Psg.envRestart p1).read q = p1.read q := fun _ => rfl
  unfold Psg.write
  simp only []
  split
  · rw [h1, Psg.read_store, if_neg h]
  · rw [Psg.read_store, if_neg h]

theorem Psg.write_read_same (p : Psg) (r : BitVec 4) (v : Byte) : (p.write r v).read r = v &&& psgMask r := by
  have h1 : ∀ p1 : Psg, (Psg.envRestart p1).read r = p1.read r := fun _ => rfl
  unfold Psg.write
  simp only []
  split
  · rw [h1, Psg.read_store, if_pos rfl]
  · rw [Psg.read_store, if_pos rfl]

@[simp] theorem Psg.write_select (p : Psg) (r : BitVec 4) (v : Byte) : (p.write r v).select = p.select := by
  unfold Psg.write
  simp only []
  split <;> rfl

/-- A tick changes no register and not the selection, and the attack mask stays 0 or 31. -/
theorem Psg.tick_frame (p : Psg) : p.tick.reg = p.reg ∧ p.tick.select = p.select ∧ p.tick.frac = p.frac ∧
    (p.eatt = 0 ∨ p.eatt = 31 → p.tick.eatt = 0 ∨ p.tick.eatt = 31) := by
  have tone : ∀ (q : Psg) (c : Fin 3), (q.tickTone c).reg = q.reg ∧ (q.tickTone c).select = q.select ∧
      (q.tickTone c).frac = q.frac ∧ (q.tickTone c).eatt = q.eatt := by
    intro q c
    unfold Psg.tickTone
    simp only []
    split <;> exact ⟨rfl, rfl, rfl, rfl⟩
  have noise : ∀ q : Psg, q.tickNoise.reg = q.reg ∧ q.tickNoise.select = q.select ∧ q.tickNoise.frac = q.frac ∧
      q.tickNoise.eatt = q.eatt := by
    intro q
    unfold Psg.tickNoise
    simp only []
    split <;> exact ⟨rfl, rfl, rfl, rfl⟩
  have env : ∀ q : Psg, q.tickEnv.reg = q.reg ∧ q.tickEnv.select = q.select ∧ q.tickEnv.frac = q.frac ∧
      (q.eatt = 0 ∨ q.eatt = 31 → q.tickEnv.eatt = 0 ∨ q.tickEnv.eatt = 31) := by
    intro q
    have hx : q.eatt = 0 ∨ q.eatt = 31 →
        (if q.ealt then q.eatt ^^^ 31 else q.eatt) = 0 ∨ (if q.ealt then q.eatt ^^^ 31 else q.eatt) = 31 := by
      rintro (h | h) <;> rw [h] <;> cases q.ealt <;> simp
    unfold Psg.tickEnv Psg.envStep
    simp only []
    repeat' split
    all_goals first
      | exact ⟨rfl, rfl, rfl, id⟩
      | exact ⟨rfl, rfl, rfl, by simpa [*] using hx⟩
  unfold Psg.tick
  obtain ⟨r0, s0, f0, e0⟩ := tone p 0
  obtain ⟨r1, s1, f1, e1⟩ := tone (p.tickTone 0) 1
  obtain ⟨r2, s2, f2, e2⟩ := tone ((p.tickTone 0).tickTone 1) 2
  obtain ⟨r3, s3, f3, e3⟩ := noise (((p.tickTone 0).tickTone 1).tickTone 2)
  obtain ⟨r4, s4, f4, e4⟩ := env (((p.tickTone 0).tickTone 1).tickTone 2).tickNoise
  refine ⟨by rw [r4, r3, r2, r1, r0], by rw [s4, s3, s2, s1, s0], by rw [f4, f3, f2, f1, f0], fun h => e4 ?_⟩
  rw [e3, e2, e1, e0]
  exact h

theorem Psg.ticks_frame : ∀ (n : Nat) (p : Psg), (p.ticks n).reg = p.reg ∧ (p.ticks n).select = p.select ∧
    (p.eatt = 0 ∨ p.eatt = 31 → (p.ticks n).eatt = 0 ∨ (p.ticks n).eatt = 31)
  | 0, _ => ⟨rfl, rfl, id⟩
  | n + 1, p => by
    obtain ⟨h1, h2, h3⟩ := Psg.ticks_frame n p.tick
    obtain ⟨t1, t2, _, t4⟩ := p.tick_frame
    exact ⟨h1.trans t1, h2.trans t2, fun h => h3 (t4 h)⟩

theorem Psg.oneSample_frame (p : Psg) : p.oneSample.2.reg = p.reg ∧ p.oneSample.2.select = p.select ∧
    (p.eatt = 0 ∨ p.eatt = 31 → p.oneSample.2.eatt = 0 ∨ p.oneSample.2.eatt = 31) :=
  Psg.ticks_frame _ _

theorem Psg.inv_generate : ∀ (n : Nat) {p : Psg}, p.Inv → (p.generate n).2.Inv
  | 0, _, h => h
  | n + 1, p, h => Psg.inv_generate n (p := p.oneSample.2)
      (Psg.inv_congr h p.oneSample_frame.1 (p.oneSample_frame.2.2 h.eatt))

theorem driveLine_inv {d : Devices} (line : InputLine) (pressed : Bool) (h : d.Inv) :
    (driveLine line pressed d).Inv := by
  cases line with
  | button k =>
    refine ⟨h.via, h.alg, h.lists, Psg.inv_store h.psg 14 ?_⟩
    have : psgMask 14 = 0xFF := by decide
    rw [this]
    simp
  | axis channel down up => exact ⟨h.via, ⟨h.alg.zsh, h.alg.dx, h.alg.dy, h.alg.vec⟩, h.lists, h.psg⟩

theorem applyKey_inv (keymap : List (Nat × InputLine)) {d : Devices} (e : KeyEvent) (h : d.Inv) :
    (applyKey keymap d e).Inv := by
  unfold applyKey
  split
  · exact driveLine_inv _ _ h
  · exact h

/-! ### Bus accesses and device cycles -/

theorem Devices.inv_via {d : Devices} {v : Via} (h : d.Inv) (hv : v.Inv) : Devices.Inv { d with via := v } :=
  ⟨hv, h.alg, h.lists, h.psg⟩

theorem sndUpdate_inv {d : Devices} (h : d.Inv) : d.sndUpdate.Inv := by
  unfold Devices.sndUpdate
  split
  · split
    · exact ⟨h.via, h.alg, h.lists, Psg.inv_write h.psg _ _⟩
    · exact h
  · split
    · exact ⟨h.via, h.alg, h.lists, Psg.inv_congr h.psg rfl h.psg.eatt⟩
    · exact h
  · exact h

theorem viaRead_inv (r : ViaReg) {d : Devices} (h : d.Inv) : (viaRead r d).2.Inv := by
  have hv := h.via
  cases r
  case portA => exact Devices.inv_via h (Via.inv_pulseCa2 hv)
  case t1CounterLow => exact Devices.inv_via h (Via.inv_clearFlags _ hv.srb hv.ier)
  case t2CounterLow => exact Devices.inv_via h (Via.inv_clearFlags _ hv.srb hv.ier)
  case shift => exact Devices.inv_via h (Via.inv_clearFlags _ (Nat.zero_le _) hv.ier)
  all_goals exact h

theorem viaWrite_inv (r : ViaReg) (b : Byte) {d : Devices} (h : d.Inv) : (viaWrite r b d).Inv := by
  have hv := h.via
  have hA : ∀ e : Devices, e.Inv → (e.writePortA b).Inv := by
    intro e he
    have h1 : Devices.Inv (Devices.sndUpdate { e with via := { e.via with ora := b } }) :=
      sndUpdate_inv (Devices.inv_via he (Via.inv_congr he.via he.via.srb rfl rfl))
    exact ⟨h1.via, Alg.inv_update _ h1.alg.zsh h1.alg.vec, h1.lists, h1.psg⟩
  cases r
  case portB =>
    have h1 : Devices.Inv (Devices.sndUpdate { d with via := { d.via with orb := b } }) :=
      sndUpdate_inv (Devices.inv_via h (Via.inv_congr hv hv.srb rfl rfl))
    exact ⟨Via.inv_pulseCb2 h1.via, Alg.inv_update _ h1.alg.zsh h1.alg.vec, h1.lists, h1.psg⟩
  case portA => exact hA _ (Devices.inv_via h (Via.inv_pulseCa2 hv))
  case portANoHandshake => exact hA _ h
  case t1CounterHigh => exact Devices.inv_via h (Via.inv_clearFlags _ hv.srb hv.ier)
  case t2CounterHigh => exact Devices.inv_via h (Via.inv_clearFlags _ hv.srb hv.ier)
  case shift => exact Devices.inv_via h (Via.inv_clearFlags _ (Nat.zero_le _) hv.ier)
  case ifr => exact Devices.inv_via h (Via.inv_clearFlags _ hv.srb hv.ier)
  case ier => exact Devices.inv_via h (Via.inv_writeIer b hv)
  all_goals exact Devices.inv_via h (Via.inv_congr hv hv.srb rfl rfl)

theorem deviceCycle_inv (vh : Nat) {d : Devices} (h : d.Inv) : (deviceCycle vh d).Inv := by
  have ha := algStep_inv vh (d := { d with via := d.via.halfStep1 }) h.alg h.lists
  exact ⟨Via.inv_halfStep2 (Via.inv_halfStep1 h.via), ha.1, ha.2, h.psg⟩

theorem deviceCycles_inv (vh : Nat) : ∀ (n : Nat) {d : Devices}, d.Inv → (deviceCycles vh n d).Inv
  | 0, _, h => h
  | n + 1, _, h => deviceCycles_inv vh n (deviceCycle_inv vh h)

@[simp] theorem deviceCycles_psg (vh : Nat) : ∀ (n : Nat) (d : Devices), (deviceCycles vh n d).psg = d.psg
  | 0, _ => rfl
  | n + 1, d => (deviceCycles_psg vh n (deviceCycle vh d)).trans rfl

theorem Devices.inv_swap {d : Devices} (h : d.Inv) : Devices.Inv { d with lists := d.lists.swap } :=
  ⟨h.via, h.alg, Lists.inv_swap h.lists, h.psg⟩

end Sys2Proof.Machine
end

