-- ==== Sys2Proof/Laws/Flags.lean ====
section
/-! SUPPORT. One flag written, every flag read: the lemmas that let no later proof unfold the bits of CC. -/

namespace Sys2Proof.Machine

/-- Reading a flag after a write of one. -/
@[simp] theorem getFlag_setFlag (fl g : Flag) (b : Bool) (cc : Byte) :
    getFlag fl (setFlag g b cc) = if fl = g then b else getFlag fl cc := by
  cases b <;> cases fl <;> cases g <;>
    simp [getFlag, setFlag, Flag.bit]

/-- Two CC bytes with the same eight flags are one byte. -/
theorem cc_ext {c d : Byte} (h : ∀ fl : Flag, getFlag fl c = getFlag fl d) : c = d := by
  apply BitVec.eq_of_getLsbD_eq
  intro i hi
  have hc := h .c
  have hv := h .v
  have hz := h .z
  have hn := h .n
  have hi4 := h .i
  have hh := h .h
  have hf := h .f
  have he := h .e
  simp only [getFlag, Flag.bit] at *
  match i, hi with
  | 0, _ => exact hc
  | 1, _ => exact hv
  | 2, _ => exact hz
  | 3, _ => exact hn
  | 4, _ => exact hi4
  | 5, _ => exact hh
  | 6, _ => exact hf
  | 7, _ => exact he

@[simp] theorem getFlag_nz8 (fl : Flag) (r cc : Byte) :
    getFlag fl (nz8 r cc) = if fl = .z then decide (r = 0) else if fl = .n then r.getLsbD 7 else getFlag fl cc := by
  simp [nz8]

@[simp] theorem getFlag_nz16 (fl : Flag) (r : Word) (cc : Byte) :
    getFlag fl (nz16 r cc) = if fl = .z then decide (r = 0) else if fl = .n then r.getLsbD 15 else getFlag fl cc := by
  simp [nz16]

@[simp] theorem getFlag_moveFlags8 (fl : Flag) (m cc : Byte) :
    getFlag fl (moveFlags8 m cc)
      = if fl = .v then false else if fl = .z then decide (m = 0) else if fl = .n then m.getLsbD 7 else getFlag fl cc := by
  simp [moveFlags8]

@[simp] theorem getFlag_moveFlags16 (fl : Flag) (m : Word) (cc : Byte) :
    getFlag fl (moveFlags16 m cc)
      = if fl = .v then false else if fl = .z then decide (m = 0) else if fl = .n then m.getLsbD 15
        else getFlag fl cc := by
  simp [moveFlags16]

/-! ### The flag computations in numbers -/

/-- The overflow formula of an addition is a change of sign (`41_arith_logic8.md` R220). -/
theorem overflow_add {w : Nat} (a m r : BitVec (w + 1)) :
    ((a ^^^ r) &&& (m ^^^ r)).getLsbD w = ((a.msb == m.msb) && (a.msb != r.msb)) := by
  simp only [BitVec.getLsbD_and, BitVec.getLsbD_xor, BitVec.msb_eq_getLsbD_last, Nat.add_sub_cancel]
  cases a.getLsbD w <;> cases m.getLsbD w <;> cases r.getLsbD w <;> rfl

/-- The overflow formula of a subtraction is a change of sign (`41_arith_logic8.md` R221). -/
theorem overflow_sub {w : Nat} (a m r : BitVec (w + 1)) :
    ((a ^^^ m) &&& (a ^^^ r)).getLsbD w = ((a.msb != m.msb) && (a.msb != r.msb)) := by
  simp only [BitVec.getLsbD_and, BitVec.getLsbD_xor, BitVec.msb_eq_getLsbD_last, Nat.add_sub_cancel]

theorem add8_toNat (a m : Byte) (c : Bool) (cc : Byte) :
    (add8 a m c cc).1.toNat = (a.toNat + m.toNat + c.toNat) % 256 := by simp [add8]

/-- Every flag after `Add8`. -/
theorem getFlag_add8 (a m : Byte) (c : Bool) (cc : Byte) (fl : Flag) :
    getFlag fl (add8 a m c cc).2 = (match fl with
      | .c => decide (a.toNat + m.toNat + c.toNat > 255)
      | .h => decide (a.toNat % 16 + m.toNat % 16 + c.toNat > 15)
      | .v => ((a.msb == m.msb) && (a.msb != (add8 a m c cc).1.msb))
      | .n => (add8 a m c cc).1.getLsbD 7
      | .z => decide ((add8 a m c cc).1 = 0)
      | _ => getFlag fl cc) := by
  cases fl <;>
    simp [-BitVec.getLsbD_eq_getElem, add8, -BitVec.getLsbD_and, -BitVec.getLsbD_xor, overflow_add, -beq_iff_eq]

theorem sub8_toNat (a m : Byte) (c h : Bool) (cc : Byte) :
    (sub8 a m c h cc).1.toNat = (a.toNat + 512 - m.toNat - c.toNat) % 256 := by
  have := a.isLt
  have := m.isLt
  have := Bool.toNat_lt c
  simp [sub8, BitVec.toNat_ofInt]
  omega

/-- Every flag after `Sub8`; H is the draw. -/
theorem getFlag_sub8 (a m : Byte) (c h : Bool) (cc : Byte) (fl : Flag) :
    getFlag fl (sub8 a m c h cc).2 = (match fl with
      | .c => decide (a.toNat < m.toNat + c.toNat)
      | .h => h
      | .v => ((a.msb != m.msb) && (a.msb != (sub8 a m c h cc).1.msb))
      | .n => (sub8 a m c h cc).1.getLsbD 7
      | .z => decide ((sub8 a m c h cc).1 = 0)
      | _ => getFlag fl cc) := by
  cases fl <;>
    simp [-BitVec.getLsbD_eq_getElem, sub8, -BitVec.getLsbD_and, -BitVec.getLsbD_xor, overflow_sub, -beq_iff_eq]
  omega

/-- A subtraction without borrow is the difference of the bytes. -/
theorem sub8_noBorrow (a m : Byte) (h : Bool) (cc : Byte) : (sub8 a m false h cc).1 = a - m := by
  have := a.isLt
  have := m.isLt
  apply BitVec.eq_of_toNat_eq
  rw [sub8_toNat]
  simp [BitVec.toNat_sub]
  omega

theorem add16_toNat (a m : Word) (cc : Byte) : (add16 a m cc).1.toNat = (a.toNat + m.toNat) % 65536 := by simp [add16]

theorem sub16_fst (a m : Word) (cc : Byte) : (sub16 a m cc).1 = a - m := by
  have := a.isLt
  have := m.isLt
  apply BitVec.eq_of_toNat_eq
  simp [sub16, BitVec.toNat_sub, BitVec.toNat_ofInt]
  omega

/-- Every flag after `Add16`. -/
theorem getFlag_add16 (a m : Word) (cc : Byte) (fl : Flag) :
    getFlag fl (add16 a m cc).2 = (match fl with
      | .c => decide (a.toNat + m.toNat > 65535)
      | .v => ((a.msb == m.msb) && (a.msb != (add16 a m cc).1.msb))
      | .n => (add16 a m cc).1.getLsbD 15
      | .z => decide ((add16 a m cc).1 = 0)
      | _ => getFlag fl cc) := by
  cases fl <;>
    simp [-BitVec.getLsbD_eq_getElem, add16, -BitVec.getLsbD_and, -BitVec.getLsbD_xor, overflow_add, -beq_iff_eq]

/-- Every flag after `Sub16`. -/
theorem getFlag_sub16 (a m : Word) (cc : Byte) (fl : Flag) :
    getFlag fl (sub16 a m cc).2 = (match fl with
      | .c => decide (a.toNat < m.toNat)
      | .v => ((a.msb != m.msb) && (a.msb != (sub16 a m cc).1.msb))
      | .n => (sub16 a m cc).1.getLsbD 15
      | .z => decide ((sub16 a m cc).1 = 0)
      | _ => getFlag fl cc) := by
  cases fl <;>
    simp [-BitVec.getLsbD_eq_getElem, sub16, -BitVec.getLsbD_and, -BitVec.getLsbD_xor, overflow_sub, -beq_iff_eq]

/-- A difference is zero where the words are equal. -/
theorem sub_eq_zero_iff {w : Nat} (a m : BitVec w) : a - m = 0 ↔ a = m := by
  constructor
  · intro h
    have := congrArg (· + m) h
    simpa [BitVec.sub_add_cancel] using this
  · rintro rfl
    exact BitVec.sub_self a

end Sys2Proof.Machine
end

