-- ==== Sys2Proof/Laws/Interrupt.lean ====
section
/-! SUPPORT. Everything stacking a frame, taking an interrupt and returning from one can do. -/

namespace Sys2Proof.Machine

/-- Pushing bytes on S, in the terms of the frame predicates. -/
theorem pushBytes_stacksFrame (bs : List Byte) (s : State) (hl : bs.length ≤ 1024) :
    stacksFrame bs s (pushBytes .hw bs s) := by
  have hs : (pushBytes .hw bs s).cpu.s = s.cpu.s - BitVec.ofNat 16 bs.length := pushBytes_getSp .hw bs s
  refine ⟨hs, ?_, ?_, ?_⟩
  · rw [hs]; exact pushBytes_stores .hw bs s hl
  · rw [hs]; exact pushBytes_keeps .hw bs s
  · intro h; rw [hs] at h; exact pushBytes_dev .hw bs s h

theorem pushBytes_keepsRegisters (bs : List Byte) (s : State) : keepsRegisters [.s] s (pushBytes .hw bs s) := by
  have := pushBytes_cpu .hw bs s
  intro q hq
  cases q <;> simp_all [State.getRegister, State.setSp, Cpu.d]

theorem pushBytes_cc (bs : List Byte) (s : State) : (pushBytes .hw bs s).cpu.cc = s.cpu.cc := by
  simp [pushBytes_cpu .hw bs s, State.setSp]

theorem pushBytes_wait (bs : List Byte) (s : State) : (pushBytes .hw bs s).cpu.wait = s.cpu.wait := by
  simp [pushBytes_cpu .hw bs s, State.setSp]

/-- A bus write changes no cell outside RAM. -/
theorem writeByte_get (a : Word) (v : Byte) (s : State) (k : Nat) (hk : isRamCell k = false) :
    (writeByte a v s).mem.get k = s.mem.get k := by
  rw [writeByte_mem]
  split
  · rename_i i _
    apply Memory.get_set_ne
    rintro rfl
    rw [isRamCell_index _ i.isLt] at hk
    exact absurd hk (by decide)
  · rfl

theorem pushBytes_get (p : StackPtr) (bs : List Byte) (s : State) (k : Nat) (hk : isRamCell k = false) :
    (pushBytes p bs s).mem.get k = s.mem.get k := by
  induction bs with
  | nil => rfl
  | cons b bs ih => rw [← ih]; simp only [pushBytes, push8, writeByte_get _ _ _ k hk, setSp_mem]

theorem vectorWord_congr {s t : State} (a : Word) (h : 0xE000 ≤ a.toNat)
    (hm : ∀ k, isRamCell k = false → t.mem.get k = s.mem.get k) : t.vectorWord a = s.vectorWord a := by
  have hc : ∀ k, 0xE000 ≤ k → isRamCell k = false := by
    intro k hk
    have : ¬ k < Config.ramBase + 1024 := by simp only [Config.ramBase]; omega
    simp [isRamCell, this]
  simp only [State.vectorWord, hm _ (hc _ h), hm _ (hc (a.toNat + 1) (by omega))]

/-- The stacked state depends on memory, the devices, the parameters and S alone. -/
theorem stacksFrame_congr {bs : List Byte} {s s' t t' : State} (h : stacksFrame bs s' t') (hs : s'.cpu.s = s.cpu.s)
    (hm : s'.mem = s.mem) (hd : s'.dev = s.dev) (hp : s'.params = s.params) (ht : t.cpu.s = t'.cpu.s)
    (htm : t.mem = t'.mem) (htd : t.dev = t'.dev) (htp : t.params = t'.params) : stacksFrame bs s t := by
  obtain ⟨h1, h2, h3, h4⟩ := h
  refine ⟨by rw [ht, h1, hs], ?_, ?_, ?_⟩
  · rw [ht]; intro k hk hr; rw [peek_congr htm htp]; exact h2 k hk hr
  · rw [ht]; intro a ha
    exact (peek_congr htm htp a).trans ((h3 a ha).trans (peek_congr hm hp a))
  · rw [ht]; intro h; rw [htd, h4 h, hd]

theorem stackEntire_eq (s : State) : stackEntire s = pushBytes .hw s.cpu.entireFrame (s.writeFlag .e true) := by
  unfold stackEntire
  rw [pushList_eq]
  rfl

theorem stackShort_eq (s : State) : stackShort s = pushBytes .hw s.cpu.shortFrame (s.writeFlag .e false) := by
  unfold stackShort
  rw [pushList_eq]
  rfl

/-- A word read from two bytes of the ROM. -/
theorem readWord_rom (a : Word) (s : State) (h : 0xE000 ≤ a.toNat) (h' : a.toNat < 0xFFFF) :
    readWord a s = (s.vectorWord a, s) := by
  have ha : ∀ b : Word, 0xE000 ≤ b.toNat → target b = .rom b.toNat := by
    intro b hb
    have : b.extractLsb' 13 3 = 0b111 := by
      apply BitVec.eq_of_toNat_eq
      have := b.isLt
      simp [BitVec.extractLsb'_toNat, Nat.shiftRight_eq_div_pow]
      omega
    simp [target, this]
  have hn : (a + 1).toNat = a.toNat + 1 := by
    rw [BitVec.toNat_add, show (1 : Word).toNat = 1 from rfl]
    omega
  have h1 := ha a h
  have h2 := ha (a + 1) (by omega)
  simp only [readWord, readByte, h1, h2, hn]
  rfl

/-- A read does not depend on the stack pointers, nor touch them. -/
theorem readByte_setSp (p : StackPtr) (v a : Word) (s : State) :
    readByte a (s.setSp p v) = ((readByte a s).1, (readByte a s).2.setSp p v) := by
  unfold readByte
  cases p <;> cases target a <;> rfl

/-- A 16-bit pull is the read of a word at the stack pointer, which then moves up by 2. -/
theorem pull16_eq (p : StackPtr) (s : State) :
    pull16 p s = ((readWord (s.getSp p) s).1, (readWord (s.getSp p) s).2.setSp p (s.getSp p + 2)) := by
  have hg : ∀ a, (readByte a s).2.getSp p = s.getSp p := by intro a; cases p <;> simp [State.getSp]
  have hg2 : ∀ a b, (readByte a (readByte b s).2).2.getSp p = s.getSp p := by
    intro a b; cases p <;> simp [State.getSp]
  have e : s.getSp p + 1 + 1 = s.getSp p + 2 := by rw [BitVec.add_assoc]; rfl
  simp only [pull16, pull8, getSp_setSp, readByte_setSp, hg, readWord, setSp_setSp, e]

end Sys2Proof.Machine
end

