-- ==== Sys2Proof/Laws/Invariant.lean ====
section
/-! SUPPORT. The parts of a turn of the system loop, each with what it keeps: what a Step of the CPU keeps, what the
devices, the frame counter and the host's inputs keep; the two properties of the whole machine that bus accesses keep. -/

namespace Sys2Proof.Machine

/-! ### A Step of the CPU -/

theorem BusClosed.fetch8 {P : State → Prop} (C : BusClosed P) {s : State} (h : P s) : P (Machine.fetch8 s).2 :=
  C.setCpu _ (C.read _ _ h)

theorem BusClosed.runInstruction {P : State → Prop} (C : BusClosed P) {s t : State} (h : P s)
    (ht : Machine.runInstruction s = .next t) : P t := by
  have hd := decodeFrom_keeps (next := Machine.fetch8) (P := P) (fun _ h => C.fetch8 h) h
  unfold Machine.runInstruction at ht
  split at ht
  · rename_i i s1 he
    rw [he] at hd
    exact C.exec i hd ht
  · cases ht

theorem BusClosed.sampleFirq {P : State → Prop} (C : BusClosed P) (line : Bool) {s : State} (h : P s) :
    P (Machine.sampleFirq line s) := by
  unfold Machine.sampleFirq endSync
  repeat' split
  all_goals first | exact h | exact C.setCpu _ h | exact C.takeTrap _ h

theorem BusClosed.sampleIrq {P : State → Prop} (C : BusClosed P) (line : Bool) {s : State} (h : P s) :
    P (Machine.sampleIrq line s) := by
  unfold Machine.sampleIrq endSync
  repeat' split
  all_goals first | exact h | exact C.setCpu _ h | exact C.takeTrap _ h

/-- What bus accesses keep, a Step keeps, whatever the lines. -/
theorem BusClosed.cpuStep {P : State → Prop} (C : BusClosed P) (irq firq : Bool) {s t : State} (h : P s)
    (ht : Machine.cpuStep irq firq s = .next t) : P t := by
  have h1 := C.sampleIrq irq (C.sampleFirq firq (C.setReport 0 h))
  simp only [Machine.cpuStep] at ht
  split at ht
  · exact C.runInstruction h1 ht
  · cases ht
    exact C.addCycles _ h1

/-- A line that is low, or masked while nothing waits, changes nothing. -/
theorem sampleFirq_quiet {line : Bool} {s : State} (hw : s.cpu.wait = .normal)
    (h : line = true → getFlag .f s.cpu.cc = true) : Machine.sampleFirq line s = s := by
  cases line <;> simp_all [Machine.sampleFirq, endSync]

theorem sampleIrq_quiet {line : Bool} {s : State} (hw : s.cpu.wait = .normal)
    (h : line = true → getFlag .i s.cpu.cc = true) : Machine.sampleIrq line s = s := by
  cases line <;> simp_all [Machine.sampleIrq, endSync]

/-- A Step that nothing diverts runs the instruction at PC. -/
theorem cpuStep_quiet {irq firq : Bool} {s : State} (hw : s.cpu.wait = .normal)
    (hi : irq = true → getFlag .i s.cpu.cc = true) (hf : firq = true → getFlag .f s.cpu.cc = true) :
    Machine.cpuStep irq firq s = Machine.runInstruction { s with report := 0 } := by
  simp only [Machine.cpuStep]
  rw [sampleFirq_quiet (s := { s with report := 0 }) hw hf, sampleIrq_quiet (s := { s with report := 0 }) hw hi,
    if_pos hw]

/-! ### The rest of a turn -/

/-- A turn that answers a next state: either no frame runs and nothing happens but the start of an empty one, or one Step
of the CPU and what follows it. -/
theorem turn_next {s t : State} (h : turn s = .next t) :
    let s1 := if s.host.budget ≤ 0 ∧ s.host.mode = .running then beginFrame s else s
    (s1.host.budget ≤ 0 ∧ t = s1) ∨
      (0 < s1.host.budget ∧ ∃ u, cpuStep s1.irqLine s1.firqLine s1.dropFirq = .next u ∧
        t = { afterStep u with host := { (afterStep u).host with
          budget := (afterStep u).host.budget - (afterStep u).report } }) := by
  intro s1
  change (if s1.host.budget ≤ 0 then .next s1 else frameTurn s1) = .next t at h
  clear_value s1
  by_cases hb : s1.host.budget ≤ 0
  · rw [if_pos hb] at h
    cases h
    exact .inl ⟨hb, rfl⟩
  · rw [if_neg hb] at h
    refine .inr ⟨by omega, ?_⟩
    unfold frameTurn runStep at h
    cases hu : cpuStep s1.irqLine s1.firqLine s1.dropFirq with
    | next u =>
      rw [hu] at h
      cases h
      exact ⟨u, rfl, rfl⟩
    | fault r => rw [hu] at h; cases h
    | refused r => rw [hu] at h; cases h

@[simp] theorem frameCount_mem (n : Nat) (s : State) : (frameCount n s).mem = s.mem := by
  unfold frameCount frameBoundary; simp only []; split <;> rfl
@[simp] theorem frameCount_params (n : Nat) (s : State) : (frameCount n s).params = s.params := by
  unfold frameCount frameBoundary; simp only []; split <;> rfl
@[simp] theorem frameCount_cpu (n : Nat) (s : State) : (frameCount n s).cpu = s.cpu := by
  unfold frameCount frameBoundary; simp only []; split <;> rfl
@[simp] theorem frameCount_report (n : Nat) (s : State) : (frameCount n s).report = s.report := by
  unfold frameCount frameBoundary; simp only []; split <;> rfl
@[simp] theorem frameCount_draws (n : Nat) (s : State) : (frameCount n s).draws = s.draws := by
  unfold frameCount frameBoundary; simp only []; split <;> rfl

@[simp] theorem afterStep_mem (s : State) : (afterStep s).mem = s.mem := by simp [afterStep, runDevices, State.setDev]
@[simp] theorem afterStep_params (s : State) : (afterStep s).params = s.params := by
  simp [afterStep, runDevices, State.setDev]
@[simp] theorem afterStep_cpu (s : State) : (afterStep s).cpu = s.cpu := by simp [afterStep, runDevices, State.setDev]
@[simp] theorem afterStep_report (s : State) : (afterStep s).report = s.report := by
  simp [afterStep, runDevices, State.setDev]
@[simp] theorem afterStep_draws (s : State) : (afterStep s).draws = s.draws := by
  simp [afterStep, runDevices, State.setDev]
@[simp] theorem afterStep_budget (s : State) : (afterStep s).host.budget = s.host.budget := by
  unfold afterStep frameCount frameBoundary; simp only []; split <;> rfl

theorem afterStep_devInv {s : State} (h : s.dev.Inv) : (afterStep s).dev.Inv := by
  have h1 := deviceCycles_inv s.params.vectorHash s.report h
  unfold afterStep frameCount frameBoundary
  simp only []
  split
  · exact Devices.inv_swap h1
  · exact h1

@[simp] theorem beginFrame_mem (s : State) : (beginFrame s).mem = s.mem := by
  unfold beginFrame applyInputs State.psgGenerate; simp only []; split <;> rfl
@[simp] theorem beginFrame_params (s : State) : (beginFrame s).params = s.params := by
  unfold beginFrame applyInputs State.psgGenerate; simp only []; split <;> rfl
@[simp] theorem beginFrame_cpu (s : State) : (beginFrame s).cpu = s.cpu := by
  unfold beginFrame applyInputs State.psgGenerate; simp only []; split <;> rfl
@[simp] theorem beginFrame_fcycles (s : State) : (beginFrame s).fcycles = s.fcycles := by
  unfold beginFrame applyInputs State.psgGenerate; simp only []; split <;> rfl
@[simp] theorem beginFrame_mode (s : State) : (beginFrame s).host.mode = s.host.mode := by
  unfold beginFrame applyInputs State.psgGenerate; simp only []; split <;> rfl
@[simp] theorem beginFrame_budget (s : State) : (beginFrame s).host.budget = s.params.frameBudget := by
  unfold beginFrame applyInputs State.psgGenerate; simp only []; split <;> rfl

theorem foldl_applyKey_inv (keymap : List (Nat × InputLine)) (keys : List KeyEvent) :
    ∀ {d : Devices}, d.Inv → (keys.foldl (applyKey keymap) d).Inv := by
  induction keys with
  | nil => exact fun h => h
  | cons e keys ih => exact fun h => ih (applyKey_inv keymap e h)

theorem beginFrame_devInv {s : State} (h : s.dev.Inv) : (beginFrame s).dev.Inv := by
  unfold beginFrame applyInputs State.psgGenerate
  simp only []
  split
  · exact h
  · rename_i inp rest _
    have h1 := foldl_applyKey_inv s.params.keymap inp.keys h
    exact ⟨h1.via, h1.alg, h1.lists, Psg.inv_generate _ h1.psg⟩

/-! ### Properties of the whole machine that bus accesses keep -/

theorem readByte_devInv (a : Word) {s : State} (h : s.dev.Inv) : (readByte a s).2.dev.Inv := by
  unfold readByte
  split
  all_goals first | exact h | exact viaRead_inv _ h

theorem writeByte_devInv (a : Word) (v : Byte) {s : State} (h : s.dev.Inv) : (writeByte a v s).dev.Inv := by
  rw [writeByte_dev]
  split
  · exact viaWrite_inv _ _ h
  · exact h

theorem writeByte_memWf (a : Word) (v : Byte) {s : State} (h : s.mem.wf = true) : (writeByte a v s).mem.wf = true := by
  rw [writeByte_mem]
  split
  · rename_i i _
    exact Memory.wf_set _ _ _ h (isCell_of_isRamCell (isRamCell_index _ i.isLt))
  · exact h

/-- The invariant is kept by bus accesses. -/
theorem inv_busClosed : BusClosed State.Inv where
  congr := fun s t hm hd _ _ _ h => ⟨by rw [hm]; exact h.mem, by rw [hd]; exact h.dev⟩
  read := fun a s h => ⟨by rw [readByte_mem]; exact h.mem, readByte_devInv a h.dev⟩
  write := fun a v s h => ⟨writeByte_memWf a v h.mem, writeByte_devInv a v h.dev⟩

/-- ROM, cartridge and parameters as in `s0`. -/
def keepsImages (s0 t : State) : Prop :=
  (∀ k, isRamCell k = false → t.mem.get k = s0.mem.get k) ∧ t.params = s0.params

/-- Bus accesses keep ROM, cartridge and parameters. -/
theorem keepsImages_busClosed (s0 : State) : BusClosed (keepsImages s0) where
  congr := fun s t hm _ hp _ _ h => ⟨by rw [hm]; exact h.1, by rw [hp]; exact h.2⟩
  read := fun a s h => ⟨by rw [readByte_mem]; exact h.1, by rw [readByte_params]; exact h.2⟩
  write := by
    intro a v s h
    refine ⟨fun k hk => ?_, by rw [writeByte_params]; exact h.2⟩
    rw [writeByte_mem]
    split
    · rename_i i _
      rw [Memory.get_set_ne]
      · exact h.1 k hk
      · intro e
        rw [e, isRamCell_index _ i.isLt] at hk
        cases hk
    · exact h.1 k hk

end Sys2Proof.Machine
end

