-- ==== Sys2Proof/Tests/Slice0.lean ====
section
/-! SUPPORT. Small tests of the model. Expected values come from the spec: its test vectors (`95_test_vectors.md`), its
encoding tables, or hand calculation from the rule named. The last part shows, for every obligation with hypotheses, a
concrete case that meets them. -/

namespace Sys2Proof.Tests

set_option Elab.async false

open Sys2Proof Sys2Proof.Machine

/-! ### Helpers -/

/-- A register put to a value. -/
def put (s : State) (e : RegName × Word) : State :=
  match e.1 with
  | .a => s.setA (loByte e.2)
  | .b => s.setB (loByte e.2)
  | .d => s.setD e.2
  | .x => s.setX e.2
  | .y => s.setY e.2
  | .u => s.setU e.2
  | .s => s.setS e.2
  | .pc => s.setPc e.2
  | .dp => s.setDp (loByte e.2)
  | .cc => s.setCc (loByte e.2)

/-- The start of a vector: PC = 0x1000, CC = 0, the listed registers and bytes, all else as after reset. -/
def start (regs : List (RegName × Word)) (bytes : List (Word × List Byte)) : State :=
  let s := bytes.foldl (fun s b => storeCells b.1 b.2 s) ((State.reset.setPc 0x1000).setCc 0)
  regs.foldl put s

/-- The step went on and gives these registers, bytes and cycles. -/
def gives (regs : List (RegName × Word)) (bytes : List (Word × Byte)) (cycles : Nat)
    (o : Host.Outcome State Fault Refusal) : Bool :=
  match o with
  | .next t => regs.all (fun e => t.getRegister e.1 == e.2) && bytes.all (fun e => t.peek e.1 == some e.2)
      && t.report == cycles
  | .fault _ | .refused _ => false

/-- The same with the wait flag. -/
def givesWait (w : Wait) (regs : List (RegName × Word)) (bytes : List (Word × Byte)) (cycles : Nat)
    (o : Host.Outcome State Fault Refusal) : Bool :=
  gives regs bytes cycles o && (match o with
    | .next t => t.cpu.wait == w
    | .fault _ | .refused _ => false)

/-- The fault of an outcome. -/
def faultOf (o : Host.Outcome State Fault Refusal) : Option Fault :=
  match o with
  | .fault r => some r
  | .next _ | .refused _ => none

/-- The bytes decode to the instruction, with nothing left. -/
def decodesTo (bytes : List Byte) (j : Instr) : Bool :=
  match decode bytes with
  | .ok (i, rest) => i == j && rest.isEmpty
  | .error _ => false

/-! ### Well-formedness -/

theorem test_wf_lda_is_defined : Instr.wf (.undefined .p1 0x86) = false := by decide
theorem test_wf_lbrn_is_defined : Instr.wf (.undefined .p2 0x21) = false := by decide
theorem test_wf_cmps_is_defined : Instr.wf (.undefined .p3 0x8C) = false := by decide
theorem test_wf_prefix_is_no_opcode : Instr.wf (.undefined .p1 0x10) = false := by decide
theorem test_wf_undefined : Instr.wf (.undefined .p2 0x86) = true := by decide

/-! ### Decoding -/

/-- Words of this family, from `30_encoding.md` R140-R142 with operands of R121. -/
theorem test_decode_single_operand_1 : [
    decodesTo [0x00, 0xA5] (.neg (.dir 0xA5)),
    decodesTo [0x03, 0xA5] (.com (.dir 0xA5)),
    decodesTo [0x04, 0xA5] (.lsr (.dir 0xA5)),
    decodesTo [0x06, 0xA5] (.ror (.dir 0xA5)),
    decodesTo [0x07, 0xA5] (.asr (.dir 0xA5)),
    decodesTo [0x08, 0xA5] (.asl (.dir 0xA5)),
    decodesTo [0x09, 0xA5] (.rol (.dir 0xA5)),
    decodesTo [0x0A, 0xA5] (.dec (.dir 0xA5)),
    decodesTo [0x0C, 0xA5] (.inc (.dir 0xA5)),
    decodesTo [0x0D, 0xA5] (.tst (.dir 0xA5)),
    decodesTo [0x0F, 0xA5] (.clr (.dir 0xA5)),
    decodesTo [0x40] (.nega)].all id = true := by decide +kernel

/-- Words of this family, from `30_encoding.md` R140-R142 with operands of R121. -/
theorem test_decode_single_operand_2 : [
    decodesTo [0x43] (.coma),
    decodesTo [0x44] (.lsra),
    decodesTo [0x46] (.rora),
    decodesTo [0x47] (.asra),
    decodesTo [0x48] (.asla),
    decodesTo [0x49] (.rola),
    decodesTo [0x4A] (.deca),
    decodesTo [0x4C] (.inca),
    decodesTo [0x4D] (.tsta),
    decodesTo [0x4F] (.clra),
    decodesTo [0x50] (.negb),
    decodesTo [0x53] (.comb)].all id = true := by decide +kernel

/-- Words of this family, from `30_encoding.md` R140-R142 with operands of R121. -/
theorem test_decode_single_operand_3 : [
    decodesTo [0x54] (.lsrb),
    decodesTo [0x56] (.rorb),
    decodesTo [0x57] (.asrb),
    decodesTo [0x58] (.aslb),
    decodesTo [0x59] (.rolb),
    decodesTo [0x5A] (.decb),
    decodesTo [0x5C] (.incb),
    decodesTo [0x5D] (.tstb),
    decodesTo [0x5F] (.clrb)].all id = true := by decide +kernel

/-- Words of this family, from `30_encoding.md` R140-R142 with operands of R121. -/
theorem test_decode_calls_and_system_1 : [
    decodesTo [0x0E, 0xA5] (.jmp (.dir 0xA5)),
    decodesTo [0x13] (.sync),
    decodesTo [0x17, 0x12, 0x34] (.lbsr 0x1234),
    decodesTo [0x39] (.rts),
    decodesTo [0x3B] (.rti),
    decodesTo [0x3C, 0xA5] (.cwai 0xA5),
    decodesTo [0x3F] (.swi),
    decodesTo [0x8D, 0xA5] (.bsr 0xA5),
    decodesTo [0x9D, 0xA5] (.jsr (.dir 0xA5)),
    decodesTo [0x10, 0x3F] (.swi2),
    decodesTo [0x11, 0x3F] (.swi3)].all id = true := by decide +kernel

/-- Words of this family, from `30_encoding.md` R140-R142 with operands of R121. -/
theorem test_decode_arith16_1 : [
    decodesTo [0x12] (.nop),
    decodesTo [0x19] (.daa),
    decodesTo [0x1A, 0xA5] (.orcc 0xA5),
    decodesTo [0x1C, 0xA5] (.andcc 0xA5),
    decodesTo [0x1D] (.sex),
    decodesTo [0x3A] (.abx),
    decodesTo [0x3D] (.mul),
    decodesTo [0x83, 0x12, 0x34] (.subd (.imm 0x1234)),
    decodesTo [0x8C, 0x12, 0x34] (.cmpx (.imm 0x1234)),
    decodesTo [0xC3, 0x12, 0x34] (.addd (.imm 0x1234)),
    decodesTo [0x10, 0x83, 0x12, 0x34] (.cmpd (.imm 0x1234)),
    decodesTo [0x10, 0x8C, 0x12, 0x34] (.cmpy (.imm 0x1234))].all id = true := by decide +kernel

/-- Words of this family, from `30_encoding.md` R140-R142 with operands of R121. -/
theorem test_decode_arith16_2 : [
    decodesTo [0x11, 0x83, 0x12, 0x34] (.cmpu (.imm 0x1234)),
    decodesTo [0x11, 0x8C, 0x12, 0x34] (.cmps (.imm 0x1234))].all id = true := by decide +kernel

/-- Words of this family, from `30_encoding.md` R140-R142 with operands of R121. -/
theorem test_decode_long_branches_1 : [
    decodesTo [0x16, 0x12, 0x34] (.lbra 0x1234),
    decodesTo [0x10, 0x21, 0x12, 0x34] (.lbrn 0x1234),
    decodesTo [0x10, 0x22, 0x12, 0x34] (.lbhi 0x1234),
    decodesTo [0x10, 0x23, 0x12, 0x34] (.lbls 0x1234),
    decodesTo [0x10, 0x24, 0x12, 0x34] (.lbcc 0x1234),
    decodesTo [0x10, 0x25, 0x12, 0x34] (.lbcs 0x1234),
    decodesTo [0x10, 0x26, 0x12, 0x34] (.lbne 0x1234),
    decodesTo [0x10, 0x27, 0x12, 0x34] (.lbeq 0x1234),
    decodesTo [0x10, 0x28, 0x12, 0x34] (.lbvc 0x1234),
    decodesTo [0x10, 0x29, 0x12, 0x34] (.lbvs 0x1234),
    decodesTo [0x10, 0x2A, 0x12, 0x34] (.lbpl 0x1234),
    decodesTo [0x10, 0x2B, 0x12, 0x34] (.lbmi 0x1234)].all id = true := by decide +kernel

/-- Words of this family, from `30_encoding.md` R140-R142 with operands of R121. -/
theorem test_decode_long_branches_2 : [
    decodesTo [0x10, 0x2C, 0x12, 0x34] (.lbge 0x1234),
    decodesTo [0x10, 0x2D, 0x12, 0x34] (.lblt 0x1234),
    decodesTo [0x10, 0x2E, 0x12, 0x34] (.lbgt 0x1234),
    decodesTo [0x10, 0x2F, 0x12, 0x34] (.lble 0x1234)].all id = true := by decide +kernel

/-- Words of this family, from `30_encoding.md` R140-R142 with operands of R121. -/
theorem test_decode_addresses_transfers_stacks_1 : [
    decodesTo [0x1E, 0x8B] (.exg 8 11),
    decodesTo [0x1F, 0x8B] (.tfr 8 11),
    decodesTo [0x30, 0xB8, 0xA5] (.leax (.off8 .y 0xA5 true)),
    decodesTo [0x31, 0xB8, 0xA5] (.leay (.off8 .y 0xA5 true)),
    decodesTo [0x32, 0xB8, 0xA5] (.leas (.off8 .y 0xA5 true)),
    decodesTo [0x33, 0xB8, 0xA5] (.leau (.off8 .y 0xA5 true)),
    decodesTo [0x34, 0xA5] (.pshs 0xA5),
    decodesTo [0x35, 0xA5] (.puls 0xA5),
    decodesTo [0x36, 0xA5] (.pshu 0xA5),
    decodesTo [0x37, 0xA5] (.pulu 0xA5)].all id = true := by decide +kernel

/-- Words of this family, from `30_encoding.md` R140-R142 with operands of R121. -/
theorem test_decode_short_branches_1 : [
    decodesTo [0x20, 0xA5] (.bra 0xA5),
    decodesTo [0x21, 0xA5] (.brn 0xA5),
    decodesTo [0x22, 0xA5] (.bhi 0xA5),
    decodesTo [0x23, 0xA5] (.bls 0xA5),
    decodesTo [0x24, 0xA5] (.bcc 0xA5),
    decodesTo [0x25, 0xA5] (.bcs 0xA5),
    decodesTo [0x26, 0xA5] (.bne 0xA5),
    decodesTo [0x27, 0xA5] (.beq 0xA5),
    decodesTo [0x28, 0xA5] (.bvc 0xA5),
    decodesTo [0x29, 0xA5] (.bvs 0xA5),
    decodesTo [0x2A, 0xA5] (.bpl 0xA5),
    decodesTo [0x2B, 0xA5] (.bmi 0xA5)].all id = true := by decide +kernel

/-- Words of this family, from `30_encoding.md` R140-R142 with operands of R121. -/
theorem test_decode_short_branches_2 : [
    decodesTo [0x2C, 0xA5] (.bge 0xA5),
    decodesTo [0x2D, 0xA5] (.blt 0xA5),
    decodesTo [0x2E, 0xA5] (.bgt 0xA5),
    decodesTo [0x2F, 0xA5] (.ble 0xA5)].all id = true := by decide +kernel

/-- Words of this family, from `30_encoding.md` R140-R142 with operands of R121. -/
theorem test_decode_arith8_1 : [
    decodesTo [0x80, 0xA5] (.suba (.imm 0xA5)),
    decodesTo [0x81, 0xA5] (.cmpa (.imm 0xA5)),
    decodesTo [0x82, 0xA5] (.sbca (.imm 0xA5)),
    decodesTo [0x84, 0xA5] (.anda (.imm 0xA5)),
    decodesTo [0x85, 0xA5] (.bita (.imm 0xA5)),
    decodesTo [0x88, 0xA5] (.eora (.imm 0xA5)),
    decodesTo [0x89, 0xA5] (.adca (.imm 0xA5)),
    decodesTo [0x8A, 0xA5] (.ora (.imm 0xA5)),
    decodesTo [0x8B, 0xA5] (.adda (.imm 0xA5)),
    decodesTo [0xC0, 0xA5] (.subb (.imm 0xA5)),
    decodesTo [0xC1, 0xA5] (.cmpb (.imm 0xA5)),
    decodesTo [0xC2, 0xA5] (.sbcb (.imm 0xA5))].all id = true := by decide +kernel

/-- Words of this family, from `30_encoding.md` R140-R142 with operands of R121. -/
theorem test_decode_arith8_2 : [
    decodesTo [0xC4, 0xA5] (.andb (.imm 0xA5)),
    decodesTo [0xC5, 0xA5] (.bitb (.imm 0xA5)),
    decodesTo [0xC8, 0xA5] (.eorb (.imm 0xA5)),
    decodesTo [0xC9, 0xA5] (.adcb (.imm 0xA5)),
    decodesTo [0xCA, 0xA5] (.orb (.imm 0xA5)),
    decodesTo [0xCB, 0xA5] (.addb (.imm 0xA5))].all id = true := by decide +kernel

/-- Words of this family, from `30_encoding.md` R140-R142 with operands of R121. -/
theorem test_decode_loads_stores_1 : [
    decodesTo [0x86, 0xA5] (.lda (.imm 0xA5)),
    decodesTo [0x8E, 0x12, 0x34] (.ldx (.imm 0x1234)),
    decodesTo [0x97, 0xA5] (.sta (.dir 0xA5)),
    decodesTo [0x9F, 0xA5] (.stx (.dir 0xA5)),
    decodesTo [0xC6, 0xA5] (.ldb (.imm 0xA5)),
    decodesTo [0xCC, 0x12, 0x34] (.ldd (.imm 0x1234)),
    decodesTo [0xCE, 0x12, 0x34] (.ldu (.imm 0x1234)),
    decodesTo [0xD7, 0xA5] (.stb (.dir 0xA5)),
    decodesTo [0xDD, 0xA5] (.std (.dir 0xA5)),
    decodesTo [0xDF, 0xA5] (.stu (.dir 0xA5)),
    decodesTo [0x10, 0x8E, 0x12, 0x34] (.ldy (.imm 0x1234)),
    decodesTo [0x10, 0x9F, 0xA5] (.sty (.dir 0xA5))].all id = true := by decide +kernel

/-- Words of this family, from `30_encoding.md` R140-R142 with operands of R121. -/
theorem test_decode_loads_stores_2 : [
    decodesTo [0x10, 0xCE, 0x12, 0x34] (.lds (.imm 0x1234)),
    decodesTo [0x10, 0xDF, 0xA5] (.sts (.dir 0xA5))].all id = true := by decide +kernel

/-- Undefined opcodes, `44_system.md` R380: the byte after them is not consumed. -/
theorem test_decode_undefined : decode [0x10, 0x86, 0x01] = .ok (.undefined .p2 0x86, [0x01]) ∧
    decode [0x8F, 0x00] = .ok (.undefined .p1 0x8F, [0x00]) ∧
    decode [0x11, 0x11] = .ok (.undefined .p3 0x11, []) := by decide +kernel

/-- Every operand form of one mnemonic, `30_encoding.md` R140. -/
theorem test_decode_operand_forms : [
    decodesTo [0x86, 0xA5] (.lda (.imm 0xA5)),
    decodesTo [0x96, 0xA5] (.lda (.mem (.dir 0xA5))),
    decodesTo [0xA6, 0x84] (.lda (.mem (.idx (.zero .x false)))),
    decodesTo [0xB6, 0xA5, 0x5A] (.lda (.mem (.ext 0xA55A)))].all id = true := by decide +kernel

/-- The rows of the postbyte table, `30_encoding.md` R136, on LEAX. -/
theorem test_decode_postbytes : [
    decodesTo [0x30, 0x7F] (.leax (.off5 .s 0x1F)),
    decodesTo [0x30, 0xC0] (.leax (.postInc1 .u)),
    decodesTo [0x30, 0xB1] (.leax (.postInc2 .y true)),
    decodesTo [0x30, 0x82] (.leax (.preDec1 .x)),
    decodesTo [0x30, 0xF3] (.leax (.preDec2 .s true)),
    decodesTo [0x30, 0x94] (.leax (.zero .x true)),
    decodesTo [0x30, 0xE5] (.leax (.accB .s false)),
    decodesTo [0x30, 0xB6] (.leax (.accA .y true)),
    decodesTo [0x30, 0xC8, 0x80] (.leax (.off8 .u 0x80 false)),
    decodesTo [0x30, 0x99, 0x12, 0x34] (.leax (.off16 .x 0x1234 true)),
    decodesTo [0x30, 0x8B] (.leax (.accD .x false)),
    decodesTo [0x30, 0xFC, 0x05] (.leax (.pcr8 0x05 true)),
    decodesTo [0x30, 0xAD, 0x12, 0x34] (.leax (.pcr16 0x1234 false)),
    decodesTo [0x30, 0x9F, 0xC8, 0x10] (.leax (.extInd 0xC810))].all id = true := by decide +kernel

/-- A word of the opcode table: LBRN's row is 0x1021 (log 8). -/
theorem test_decode_table_word : decodeTableWord 16 0x1021 = some (.lbrn 0) ∧
    decodeTableWord 8 0x86 = some (.lda (.imm 0)) ∧ decodeTableWord 16 0x113F = some .swi3 := by decide +kernel

/-- A placed word is what the next step runs: LDA #0 after reset. -/
theorem test_with_fetch_word : gives [(.a, 0), (.pc, 2)] [] 2 (step (State.reset.withFetchWord 8 0x86)) = true := by
  decide +kernel

/-! ### One Step each -/

/-- One instruction each: lda, ldb, ldd, ldy, lds, ldx, lda_open_bus, ldu. The source of each row stands beside it. -/
theorem test_loads : [
    -- `95_test_vectors.md` V2
    gives [(.a, 0x80), (.cc, 0x09), (.pc, 0x1002)] [] 2 (cpuStep false false (start [(.cc, 0x03)] [(0x1000, [0x86,
      0x80])])),
    -- `95_test_vectors.md` V3
    gives [(.b, 0x7F), (.cc, 0x00), (.pc, 0x1002)] [] 4 (cpuStep false false (start [(.dp, 0xC8)] [(0x1000, [0xD6,
      0x20]), (0xC820, [0x7F])])),
    -- `95_test_vectors.md` V4
    gives [(.d, 0x8001), (.cc, 0x08), (.pc, 0x1003)] [] 6 (cpuStep false false (start [] [(0x1000, [0xFC, 0xC8,
      0x20]), (0xC820, [0x80, 0x01])])),
    -- `95_test_vectors.md` V6
    gives [(.y, 0xFFFF), (.cc, 0x08), (.pc, 0x1004)] [] 4 (cpuStep false false (start [] [(0x1000, [0x10, 0x8E,
      0xFF, 0xFF])])),
    -- `95_test_vectors.md` V7
    gives [(.s, 0x0000), (.cc, 0x04), (.pc, 0x1004)] [] 4 (cpuStep false false (start [] [(0x1000, [0x10, 0xCE,
      0x00, 0x00])])),
    -- `95_test_vectors.md` V9
    gives [(.x, 0xC900), (.cc, 0x08), (.pc, 0x1002)] [] 8 (cpuStep false false (start [(.x, 0xC830)] [(0x1000,
      [0xAE, 0x81]), (0xC830, [0xC9, 0x00])])),
    -- `95_test_vectors.md` V10
    gives [(.a, 0xFF), (.cc, 0x08), (.pc, 0x1003)] [] 5 (cpuStep false false (start [] [(0x1000, [0xB6, 0x80,
      0x00])])),
    -- Worked by hand from R166: D=1234 in memory
    gives [(.u, 0x1234), (.cc, 0x00), (.pc, 0x1003)] [] 3 (cpuStep false false (start [] [(0x1000, [0xCE, 0x12,
      0x34])]))].all id = true := by decide +kernel

/-- One instruction each: sta, stb, std, stx, sts, sty, stu. The source of each row stands beside it. -/
theorem test_stores : [
    -- `95_test_vectors.md` V14
    gives [(.cc, 0x09), (.pc, 0x1003)] [(0xC880, 0x80), (0xCC80, 0x80)] 5 (cpuStep false false (start [(.a, 0x80),
      (.cc, 0x07)] [(0x1000, [0xB7, 0xC8, 0x80])])),
    -- Worked by hand from R171
    gives [(.cc, 0x08), (.pc, 0x1002)] [(0xC820, 0x80)] 4 (cpuStep false false (start [(.b, 0x80), (.dp, 0xC8)]
      [(0x1000, [0xD7, 0x20])])),
    -- `95_test_vectors.md` V15
    gives [(.cc, 0x00), (.pc, 0x1003)] [(0xC8FF, 0x12), (0xC900, 0x34)] 6 (cpuStep false false (start [(.d,
      0x1234)] [(0x1000, [0xFD, 0xC8, 0xFF])])),
    -- `95_test_vectors.md` V18
    gives [(.x, 0xC842), (.cc, 0x08), (.pc, 0x1002)] [(0xC840, 0xC8), (0xC841, 0x42)] 8 (cpuStep false false (start
      [(.x, 0xC840)] [(0x1000, [0xAF, 0x81])])),
    -- `95_test_vectors.md` V19
    gives [(.cc, 0x08), (.pc, 0x1004)] [(0xC8B0, 0xCB), (0xC8B1, 0xF0)] 7 (cpuStep false false (start [(.s,
      0xCBF0)] [(0x1000, [0x10, 0xFF, 0xC8, 0xB0])])),
    -- Worked by hand from R174
    gives [(.cc, 0x00), (.pc, 0x1004)] [(0xC810, 0x12), (0xC811, 0x34)] 7 (cpuStep false false (start [(.y,
      0x1234)] [(0x1000, [0x10, 0xBF, 0xC8, 0x10])])),
    -- Worked by hand from R175
    gives [(.x, 0xC812), (.cc, 0x04), (.pc, 0x1002)] [(0xC810, 0x00), (0xC811, 0x00)] 8 (cpuStep false false (start
      [(.u, 0x0000), (.x, 0xC810)] [(0x1000, [0xEF, 0x81])]))].all id = true := by decide +kernel

/-- One instruction each: leax, leay, leas, leau, tfr, tfr_2, exg, exg_2. The source of each row stands beside it. -/
theorem test_addresses_transfers : [
    -- `95_test_vectors.md` V20
    gives [(.x, 0x0000), (.cc, 0x04), (.pc, 0x1002)] [] 5 (cpuStep false false (start [(.x, 0x0001)] [(0x1000,
      [0x30, 0x1F])])),
    -- `95_test_vectors.md` V22
    gives [(.y, 0x1000), (.cc, 0x00), (.pc, 0x1003)] [] 5 (cpuStep false false (start [] [(0x1000, [0x31, 0x8C,
      0xFD])])),
    -- `95_test_vectors.md` V23
    gives [(.s, 0xCBEE), (.cc, 0x04), (.pc, 0x1002)] [] 5 (cpuStep false false (start [(.s, 0xCBF0), (.cc, 0x04)]
      [(0x1000, [0x32, 0x7E])])),
    -- `95_test_vectors.md` V24
    gives [(.u, 0x0FFF), (.cc, 0x00), (.pc, 0x1002)] [] 8 (cpuStep false false (start [(.d, 0xFFFF), (.u, 0x1000)]
      [(0x1000, [0x33, 0xCB])])),
    -- `95_test_vectors.md` V27
    gives [(.x, 0xFF5A), (.pc, 0x1002)] [] 6 (cpuStep false false (start [(.a, 0x5A)] [(0x1000, [0x1F, 0x81])])),
    -- `95_test_vectors.md` V28
    gives [(.a, 0x34), (.pc, 0x1002)] [] 6 (cpuStep false false (start [(.x, 0x1234)] [(0x1000, [0x1F, 0x18])])),
    -- `95_test_vectors.md` V32
    gives [(.a, 0x56), (.x, 0xFF12), (.pc, 0x1002)] [] 8 (cpuStep false false (start [(.a, 0x12), (.x, 0x3456)]
      [(0x1000, [0x1E, 0x81])])),
    -- `95_test_vectors.md` V34
    gives [(.s, 0x1002), (.pc, 0x2000)] [] 8 (cpuStep false false (start [(.s, 0x2000)] [(0x1000, [0x1E, 0x45])]))].all id = true := by decide +kernel

/-- One instruction each: pshs, pshs_2, puls, pshu, pulu. The source of each row stands beside it. -/
theorem test_stacks : [
    -- `95_test_vectors.md` V35
    gives [(.s, 0xC900), (.pc, 0x1002)] [(0xC900, 0x0A), (0xC901, 0x01), (0xC902, 0x02), (0xC903, 0x03), (0xC904,
      0x04), (0xC905, 0x05), (0xC906, 0x06), (0xC907, 0x07), (0xC908, 0x08), (0xC909, 0x09), (0xC90A, 0x10),
      (0xC90B, 0x02)] 17 (cpuStep false false (start [(.a, 0x01), (.b, 0x02), (.x, 0x0405), (.y, 0x0607), (.u,
      0x0809), (.s, 0xC90C), (.dp, 0x03), (.cc, 0x0A)] [(0x1000, [0x34, 0xFF])])),
    -- `95_test_vectors.md` V41
    gives [(.s, 0xFFFF), (.pc, 0x1002)] [(0xFFFF, 0x00)] 6 (cpuStep false false (start [(.a, 0x77), (.s, 0x0000)]
      [(0x1000, [0x34, 0x02])])),
    -- `95_test_vectors.md` V36
    gives [(.a, 0x01), (.b, 0x02), (.dp, 0x03), (.x, 0x0405), (.y, 0x0607), (.u, 0x0809), (.pc, 0x2000), (.s,
      0xC90C), (.cc, 0x8A)] [] 17 (cpuStep false false (start [(.s, 0xC900)] [(0x1000, [0x35, 0xFF]), (0xC900,
      [0x8A, 0x01, 0x02, 0x03, 0x04, 0x05, 0x06, 0x07, 0x08, 0x09, 0x20, 0x00])])),
    -- `95_test_vectors.md` V38
    gives [(.u, 0xC8FE), (.s, 0xABCD), (.pc, 0x1002)] [(0xC8FE, 0xAB), (0xC8FF, 0xCD)] 7 (cpuStep false false
      (start [(.u, 0xC900), (.s, 0xABCD)] [(0x1000, [0x36, 0x40])])),
    -- `95_test_vectors.md` V39
    gives [(.a, 0x11), (.b, 0x22), (.u, 0xC902), (.pc, 0x1002)] [] 7 (cpuStep false false (start [(.u, 0xC900)]
      [(0x1000, [0x37, 0x06]), (0xC900, [0x11, 0x22])]))].all id = true := by decide +kernel

/-- One instruction each: adda, adda_2, addb, adca, adcb. The source of each row stands beside it. -/
theorem test_adds : [
    -- `95_test_vectors.md` A1
    gives [(.a, 0x80), (.cc, 0x2A), (.pc, 0x1002)] [] 2 (cpuStep false false (start [(.a, 0x7F)] [(0x1000, [0x8B,
      0x01])])),
    -- `95_test_vectors.md` A50
    gives [(.a, 0x03), (.x, 0xC811), (.cc, 0x00), (.pc, 0x1002)] [] 6 (cpuStep false false (start [(.a, 0x01), (.x,
      0xC810)] [(0x1000, [0xAB, 0x80]), (0xC810, [0x02])])),
    -- Worked by hand from R224: 7F + 01
    gives [(.b, 0x80), (.cc, 0x2A), (.pc, 0x1002)] [] 2 (cpuStep false false (start [(.b, 0x7F)] [(0x1000, [0xCB,
      0x01])])),
    -- `95_test_vectors.md` A5
    gives [(.a, 0x00), (.cc, 0x25), (.pc, 0x1002)] [] 2 (cpuStep false false (start [(.a, 0xFF), (.cc, 0x01)]
      [(0x1000, [0x89, 0x00])])),
    -- `95_test_vectors.md` A6
    gives [(.b, 0x10), (.cc, 0x20), (.pc, 0x1002)] [] 2 (cpuStep false false (start [(.b, 0x00), (.cc, 0x21)]
      [(0x1000, [0xC9, 0x0F])]))].all id = true := by decide +kernel

/-- One instruction each: anda, ora, eora, bita, bitb, andb, orb, eorb. The source of each row stands beside it. -/
theorem test_logic : [
    -- `95_test_vectors.md` A14
    gives [(.a, 0x00), (.cc, 0x05), (.pc, 0x1002)] [] 2 (cpuStep false false (start [(.a, 0xF0), (.cc, 0x03)]
      [(0x1000, [0x84, 0x0F])])),
    -- `95_test_vectors.md` A15
    gives [(.a, 0x81), (.cc, 0x09), (.pc, 0x1002)] [] 2 (cpuStep false false (start [(.a, 0x01), (.cc, 0x03)]
      [(0x1000, [0x8A, 0x80])])),
    -- `95_test_vectors.md` A16
    gives [(.a, 0x00), (.cc, 0x04), (.pc, 0x1002)] [] 2 (cpuStep false false (start [(.a, 0xFF), (.cc, 0x0A)]
      [(0x1000, [0x88, 0xFF])])),
    -- `95_test_vectors.md` A17
    gives [(.a, 0x80), (.cc, 0x09), (.pc, 0x1002)] [] 2 (cpuStep false false (start [(.a, 0x80), (.cc, 0x07)]
      [(0x1000, [0x85, 0x80])])),
    -- `95_test_vectors.md` A18
    gives [(.b, 0x55), (.cc, 0x00), (.pc, 0x1002)] [] 2 (cpuStep false false (start [(.b, 0x55), (.cc, 0x0E)]
      [(0x1000, [0xC5, 0x0F])])),
    -- Worked by hand from R234
    gives [(.b, 0x80), (.cc, 0x09), (.pc, 0x1002)] [] 2 (cpuStep false false (start [(.b, 0xF0), (.cc, 0x03)]
      [(0x1000, [0xC4, 0x8F])])),
    -- Worked by hand from R236
    gives [(.b, 0x81), (.cc, 0x08), (.pc, 0x1002)] [] 2 (cpuStep false false (start [(.b, 0x01), (.cc, 0x02)]
      [(0x1000, [0xCA, 0x80])])),
    -- Worked by hand from R238
    gives [(.b, 0x00), (.cc, 0x04), (.pc, 0x1002)] [] 2 (cpuStep false false (start [(.b, 0xFF), (.cc, 0x0A)]
      [(0x1000, [0xC8, 0xFF])]))].all id = true := by decide +kernel

/-- One instruction each: coma, comb, lsra, lsrb, rora, rola, deca, inca. The source of each row stands beside it. -/
theorem test_unary_registers_1 : [
    -- `95_test_vectors.md` A22
    gives [(.a, 0xFF), (.cc, 0x09), (.pc, 0x1001)] [] 2 (cpuStep false false (start [(.a, 0x00), (.cc, 0x02)]
      [(0x1000, [0x43])])),
    -- `95_test_vectors.md` A23
    gives [(.b, 0x00), (.cc, 0x05), (.pc, 0x1001)] [] 2 (cpuStep false false (start [(.b, 0xFF)] [(0x1000,
      [0x53])])),
    -- `95_test_vectors.md` A24
    gives [(.a, 0x00), (.cc, 0x05), (.pc, 0x1001)] [] 2 (cpuStep false false (start [(.a, 0x01), (.cc, 0x08)]
      [(0x1000, [0x44])])),
    -- `95_test_vectors.md` A25
    gives [(.b, 0x40), (.cc, 0x02), (.pc, 0x1001)] [] 2 (cpuStep false false (start [(.b, 0x80), (.cc, 0x02)]
      [(0x1000, [0x54])])),
    -- `95_test_vectors.md` A27
    gives [(.a, 0x80), (.cc, 0x08), (.pc, 0x1001)] [] 2 (cpuStep false false (start [(.a, 0x00), (.cc, 0x01)]
      [(0x1000, [0x46])])),
    -- `95_test_vectors.md` A32
    gives [(.a, 0x01), (.cc, 0x03), (.pc, 0x1001)] [] 2 (cpuStep false false (start [(.a, 0x80), (.cc, 0x01)]
      [(0x1000, [0x49])])),
    -- `95_test_vectors.md` A34
    gives [(.a, 0x7F), (.cc, 0x03), (.pc, 0x1001)] [] 2 (cpuStep false false (start [(.a, 0x80), (.cc, 0x01)]
      [(0x1000, [0x4A])])),
    -- `95_test_vectors.md` A37
    gives [(.a, 0x80), (.cc, 0x0B), (.pc, 0x1001)] [] 2 (cpuStep false false (start [(.a, 0x7F), (.cc, 0x01)]
      [(0x1000, [0x4C])]))].all id = true := by decide +kernel

/-- One instruction each: rorb, rolb, decb, incb, tsta, tstb, clra, clrb. The source of each row stands beside it. -/
theorem test_unary_registers_2 : [
    -- Worked by hand from R253
    gives [(.b, 0x80), (.cc, 0x09), (.pc, 0x1001)] [] 2 (cpuStep false false (start [(.b, 0x01), (.cc, 0x01)]
      [(0x1000, [0x56])])),
    -- Worked by hand from R262
    gives [(.b, 0x00), (.cc, 0x07), (.pc, 0x1001)] [] 2 (cpuStep false false (start [(.b, 0x80)] [(0x1000,
      [0x59])])),
    -- Worked by hand from R265
    gives [(.b, 0x7F), (.cc, 0x02), (.pc, 0x1001)] [] 2 (cpuStep false false (start [(.b, 0x80)] [(0x1000,
      [0x5A])])),
    -- Worked by hand from R268
    gives [(.b, 0x80), (.cc, 0x0A), (.pc, 0x1001)] [] 2 (cpuStep false false (start [(.b, 0x7F)] [(0x1000,
      [0x5C])])),
    -- `95_test_vectors.md` A39
    gives [(.a, 0x80), (.cc, 0x09), (.pc, 0x1001)] [] 2 (cpuStep false false (start [(.a, 0x80), (.cc, 0x03)]
      [(0x1000, [0x4D])])),
    -- `95_test_vectors.md` A40
    gives [(.b, 0x00), (.cc, 0x05), (.pc, 0x1001)] [] 2 (cpuStep false false (start [(.b, 0x00), (.cc, 0x0B)]
      [(0x1000, [0x5D])])),
    -- `95_test_vectors.md` A41
    gives [(.a, 0x00), (.cc, 0x04), (.pc, 0x1001)] [] 2 (cpuStep false false (start [(.a, 0x99), (.cc, 0x0B)]
      [(0x1000, [0x4F])])),
    -- `95_test_vectors.md` A42
    gives [(.b, 0x00), (.cc, 0xF4), (.pc, 0x1001)] [] 2 (cpuStep false false (start [(.b, 0x99), (.cc, 0xF0)]
      [(0x1000, [0x5F])]))].all id = true := by decide +kernel

/-- One instruction each: inc, inc_2, dec, com, clr, ror, lsr, rol, tst. The source of each row stands beside it. -/
theorem test_unary_memory : [
    -- `95_test_vectors.md` A43
    gives [(.cc, 0x05), (.pc, 0x1003)] [(0xC810, 0x00)] 7 (cpuStep false false (start [(.cc, 0x01)] [(0x1000,
      [0x7C, 0xC8, 0x10]), (0xC810, [0xFF])])),
    -- `95_test_vectors.md` A49
    gives [(.cc, 0x00), (.pc, 0x1003)] [(0xE000, 0x00)] 7 (cpuStep false false (start [] [(0x1000, [0x7C, 0xE0,
      0x00])])),
    -- `95_test_vectors.md` A44
    gives [(.cc, 0x08), (.pc, 0x1002)] [(0xC810, 0xFF)] 6 (cpuStep false false (start [(.dp, 0xC8)] [(0x1000,
      [0x0A, 0x10]), (0xC810, [0x00])])),
    -- `95_test_vectors.md` A45
    gives [(.cc, 0x09), (.pc, 0x1002)] [(0xC810, 0xF0)] 6 (cpuStep false false (start [(.x, 0xC810)] [(0x1000,
      [0x63, 0x84]), (0xC810, [0x0F])])),
    -- `95_test_vectors.md` A46
    gives [(.cc, 0x04), (.pc, 0x1003)] [(0xC810, 0x00)] 7 (cpuStep false false (start [(.cc, 0x0B)] [(0x1000,
      [0x7F, 0xC8, 0x10]), (0xC810, [0x99])])),
    -- `95_test_vectors.md` A48
    gives [(.cc, 0x09), (.pc, 0x1003)] [(0xC810, 0x80)] 7 (cpuStep false false (start [(.cc, 0x01)] [(0x1000,
      [0x76, 0xC8, 0x10]), (0xC810, [0x01])])),
    -- Worked by hand from R248
    gives [(.cc, 0x01), (.pc, 0x1003)] [(0xC810, 0x40)] 7 (cpuStep false false (start [] [(0x1000, [0x74, 0xC8,
      0x10]), (0xC810, [0x81])])),
    -- Worked by hand from R260
    gives [(.cc, 0x0A), (.pc, 0x1003)] [(0xC810, 0x81)] 7 (cpuStep false false (start [(.cc, 0x01)] [(0x1000,
      [0x79, 0xC8, 0x10]), (0xC810, [0x40])])),
    -- Worked by hand from R269
    gives [(.cc, 0x09), (.pc, 0x1003)] [(0xC810, 0x80)] 7 (cpuStep false false (start [(.cc, 0x03)] [(0x1000,
      [0x7D, 0xC8, 0x10]), (0xC810, [0x80])]))].all id = true := by decide +kernel

/-- One instruction each: addd, addd_2, subd, cmpd, cmpx, cmpy, cmpu, cmps. The source of each row stands beside it. -/
theorem test_arith16 : [
    -- `95_test_vectors.md` W3
    gives [(.d, 0x0000), (.cc, 0x07), (.pc, 0x1003)] [] 4 (cpuStep false false (start [(.d, 0x8000)] [(0x1000,
      [0xC3, 0x80, 0x00])])),
    -- `95_test_vectors.md` W4
    gives [(.d, 0x1000), (.cc, 0x20), (.pc, 0x1003)] [] 4 (cpuStep false false (start [(.d, 0x0F00), (.cc, 0x20)]
      [(0x1000, [0xC3, 0x01, 0x00])])),
    -- `95_test_vectors.md` W5
    gives [(.d, 0xFFFF), (.cc, 0x09), (.pc, 0x1003)] [] 4 (cpuStep false false (start [(.d, 0x0000)] [(0x1000,
      [0x83, 0x00, 0x01])])),
    -- `95_test_vectors.md` W8
    gives [(.d, 0x7FFF), (.cc, 0x0B), (.pc, 0x1004)] [] 5 (cpuStep false false (start [(.d, 0x7FFF)] [(0x1000,
      [0x10, 0x83, 0x80, 0x00])])),
    -- `95_test_vectors.md` W14
    gives [(.x, 0xC812), (.cc, 0x00), (.pc, 0x1002)] [] 9 (cpuStep false false (start [(.x, 0xC810)] [(0x1000,
      [0xAC, 0x81]), (0xC810, [0xC8, 0x10])])),
    -- `95_test_vectors.md` W11
    gives [(.y, 0x8000), (.cc, 0x02), (.pc, 0x1004)] [] 5 (cpuStep false false (start [(.y, 0x8000)] [(0x1000,
      [0x10, 0x8C, 0x7F, 0xFF])])),
    -- `95_test_vectors.md` W12
    gives [(.u, 0xFFFF), (.cc, 0x08), (.pc, 0x1004)] [] 5 (cpuStep false false (start [(.u, 0xFFFF)] [(0x1000,
      [0x11, 0x83, 0x00, 0x00])])),
    -- `95_test_vectors.md` W13
    gives [(.s, 0xCBF0), (.cc, 0x04), (.pc, 0x1004)] [] 5 (cpuStep false false (start [(.s, 0xCBF0)] [(0x1000,
      [0x11, 0x8C, 0xCB, 0xF0])]))].all id = true := by decide +kernel

/-- One instruction each: mul, mul_2, sex, abx, andcc, orcc, nop. The source of each row stands beside it. -/
theorem test_misc : [
    -- `95_test_vectors.md` W16
    gives [(.d, 0xFE01), (.cc, 0x0A), (.pc, 0x1001)] [] 11 (cpuStep false false (start [(.a, 0xFF), (.b, 0xFF),
      (.cc, 0x0F)] [(0x1000, [0x3D])])),
    -- `95_test_vectors.md` W17
    gives [(.d, 0x0000), (.cc, 0x0E), (.pc, 0x1001)] [] 11 (cpuStep false false (start [(.a, 0x00), (.b, 0x55),
      (.cc, 0x0A)] [(0x1000, [0x3D])])),
    -- `95_test_vectors.md` W25
    gives [(.d, 0xFF80), (.cc, 0x0B), (.pc, 0x1001)] [] 2 (cpuStep false false (start [(.b, 0x80), (.cc, 0x03)]
      [(0x1000, [0x1D])])),
    -- `95_test_vectors.md` W28
    gives [(.x, 0x0001), (.cc, 0x0F), (.pc, 0x1001)] [] 3 (cpuStep false false (start [(.b, 0x02), (.x, 0xFFFF),
      (.cc, 0x0F)] [(0x1000, [0x3A])])),
    -- `95_test_vectors.md` W30
    gives [(.cc, 0xEF), (.pc, 0x1002)] [] 3 (cpuStep false false (start [(.cc, 0xFF)] [(0x1000, [0x1C, 0xEF])])),
    -- `95_test_vectors.md` W32
    gives [(.cc, 0x55), (.pc, 0x1002)] [] 3 (cpuStep false false (start [(.cc, 0x05)] [(0x1000, [0x1A, 0x50])])),
    -- `95_test_vectors.md` W34
    gives [(.cc, 0xFF), (.pc, 0x1001)] [] 2 (cpuStep false false (start [(.cc, 0xFF)] [(0x1000, [0x12])]))].all id = true := by decide +kernel

/-- One instruction each: bra, brn, beq, bne, bhi, bls, bge, blt. The source of each row stands beside it. -/
theorem test_short_branches_1 : [
    -- `95_test_vectors.md` B3
    gives [(.pc, 0x0F82)] [] 3 (cpuStep false false (start [] [(0x1000, [0x20, 0x80])])),
    -- `95_test_vectors.md` B4
    gives [(.pc, 0x1002)] [] 3 (cpuStep false false (start [] [(0x1000, [0x21, 0x10])])),
    -- `95_test_vectors.md` B5
    gives [(.pc, 0x1007)] [] 3 (cpuStep false false (start [(.cc, 0x04)] [(0x1000, [0x27, 0x05])])),
    -- `95_test_vectors.md` B7
    gives [(.pc, 0x0FFD)] [] 3 (cpuStep false false (start [(.cc, 0x00)] [(0x1000, [0x26, 0xFB])])),
    -- `95_test_vectors.md` B9
    gives [(.pc, 0x1002)] [] 3 (cpuStep false false (start [(.cc, 0x04)] [(0x1000, [0x22, 0x05])])),
    -- `95_test_vectors.md` B11
    gives [(.pc, 0x1007)] [] 3 (cpuStep false false (start [(.cc, 0x05)] [(0x1000, [0x23, 0x05])])),
    -- `95_test_vectors.md` B12
    gives [(.pc, 0x1007)] [] 3 (cpuStep false false (start [(.cc, 0x0A)] [(0x1000, [0x2C, 0x05])])),
    -- `95_test_vectors.md` B14
    gives [(.pc, 0x1007)] [] 3 (cpuStep false false (start [(.cc, 0x02)] [(0x1000, [0x2D, 0x05])]))].all id = true := by decide +kernel

/-- One instruction each: bgt, ble, bcc, bcs, bvc, bvs, bpl, bmi. The source of each row stands beside it. -/
theorem test_short_branches_2 : [
    -- `95_test_vectors.md` B16
    gives [(.pc, 0x1002)] [] 3 (cpuStep false false (start [(.cc, 0x0E)] [(0x1000, [0x2E, 0x05])])),
    -- `95_test_vectors.md` B17
    gives [(.pc, 0x1007)] [] 3 (cpuStep false false (start [(.cc, 0x04)] [(0x1000, [0x2F, 0x05])])),
    -- `95_test_vectors.md` B19
    gives [(.pc, 0x1002)] [] 3 (cpuStep false false (start [(.cc, 0x01)] [(0x1000, [0x24, 0x05])])),
    -- `95_test_vectors.md` B20
    gives [(.pc, 0x1007)] [] 3 (cpuStep false false (start [(.cc, 0x01)] [(0x1000, [0x25, 0x05])])),
    -- `95_test_vectors.md` B21
    gives [(.pc, 0x1002)] [] 3 (cpuStep false false (start [(.cc, 0x02)] [(0x1000, [0x28, 0x05])])),
    -- `95_test_vectors.md` B22
    gives [(.pc, 0x1007)] [] 3 (cpuStep false false (start [(.cc, 0x02)] [(0x1000, [0x29, 0x05])])),
    -- `95_test_vectors.md` B23
    gives [(.pc, 0x1002)] [] 3 (cpuStep false false (start [(.cc, 0x08)] [(0x1000, [0x2A, 0x05])])),
    -- `95_test_vectors.md` B24
    gives [(.pc, 0x1007)] [] 3 (cpuStep false false (start [(.cc, 0x08)] [(0x1000, [0x2B, 0x05])]))].all id = true := by decide +kernel

/-- One instruction each: lbra, lbeq, lbeq_2, lbrn, lbgt, lbhi, lbls, lbcc. The source of each row stands beside it. -/
theorem test_long_branches_1 : [
    -- `95_test_vectors.md` B26
    gives [(.pc, 0x0000)] [] 5 (cpuStep false false (start [] [(0x1000, [0x16, 0xEF, 0xFD])])),
    -- `95_test_vectors.md` B27
    gives [(.pc, 0x1104)] [] 6 (cpuStep false false (start [(.cc, 0x04)] [(0x1000, [0x10, 0x27, 0x01, 0x00])])),
    -- `95_test_vectors.md` B28
    gives [(.pc, 0x1004)] [] 5 (cpuStep false false (start [(.cc, 0x00)] [(0x1000, [0x10, 0x27, 0x01, 0x00])])),
    -- `95_test_vectors.md` B29
    gives [(.pc, 0x1004)] [] 5 (cpuStep false false (start [] [(0x1000, [0x10, 0x21, 0x01, 0x00])])),
    -- `95_test_vectors.md` B30
    gives [(.pc, 0x1000)] [] 6 (cpuStep false false (start [(.cc, 0x00)] [(0x1000, [0x10, 0x2E, 0xFF, 0xFC])])),
    -- Worked by hand from R310 and R312
    gives [(.cc, 0x00), (.pc, 0x1104)] [] 6 (cpuStep false false (start [(.cc, 0x00)] [(0x1000, [0x10, 0x22, 0x01,
      0x00])])),
    -- Worked by hand from R310 and R312
    gives [(.cc, 0x01), (.pc, 0x1104)] [] 6 (cpuStep false false (start [(.cc, 0x01)] [(0x1000, [0x10, 0x23, 0x01,
      0x00])])),
    -- Worked by hand from R310 and R312
    gives [(.cc, 0x01), (.pc, 0x1004)] [] 5 (cpuStep false false (start [(.cc, 0x01)] [(0x1000, [0x10, 0x24, 0x01,
      0x00])]))].all id = true := by decide +kernel

/-- One instruction each: lbcs, lbne, lbvc, lbvs, lbpl, lbmi, lbge, lblt, lble. The source of each row stands beside it. -/
theorem test_long_branches_2 : [
    -- Worked by hand from R310 and R312
    gives [(.cc, 0x01), (.pc, 0x1104)] [] 6 (cpuStep false false (start [(.cc, 0x01)] [(0x1000, [0x10, 0x25, 0x01,
      0x00])])),
    -- Worked by hand from R310 and R312
    gives [(.cc, 0x04), (.pc, 0x1004)] [] 5 (cpuStep false false (start [(.cc, 0x04)] [(0x1000, [0x10, 0x26, 0x01,
      0x00])])),
    -- Worked by hand from R310 and R312
    gives [(.cc, 0x02), (.pc, 0x1004)] [] 5 (cpuStep false false (start [(.cc, 0x02)] [(0x1000, [0x10, 0x28, 0x01,
      0x00])])),
    -- Worked by hand from R310 and R312
    gives [(.cc, 0x02), (.pc, 0x1104)] [] 6 (cpuStep false false (start [(.cc, 0x02)] [(0x1000, [0x10, 0x29, 0x01,
      0x00])])),
    -- Worked by hand from R310 and R312
    gives [(.cc, 0x08), (.pc, 0x1004)] [] 5 (cpuStep false false (start [(.cc, 0x08)] [(0x1000, [0x10, 0x2A, 0x01,
      0x00])])),
    -- Worked by hand from R310 and R312
    gives [(.cc, 0x08), (.pc, 0x1104)] [] 6 (cpuStep false false (start [(.cc, 0x08)] [(0x1000, [0x10, 0x2B, 0x01,
      0x00])])),
    -- Worked by hand from R310 and R312
    gives [(.cc, 0x0A), (.pc, 0x1104)] [] 6 (cpuStep false false (start [(.cc, 0x0A)] [(0x1000, [0x10, 0x2C, 0x01,
      0x00])])),
    -- Worked by hand from R310 and R312
    gives [(.cc, 0x0A), (.pc, 0x1004)] [] 5 (cpuStep false false (start [(.cc, 0x0A)] [(0x1000, [0x10, 0x2D, 0x01,
      0x00])])),
    -- Worked by hand from R310 and R312
    gives [(.cc, 0x04), (.pc, 0x1104)] [] 6 (cpuStep false false (start [(.cc, 0x04)] [(0x1000, [0x10, 0x2F, 0x01,
      0x00])]))].all id = true := by decide +kernel

/-- One instruction each: bsr, lbsr, jsr, jsr_2, jmp, jmp_2, rts. The source of each row stands beside it. -/
theorem test_calls : [
    -- `95_test_vectors.md` B31
    gives [(.pc, 0x1012), (.s, 0xC8FE)] [(0xC8FE, 0x10), (0xC8FF, 0x02)] 7 (cpuStep false false (start [(.s,
      0xC900)] [(0x1000, [0x8D, 0x10])])),
    -- `95_test_vectors.md` B32
    gives [(.pc, 0x2000), (.s, 0xC8FE)] [(0xC8FE, 0x10), (0xC8FF, 0x03)] 9 (cpuStep false false (start [(.s,
      0xC900)] [(0x1000, [0x17, 0x0F, 0xFD])])),
    -- `95_test_vectors.md` B35
    gives [(.pc, 0x3000), (.s, 0xC900)] [(0xC900, 0x10), (0xC901, 0x04)] 12 (cpuStep false false (start [(.s,
      0xC902)] [(0x1000, [0xAD, 0x9F, 0xC8, 0x10]), (0xC810, [0x30, 0x00])])),
    -- `95_test_vectors.md` B36
    gives [(.pc, 0x2040), (.s, 0xC8FE)] [(0xC8FE, 0x10), (0xC8FF, 0x02)] 7 (cpuStep false false (start [(.s,
      0xC900), (.dp, 0x20)] [(0x1000, [0x9D, 0x40])])),
    -- `95_test_vectors.md` B39
    gives [(.pc, 0x1234)] [] 8 (cpuStep false false (start [] [(0x1000, [0x6E, 0x9F, 0xC8, 0x10]), (0xC810, [0x12,
      0x34])])),
    -- `95_test_vectors.md` B40
    gives [(.pc, 0x4080)] [] 3 (cpuStep false false (start [(.dp, 0x40)] [(0x1000, [0x0E, 0x80])])),
    -- `95_test_vectors.md` B41
    gives [(.pc, 0x1002), (.s, 0xC900)] [] 5 (cpuStep false false (start [(.s, 0xC8FE)] [(0x1000, [0x39]), (0xC8FE,
      [0x10, 0x02])]))].all id = true := by decide +kernel

/-- One instruction each: off5, predec, acc_b, off8, off16. The source of each row stands beside it. -/
theorem test_indexed_1 : [
    -- `95_test_vectors.md` I3
    gives [(.a, 0x33), (.pc, 0x1002)] [] 5 (cpuStep false false (start [(.x, 0xC820)] [(0x1000, [0xA6, 0x10]),
      (0xC810, [0x33])])),
    -- `95_test_vectors.md` I10
    gives [(.a, 0x66), (.x, 0xC810), (.pc, 0x1002)] [] 6 (cpuStep false false (start [(.x, 0xC811)] [(0x1000,
      [0xA6, 0x82]), (0xC810, [0x66])])),
    -- `95_test_vectors.md` I13
    gives [(.a, 0x99), (.pc, 0x1002)] [] 5 (cpuStep false false (start [(.b, 0xF0), (.x, 0xC820)] [(0x1000, [0xA6,
      0x85]), (0xC810, [0x99])])),
    -- `95_test_vectors.md` I15
    gives [(.a, 0xBB), (.pc, 0x1003)] [] 5 (cpuStep false false (start [(.x, 0xC890)] [(0x1000, [0xA6, 0x88,
      0x80]), (0xC810, [0xBB])])),
    -- `95_test_vectors.md` I16
    gives [(.a, 0xCC), (.pc, 0x1004)] [] 8 (cpuStep false false (start [(.x, 0xC820)] [(0x1000, [0xA6, 0x89, 0xFF,
      0xF0]), (0xC810, [0xCC])]))].all id = true := by decide +kernel

/-- One instruction each: pcr8, postinc_ind, acc_b_ind, pcr16_ind, ext_ind. The source of each row stands beside it. -/
theorem test_indexed_2 : [
    -- `95_test_vectors.md` I18
    gives [(.a, 0x77), (.pc, 0x1003)] [] 5 (cpuStep false false (start [] [(0x1000, [0xA6, 0x8C, 0x02, 0x00, 0x00,
      0x77])])),
    -- `95_test_vectors.md` I21
    gives [(.a, 0x5B), (.x, 0xC842), (.pc, 0x1002)] [] 10 (cpuStep false false (start [(.x, 0xC840)] [(0x1000,
      [0xA6, 0x91]), (0xC840, [0xC8, 0x50]), (0xC850, [0x5B])])),
    -- `95_test_vectors.md` I23
    gives [(.a, 0x5D), (.pc, 0x1002)] [] 8 (cpuStep false false (start [(.b, 0x02), (.x, 0xC83E)] [(0x1000, [0xA6,
      0x95]), (0xC840, [0xC8, 0x50]), (0xC850, [0x5D])])),
    -- `95_test_vectors.md` I28
    gives [(.a, 0x62), (.pc, 0x1004)] [] 12 (cpuStep false false (start [] [(0x1000, [0xA6, 0x9D, 0xB8, 0x3C]),
      (0xC840, [0xC8, 0x50]), (0xC850, [0x62])])),
    -- `95_test_vectors.md` I29
    gives [(.a, 0x63), (.pc, 0x1004)] [] 9 (cpuStep false false (start [] [(0x1000, [0xA6, 0x9F, 0xC8, 0x40]),
      (0xC840, [0xC8, 0x50]), (0xC850, [0x63])]))].all id = true := by decide +kernel

/-- One instruction each: swi, swi2, swi3, rti, rti_2, cwai, sync, undefined, undefined_2. The source of each row stands beside it. -/
theorem test_system : [
    -- `95_test_vectors.md` Y1
    gives [(.pc, 0xE100), (.s, 0xC900), (.cc, 0xDA)] [(0xC900, 0x8A), (0xC901, 0x01), (0xC902, 0x02), (0xC903,
      0x03), (0xC904, 0x04), (0xC905, 0x05), (0xC906, 0x06), (0xC907, 0x07), (0xC908, 0x08), (0xC909, 0x09),
      (0xC90A, 0x10), (0xC90B, 0x01)] 19 (cpuStep false false (start [(.a, 0x01), (.b, 0x02), (.x, 0x0405), (.y,
      0x0607), (.u, 0x0809), (.s, 0xC90C), (.dp, 0x03), (.cc, 0x0A)] [(0x1000, [0x3F]), (0xFFFA, [0xE1, 0x00])])),
    -- `95_test_vectors.md` Y2
    gives [(.pc, 0xE400), (.s, 0xC900), (.cc, 0x8A)] [(0xC900, 0x8A), (0xC90A, 0x10), (0xC90B, 0x02)] 20 (cpuStep
      false false (start [(.a, 0x01), (.b, 0x02), (.x, 0x0405), (.y, 0x0607), (.u, 0x0809), (.s, 0xC90C), (.dp,
      0x03), (.cc, 0x0A)] [(0x1000, [0x10, 0x3F]), (0xFFF4, [0xE4, 0x00])])),
    -- `95_test_vectors.md` Y3
    gives [(.pc, 0xE500), (.s, 0xC900), (.cc, 0x8A)] [(0xC900, 0x8A), (0xC90A, 0x10), (0xC90B, 0x02)] 20 (cpuStep
      false false (start [(.a, 0x01), (.b, 0x02), (.x, 0x0405), (.y, 0x0607), (.u, 0x0809), (.s, 0xC90C), (.dp,
      0x03), (.cc, 0x0A)] [(0x1000, [0x11, 0x3F]), (0xFFF2, [0xE5, 0x00])])),
    -- `95_test_vectors.md` Y4
    gives [(.a, 0x01), (.b, 0x02), (.dp, 0x03), (.x, 0x0405), (.y, 0x0607), (.u, 0x0809), (.pc, 0x2000), (.s,
      0xC90C), (.cc, 0x8A)] [] 15 (cpuStep false false (start [(.s, 0xC900)] [(0x1000, [0x3B]), (0xC900, [0x8A,
      0x01, 0x02, 0x03, 0x04, 0x05, 0x06, 0x07, 0x08, 0x09, 0x20, 0x00])])),
    -- `95_test_vectors.md` Y5
    gives [(.pc, 0x2000), (.s, 0xC903), (.cc, 0x0A), (.a, 0x00)] [] 6 (cpuStep false false (start [(.s, 0xC900),
      (.cc, 0x80)] [(0x1000, [0x3B]), (0xC900, [0x0A, 0x20, 0x00])])),
    -- `95_test_vectors.md` Y6
    givesWait .cwai [(.pc, 0x1002), (.s, 0xC900), (.cc, 0xC0)] [(0xC900, 0xC0), (0xC90A, 0x10), (0xC90B, 0x02)] 20
      (cpuStep false false (start [(.a, 0x01), (.b, 0x02), (.x, 0x0405), (.y, 0x0607), (.u, 0x0809), (.s, 0xC90C),
      (.dp, 0x03), (.cc, 0x50)] [(0x1000, [0x3C, 0xEF])])),
    -- `95_test_vectors.md` Y7
    givesWait .sync [(.pc, 0x1001), (.cc, 0x10)] [] 2 (cpuStep false false (start [(.cc, 0x10)] [(0x1000,
      [0x13])])),
    -- `95_test_vectors.md` Y9
    gives [(.pc, 0x1002)] [] 0 (cpuStep false false (start [] [(0x1000, [0x10, 0x10])])),
    -- `95_test_vectors.md` Y12
    gives [(.pc, 0x1001), (.x, 0x1234)] [] 0 (cpuStep false false (start [(.x, 0x1234)] [(0x1000, [0x8F])]))].all id = true := by decide +kernel

/-- One instruction each: irq, irq_2, firq, firq_2, irq_over_firq. The source of each row stands beside it. -/
theorem test_entries : [
    -- `95_test_vectors.md` X1
    gives [(.pc, 0xE201), (.s, 0xC900), (.cc, 0x9A)] [(0xC900, 0x8A), (0xC901, 0x01), (0xC902, 0x02), (0xC903,
      0x03), (0xC904, 0x04), (0xC905, 0x05), (0xC906, 0x06), (0xC907, 0x07), (0xC908, 0x08), (0xC909, 0x09),
      (0xC90A, 0x10), (0xC90B, 0x00)] 21 (cpuStep true false (start [(.a, 0x01), (.b, 0x02), (.x, 0x0405), (.y,
      0x0607), (.u, 0x0809), (.s, 0xC90C), (.dp, 0x03), (.cc, 0x0A)] [(0x1000, [0x12]), (0xFFF8, [0xE2, 0x00]),
      (0xFFF6, [0xE3, 0x00]), (0xE300, [0x12]), (0xE200, [0x12])])),
    -- `95_test_vectors.md` X8
    gives [(.pc, 0xE202), (.s, 0xC900), (.cc, 0x90), (.a, 0x77)] [(0xC900, 0x80), (0xC901, 0x01), (0xC90A, 0x10),
      (0xC90B, 0x00)] 21 (cpuStep true false (start [(.a, 0x01), (.b, 0x02), (.x, 0x0405), (.y, 0x0607), (.u,
      0x0809), (.s, 0xC90C), (.dp, 0x03), (.cc, 0x00)] [(0x1000, [0x86, 0x77]), (0xFFF8, [0xE2, 0x00]), (0xFFF6,
      [0xE3, 0x00]), (0xE300, [0x12]), (0xE200, [0x86, 0x77])])),
    -- `95_test_vectors.md` X3
    gives [(.pc, 0xE301), (.s, 0xC909), (.cc, 0x5A)] [(0xC909, 0x0A), (0xC90A, 0x10), (0xC90B, 0x00)] 12 (cpuStep
      false true (start [(.a, 0x01), (.b, 0x02), (.x, 0x0405), (.y, 0x0607), (.u, 0x0809), (.s, 0xC90C), (.dp,
      0x03), (.cc, 0x8A)] [(0x1000, [0x12]), (0xFFF8, [0xE2, 0x00]), (0xFFF6, [0xE3, 0x00]), (0xE300, [0x12]),
      (0xE200, [0x12])])),
    -- `95_test_vectors.md` X5
    gives [(.pc, 0xE301), (.s, 0xC909), (.cc, 0x50)] [(0xC8FD, 0xFD), (0xC8FE, 0xFE), (0xC8FF, 0xFF), (0xC909,
      0x00), (0xC90A, 0x10), (0xC90B, 0x00)] 12 (cpuStep true true (start [(.a, 0x01), (.b, 0x02), (.x, 0x0405),
      (.y, 0x0607), (.u, 0x0809), (.s, 0xC90C), (.dp, 0x03), (.cc, 0x00)] [(0x1000, [0x12]), (0xFFF8, [0xE2,
      0x00]), (0xFFF6, [0xE3, 0x00]), (0xE300, [0x12]), (0xE200, [0x12])])),
    -- `95_test_vectors.md` X6
    gives [(.pc, 0xE201), (.s, 0xC900), (.cc, 0xD0)] [(0xC900, 0xC0), (0xC90A, 0x10), (0xC90B, 0x00)] 21 (cpuStep
      true true (start [(.a, 0x01), (.b, 0x02), (.x, 0x0405), (.y, 0x0607), (.u, 0x0809), (.s, 0xC90C), (.dp,
      0x03), (.cc, 0x40)] [(0x1000, [0x12]), (0xFFF8, [0xE2, 0x00]), (0xFFF6, [0xE3, 0x00]), (0xE300, [0x12]),
      (0xE200, [0x12])]))].all id = true := by decide +kernel

/-! ### Fetch faults and functions that draw -/

/-- `95_test_vectors.md` I33 to I35. -/
theorem test_undefined_postbyte :
    faultOf (cpuStep false false (start [] [(0x1000, [0xA6, 0x87])])) = some (.undefinedPostbyte 0x87) ∧
    faultOf (cpuStep false false (start [] [(0x1000, [0xA6, 0x90])])) = some (.undefinedPostbyte 0x90) ∧
    faultOf (cpuStep false false (start [] [(0x1000, [0xA6, 0xBF])])) = some (.undefinedPostbyte 0xBF) := by
  decide +kernel

/-- A subtraction or a single-operand function with an undefined H: result and CC but for bit 5, whatever H takes. -/
def givesBut5 (r cc : Byte) (f : Bool → Byte × Byte) : Bool :=
  [true, false].all (fun h => (f h).1 == r && (f h).2 &&& 0xDF == cc && (f h).2.getLsbD 5 == h)

/-- SUBA, SBCA, SBCB: `95_test_vectors.md` A7 to A11. -/
theorem test_subtractions : [
    givesBut5 0xFF 0x09 (fun h => BinOp.sub.apply 0x00 0x01 h 0x00),
    givesBut5 0x7F 0x02 (fun h => BinOp.sub.apply 0x80 0x01 h 0x00),
    givesBut5 0x80 0x0B (fun h => BinOp.sub.apply 0x7F 0xFF h 0x00),
    givesBut5 0xFF 0x09 (fun h => BinOp.sbc.apply 0x00 0x00 h 0x01),
    givesBut5 0xFF 0x09 (fun h => BinOp.sbc.apply 0xFF 0xFF h 0x01)].all id = true := by decide +kernel

/-- NEG, ASR, ASL: `95_test_vectors.md` A19 to A21, A28 to A31. -/
theorem test_drawing_unary : [
    givesBut5 0x80 0x0B (fun h => UnaryOp.neg.apply 0x80 h 0x00),
    givesBut5 0x00 0x04 (fun h => UnaryOp.neg.apply 0x00 h 0x01),
    givesBut5 0xC0 0x09 (fun h => UnaryOp.asr.apply 0x81 h 0x00),
    givesBut5 0x80 0x0A (fun h => UnaryOp.asl.apply 0x40 h 0x00),
    givesBut5 0x00 0x07 (fun h => UnaryOp.asl.apply 0x80 h 0x00)].all id = true := by decide +kernel

/-- DAA: `95_test_vectors.md` W19, W20, W22 to W24, CC but for bit 1. -/
theorem test_daa : ([(0x0A, 0x00, 0x10, 0x00), (0x9A, 0x00, 0x00, 0x05), (0x12, 0x20, 0x18, 0x20),
    (0x12, 0x01, 0x72, 0x01), (0x9F, 0x00, 0x05, 0x01)] : List (Byte × Byte × Byte × Byte)).all (fun (a, cc, r, out) =>
      [true, false].all (fun v => (daa8 a v cc).1 == r && (daa8 a v cc).2 &&& 0xFD == out)) = true := by decide +kernel

/-- The registers of the instructions that draw: SUBA, SUBB, CMPA, NEGB, ASRA, ASLB leave A and B as their rules say. -/
theorem test_drawing_instructions : [
    gives [(.a, 0xFF), (.pc, 0x1002)] [] 2 (cpuStep false false (start [] [(0x1000, [0x80, 0x01])])),
    gives [(.b, 0x0E), (.pc, 0x1002)] [] 2 (cpuStep false false (start [(.b, 0x0F)] [(0x1000, [0xC0, 0x01])])),
    gives [(.a, 0x7F), (.pc, 0x1002)] [] 2 (cpuStep false false (start [(.a, 0x7F)] [(0x1000, [0x81, 0x80])])),
    gives [(.b, 0xFF), (.pc, 0x1001)] [] 2 (cpuStep false false (start [(.b, 0x01)] [(0x1000, [0x50])])),
    gives [(.a, 0xC0), (.pc, 0x1001)] [] 2 (cpuStep false false (start [(.a, 0x81)] [(0x1000, [0x47])])),
    gives [(.b, 0x80), (.pc, 0x1001)] [] 2 (cpuStep false false (start [(.b, 0xC0)] [(0x1000, [0x58])])),
    gives [(.pc, 0x1003)] [(0xC810, 0xFF)] 7
      (cpuStep false false (start [] [(0x1000, [0x70, 0xC8, 0x10]), (0xC810, [0x01])]))].all id = true := by
  decide +kernel

/-! ### The bus and the devices -/

/-- `95_test_vectors.md` M1: every region at its ends. -/
theorem test_memory_map : ([(0x0000, 0x00), (0x7FFF, 0x00), (0x8000, 0xFF), (0xBFFF, 0xFF), (0xC000, 0xFF),
    (0xC7FF, 0xFF), (0xC800, 0x00), (0xC8FF, 0xFF), (0xCBFF, 0xFF), (0xCC00, 0x00), (0xCFFF, 0xFF), (0xD800, 0x00),
    (0xDFFF, 0xFF), (0xE000, 0x00), (0xF000, 0x12), (0xFFFE, 0xF0), (0xFFFF, 0x00)] : List (Word × Byte)).all
    (fun e => (readByte e.1 (start [] [(0xF000, [0x12]), (0xFFFE, [0xF0, 0x00])])).1 == e.2) = true := by decide +kernel

/-- `95_test_vectors.md` M2, M5, M6. -/
theorem test_bus_writes :
    (writeByte 0xD804 0x77 State.reset).peek 0xC804 = some 0x77 ∧ (writeByte 0xD804 0x77 State.reset).dev.via.t1ll = 0x77 ∧
    (writeWord 0xCBFF 0xABCD State.reset).peek 0xCBFF = some 0xAB ∧
    (writeWord 0xCBFF 0xABCD State.reset).peek 0xC800 = some 0xCD ∧
    (writeWord 0xCFFF 0xABCD State.reset).dev.via.orb = 0xCD := by decide +kernel

/-- Writes of the IO chip, register index and value, in order. -/
def writes (l : List (BitVec 4 × Byte)) (d : Devices) : Devices :=
  l.foldl (fun d e => viaWrite (viaReg false e.1) e.2 d) d

/-- A read of the IO chip. -/
def readsAs (r : BitVec 4) (v : Byte) (d : Devices) : Bool := (viaRead (viaReg false r) d).1 == v

/-- `95_test_vectors.md` D1: timer 1 in one-shot mode. -/
theorem test_timer1_one_shot :
    let d := writes [(14, 0xC0), (4, 0x03), (5, 0x00)] Devices.reset
    let d4 := deviceCycles 65521 4 d
    (deviceCycles 65521 3 d).via.t1c = 0 ∧ (deviceCycles 65521 3 d).via.ifr = 0x00 ∧ d4.via.t1c = 0xFFFF ∧
    d4.via.ifr = 0xC0 ∧ d4.via.t1pb7 = true ∧ d4.via.t1int = false ∧ readsAs 4 0xFF d4 = true ∧
    (viaRead .t1CounterLow d4).2.via.ifr = 0x00 ∧ (viaRead .t1CounterLow d4).2.via.t1on = false := by decide +kernel

/-- `95_test_vectors.md` D4: timer 1 in continuous mode, shown on port B. -/
theorem test_timer1_continuous :
    let d := writes [(11, 0xC0), (4, 0x02), (5, 0x00)] Devices.reset
    readsAs 0 0x00 (deviceCycles 65521 2 d) = true ∧ readsAs 0 0x80 (deviceCycles 65521 3 d) = true ∧
    (deviceCycles 65521 3 d).via.t1c = 2 ∧ (deviceCycles 65521 3 d).via.ifr = 0x40 ∧
    readsAs 0 0x00 (deviceCycles 65521 6 d) = true := by decide +kernel

/-- `95_test_vectors.md` D8, D9: the enable and flag registers. -/
theorem test_enables :
    (writes [(14, 0xE4)] Devices.reset).via.ier = 0x64 ∧ (writes [(14, 0xE4), (14, 0x44)] Devices.reset).via.ier = 0x20 ∧
    (let d := deviceCycles 65521 1 (writes [(8, 0x00), (9, 0x00)] Devices.reset)
     d.via.ifr = 0x20 ∧ (writes [(14, 0xA0)] d).via.ifr = 0xA0 ∧ (writes [(14, 0xA0), (13, 0x80)] d).via.ifr = 0xA0 ∧
     (writes [(14, 0xA0), (13, 0x20)] d).via.ifr = 0x00) := by decide +kernel

/-- `95_test_vectors.md` D10: a byte shifted out under the system clock. -/
theorem test_shift_out :
    let d := writes [(11, 0x18), (10, 0xA5)] Devices.reset
    (deviceCycles 65521 1 d).via.sr = 0x4B ∧ (deviceCycles 65521 1 d).via.cb2s = true ∧
    (deviceCycles 65521 8 d).via.sr = 0xA5 ∧ (deviceCycles 65521 8 d).via.ifr = 0x04 ∧
    (deviceCycles 65521 9 d).via.sr = 0xA5 := by decide +kernel

/-- `95_test_vectors.md` D17, D18, D21: the two control lines. -/
theorem test_control_lines :
    (writes [(12, 0xCA)] Devices.reset).via.ca2 = true ∧ (writes [(12, 0xCA)] Devices.reset).via.cb2h = false ∧
    (writes [(12, 0xCA), (1, 0x00)] Devices.reset).via.ca2 = false ∧
    (deviceCycle 65521 (writes [(12, 0xCA), (1, 0x00)] Devices.reset)).via.ca2 = true ∧
    (writes [(12, 0xCA), (15, 0x00)] Devices.reset).via.ca2 = true ∧
    (writes [(12, 0xAE), (0, 0x80)] Devices.reset).via.cb2h = false := by decide +kernel

/-- `95_test_vectors.md` D25, D26, D27: the sound bus. -/
theorem test_sound_bus :
    let d := writes [(1, 0x08), (0, 0x19), (0, 0x01), (1, 0x1F), (0, 0x11)] Devices.reset
    d.psg.select = 8 ∧ d.psg.read 8 = 0x1F ∧ (writes [(1, 0x05)] d).psg.read 8 = 0x05 ∧
    readsAs 1 0x05 (writes [(1, 0x05), (0, 0x01), (1, 0x33), (0, 0x09)] d) = true ∧
    (writes [(1, 0x0E), (0, 0x19), (0, 0x01), (1, 0x00), (0, 0x11)] Devices.reset).psg.read 14 = 0xFF ∧
    (writes [(1, 0x2E), (0, 0x19)] Devices.reset).psg.select = 0 := by decide +kernel

/-- `95_test_vectors.md` G2, G3, G5: the holds. -/
theorem test_holds :
    let d := writes [(0, 0x84), (1, 0x7F)] Devices.reset
    let e := writes [(0, 0x80), (1, 0x40), (0, 0x81), (1, 0x20), (0, 0x82), (1, 0x90)] d
    d.alg.xsh = 255 ∧ d.alg.zsh = 127 ∧ d.alg.dx = 127 ∧ d.alg.dy = 0 ∧ (writes [(0, 0x80)] d).alg.dy = -127 ∧
    e.alg.rsh = 16 ∧ e.alg.dx = 0 ∧ e.alg.dy = -176 ∧ e.alg.compare = true := by decide +kernel

/-- `95_test_vectors.md` G11: the beam draws a segment. -/
theorem test_beam :
    let d := deviceCycles 65521 1 (writes [(12, 0xCE)] (deviceCycles 65521 1 Devices.reset))
    let e := deviceCycles 65521 10 (writes [(0, 0x84), (1, 0x7F), (0, 0x80), (1, 0x40), (0, 0x81), (1, 0x20), (12, 0xEE),
      (0, 0x01)] d)
    let f := deviceCycles 65521 1 (writes [(0, 0x81)] e)
    d.alg.vec = none ∧ d.lists.draw = [⟨16500, 20500, 16500, 20500, 0⟩] ∧ e.alg.currX = 16820 ∧ e.alg.currY = 19860 ∧
    f.lists.draw = [⟨16500, 20500, 16500, 20500, 0⟩, ⟨16500, 20500, 16820, 19860, 127⟩] := by decide +kernel

/-- `95_test_vectors.md` L1, L4. -/
theorem test_add_line :
    segmentHash 65521 100 200 300 400 = 35992 ∧ segmentHash 65521 16500 20500 16852 19796 = 9677 ∧
    (let l := addLine 65521 0 0 0 0 3 (addLine 65521 0 0 2113 18 2 (addLine 65521 0 0 0 0 1 Lists.reset))
     l.draw = [⟨0, 0, 0, 0, 1⟩, ⟨0, 0, 2113, 18, 2⟩, ⟨0, 0, 0, 0, 3⟩] ∧ l.slot 0 = 2) := by decide +kernel

/-- `95_test_vectors.md` L2, L3: a segment seen again in the next frame. -/
theorem test_cancel_erase :
    let l := addLine 65521 1 2 3 4 7 (addLine 65521 100 200 300 400 9 (addLine 65521 100 200 300 400 5 Lists.reset))
    let m := addLine 65521 1 2 3 4 7 l.swap
    l.draw = [⟨100, 200, 300, 400, 9⟩, ⟨1, 2, 3, 4, 7⟩] ∧ m.draw = [⟨1, 2, 3, 4, 7⟩] ∧
    m.erase = [⟨100, 200, 300, 400, 9⟩, ⟨1, 2, 3, 4, 128⟩] := by decide +kernel

/-- `95_test_vectors.md` S1a, S4a, S6a: tone, noise and envelope. -/
theorem test_generators :
    ((Psg.reset.write 0 3).ticks 3).tout[0] = true ∧ ((Psg.reset.write 0 3).ticks 6).tout[0] = false ∧
    ((Psg.reset.write 6 1).ticks 2).rng = 0x12000 ∧ ((Psg.reset.write 6 1).ticks 30).rng = 0x12004 ∧
    ((Psg.reset.write 6 1).ticks 28).nout = true ∧ ((Psg.reset.write 6 1).ticks 30).nout = false ∧
    (((Psg.reset.write 11 3).write 13 8).ticks 3).epos = 30 ∧ (((Psg.reset.write 11 3).write 13 8).ticks 8).epos = 29 := by
  decide +kernel

/-- Key codes 4 (button 2) and 9 (channel 1, full scale when pressed, centre when released). -/
def keyed : State :=
  let s := start [] []
  { s with params := { s.params with keymap := [(4, .button 2), (9, .axis 1 .max .center)] } }

/-- `63_sound_chip.md` R544, `62_analog_vector.md` R504: what the collected calls of `Key` leave, and a code that is not in
KEYMAP. -/
theorem test_keys :
    let pressed := beginFrame ((keyed.key 4 true).key 9 true)
    let released := beginFrame ((pressed.key 9 false).key 4 false)
    pressed.dev.psg.read 14 = 0xFB ∧ pressed.dev.alg.jch[1] = 0xFF ∧ pressed.dev.alg.jch[0] = 0x80 ∧
    pressed.dev.alg.jsh = 0x80 ∧ released.dev.psg.read 14 = 0xFF ∧ released.dev.alg.jch[1] = 0x80 ∧
    (beginFrame (keyed.key 5 true)).dev = keyed.dev := by
  refine ⟨?_, ?_, ?_, ?_, ?_, ?_, ?_⟩ <;> decide +kernel

/-- `70_reset_and_hazards.md` R604: the registers are delivered at a frame boundary under the live-debug flag alone. -/
theorem test_snapshot :
    (frameCount 30001 ((start [(.a, 7)] []).setLiveDebug true)).host.snapshot = some (start [(.a, 7)] []).cpu ∧
    (frameCount 30001 (start [(.a, 7)] [])).host.snapshot = none ∧
    (frameCount 30000 ((start [(.a, 7)] []).setLiveDebug true)).host.snapshot = none := by decide +kernel

/-- `95_test_vectors.md` R1, R2: Reset of a disturbed machine, twice. -/
theorem test_reset :
    let s := put (put (writeByte 0xC800 0x55 (start [] [(0xFFFE, [0xF0, 0x00])])) (.a, 0x12)) (.pc, 0x1234)
    s.doReset.cpu = Cpu.reset 0x50 0xF000 ∧ s.doReset.peek 0xC800 = some 0x00 ∧ s.doReset.fcycles = 30000 ∧
    s.doReset.doReset = s.doReset := by decide +kernel

/-! ### Witnesses: for every obligation with hypotheses, a case that meets them -/

/-- A CPU whose entire frame fills 0xC900 to 0xC90B. -/
def cpuA : Cpu :=
  { a := 1, b := 2, dp := 3, cc := 0x0A, x := 0x0405, y := 0x0607, u := 0x0809, s := 0xC90C, pc := 0x2000, wait := .normal }

/-- Its entire frame in memory at S. -/
def frameA : State := start [(.s, 0xC900), (.u, 0xC900)] [(0xC900, (cpuA.withE true).entireFrame)]

/-- Its short frame in memory at S. -/
def frameB : State := start [(.s, 0xC900)] [(0xC900, (cpuA.withE false).shortFrame)]

theorem witness_TransferAndExchange : codeName 8 = some .a ∧ codeName 1 = some .x ∧ RegName.x ∉ codeWrites 8 := by decide

/-- A or B exchanged with D, either way (`40_load_store_transfer.md` R202). -/
theorem test_exchange_shared :
    let s := start [(.d, 0x1234)] []
    ((exchange 8 0 s).cpu.d, (exchange 0 8 s).cpu.d, (exchange 9 0 s).cpu.d, (exchange 0 9 s).cpu.d)
      = (0x3412, 0xFF12, 0xFF34, 0xFF34) := by decide +kernel

theorem witness_PushStacksRegisters : avoidsIo ((start [(.s, 0xC90C)] []).getSp .hw - 12) (listBytes 0xFF) ∧
    avoidsIo 0xCFFF 1 := by
  unfold avoidsIo; decide +kernel

theorem witness_PullRestoresRegisters : bytesAt (frameA.getSp .user) (listContents .user 0xFF
    { cpuA.withE true with s := 0x0809 }) frameA := by
  unfold bytesAt; decide +kernel

theorem witness_PullUndoesPush : inRam ((start [(.s, 0xC90C)] []).getSp .hw - BitVec.ofNat 16 (listBytes 0xFF))
    (listBytes 0xFF) := by
  unfold inRam; decide +kernel

theorem witness_DecimalAdjust : let s := start [(.a, 0x10), (.cc, 0x20)] []
    s.cpu.a.toNat = (16 * 0 + 8 + (16 * 0 + 8) + 0) % 256 ∧
    getFlag .c s.cpu.cc = decide (16 * 0 + 8 + (16 * 0 + 8) + 0 > 255) ∧
    getFlag .h s.cpu.cc = decide (8 + 8 + 0 > 15) := by decide +kernel

theorem witness_DecimalAdjust_hundreds : let s := start [(.a, 0x33), (.cc, 0x21)] []
    s.cpu.a.toNat = (16 * 9 + 9 + (16 * 9 + 9) + 1) % 256 ∧
    getFlag .c s.cpu.cc = decide (16 * 9 + 9 + (16 * 9 + 9) + 1 > 255) ∧
    getFlag .h s.cpu.cc = decide (9 + 9 + 1 > 15) := by decide +kernel

theorem witness_ConditionsAfterCompare :
    (∃ t, exec (cmpInstr .a (.imm 1)) State.reset = .next t) ∧ (∃ t, exec (subInstr false .b (.imm 1)) State.reset = .next t) ∧
    (∃ t, exec (cmpReg .x (.imm 1)) State.reset = .next t) ∧ (∃ t, exec (.subd (.imm 1)) State.reset = .next t) :=
  ⟨⟨_, rfl⟩, ⟨_, rfl⟩, ⟨_, rfl⟩, ⟨_, rfl⟩⟩

theorem witness_ReturnUndoesCall : let s := start [(.s, 0xC902)] []
    inRam (s.cpu.s - 2) 2 ∧ inRam ((effectiveAddress (.ext 0x2000) s).2.cpu.s - 2) 2 := by
  unfold inRam; decide +kernel

theorem witness_ReturnFromInterrupt : bytesAt frameA.cpu.s (cpuA.withE true).entireFrame frameA ∧
    bytesAt frameB.cpu.s (cpuA.withE false).shortFrame frameB := by
  unfold bytesAt; decide +kernel

theorem witness_EffectiveAddresses : isIndirect (.zero .x false) = false ∧ isIndirect (.zero .x true) = true ∧
    (let s := start [(.x, 0xC840)] [(0xC840, [0xC8, 0x50])]
     s.peek (directIndexed (.zero .x true) s).1 = some 0xC8 ∧
     s.peek ((directIndexed (.zero .x true) s).1 + 1) = some 0x50) ∧
    (let s := writeWord 0xD004 0x1234 (start [(.x, 0xD004)] [])
     s.peek (directIndexed (.zero .x true) s).1 = none ∧ s.dev.via.t1on = true ∧
     (effectiveAddress (.idx (.zero .x true)) s).1 = 0x1234 ∧
     (effectiveAddress (.idx (.zero .x true)) s).2.dev.via.t1on = false) := by decide +kernel

/-- A running frame with LDA #5 at PC. -/
def runningLda : State :=
  let s := start [(.cc, 0x50)] [(0x1000, [0x86, 0x05])]
  { s with host := { s.host with budget := 100 } }

theorem witness_StepRunsDecodedInstruction : 0 < runningLda.host.budget ∧ readyToRun runningLda ∧
    decode [0x86, 0x05] = .ok (.lda (.imm 5), []) ∧ bytesAt runningLda.cpu.pc [0x86, 0x05] runningLda := by
  unfold readyToRun bytesAt; decide +kernel

/-- A running frame with the undefined postbyte 87 at PC + 1. -/
def runningFault : State :=
  let s := start [] [(0x1000, [0xA6, 0x87])]
  { s with host := { s.host with budget := 100 } }

theorem witness_UndefinedPostbyteFaults : (∃ f, lookup .p1 0xA6 = some (.idx f)) ∧ 0 < runningFault.host.budget ∧
    readyToRun runningFault ∧ decode [0xA6, 0x87] = .error (.undefinedPostbyte 0x87) ∧
    bytesAt runningFault.cpu.pc [0xA6, 0x87] runningFault := by
  refine ⟨⟨_, rfl⟩, ?_⟩
  unfold readyToRun bytesAt; decide +kernel

theorem witness_WaitingStep : ((start [] []).setWait .sync).cpu.wait ≠ .normal ∧
    (let s := (start [(.cc, 0x50)] []).setWait .cwai
     s.cpu.wait ≠ .normal ∧ s.cpu.wait = .cwai ∧ getFlag .i s.cpu.cc = true ∧ getFlag .f s.cpu.cc = true) := by
  decide +kernel

theorem witness_InterruptEntry : let s := start [(.s, 0xC90C), (.cc, 0x40)] []
    getFlag .i s.cpu.cc = false ∧ getFlag .f s.cpu.cc = true ∧ s.cpu.wait ≠ .cwai ∧ (s.setWait .cwai).cpu.wait = .cwai ∧
    getFlag .i (s.setWait .cwai).cpu.cc = false := by decide +kernel

theorem witness_FastInterruptEntry : let s := start [(.s, 0xC90C)] []
    getFlag .f s.cpu.cc = false ∧ s.cpu.wait ≠ .cwai ∧ (s.setWait .cwai).cpu.wait = .cwai := by decide +kernel

theorem witness_MasksAndPriority :
    (let s := start [(.cc, 0x50)] []
     getFlag .i s.cpu.cc = true ∧ getFlag .f s.cpu.cc = true) ∧ getFlag .f (start [] []).cpu.cc = false ∧
    (let s := start [(.cc, 0x40)] []
     getFlag .f s.cpu.cc = true ∧ getFlag .i s.cpu.cc = false) := by decide +kernel

/-- `60_exceptions.md` R405: IRQ asserted and masked by I alone; FIRQ asserted and masked by F alone. -/
theorem witness_MasksAndPriority_one_line :
    (let s := (start [(.cc, 0x10)] []).setWait .sync
     getFlag .i s.cpu.cc = true ∧ getFlag .f s.cpu.cc = false ∧ s.cpu.wait = .sync) ∧
    (let s := (start [(.cc, 0x40)] []).setWait .sync
     getFlag .f s.cpu.cc = true ∧ getFlag .i s.cpu.cc = false ∧ s.cpu.wait = .sync) := by decide +kernel

/-- The example of `60_exceptions.md` R405: SYNC at 0x1000 and NOP after it, CC = 0x10, the IRQ line asserted. -/
theorem test_masked_line_ends_sync :
    givesWait .normal [(.pc, 0x1002), (.cc, 0x10), (.s, 0)] [] 2
      (cpuStep true false ((start [(.pc, 0x1001), (.cc, 0x10)] [(0x1000, [0x13, 0x12])]).setWait .sync)) = true := by
  decide +kernel

theorem witness_ReturnUndoesEntry : let s := start [(.s, 0xC90C)] []
    inRam (s.cpu.s - 12) 12 ∧ inRam (s.cpu.s - 3) 3 ∧ s.cpu.wait ≠ .cwai := by
  unfold inRam; decide +kernel

theorem witness_ResetValues : State.reset.params.ramInit = [] ∧ isRamCell 0 = false := by decide

/-- LDA #5 in a running frame: a step that goes on. -/
theorem witness_stepGoesOn : ∃ t, step runningLda = .next t := by
  have hs : safeStep runningLda = true := by decide +kernel
  unfold safeStep at hs
  split at hs
  · exact ⟨_, by assumption⟩
  · cases hs
  · cases hs

theorem witness_StepKeepsInvariant : ∃ s t : State, s.Inv ∧ step s = .next t := by
  obtain ⟨t, ht⟩ := witness_stepGoesOn
  refine ⟨runningLda, t, ⟨by decide +kernel, ⟨⟨by decide, by decide, by decide⟩, ⟨by decide, by decide, by decide, ?_⟩,
    ⟨by decide, by decide, ?_, ?_, by decide, ?_⟩, ⟨by decide +kernel, by decide⟩⟩⟩, ht⟩
  all_goals
    intro c hc
    exact absurd hc (by simp [runningLda, start, storeCells, storeCell, target, State.setMem, State.setPc, State.setCc,
      put, State.reset, Devices.reset, Alg.reset, Lists.reset])

theorem witness_FrameBoundary : 0 ≤ State.reset.fcycles - 30000 ∧ State.reset.fcycles - 30001 < 0 := by decide

/-- A machine whose frames take a budget of 2. -/
def shortFrames : State :=
  let s := start [(.cc, 0x50)] [(0x1000, [0x86, 0x05])]
  { s with params := { s.params with frameBudget := 2 } }

theorem witness_FrameSchedule : shortFrames.host.budget ≤ 0 ∧ shortFrames.host.mode = .running ∧
    (shortFrames.setMode .paused).host.mode ≠ .running ∧ 0 < runningLda.host.budget ∧
    0 < shortFrames.params.frameBudget ∧
    (match frame 1 shortFrames with
      | some (.next t) => t.host.budget == 0 && t.report == 2
      | _ => false) = true := by decide +kernel

theorem witness_FrameSchedule_keys : keyLine keyed.params.keymap 5 = none ∧
    keyLine keyed.params.keymap 4 = some (.button 2) ∧ keyLine keyed.params.keymap 9 = some (.axis 1 .max .center) := by
  decide +kernel

theorem witness_BusMap : (0x7FFF : Word).toNat < 0x8000 ∧ 0x8000 ≤ (0xBFFF : Word).toNat ∧ (0xBFFF : Word).toNat < 0xC000 ∧
    0xC000 ≤ (0xC7FF : Word).toNat ∧ (0xC7FF : Word).toNat < 0xC800 ∧ 0xC800 ≤ (0xCFFF : Word).toNat ∧
    (0xCFFF : Word).toNat < 0xD000 ∧ 0xD000 ≤ (0xD7FF : Word).toNat ∧ (0xD7FF : Word).toNat < 0xD800 ∧
    0xD800 ≤ (0xDFFF : Word).toNat ∧ (0xDFFF : Word).toNat < 0xE000 ∧ 0xE000 ≤ (0xFFFF : Word).toNat := by decide

theorem witness_ChipReads : (0 : BitVec 4) ≠ 1 ∧ (0 : BitVec 4) ≠ 4 ∧ (0 : BitVec 4) ≠ 8 ∧ (0 : BitVec 4) ≠ 10 := by decide

/-- `61_timer_io_chip.md` R452, R459: port B as read, the enable register as read. -/
theorem test_chip_reads :
    readsAs 0 0xDF (writes [(0, 0xFF)] Devices.reset) = true ∧
    readsAs 0 0xDF (writes [(0, 0xFF), (11, 0x80)] Devices.reset) = true ∧
    readsAs 0 0x5F (writes [(0, 0xFF), (11, 0x80), (5, 0x00)] Devices.reset) = true ∧
    readsAs 14 0xE4 (writes [(14, 0xE4)] Devices.reset) = true ∧
    readsAs 14 0xA0 (writes [(14, 0xE4), (14, 0x44)] Devices.reset) = true := by decide +kernel

theorem witness_TimersAndShifter :
    (let d := writes [(11, 0x40), (4, 0x03), (5, 0x00)] Devices.reset
     d.via.t1on = true ∧ d.via.ifr.getLsbD 6 = false ∧ d.via.acr.getLsbD 6 = true ∧ d.via.t1c.toNat = 3) ∧
    (let d := writes [(4, 0x00), (5, 0x00)] Devices.reset
     d.via.t1on = true ∧ d.via.ifr.getLsbD 6 = false ∧ d.via.acr.getLsbD 6 = false ∧ d.via.t1int = true ∧
     d.via.t1c.toNat = 0) ∧
    (let d := writes [(8, 0x02), (9, 0x01)] Devices.reset
     d.via.t2on = true ∧ d.via.ifr.getLsbD 5 = false ∧ d.via.acr.getLsbD 5 = false ∧ d.via.t2int = true) ∧
    (let d := writes [(11, 0x18), (10, 0xA5)] Devices.reset
     d.via.srb = 0 ∧ d.via.acr.extractLsb' 2 3 = 0b110) := by decide +kernel

theorem witness_SoundBus :
    (let d := writes [(1, 0x08), (0, 0x19), (0, 0x11)] Devices.reset
     (d.via.orb.extractLsb' 3 2).toNat = 2 ∧ d.psg.select ≠ 14) ∧
    (let d := writes [(1, 0x0E), (0, 0x19), (0, 0x11)] Devices.reset
     (d.via.orb.extractLsb' 3 2).toNat = 2 ∧ d.psg.select = 14) ∧
    ((writes [(0, 0x19)] Devices.reset).via.orb.extractLsb' 3 2).toNat = 3 ∧
    ((writes [(0, 0x09)] Devices.reset).via.orb.extractLsb' 3 2).toNat < 2 := by decide +kernel

/-- The reset devices have an open beam after one cycle: a candidate of colour 0 that does not move. -/
theorem witness_BeamStep :
    (writes [(12, 0xCC)] Devices.reset).via.ca2 = false ∧ Devices.reset.via.ca2 = true ∧
    Devices.reset.via.rampSignal = false ∧ (writes [(0, 0x80)] Devices.reset).via.rampSignal = true ∧
    Devices.reset.alg.vec = none ∧ (deviceCycle 65521 Devices.reset).alg.vec = some ⟨16500, 20500, 16500, 20500, 0, 0, 0⟩ ∧
    (deviceCycle 65521 Devices.reset).via.blankSignal = true ∧
    (writes [(12, 0xCE)] (deviceCycle 65521 Devices.reset)).via.blankSignal = false ∧
    (writes [(0, 0x81), (1, 0x20), (0, 0x01)] (deviceCycle 65521 Devices.reset)).alg.dx = 32 := by decide +kernel

theorem witness_SegmentLists :
    (let l := addLine 65521 1 2 3 4 7 Lists.reset
     l.draw[l.slot (segmentHash 65521 1 2 3 4)]? = some ⟨1, 2, 3, 4, 7⟩ ∧
     l.swap.draw[l.swap.slot (segmentHash 65521 1 2 3 4)]? = none ∧ l.swap.draw.length < 2048 ∧
     l.swap.erase[l.swap.slot (segmentHash 65521 1 2 3 4)]? = some ⟨1, 2, 3, 4, 7⟩ ∧ l.draw.length = 1 ∧
     l.slot (segmentHash 65521 1 2 3 4) = 0 ∧ segmentHash 65521 5 6 7 8 ≠ segmentHash 65521 1 2 3 4) ∧
    2048 ≤ (List.replicate 2048 (⟨0, 0, 0, 0, 0⟩ : Segment)).length := by
  refine ⟨by decide +kernel, ?_⟩
  rw [List.length_replicate]

theorem witness_DecodeUndoesEncode : Instr.wf (.leax (.off16 .s 0x8000 true)) = true ∧
    Instr.wf (.undefined .p3 0x10) = true := by decide

theorem witness_DecodedIsWellFormed : decode [0x10, 0xAE, 0x99, 0x12, 0x34, 0x00]
    = .ok (.ldy (.mem (.idx (.off16 .x 0x1234 true))), [0x00]) := by decide +kernel

theorem witness_UndefinedOpcodesDecode : (0x01 : Byte) ≠ 0x10 ∧ (0x01 : Byte) ≠ 0x11 ∧
    isUndefinedOpcode .p1 0x01 = true ∧ isUndefinedOpcode .p2 0x10 = true ∧ isUndefinedOpcode .p1 0xFF = false := by decide

end Sys2Proof.Tests
end

section
/-! PROOFS. The machine's state: what Reset leaves in every unit, and the invariant, at reset and over every step. -/

namespace Sys2Proof.Machine

/-! ### Every step keeps the invariant -/

/-- The invariant speaks of memory and devices alone. -/
theorem State.inv_congr {s t : State} (h : s.Inv) (hm : t.mem = s.mem) (hd : t.dev = s.dev) : t.Inv :=
  ⟨by rw [hm]; exact h.mem, by rw [hd]; exact h.dev⟩

theorem beginFrame_inv {s : State} (h : s.Inv) : (beginFrame s).Inv :=
  ⟨by rw [beginFrame_mem]; exact h.mem, beginFrame_devInv h.dev⟩

theorem dropFirq_inv {s : State} (h : s.Inv) : s.dropFirq.Inv := State.inv_congr h rfl rfl

theorem afterStep_inv {s : State} (h : s.Inv) : (afterStep s).Inv :=
  ⟨by rw [afterStep_mem]; exact h.mem, afterStep_devInv h.dev⟩

/-- A turn keeps the invariant in each of its parts: the start of a frame, the Step with its bus accesses, the device
cycles and the frame counter after it. -/
theorem turn_inv {s t : State} (h : s.Inv) (ht : turn s = .next t) : t.Inv := by
  have hbegin : (if s.host.budget ≤ 0 ∧ s.host.mode = .running then beginFrame s else s).Inv := by
    split
    · exact beginFrame_inv h
    · exact h
  obtain ⟨-, rfl⟩ | ⟨-, u, hu, rfl⟩ := turn_next ht
  · exact hbegin
  · have hstep : u.Inv := inv_busClosed.cpuStep _ _ (dropFirq_inv hbegin) hu
    exact State.inv_congr (afterStep_inv hstep) rfl rfl

/-- Settles O44: one step is one turn of the system loop, and each part of a turn keeps the invariant. -/
theorem stepKeepsInvariant : Obligations.StepKeepsInvariant := by
  unfold Obligations.StepKeepsInvariant
  exact fun _ _ h ht => turn_inv h ht

/-! ### What Reset leaves -/

/-- Reset in one equation: the bus read of the reset vector lies in the ROM, so it has no side effect and gives the
vector's word of the memory before Reset. -/
theorem doReset_eq (s : State) : s.doReset =
    { s with
      cpu := Cpu.reset s.params.ccReset (s.vectorWord 0xFFFE)
      mem := s.mem.resetRam s.params.ramInit
      dev := Devices.reset
      fcycles := s.params.fcyclesInit
      report := 0
      host := { s.host with budget := 0 } } := by
  simp only [State.doReset, readWord_rom 0xFFFE _ (by decide) (by decide)]
  congr 2
  exact vectorWord_congr 0xFFFE (by decide) fun k hk => Memory.get_resetRam _ _ k hk

/-- A key that no entry has holds the default. -/
theorem sparseGet_of_not_listed {α : Type} (dflt : Nat → α) {t : List (Nat × α)} {k : Nat} (h : ∀ c ∈ t, c.1 ≠ k) :
    sparseGet dflt t k = dflt k := by
  induction t with
  | nil => rfl
  | cons c t ih =>
    obtain ⟨hc, ht⟩ := List.forall_mem_cons.mp h
    rw [sparseGet, if_neg hc, ih ht]

/-- With no exception listed, Reset fills RAM with its default bytes (`10_state.md` R61). -/
theorem Memory.get_resetRam_default (m : Memory) {k : Nat} (hk : k < 1024) :
    (m.resetRam []).get (Config.ramBase + k) = BitVec.ofNat 8 k := by
  have hfree : ∀ c ∈ m.resetRam [], c.1 ≠ Config.ramBase + k := by
    intro c hc e
    have hout := (List.mem_filter.mp hc).2
    rw [e, isRamCell_index k hk] at hout
    cases hout
  have hdflt : Config.unlisted (Config.ramBase + k) = BitVec.ofNat 8 k := by simp [Config.unlisted, hk]
  exact (sparseGet_of_not_listed _ hfree).trans hdflt

/-- Every sound register after Reset (`10_state.md` R65): register 14 has no button pressed, the others are 0. -/
theorem Psg.read_reset (r : BitVec 4) : Psg.reset.read r = if r = 14 then 0xFF else 0 := by
  revert r
  decide

/-- Settles O41: by the equation of Reset the registers of every unit are read off its reset record; ROM, cartridge and
RAM by the filling of RAM. -/
theorem resetValues : Obligations.ResetValues := by
  unfold Obligations.ResetValues
  intro s
  rw [doReset_eq]
  refine ⟨rfl, ?cpu, ?images, ?ram, ?via, ?alg, rfl, rfl, fun _ => rfl, ?psg, rfl⟩
  case cpu => exact ⟨rfl, rfl, rfl, rfl, rfl, rfl, rfl, rfl, rfl⟩
  case images => exact fun k hk => Memory.get_resetRam _ _ k hk
  case ram =>
    intro hinit k hk
    simp only [hinit]
    exact Memory.get_resetRam_default s.mem hk
  case via => simp [Devices.reset, Via.reset, Via.t1pb7Byte]
  case alg => simp [Devices.reset, Alg.reset, Alg.compareByte, Alg.vectoring]
  case psg => exact ⟨Psg.read_reset, by simp [Devices.reset, Psg.reset]⟩

/-! ### The invariant at reset -/

theorem Via.inv_reset : Via.reset.Inv where
  srb := Nat.le_refl 8
  ier := rfl
  ifr := by decide

/-- No segment is open at reset, so nothing is said of a candidate. -/
theorem Alg.inv_reset : Alg.reset.Inv where
  zsh := Nat.zero_le 127
  dx := rfl
  dy := rfl
  vec := fun _ hc => nomatch hc

theorem Lists.inv_reset : Lists.reset.Inv where
  drawLength := Nat.zero_le _
  eraseLength := Nat.zero_le _
  draw := List.forall_mem_nil _
  erase := List.forall_mem_nil _
  hashWf := rfl
  hash := List.forall_mem_nil _

theorem Psg.inv_reset : Psg.reset.Inv where
  reg := by decide
  eatt := .inl rfl

theorem Devices.inv_reset : Devices.reset.Inv := ⟨Via.inv_reset, Alg.inv_reset, Lists.inv_reset, Psg.inv_reset⟩

/-- Settles O43: memory lists nothing and each device's reset record meets its invariant. -/
theorem resetMeetsInvariant : Obligations.ResetMeetsInvariant := by
  unfold Obligations.ResetMeetsInvariant
  exact ⟨rfl, Devices.inv_reset⟩

end Sys2Proof.Machine
end

section
/-! PROOFS. The memories: what no step changes, what every address reads as and writes to, and what the registers of the
timer/IO chip read as. -/

namespace Sys2Proof.Machine

/-! ### No step changes ROM, cartridge or a parameter -/

/-- What bus accesses keep, a whole turn keeps, where the start of a frame, the used-up FIRQ value and the end of the turn
keep it too. -/
theorem BusClosed.turn {P : State → Prop} (C : BusClosed P) (hbegin : ∀ s, P s → P (beginFrame s))
    (hdrop : ∀ s, P s → P s.dropFirq) (hend : ∀ s, P s → P (endTurn s)) {s t : State} (h : P s)
    (ht : Machine.turn s = .next t) : P t := by
  have hstart : P (if s.host.budget ≤ 0 ∧ s.host.mode = .running then beginFrame s else s) := by
    split
    · exact hbegin s h
    · exact h
  obtain ⟨-, rfl⟩ | ⟨-, u, hu, rfl⟩ := turn_next ht
  · exact hstart
  · have hstep : P u := C.cpuStep _ _ (hdrop _ hstart) hu
    simpa [endTurn] using hend u hstep

/-- ROM, cartridge and parameters are read off memory and parameters alone. -/
theorem keepsImages_congr {s0 s t : State} (hm : t.mem = s.mem) (hp : t.params = s.params) (h : keepsImages s0 s) :
    keepsImages s0 t :=
  ⟨by rw [hm]; exact h.1, by rw [hp]; exact h.2⟩

/-- Settles O45: bus writes change RAM cells alone, and the rest of a turn touches neither memory nor a parameter. -/
theorem stepKeepsRomAndCartridge : Obligations.StepKeepsRomAndCartridge := by
  unfold Obligations.StepKeepsRomAndCartridge
  intro s t ht
  exact (keepsImages_busClosed s).turn
    (fun u => keepsImages_congr (beginFrame_mem u) (beginFrame_params u))
    (fun _ => keepsImages_congr rfl rfl)
    (fun u => keepsImages_congr (afterStep_mem u) (afterStep_params u))
    ⟨fun _ _ => rfl, rfl⟩ ht

/-! ### What each range of addresses selects (`20_memory.md` R90, R91) -/

/-- The top three address bits as a number. -/
theorem topBits_eq_iff (a : Word) (k : BitVec 3) : a.extractLsb' 13 3 = k ↔ a.toNat / 8192 = k.toNat := by
  have := a.isLt
  rw [← BitVec.toNat_inj, BitVec.extractLsb'_toNat, Nat.shiftRight_eq_div_pow, Nat.mod_eq_of_lt (by omega)]

/-- An address bit as a number. -/
theorem addrBit_eq (a : Word) (k : Nat) : a.getLsbD k = decide (a.toNat / 2 ^ k % 2 = 1) :=
  Nat.testBit_eq_decide_div_mod_eq

/-- The register an IO address names, as the low digits of the address. -/
theorem ioIndex_eq (a : Word) : a.extractLsb' 0 4 = BitVec.ofNat 4 a.toNat := by
  simp [← BitVec.toNat_inj, BitVec.extractLsb'_toNat]

/-- The RAM cell an address names: RAM repeats every 1024 bytes. -/
theorem ramCell_eq (a : Word) : Config.ramBase + (a.extractLsb' 0 10).toNat = 0xC800 + a.toNat % 1024 := by
  simp [Config.ramBase, BitVec.extractLsb'_toNat]

/-- Below 0xC000 address bit 15 decides between cartridge and nothing. -/
theorem target_low {a : Word} (h : a.toNat < 0xC000) :
    target a = if a.toNat < 0x8000 then .cart a.toNat else .unmapped := by
  have h7 : ¬ a.extractLsb' 13 3 = 0b111 := by rw [topBits_eq_iff]; bv_omega
  have h6 : ¬ a.extractLsb' 13 3 = 0b110 := by rw [topBits_eq_iff]; bv_omega
  have h15 : a.getLsbD 15 = false ↔ a.toNat < 0x8000 := by rw [addrBit_eq, decide_eq_false_iff_not]; omega
  rw [target, if_neg h7, if_neg h6]
  simp only [h15]

/-- From 0xC000 to 0xDFFF address bit 11 selects RAM and address bit 12 the IO chip. -/
theorem target_middle {a : Word} (h : 0xC000 ≤ a.toNat) (h' : a.toNat < 0xE000) :
    target a =
      if a.toNat / 2048 % 2 = 1 then
        if a.toNat / 4096 % 2 = 1 then .ramIo (0xC800 + a.toNat % 1024) (BitVec.ofNat 4 a.toNat)
        else .ram (0xC800 + a.toNat % 1024)
      else if a.toNat / 4096 % 2 = 1 then .io (BitVec.ofNat 4 a.toNat) else .unmapped := by
  have h7 : ¬ a.extractLsb' 13 3 = 0b111 := by rw [topBits_eq_iff]; bv_omega
  have h6 : a.extractLsb' 13 3 = 0b110 := by rw [topBits_eq_iff]; bv_omega
  rw [target, if_neg h7, if_pos h6]
  simp only [ramCell_eq, ioIndex_eq, addrBit_eq, decide_eq_true_eq, Nat.reducePow]

/-- From 0xE000 up an address selects the ROM. -/
theorem target_high {a : Word} (h : 0xE000 ≤ a.toNat) : target a = .rom a.toNat := by
  have := a.isLt
  have h7 : a.extractLsb' 13 3 = 0b111 := by rw [topBits_eq_iff]; bv_omega
  rw [target, if_pos h7]

/-- Settles O48: each range of addresses selects one target, and the target says what a read and a write do. -/
theorem busMap : Obligations.BusMap := by
  unfold Obligations.BusMap
  intro a v s
  refine ⟨fun h => ?cart, fun h h' => ?gap, fun h h' => ?unmapped, fun h h' => ?ram, fun h h' => ?io,
    fun h h' => ?ramIo, fun h => ?rom⟩
  case cart =>
    have ht : target a = .cart a.toNat := by rw [target_low (by omega), if_pos h]
    simp only [readByte, writeByte, ht, and_self]
  case gap =>
    have ht : target a = .unmapped := by rw [target_low h', if_neg (by omega)]
    simp only [readByte, writeByte, ht, and_self]
  case unmapped =>
    have ht : target a = .unmapped := by
      rw [target_middle h (by omega), if_neg (by omega), if_neg (by omega)]
    simp only [readByte, writeByte, ht, and_self]
  case ram =>
    have ht : target a = .ram (0xC800 + a.toNat % 1024) := by
      rw [target_middle (by omega) (by omega), if_pos (by omega), if_neg (by omega)]
    simp only [readByte, writeByte, ht, State.setMem, and_self]
  case io =>
    have ht : target a = .io (BitVec.ofNat 4 a.toNat) := by
      rw [target_middle (by omega) (by omega), if_neg (by omega), if_pos (by omega)]
    simp only [readByte, writeByte, ht, State.setDev, and_self]
  case ramIo =>
    have ht : target a = .ramIo (0xC800 + a.toNat % 1024) (BitVec.ofNat 4 a.toNat) := by
      rw [target_middle (by omega) h', if_pos (by omega), if_pos (by omega)]
    simp only [readByte, writeByte, ht, State.setMem, State.setDev, and_self]
  case rom =>
    simp only [readByte, writeByte, target_high h, and_self]

/-! ### What the registers of the timer/IO chip read as -/

/-- Only four registers have a read with a side effect. -/
theorem viaRead_state_of_quiet {r : ViaReg} (hA : r ≠ .portA) (h1 : r ≠ .t1CounterLow) (h2 : r ≠ .t2CounterLow)
    (hs : r ≠ .shift) (d : Devices) : (viaRead r d).2 = d := by
  cases r with
  | portA => exact absurd rfl hA
  | t1CounterLow => exact absurd rfl h1
  | t2CounterLow => exact absurd rfl h2
  | shift => exact absurd rfl hs
  | _ => rfl

/-- The registers with a side effect stand at indices 1, 4, 8 and 10, however the flag and enable rows are placed. -/
theorem viaReg_quiet : ∀ (sw : Bool) (r : BitVec 4), r ≠ 1 → r ≠ 4 → r ≠ 8 → r ≠ 10 →
    viaReg sw r ≠ .portA ∧ viaReg sw r ≠ .t1CounterLow ∧ viaReg sw r ≠ .t2CounterLow ∧ viaReg sw r ≠ .shift := by
  decide

/-- The flag register's index, under either placement of its row (`61_timer_io_chip.md` R441). -/
theorem viaReg_flagIndex (sw : Bool) : viaReg sw (if sw then 14 else 13) = .ifr := by cases sw <;> rfl

/-- The enable register's index, under either placement of its row (`61_timer_io_chip.md` R441). -/
theorem viaReg_enableIndex (sw : Bool) : viaReg sw (if sw then 13 else 14) = .ier := by cases sw <;> rfl

/-- The bits of the comparator's byte: bit 5 alone can be set. -/
theorem Alg.getLsbD_compareByte (g : Alg) {k : Nat} (hk : k < 8) :
    g.compareByte.getLsbD k = (decide (k = 5) && g.compare) := by
  unfold Alg.compareByte
  cases g.compare <;> interval_cases k <;> rfl

/-- The bits of the toggle's byte: bit 7 alone can be set. -/
theorem Via.getLsbD_t1pb7Byte (v : Via) {k : Nat} (hk : k < 8) :
    v.t1pb7Byte.getLsbD k = (decide (k = 7) && v.t1pb7) := by
  unfold Via.t1pb7Byte
  cases v.t1pb7 <;> interval_cases k <;> rfl

/-- Port B as read, bit by bit (`61_timer_io_chip.md` R452). -/
theorem Devices.getLsbD_portBByte (d : Devices) {k : Nat} (hk : k < 8) :
    d.portBByte.getLsbD k = if k = 5 then d.alg.compare
      else if k = 7 ∧ d.via.acr.getLsbD 7 = true then d.via.t1pb7 else d.via.orb.getLsbD k := by
  have keep5F : (0x5F : Byte).getLsbD k = (decide (k ≠ 5) && decide (k ≠ 7)) := by interval_cases k <;> rfl
  have keepDF : (0xDF : Byte).getLsbD k = decide (k ≠ 5) := by interval_cases k <;> rfl
  unfold Devices.portBByte
  by_cases hacr : d.via.acr.getLsbD 7 = true
  · rw [if_pos hacr]
    simp only [BitVec.getLsbD_or, BitVec.getLsbD_and, keep5F, Via.getLsbD_t1pb7Byte _ hk,
      Alg.getLsbD_compareByte _ hk, hacr, and_true]
    by_cases h5 : k = 5
    · simp [h5]
    · by_cases h7 : k = 7 <;> simp [h5, h7]
  · rw [if_neg hacr]
    simp only [BitVec.getLsbD_or, BitVec.getLsbD_and, keepDF, Alg.getLsbD_compareByte _ hk, hacr]
    by_cases h5 : k = 5 <;> simp [h5]

/-- Two neighbouring bits that read a given pair. -/
theorem extractLsb'_two_eq_iff (b : Byte) (k : Nat) (c : BitVec 2) :
    b.extractLsb' k 2 = c ↔ b.getLsbD (k + 1) = c.getLsbD 1 ∧ b.getLsbD k = c.getLsbD 0 := by
  constructor
  · rintro rfl
    simp
  · rintro ⟨h1, h0⟩
    ext i hi
    interval_cases i
    · simpa using h0
    · simpa using h1

/-- Port A as read: the sound chip drives it in the send state (`61_timer_io_chip.md` R453). -/
theorem Devices.portAByte_eq (d : Devices) : d.portAByte =
    if d.via.orb.getLsbD 4 = false ∧ d.via.orb.getLsbD 3 = true then d.psg.read d.psg.select else d.via.ora :=
  if_congr (extractLsb'_two_eq_iff d.via.orb 3 1) rfl rfl

/-- The handshake of a port-A access changes line CA2 alone (`61_timer_io_chip.md` R453). -/
theorem Via.pulseCa2_eq (v : Via) : v.pulseCa2 =
    { v with ca2 := if v.pcr.getLsbD 3 = true ∧ v.pcr.getLsbD 2 = false then false else v.ca2 } := by
  have hmode : v.ca2Handshakes = true ↔ v.pcr.getLsbD 3 = true ∧ v.pcr.getLsbD 2 = false :=
    beq_iff_eq.trans (extractLsb'_two_eq_iff v.pcr 2 2)
  unfold Via.pulseCa2
  by_cases h : v.ca2Handshakes = true
  · rw [if_pos h, if_pos (hmode.mp h)]
  · rw [if_neg h, if_neg (mt hmode.mpr h)]

/-- The enable register reads with bit 7 set (`61_timer_io_chip.md` R459). -/
theorem getLsbD_or_bit7 (b : Byte) {k : Nat} (hk : k < 8) :
    (b ||| 0x80).getLsbD k = (decide (k = 7) || b.getLsbD k) := by
  have bit : (0x80 : Byte).getLsbD k = decide (k = 7) := by interval_cases k <;> rfl
  rw [BitVec.getLsbD_or, bit, Bool.or_comm]

/-- Clearing flags leaves the others, and bit 7 follows (`61_timer_io_chip.md` R442). -/
theorem Via.clearFlags_flagByte (mask : Byte) (v : Via) :
    flagByte (fun k => v.ifr.getLsbD k && !mask.getLsbD k) v.ier (v.clearFlags mask).ifr := by
  refine flagByte_congr (fun k hk => ?_) (Via.intUpdate_flagByte { v with ifr := v.ifr &&& ~~~mask })
  have hk8 : k < 8 := by omega
  simp [hk8]

/-- Clearing one flag, `IntUpdate` included. -/
theorem Via.clearFlags_flagByte_bit {mask : Byte} {j : Nat} (hmask : ∀ k < 7, mask.getLsbD k = (k == j)) (v : Via) :
    flagByte (fun k => k != j && v.ifr.getLsbD k) v.ier (v.clearFlags mask).ifr :=
  flagByte_congr (fun k hk => by rw [hmask k hk, Bool.and_comm]; rfl) (Via.clearFlags_flagByte mask v)

/-- Settles O49: each index names its register; the read of that register gives its byte and its side effect. -/
theorem chipReads : Obligations.ChipReads := by
  unfold Obligations.ChipReads
  intro sw d
  refine ⟨?quiet, ?portB, ?portA, ?values, ?handshake, ?timer1, ?timer2, ?shift⟩
  case quiet =>
    intro r h1 h4 h8 h10
    obtain ⟨hA, ht1, ht2, hs⟩ := viaReg_quiet sw r h1 h4 h8 h10
    exact viaRead_state_of_quiet hA ht1 ht2 hs d
  case portB => exact fun k hk => d.getLsbD_portBByte hk
  case portA => exact d.portAByte_eq
  case values =>
    refine ⟨rfl, rfl, hiByte_toNat d.via.t1c, rfl, rfl, hiByte_toNat d.via.t2c, rfl, rfl, ?flags, ?enables⟩
    case flags => simp only [viaReg_flagIndex, viaRead]
    case enables =>
      simp only [viaReg_enableIndex, viaRead]
      exact fun k hk => getLsbD_or_bit7 d.via.ier hk
  case handshake => exact ⟨rfl, congrArg (fun v => { d with via := v }) d.via.pulseCa2_eq⟩
  case timer1 => exact ⟨_, loByte_toNat d.via.t1c, rfl, Via.clearFlags_flagByte_bit (by decide) _⟩
  case timer2 => exact ⟨_, loByte_toNat d.via.t2c, rfl, Via.clearFlags_flagByte_bit (by decide) _⟩
  case shift => exact ⟨_, rfl, rfl, Via.clearFlags_flagByte_bit (by decide) _⟩

end Sys2Proof.Machine
end

section
/-! PROOFS. The decoder: which bytes it reads as which instruction, in one relation; decode and encode; the undefined
opcodes and postbytes. -/

namespace Sys2Proof

/-! ### What the bytes of an operand stand for -/

/-- `bytes` are the offset bytes that complete a postbyte of this form to the mode `m` (`30_encoding.md` R136). -/
def PostForm.reads (form : PostForm) (bytes : List Byte) (m : IdxMode) : Prop :=
  match form with
  | .done m' => bytes = [] ∧ m = m'
  | .byte f => ∃ v, bytes = [v] ∧ m = f v
  | .word f => ∃ h l, bytes = [h, l] ∧ m = f (wordOf h l)
  | .undefined => False

/-- `bytes` are the operand bytes that complete an opcode of this form to the instruction `i` (`30_encoding.md` R121). -/
def Form.reads (form : Form) (bytes : List Byte) (i : Instr) : Prop :=
  match form with
  | .inh j => bytes = [] ∧ i = j
  | .byte f => ∃ v, bytes = [v] ∧ i = f v
  | .word f => ∃ h l, bytes = [h, l] ∧ i = f (wordOf h l)
  | .idx f => ∃ pb offset m, bytes = pb :: offset ∧ (postForm pb).reads offset m ∧ i = f m

/-- `bytes` complete an opcode to the instruction `i`; an opcode without a row takes no operand (`30_encoding.md`
R143). -/
def opcodeReads (page : Page) (op : Byte) (bytes : List Byte) (i : Instr) : Prop :=
  match lookup page op with
  | some form => form.reads bytes i
  | none => bytes = [] ∧ i = .undefined page op

/-- The byte can be the opcode of its page: on page 1 it names no other page (`30_encoding.md` R122). -/
def isOpcode (page : Page) (op : Byte) : Prop := page = .p1 → op ≠ 0x10 ∧ op ≠ 0x11

theorem opcodeReads_row {page : Page} {op : Byte} {form : Form} (h : lookup page op = some form) (bytes : List Byte)
    (i : Instr) : opcodeReads page op bytes i ↔ form.reads bytes i := by
  rw [opcodeReads, h]

theorem opcodeReads_noRow {page : Page} {op : Byte} (h : lookup page op = none) (bytes : List Byte) (i : Instr) :
    opcodeReads page op bytes i ↔ bytes = [] ∧ i = .undefined page op := by
  rw [opcodeReads, h]

theorem isOpcode_of_row {page : Page} {op : Byte} {form : Form} (h : lookup page op = some form) : isOpcode page op := by
  rintro rfl
  constructor <;> rintro rfl <;> cases h

theorem PostForm.reads_word (f : Word → IdxMode) (w : Word) : (PostForm.word f).reads [hiByte w, loByte w] (f w) :=
  ⟨hiByte w, loByte w, rfl, by rw [wordOf_hiByte_loByte]⟩

theorem Form.reads_word (f : Word → Instr) (w : Word) : (Form.word f).reads [hiByte w, loByte w] (f w) :=
  ⟨hiByte w, loByte w, rfl, by rw [wordOf_hiByte_loByte]⟩

theorem Form.reads_idx {f : IdxMode → Instr} {pb : Byte} {offset : List Byte} {m : IdxMode}
    (h : (postForm pb).reads offset m) : (Form.idx f).reads (pb :: offset) (f m) := ⟨pb, offset, m, rfl, h, rfl⟩

/-! ### The decoder of a byte list reads just that -/

@[simp] theorem ByteList.next_cons (b : Byte) (bs : List Byte) (st : Bool) :
    ByteList.next ⟨b :: bs, st⟩ = (b, ⟨bs, st⟩) := rfl

@[simp] theorem ByteList.next_nil (st : Bool) : ByteList.next ⟨[], st⟩ = (0, ⟨[], true⟩) := rfl

/-- A list that has run out does not decode. -/
theorem decodeOpcode_starved_ne (page : Page) (op : Byte) (bs : List Byte) (i : Instr) (rest : List Byte) :
    decodeOpcode ByteList.next page op ⟨bs, true⟩ ≠ .ok i ⟨rest, false⟩ := by
  intro h
  have hk : (decodeOpcode ByteList.next page op ⟨bs, true⟩).rest.starved = true :=
    decodeOpcode_keeps (P := fun l : ByteList => l.starved = true) (fun _ => ByteList.next_starved) page op rfl
  rw [h] at hk
  cases hk

theorem decodeForm_of_reads {form : Form} {bytes : List Byte} {i : Instr} (h : form.reads bytes i) (rest : List Byte) :
    decodeForm ByteList.next form ⟨bytes ++ rest, false⟩ = .ok i ⟨rest, false⟩ := by
  cases form with
  | inh j => obtain ⟨rfl, rfl⟩ := h; rfl
  | byte f => obtain ⟨v, rfl, rfl⟩ := h; rfl
  | word f => obtain ⟨h, l, rfl, rfl⟩ := h; rfl
  | idx f =>
    obtain ⟨pb, offset, m, rfl, hm, rfl⟩ := h
    simp only [decodeForm, decodeIndexed, List.cons_append, ByteList.next_cons]
    cases hp : postForm pb with
    | done m' => rw [hp] at hm; obtain ⟨rfl, rfl⟩ := hm; rfl
    | byte g => rw [hp] at hm; obtain ⟨v, rfl, rfl⟩ := hm; rfl
    | word g => rw [hp] at hm; obtain ⟨h, l, rfl, rfl⟩ := hm; rfl
    | undefined => rw [hp] at hm; exact hm.elim

theorem reads_of_decodeForm {form : Form} {bs rest : List Byte} {i : Instr}
    (h : decodeForm ByteList.next form ⟨bs, false⟩ = .ok i ⟨rest, false⟩) :
    ∃ bytes, bs = bytes ++ rest ∧ form.reads bytes i := by
  cases form with
  | inh j => cases h; exact ⟨[], rfl, rfl, rfl⟩
  | byte f =>
    match bs, h with
    | v :: _, rfl => exact ⟨[v], rfl, v, rfl, rfl⟩
  | word f =>
    match bs, h with
    | h :: l :: _, rfl => exact ⟨[h, l], rfl, h, l, rfl, rfl⟩
  | idx f =>
    match bs with
    | [] => cases h
    | pb :: bs =>
      simp only [decodeForm, decodeIndexed, ByteList.next_cons] at h
      cases hp : postForm pb with
      | done m =>
        rw [hp] at h
        cases h
        exact ⟨[pb], rfl, Form.reads_idx (offset := []) (by rw [hp]; exact ⟨rfl, rfl⟩)⟩
      | byte g =>
        rw [hp] at h
        match bs, h with
        | v :: _, rfl => exact ⟨[pb, v], rfl, Form.reads_idx (by rw [hp]; exact ⟨v, rfl, rfl⟩)⟩
      | word g =>
        rw [hp] at h
        match bs, h with
        | h :: l :: _, rfl => exact ⟨[pb, h, l], rfl, Form.reads_idx (by rw [hp]; exact ⟨h, l, rfl, rfl⟩)⟩
      | undefined => rw [hp] at h; cases h

/-- The page's byte, where it has one, and the opcode lead to the opcode's row. -/
theorem decodeFrom_opcode {page : Page} {op : Byte} (hop : isOpcode page op) (bs : List Byte) :
    decodeFrom ByteList.next ⟨pageBytes page ++ op :: bs, false⟩ = decodeOpcode ByteList.next page op ⟨bs, false⟩ := by
  cases page with
  | p1 =>
    obtain ⟨h2, h3⟩ := hop rfl
    exact (if_neg h2).trans (if_neg h3)
  | p2 => rfl
  | p3 => rfl

theorem decode_of_reads {page : Page} {op : Byte} {bytes : List Byte} {i : Instr} (hop : isOpcode page op)
    (h : opcodeReads page op bytes i) (rest : List Byte) :
    decode (pageBytes page ++ op :: (bytes ++ rest)) = .ok (i, rest) := by
  rw [decode_ok_iff, decodeFrom_opcode hop, decodeOpcode]
  cases hl : lookup page op with
  | some form => exact decodeForm_of_reads ((opcodeReads_row hl _ _).mp h) rest
  | none =>
    obtain ⟨rfl, rfl⟩ := (opcodeReads_noRow hl _ _).mp h
    rfl

/-- A list that decodes begins with the page's byte, if it has one, and an opcode. -/
theorem opcode_of_decode {bs rest : List Byte} {i : Instr} (h : decode bs = .ok (i, rest)) :
    ∃ page op tail, isOpcode page op ∧ bs = pageBytes page ++ op :: tail := by
  rw [decode_ok_iff] at h
  match bs with
  | [] => exact (decodeOpcode_starved_ne .p1 0 [] i rest h).elim
  | b :: bs =>
    by_cases h2 : b = 0x10
    · subst h2
      match bs with
      | [] => exact (decodeOpcode_starved_ne .p2 0 [] i rest h).elim
      | op :: tail => exact ⟨.p2, op, tail, nofun, rfl⟩
    · by_cases h3 : b = 0x11
      · subst h3
        match bs with
        | [] => exact (decodeOpcode_starved_ne .p3 0 [] i rest h).elim
        | op :: tail => exact ⟨.p3, op, tail, nofun, rfl⟩
      · exact ⟨.p1, b, bs, fun _ => ⟨h2, h3⟩, rfl⟩

theorem reads_of_decode {bs rest : List Byte} {i : Instr} (h : decode bs = .ok (i, rest)) :
    ∃ page op bytes, isOpcode page op ∧ bs = pageBytes page ++ op :: (bytes ++ rest) ∧ opcodeReads page op bytes i := by
  obtain ⟨page, op, tail, hop, rfl⟩ := opcode_of_decode h
  rw [decode_ok_iff, decodeFrom_opcode hop, decodeOpcode] at h
  cases hl : lookup page op with
  | some form =>
    rw [hl] at h
    obtain ⟨bytes, rfl, hr⟩ := reads_of_decodeForm h
    exact ⟨page, op, bytes, hop, rfl, (opcodeReads_row hl _ _).mpr hr⟩
  | none =>
    rw [hl] at h
    cases h
    exact ⟨page, op, [], hop, rfl, (opcodeReads_noRow hl _ _).mpr ⟨rfl, rfl⟩⟩

/-! ### The encoder writes bytes that read as its instruction -/

/-- The bits of a postbyte with a 5-bit offset (`30_encoding.md` R131). -/
theorem off5_postbyte (r : IReg) : ∀ n : BitVec 5, (r.code ||| n.setWidth 8).getLsbD 7 = false ∧
    iregOf ((r.code ||| n.setWidth 8).extractLsb' 5 2) = r ∧ (r.code ||| n.setWidth 8).extractLsb' 0 5 = n := by
  cases r <;> decide

theorem postForm_off5 (r : IReg) (n : BitVec 5) : postForm (r.code ||| n.setWidth 8) = .done (.off5 r n) := by
  obtain ⟨h7, hr, hn⟩ := off5_postbyte r n
  simp only [postForm, h7, hr, hn, if_true]

/-- The bytes of an indexed mode read as that mode. -/
theorem encodeIdx_reads (m : IdxMode) :
    ∃ pb offset, encodeIdx m = pb :: offset ∧ (postForm pb).reads offset m := by
  cases m with
  | off5 r n => exact ⟨_, [], rfl, by rw [postForm_off5]; exact ⟨rfl, rfl⟩⟩
  | postInc1 r => exact ⟨_, [], rfl, by cases r <;> exact ⟨rfl, rfl⟩⟩
  | postInc2 r ind => exact ⟨_, [], rfl, by cases r <;> cases ind <;> exact ⟨rfl, rfl⟩⟩
  | preDec1 r => exact ⟨_, [], rfl, by cases r <;> exact ⟨rfl, rfl⟩⟩
  | preDec2 r ind => exact ⟨_, [], rfl, by cases r <;> cases ind <;> exact ⟨rfl, rfl⟩⟩
  | zero r ind => exact ⟨_, [], rfl, by cases r <;> cases ind <;> exact ⟨rfl, rfl⟩⟩
  | accB r ind => exact ⟨_, [], rfl, by cases r <;> cases ind <;> exact ⟨rfl, rfl⟩⟩
  | accA r ind => exact ⟨_, [], rfl, by cases r <;> cases ind <;> exact ⟨rfl, rfl⟩⟩
  | off8 r n ind => exact ⟨_, [n], rfl, by cases r <;> cases ind <;> exact ⟨n, rfl, rfl⟩⟩
  | off16 r n ind => exact ⟨_, _, rfl, by cases r <;> cases ind <;> exact PostForm.reads_word _ n⟩
  | accD r ind => exact ⟨_, [], rfl, by cases r <;> cases ind <;> exact ⟨rfl, rfl⟩⟩
  | pcr8 n ind => exact ⟨_, [n], rfl, by cases ind <;> exact ⟨n, rfl, rfl⟩⟩
  | pcr16 n ind => exact ⟨_, _, rfl, by cases ind <;> exact PostForm.reads_word _ n⟩
  | extInd p => exact ⟨_, _, rfl, PostForm.reads_word _ p⟩

theorem Form.reads_encodeIdx (f : IdxMode → Instr) (m : IdxMode) : (Form.idx f).reads (encodeIdx m) (f m) := by
  obtain ⟨pb, offset, he, hr⟩ := encodeIdx_reads m
  rw [he]
  exact Form.reads_idx hr

/-- The encoding of `i` is the page's byte, if it has one, an opcode and the bytes that complete the opcode to `i`. -/
def encodesRead (i : Instr) : Prop :=
  ∃ page op bytes, isOpcode page op ∧ encode i = pageBytes page ++ op :: bytes ∧ opcodeReads page op bytes i

theorem encodesRead_of_row {page : Page} {op : Byte} {bytes : List Byte} {form : Form} {i : Instr}
    (he : encode i = pageBytes page ++ op :: bytes) (hl : lookup page op = some form) (hr : form.reads bytes i) :
    encodesRead i :=
  ⟨page, op, bytes, isOpcode_of_row hl, he, (opcodeReads_row hl _ _).mpr hr⟩

section rows

variable {page : Page} {op : Byte}

theorem encodes_inh {i : Instr} (he : encode i = pageBytes page ++ [op]) (hl : lookup page op = some (.inh i)) :
    encodesRead i := encodesRead_of_row he hl ⟨rfl, rfl⟩

theorem encodes_byte {f : Byte → Instr} {v : Byte} (he : encode (f v) = pageBytes page ++ [op, v])
    (hl : lookup page op = some (.byte f)) : encodesRead (f v) := encodesRead_of_row he hl ⟨v, rfl, rfl⟩

theorem encodes_word {f : Word → Instr} {w : Word} (he : encode (f w) = pageBytes page ++ [op, hiByte w, loByte w])
    (hl : lookup page op = some (.word f)) : encodesRead (f w) := encodesRead_of_row he hl (Form.reads_word f w)

theorem encodes_idx {f : IdxMode → Instr} {m : IdxMode} (he : encode (f m) = pageBytes page ++ op :: encodeIdx m)
    (hl : lookup page op = some (.idx f)) : encodesRead (f m) := encodesRead_of_row he hl (Form.reads_encodeIdx f m)

theorem encodes_mem {f : MemOp → Instr} {m : MemOp} {dir idx ext : Byte}
    (he : encode (f m) = pageBytes page ++ encodeMem dir idx ext m)
    (hl : lookup page dir = Form.ofMem f .dir ∧ lookup page idx = Form.ofMem f .idx ∧
      lookup page ext = Form.ofMem f .ext) : encodesRead (f m) := by
  obtain ⟨hd, hi, hx⟩ := hl
  cases m with
  | dir a => exact encodes_byte (f := fun a => f (.dir a)) he hd
  | idx m => exact encodes_idx (f := fun m => f (.idx m)) he hi
  | ext a => exact encodes_word (f := fun a => f (.ext a)) he hx

theorem encodes_opnd8 {f : Opnd8 → Instr} {o : Opnd8} (he : encode (f o) = pageBytes page ++ encodeOpnd8 op o)
    (himm : lookup page op = Form.ofOpnd8 f .imm)
    (hl : lookup page (op + 0x10) = Form.ofOpnd8 f .dir ∧ lookup page (op + 0x20) = Form.ofOpnd8 f .idx ∧
      lookup page (op + 0x30) = Form.ofOpnd8 f .ext) : encodesRead (f o) := by
  cases o with
  | imm v => exact encodes_byte (f := fun v => f (.imm v)) he himm
  | mem m => exact encodes_mem (f := fun m => f (.mem m)) he hl

theorem encodes_opnd16 {f : Opnd16 → Instr} {o : Opnd16} (he : encode (f o) = pageBytes page ++ encodeOpnd16 op o)
    (himm : lookup page op = Form.ofOpnd16 f .imm)
    (hl : lookup page (op + 0x10) = Form.ofOpnd16 f .dir ∧ lookup page (op + 0x20) = Form.ofOpnd16 f .idx ∧
      lookup page (op + 0x30) = Form.ofOpnd16 f .ext) : encodesRead (f o) := by
  cases o with
  | imm w => exact encodes_word (f := fun w => f (.imm w)) he himm
  | mem m => exact encodes_mem (f := fun m => f (.mem m)) he hl

theorem encodes_pair {f : BitVec 4 → BitVec 4 → Instr} {r1 r2 : BitVec 4}
    (he : encode (f r1 r2) = pageBytes page ++ [op, r1 ++ r2]) (hl : lookup page op = some (pairForm f)) :
    encodesRead (f r1 r2) := by
  have h1 : (r1 ++ r2).extractLsb' 4 4 = r1 := BitVec.extractLsb'_append_eq_left
  have h2 : (r1 ++ r2).extractLsb' 0 4 = r2 := BitVec.extractLsb'_append_eq_right
  exact encodesRead_of_row he hl ⟨r1 ++ r2, rfl, by simp only [h1, h2]⟩

end rows

/-! ### Opcodes without a row -/

/-- The opcodes without a row are the listed ones (`30_encoding.md` R143). -/
theorem lookup_isNone {page : Page} {op : Byte} (hop : isOpcode page op) :
    (lookup page op).isNone = isUndefinedOpcode page op := by
  have h1 : ∀ op : Byte, op ≠ 0x10 → op ≠ 0x11 → (lookup .p1 op).isNone = isUndefinedOpcode .p1 op := by decide
  have h2 : ∀ op : Byte, (lookup .p2 op).isNone = isUndefinedOpcode .p2 op := by decide
  have h3 : ∀ op : Byte, (lookup .p3 op).isNone = isUndefinedOpcode .p3 op := by decide
  cases page with
  | p1 => exact h1 op (hop rfl).1 (hop rfl).2
  | p2 => exact h2 op
  | p3 => exact h3 op

/-- A listed page-1 opcode names no other page. -/
theorem isOpcode_of_isUndefinedOpcode {page : Page} {op : Byte} (h : isUndefinedOpcode page op = true) :
    isOpcode page op := by
  rintro rfl
  constructor <;> rintro rfl <;> exact absurd h (by decide)

theorem undefined_reads {page : Page} {op : Byte} (h : isUndefinedOpcode page op = true) :
    opcodeReads page op [] (.undefined page op) := by
  rw [← lookup_isNone (isOpcode_of_isUndefinedOpcode h), Option.isNone_iff_eq_none] at h
  exact (opcodeReads_noRow h _ _).mpr ⟨rfl, rfl⟩

theorem encodes_undefined {page : Page} {op : Byte} (h : isUndefinedOpcode page op = true) :
    encodesRead (.undefined page op) :=
  ⟨page, op, [], isOpcode_of_isUndefinedOpcode h, rfl, undefined_reads h⟩

/-- Each instruction's encoding agrees with the row of its opcode, by the shape of its operand. -/
theorem encodesRead_of_wf (i : Instr) (hwf : i.wf = true) : encodesRead i := by
  cases i with
  | lda o | ldb o | adda o | addb o | adca o | adcb o | suba o | subb o | sbca o | sbcb o | cmpa o | cmpb o
  | anda o | andb o | ora o | orb o | eora o | eorb o | bita o | bitb o =>
    exact encodes_opnd8 (page := .p1) rfl rfl ⟨rfl, rfl, rfl⟩
  | ldd o | ldx o | ldu o | addd o | subd o | cmpx o =>
    exact encodes_opnd16 (page := .p1) rfl rfl ⟨rfl, rfl, rfl⟩
  | ldy o | lds o | cmpd o | cmpy o =>
    exact encodes_opnd16 (page := .p2) rfl rfl ⟨rfl, rfl, rfl⟩
  | cmpu o | cmps o =>
    exact encodes_opnd16 (page := .p3) rfl rfl ⟨rfl, rfl, rfl⟩
  | sta m | stb m | std m | stx m | stu m | neg m | com m | lsr m | ror m | asr m | asl m | rol m | dec m
  | inc m | tst m | clr m | jmp m | jsr m =>
    exact encodes_mem (page := .p1) rfl ⟨rfl, rfl, rfl⟩
  | sty m | sts m =>
    exact encodes_mem (page := .p2) rfl ⟨rfl, rfl, rfl⟩
  | leax m | leay m | leas m | leau m =>
    exact encodes_idx (page := .p1) rfl rfl
  | tfr r1 r2 | exg r1 r2 =>
    exact encodes_pair (page := .p1) rfl rfl
  | pshs v | puls v | pshu v | pulu v | andcc v | orcc v | cwai v | bra v | brn v | bhi v | bls v | bcc v
  | bcs v | bne v | beq v | bvc v | bvs v | bpl v | bmi v | bge v | blt v | bgt v | ble v | bsr v =>
    exact encodes_byte (page := .p1) rfl rfl
  | nega | coma | lsra | rora | asra | asla | rola | deca | inca | tsta | clra | negb | comb | lsrb | rorb
  | asrb | aslb | rolb | decb | incb | tstb | clrb | daa | mul | sex | abx | nop | rts | swi | rti | sync =>
    exact encodes_inh (page := .p1) rfl rfl
  | swi2 =>
    exact encodes_inh (page := .p2) rfl rfl
  | swi3 =>
    exact encodes_inh (page := .p3) rfl rfl
  | lbra w | lbsr w =>
    exact encodes_word (page := .p1) rfl rfl
  | lbrn w | lbhi w | lbls w | lbcc w | lbcs w | lbne w | lbeq w | lbvc w | lbvs w | lbpl w | lbmi w | lbge w
  | lblt w | lbgt w | lble w =>
    exact encodes_word (page := .p2) rfl rfl
  | undefined page op =>
    exact encodes_undefined hwf

/-- Settles O57: the encoding is an opcode and the bytes that complete it, and those decode. -/
theorem decodeUndoesEncode : Obligations.DecodeUndoesEncode := by
  unfold Obligations.DecodeUndoesEncode
  intro i rest hwf
  obtain ⟨page, op, bytes, hop, he, hr⟩ := encodesRead_of_wf i hwf
  rw [he, List.append_assoc, List.cons_append]
  exact decode_of_reads hop hr rest

/-! ### What decodes is well formed -/

/-- Whatever its operand, the form makes a well-formed instruction. -/
def Form.wf (form : Form) : Prop :=
  match form with
  | .inh i => i.wf = true
  | .byte f => ∀ v, (f v).wf = true
  | .word f => ∀ w, (f w).wf = true
  | .idx f => ∀ m, (f m).wf = true

/-- The entry of an opcode table, if there is one, makes well-formed instructions. -/
def rowWf (row : Option Form) : Prop := ∀ form, row = some form → form.wf

@[simp] theorem rowWf_none : rowWf none := nofun

@[simp] theorem rowWf_some (form : Form) : rowWf (some form) ↔ form.wf :=
  ⟨fun h => h form rfl, fun h _ he => Option.some.inj he ▸ h⟩

@[simp] theorem Form.wf_inh (i : Instr) : (Form.inh i).wf ↔ i.wf = true := Iff.rfl
@[simp] theorem Form.wf_byte (f : Byte → Instr) : (Form.byte f).wf ↔ ∀ v, (f v).wf = true := Iff.rfl
@[simp] theorem Form.wf_word (f : Word → Instr) : (Form.word f).wf ↔ ∀ w, (f w).wf = true := Iff.rfl
@[simp] theorem Form.wf_idx (f : IdxMode → Instr) : (Form.idx f).wf ↔ ∀ m, (f m).wf = true := Iff.rfl

theorem rowWf_ofMem {f : MemOp → Instr} (h : ∀ m, (f m).wf = true) (mode : AddrMode) : rowWf (Form.ofMem f mode) := by
  cases mode <;> simp [Form.ofMem, h]

theorem rowWf_ofOpnd8 {f : Opnd8 → Instr} (h : ∀ o, (f o).wf = true) (mode : AddrMode) :
    rowWf (Form.ofOpnd8 f mode) := by
  cases mode <;> simp [Form.ofOpnd8, Form.ofMem, h]

theorem rowWf_ofOpnd16 {f : Opnd16 → Instr} (h : ∀ o, (f o).wf = true) (mode : AddrMode) :
    rowWf (Form.ofOpnd16 f mode) := by
  cases mode <;> simp [Form.ofOpnd16, Form.ofMem, h]

/-! The tables, entry by entry; the last case of each is the opcode without a row. -/

@[simp] theorem row1_wf (lo : Nat) : rowWf (row1 lo) := by unfold row1; split <;> simp [pairForm, Instr.wf]
@[simp] theorem row2_wf (lo : Nat) : rowWf (row2 lo) := by unfold row2; split <;> simp [Instr.wf]
@[simp] theorem row3_wf (lo : Nat) : rowWf (row3 lo) := by unfold row3; split <;> simp [Instr.wf]
@[simp] theorem row4_wf (lo : Nat) : rowWf (row4 lo) := by unfold row4; split <;> simp [Instr.wf]
@[simp] theorem row5_wf (lo : Nat) : rowWf (row5 lo) := by unfold row5; split <;> simp [Instr.wf]
@[simp] theorem longBranchRow_wf (lo : Nat) : rowWf (longBranchRow lo) := by
  unfold longBranchRow; split <;> simp [Instr.wf]

@[simp] theorem memoryColumn_wf (mode : AddrMode) (lo : Nat) : rowWf (memoryColumn mode lo) := by
  unfold memoryColumn
  split
  case h_13 => exact rowWf_none
  all_goals exact rowWf_ofMem (fun _ => rfl) mode

@[simp] theorem columnsA_wf (mode : AddrMode) (lo : Nat) : rowWf (columnsA mode lo) := by
  unfold columnsA
  split
  case h_17 => exact rowWf_none
  case h_14 =>
    split
    · exact (rowWf_some _).mpr fun _ => rfl
    · exact rowWf_ofMem (fun _ => rfl) mode
  case h_8 | h_16 => exact rowWf_ofMem (fun _ => rfl) mode
  case h_4 | h_13 | h_15 => exact rowWf_ofOpnd16 (fun _ => rfl) mode
  all_goals exact rowWf_ofOpnd8 (fun _ => rfl) mode

@[simp] theorem columnsB_wf (mode : AddrMode) (lo : Nat) : rowWf (columnsB mode lo) := by
  unfold columnsB
  split
  case h_17 => exact rowWf_none
  case h_8 | h_14 | h_16 => exact rowWf_ofMem (fun _ => rfl) mode
  case h_4 | h_13 | h_15 => exact rowWf_ofOpnd16 (fun _ => rfl) mode
  all_goals exact rowWf_ofOpnd8 (fun _ => rfl) mode

@[simp] theorem page2Low_wf (mode : AddrMode) (lo : Nat) : rowWf (page2Low mode lo) := by
  unfold page2Low
  split
  case h_5 => exact rowWf_none
  case h_4 => exact rowWf_ofMem (fun _ => rfl) mode
  all_goals exact rowWf_ofOpnd16 (fun _ => rfl) mode

@[simp] theorem page2High_wf (mode : AddrMode) (lo : Nat) : rowWf (page2High mode lo) := by
  unfold page2High
  split
  · exact rowWf_ofOpnd16 (fun _ => rfl) mode
  · exact rowWf_ofMem (fun _ => rfl) mode
  · exact rowWf_none

@[simp] theorem page3Low_wf (mode : AddrMode) (lo : Nat) : rowWf (page3Low mode lo) := by
  unfold page3Low
  split
  case h_3 => exact rowWf_none
  all_goals exact rowWf_ofOpnd16 (fun _ => rfl) mode

@[simp] theorem rowWf_if_inh {c : Prop} [Decidable c] (i : Instr) :
    rowWf (if c then some (.inh i) else none) ↔ (c → i.wf = true) := by
  split <;> simp [*]

theorem lookup_wf (page : Page) (op : Byte) : rowWf (lookup page op) := by
  cases page with
  | p1 => simp only [lookup, lookupPage1]; split <;> simp
  | p2 => simp only [lookup, lookupPage2]; split <;> simp [Instr.wf]
  | p3 => simp only [lookup, lookupPage3]; split <;> simp [Instr.wf]

theorem Form.wf_of_reads {form : Form} {bytes : List Byte} {i : Instr} (hf : form.wf) (h : form.reads bytes i) :
    i.wf = true := by
  cases form with
  | inh j => obtain ⟨-, rfl⟩ := h; exact hf
  | byte f => obtain ⟨v, -, rfl⟩ := h; exact hf v
  | word f => obtain ⟨h, l, -, rfl⟩ := h; exact hf _
  | idx f => obtain ⟨pb, offset, m, -, -, rfl⟩ := h; exact hf m

theorem opcodeReads_wf {page : Page} {op : Byte} {bytes : List Byte} {i : Instr} (hop : isOpcode page op)
    (h : opcodeReads page op bytes i) : i.wf = true := by
  cases hl : lookup page op with
  | some form => exact Form.wf_of_reads (lookup_wf page op form hl) ((opcodeReads_row hl _ _).mp h)
  | none =>
    obtain ⟨-, rfl⟩ := (opcodeReads_noRow hl _ _).mp h
    exact (lookup_isNone hop).symm.trans (by rw [hl]; rfl)

/-- At most two offset bytes follow a postbyte (`30_encoding.md` R136). -/
theorem PostForm.length_of_reads {form : PostForm} {bytes : List Byte} {m : IdxMode} (h : form.reads bytes m) :
    bytes.length ≤ 2 := by
  cases form with
  | done m' => obtain ⟨rfl, -⟩ := h; exact Nat.zero_le 2
  | byte f => obtain ⟨v, rfl, -⟩ := h; exact Nat.le_succ 1
  | word f => obtain ⟨h, l, rfl, -⟩ := h; exact Nat.le_refl 2
  | undefined => exact h.elim

/-- At most three operand bytes follow an opcode (`30_encoding.md` R120). -/
theorem opcodeReads_length {page : Page} {op : Byte} {bytes : List Byte} {i : Instr} (h : opcodeReads page op bytes i) :
    bytes.length ≤ 3 := by
  cases hl : lookup page op with
  | some form =>
    rw [opcodeReads_row hl] at h
    cases form with
    | inh j => obtain ⟨rfl, -⟩ := h; exact Nat.zero_le 3
    | byte f => obtain ⟨v, rfl, -⟩ := h; exact (by decide : 1 ≤ 3)
    | word f => obtain ⟨h, l, rfl, -⟩ := h; exact Nat.le_succ 2
    | idx f =>
      obtain ⟨pb, offset, m, rfl, hm, -⟩ := h
      exact Nat.succ_le_succ (PostForm.length_of_reads hm)
  | none =>
    obtain ⟨rfl, -⟩ := (opcodeReads_noRow hl _ _).mp h
    exact Nat.zero_le 3

theorem pageBytes_length (page : Page) : (pageBytes page).length ≤ 1 := by cases page <;> decide

/-- Settles O58: the bytes used are the page's byte, an opcode and its operand bytes, and those decode before any others. -/
theorem decodedIsWellFormed : Obligations.DecodedIsWellFormed := by
  unfold Obligations.DecodedIsWellFormed
  intro bs rest i h
  obtain ⟨page, op, bytes, hop, rfl, hr⟩ := reads_of_decode h
  have hpage := pageBytes_length page
  have hbytes := opcodeReads_length hr
  have hlen : (pageBytes page ++ op :: bytes).length = (pageBytes page).length + (bytes.length + 1) := by simp
  refine ⟨opcodeReads_wf hop hr, pageBytes page ++ op :: bytes, ?same, ?pos, ?le, fun other => ?other⟩
  case same => rw [List.append_assoc, List.cons_append]
  case pos => omega
  case le => omega
  case other =>
    rw [List.append_assoc, List.cons_append]
    exact decode_of_reads hop hr other

/-- Settles O59: the opcode map has no row for the listed opcodes alone, and such an opcode takes no operand byte. -/
theorem undefinedOpcodesDecode : Obligations.UndefinedOpcodesDecode := by
  unfold Obligations.UndefinedOpcodesDecode
  exact fun page op rest hop => ⟨lookup_isNone hop, fun h => decode_of_reads hop (undefined_reads h) rest⟩

/-- Settles O60: each word is the encoding of its instruction. -/
theorem wordsDecode : Obligations.WordsDecode := by
  unfold Obligations.WordsDecode
  exact ⟨decodeUndoesEncode (.lda (.imm 0x7F)) [] rfl,
    decodeUndoesEncode (.stb (.ext 0xC810)) [] rfl,
    decodeUndoesEncode (.ldy (.mem (.idx (.off16 .x 0x1234 true)))) [] rfl,
    decodeUndoesEncode (.cmpu (.imm 0x1234)) [] rfl,
    decodeUndoesEncode (.inc (.idx (.postInc1 .y))) [] rfl,
    decodeUndoesEncode (.leax (.off5 .x 0x1F)) [] rfl,
    decodeUndoesEncode (.tfr 8 11) [] rfl,
    decodeUndoesEncode (.pshs 0x81) [] rfl,
    decodeUndoesEncode (.lbeq 0x0100) [] rfl,
    decodeUndoesEncode (.jsr (.idx (.extInd 0xC810))) [] rfl,
    decodeUndoesEncode .swi2 [] rfl,
    decodeUndoesEncode (.cwai 0xEF) [] rfl⟩

end Sys2Proof
end

section
/-! PROOFS. Operand addresses: the address of each indexed mode, and what the indirect modes read through the bus. -/

namespace Sys2Proof.Machine

/-! ### Address arithmetic -/

/-- A word added to an address counts as a signed number. -/
theorem toNat_add_signed (a b : Word) : ((a + b).toNat : Int) = (a.toNat + b.toInt) % 65536 := by
  rw [BitVec.toNat_add, BitVec.toInt_eq_toNat_cond]
  split <;> omega

/-- An 8-bit offset is signed. -/
theorem toNat_add_sext8 (a : Word) (v : Byte) : ((a + sext8 v).toNat : Int) = (a.toNat + v.toInt) % 65536 := by
  rw [toNat_add_signed, sext8, BitVec.toInt_signExtend_of_le (by decide)]

/-- A 5-bit offset is signed. -/
theorem toNat_add_sext5 (a : Word) (v : BitVec 5) : ((a + sext5 v).toNat : Int) = (a.toNat + v.toInt) % 65536 := by
  rw [toNat_add_signed, sext5, BitVec.toInt_signExtend_of_le (by decide)]

theorem toNat_add_d (a : Word) (c : Cpu) : (a + c.d).toNat = (a.toNat + 256 * c.a.toNat + c.b.toNat) % 65536 := by
  rw [BitVec.toNat_add, Cpu.d, wordOf_toNat]
  omega

theorem toNat_sub_one (a : Word) : (a - 1).toNat = (a.toNat + 65535) % 65536 := by bv_omega

theorem toNat_sub_two (a : Word) : (a - 2).toNat = (a.toNat + 65534) % 65536 := by bv_omega

/-- Settles O32: mode by mode, the address is the base plus the offset read as a signed number, and the auto modes read
back the register they wrote. -/
theorem indexedAddresses : Obligations.IndexedAddresses := by
  unfold Obligations.IndexedAddresses
  intro r ind s
  refine ⟨fun n => ⟨?off5, rfl⟩, ⟨rfl, ?postInc1⟩, ⟨rfl, ?postInc2⟩, ⟨?preDec1, ?pre1⟩, ⟨?preDec2, ?pre2⟩, rfl,
    ⟨?accB, rfl⟩, ⟨?accA, rfl⟩, ⟨?accD, rfl⟩, fun n => ⟨?off8, rfl⟩, fun n => ⟨?off16, rfl⟩, fun n => ⟨?pcr8, rfl⟩,
    fun n => ⟨?pcr16, rfl⟩⟩
  case off5 => exact toNat_add_sext5 _ n
  case postInc1 => exact (congrArg BitVec.toNat (getIndex_setIndex r _ s)).trans (BitVec.toNat_add _ 1)
  case postInc2 => exact (congrArg BitVec.toNat (getIndex_setIndex r _ s)).trans (BitVec.toNat_add _ 2)
  case preDec1 => exact toNat_sub_one _
  case pre1 => exact getIndex_setIndex r _ s
  case preDec2 => exact toNat_sub_two _
  case pre2 => exact getIndex_setIndex r _ s
  case accB => exact toNat_add_sext8 _ s.cpu.b
  case accA => exact toNat_add_sext8 _ s.cpu.a
  case accD => exact toNat_add_d _ s.cpu
  case off8 => exact toNat_add_sext8 _ n
  case off16 => exact BitVec.toNat_add _ n
  case pcr8 => exact toNat_add_sext8 _ n
  case pcr16 => exact BitVec.toNat_add _ n

/-! ### The pointer an indirect mode reads -/

/-- What a bus read gives and does to the devices depends on memory, devices and parameters alone. -/
theorem readByte_congr {s t : State} (hm : t.mem = s.mem) (hd : t.dev = s.dev) (hp : t.params = s.params) (a : Word) :
    (readByte a t).1 = (readByte a s).1 ∧ (readByte a t).2.dev = (readByte a s).2.dev := by
  unfold readByte
  split <;> simp [hm, hd, hp]

theorem readWord_congr {s t : State} (hm : t.mem = s.mem) (hd : t.dev = s.dev) (hp : t.params = s.params) (a : Word) :
    (readWord a t).1 = (readWord a s).1 ∧ (readWord a t).2.dev = (readWord a s).2.dev := by
  obtain ⟨hh, hd1⟩ := readByte_congr hm hd hp a
  obtain ⟨hl, hd2⟩ := readByte_congr (s := (readByte a s).2) (t := (readByte a t).2) (by simp [hm]) hd1 (by simp [hp])
    (a + 1)
  exact ⟨congrArg₂ wordOf hh hl, hd2⟩

/-- The address a mode computes does not depend on the cycles reported so far. -/
theorem directIndexed_fst_addCycles (m : IdxMode) (n : Nat) (s : State) :
    (directIndexed m (s.addCycles n)).1 = (directIndexed m s).1 := by
  cases m with
  | off5 r _ | postInc1 r | postInc2 r _ | preDec1 r | preDec2 r _ | zero r _ | accB r _ | accA r _ | off8 r _ _
  | off16 r _ _ | accD r _ => cases r <;> rfl
  | pcr8 | pcr16 | extInd => rfl

/-- A direct mode gives its computed address. -/
theorem indexedEa_fst_direct {m : IdxMode} (h : isIndirect m = false) (s : State) :
    (indexedEa m s).1 = (directIndexed m s).1 := by
  simp [indexedEa, h, directIndexed_fst_addCycles]

/-- An indirect mode gives the word at its computed address, with the side effects of reading it
(`30_encoding.md` R135). -/
theorem indexedEa_indirect {m : IdxMode} (h : isIndirect m = true) (s : State) :
    (indexedEa m s).1 = (readWord (directIndexed m s).1 s).1 ∧
      (indexedEa m s).2.dev = (readWord (directIndexed m s).1 s).2.dev := by
  have hread := readWord_congr (s := s) (t := (directIndexed m (s.addCycles (indexedCycles m))).2) (by simp) (by simp)
    (by simp) (directIndexed m s).1
  simpa [indexedEa, h, directIndexed_fst_addCycles] using hread

/-- Settles O33: what an address does to the state is said by the laws of `indexedEa`; the pointer of an indirect mode is
one read of a word. -/
theorem effectiveAddresses : Obligations.EffectiveAddresses := by
  unfold Obligations.EffectiveAddresses
  intro s
  refine ⟨fun a => ⟨?dir, rfl⟩, fun a => rfl, fun m => ?idx, fun p => ⟨rfl, rfl⟩⟩
  case dir => exact (wordOf_toNat s.cpu.dp a).trans (by rw [Nat.mul_comm])
  case idx =>
    refine ⟨indexedEa_cpu m s, indexedEa_report m s, indexedEa_keeps m s,
      keepsMemory_of_mem (indexedEa_mem m s) (indexedEa_params m s),
      fun hd => ⟨indexedEa_fst_direct hd s, indexedEa_dev_direct m s hd⟩, fun hi => indexedEa_indirect hi s, ?plain⟩
    intro hi h l hh hl
    obtain ⟨hea, hdev⟩ := indexedEa_indirect hi s
    rw [readWord_of_peek hh hl] at hea hdev
    refine ⟨?_, hdev⟩
    calc (indexedEa m s).1.toNat = (wordOf h l).toNat := congrArg BitVec.toNat hea
      _ = 256 * h.toNat + l.toNat := by rw [wordOf_toNat, Nat.mul_comm]

end Sys2Proof.Machine
end

section
/-! PROOFS. The Step that runs the bytes at PC: the decoded instruction, or the fault of an undefined postbyte. -/

namespace Sys2Proof.Machine

/-! ### A step that nothing diverts -/

/-- The state in which a ready step fetches: the FIRQ value used up, no cycles reported. -/
def fetchState (s : State) : State := { s.dropFirq with report := 0 }

/-- The CPU's Step of a ready state runs the instruction at PC. -/
theorem cpuStep_ready {s : State} (hr : readyToRun s) :
    cpuStep s.irqLine s.firqLine s.dropFirq = runInstruction (fetchState s) := by
  obtain ⟨hw, hi, hf⟩ := hr
  exact cpuStep_quiet hw hi hf

/-- In a running frame a step is one turn of the loop. -/
theorem step_running {s : State} (hb : 0 < s.host.budget) : step s = frameTurn s := by
  have hnot : ¬ s.host.budget ≤ 0 := by omega
  have hidle : ¬ (s.host.budget ≤ 0 ∧ s.host.mode = .running) := fun h => hnot h.1
  simp only [step, turn, if_neg hidle, if_neg hnot]

theorem step_of_next {s t : State} (hb : 0 < s.host.budget) (hr : readyToRun s)
    (h : runInstruction (fetchState s) = .next t) : step s = .next (endTurn t) := by
  rw [step_running hb, frameTurn, runStep, cpuStep_ready hr, h]
  simp only [endTurn, afterStep_report]

theorem step_of_fault {s : State} {r : Fault} (hb : 0 < s.host.budget) (hr : readyToRun s)
    (h : runInstruction (fetchState s) = .fault r) : step s = .fault r := by
  rw [step_running hb, frameTurn, runStep, cpuStep_ready hr, h]

/-- Bytes that decode to an instruction with none left run it with PC past them. -/
theorem runInstruction_of_decode {s : State} {bs : List Byte} {i : Instr} (hd : decode bs = .ok (i, []))
    (hbs : bytesAt s.cpu.pc bs s) :
    runInstruction s = exec i (s.setPc (s.cpu.pc + BitVec.ofNat 16 bs.length)) := by
  rw [decode_ok_iff] at hd
  obtain hbad | ⟨hout, -, used, hu, hrest⟩ := fetch_alike hbs
  · rw [hd] at hbad
    cases hbad
  · rw [hd] at hout hu
    have hused : bs = used := hu.trans (List.append_nil used)
    rw [runInstruction, Decoded.eq_ok hout.symm, hrest, hused]

/-- Bytes that end in an undefined postbyte fault when they are fetched (`30_encoding.md` R137). -/
theorem runInstruction_of_undefinedPostbyte {s : State} {bs : List Byte} {pb : Byte}
    (hd : decode bs = .error (.undefinedPostbyte pb)) (hbs : bytesAt s.cpu.pc bs s) :
    runInstruction s = .fault (.undefinedPostbyte pb) := by
  obtain ⟨rest, hd⟩ := decode_undefinedPostbyte_iff.mp hd
  obtain hbad | ⟨hout, -⟩ := fetch_alike hbs
  · rw [hd] at hbad
    cases hbad
  · rw [hd] at hout
    rw [runInstruction, Decoded.eq_undefinedPostbyte hout.symm]

/-- Settles O34: the bus gives the decoder the bytes at PC, and every instruction completes. -/
theorem stepRunsDecodedInstruction : Obligations.StepRunsDecodedInstruction := by
  unfold Obligations.StepRunsDecodedInstruction
  intro s bs i hb hr hd hbs
  have hrun := runInstruction_of_decode (s := fetchState s) hd hbs
  obtain ⟨t, ht⟩ := exec_next i ((fetchState s).setPc (s.cpu.pc + BitVec.ofNat 16 bs.length))
  exact ⟨t, ht, step_of_next hb hr (hrun.trans ht)⟩

/-! ### The undefined postbytes -/

/-- The postbyte selects no documented mode. -/
def selectsNoMode (pb : Byte) : Bool :=
  match postForm pb with
  | .undefined => true
  | .done _ | .byte _ | .word _ => false

/-- The postbytes that select no mode are the 39 listed ones (`30_encoding.md` R137). -/
theorem selectsNoMode_eq (pb : Byte) : selectsNoMode pb = undefinedPostbytes.contains pb := by
  revert pb
  decide

theorem decodeIndexed_postbyte_iff (f : IdxMode → Instr) (pb : Byte) :
    (∃ rest, decodeIndexed ByteList.next f ⟨[pb], false⟩ = .undefinedPostbyte pb ⟨rest, false⟩) ↔
      selectsNoMode pb = true := by
  simp only [decodeIndexed, ByteList.next_cons, selectsNoMode]
  cases postForm pb <;> simp

/-- Settles O35: the decoder stops at a postbyte just where the postbyte table has no mode, and the fetch of one faults. -/
theorem undefinedPostbyteFaults : Obligations.UndefinedPostbyteFaults := by
  unfold Obligations.UndefinedPostbyteFaults
  refine ⟨fun page op pb f hl => ?exactly, fun s bs pb hb hr hd hbs => ?faults⟩
  case exactly =>
    rw [decode_undefinedPostbyte_iff, decodeFrom_opcode (isOpcode_of_row hl), decodeOpcode, hl]
    exact (decodeIndexed_postbyte_iff f pb).trans (by rw [selectsNoMode_eq, List.contains_iff_mem])
  case faults => exact step_of_fault hb hr (runInstruction_of_undefinedPostbyte (s := fetchState s) hd hbs)

end Sys2Proof.Machine
end

section
/-! PROOFS. Loads, stores and address loads: one equation for each meaning, then result, flags and frame from the laws
of its operations. -/

namespace Sys2Proof.Machine

/-! ### Which registers a sequence of updates keeps -/

theorem keepsRegisters_trans {w w' : List RegName} {s t u : State} (h : keepsRegisters w s t)
    (h' : keepsRegisters w' t u) : keepsRegisters (w ++ w') s u := by
  intro q hq
  rw [List.mem_append, not_or] at hq
  rw [h' q hq.2, h q hq.1]

theorem setCc_keepsRegisters (v : Byte) (s : State) : keepsRegisters [.cc] s (s.setCc v) := by
  intro q hq
  cases q with
  | cc => exact absurd (List.mem_singleton.mpr rfl) hq
  | _ => rfl

theorem setAcc_keepsRegisters (r : Acc) (v : Byte) (s : State) : keepsRegisters [r.name, .d] s (s.setAcc r v) := by
  intro q hq
  cases r <;> cases q <;> simp [Acc.name] at hq <;> rfl

theorem setReg16_keepsRegisters (r : Reg16) (v : Word) (s : State) : keepsRegisters r.names s (s.setReg16 r v) := by
  intro q hq
  cases r <;> cases q <;> simp [Reg16.names] at hq <;> rfl

theorem setIndex_keepsRegisters (r : IReg) (v : Word) (s : State) : keepsRegisters [iregName r] s (s.setIndex r v) := by
  intro q hq
  cases r <;> cases q <;> simp [iregName] at hq <;> rfl

/-! ### Registers, flags and cycles shared by the moves -/

theorem getReg16_setCc (r : Reg16) (v : Byte) (s : State) : (s.setCc v).getReg16 r = s.getReg16 r := by
  cases r <;> rfl

theorem getReg16_addCycles (r : Reg16) (n : Nat) (s : State) : (s.addCycles n).getReg16 r = s.getReg16 r := by
  cases r <;> rfl


/-- A load or store of 8 bits writes N, Z and V alone. -/
theorem keepsFlags_moveFlags8 {m : Byte} {s t : State} (h : t.cpu.cc = moveFlags8 m s.cpu.cc) :
    keepsFlags [.n, .z, .v] s t := by
  intro fl hfl
  simp only [List.mem_cons, List.not_mem_nil, or_false, not_or] at hfl
  obtain ⟨hn, hz, hv⟩ := hfl
  rw [h, getFlag_moveFlags8, if_neg hv, if_neg hz, if_neg hn]

/-- A load or store of 16 bits writes N, Z and V alone. -/
theorem keepsFlags_moveFlags16 {m : Word} {s t : State} (h : t.cpu.cc = moveFlags16 m s.cpu.cc) :
    keepsFlags [.n, .z, .v] s t := by
  intro fl hfl
  simp only [List.mem_cons, List.not_mem_nil, or_false, not_or] at hfl
  obtain ⟨hn, hz, hv⟩ := hfl
  rw [h, getFlag_moveFlags16, if_neg hv, if_neg hz, if_neg hn]

/-- A page 2 opcode adds its cycle in every form (`30_encoding.md` R150). -/
theorem memCycles_add (n dir idx ext : Nat) (m : MemOp) :
    memCycles (n + dir) (n + idx) (n + ext) m = n + memCycles dir idx ext m := by
  cases m <;> rfl

theorem opnd16Cycles_add (n imm dir idx ext : Nat) (o : Opnd16) :
    opnd16Cycles (n + imm) (n + dir) (n + idx) (n + ext) o = n + opnd16Cycles imm dir idx ext o := by
  cases o with
  | imm v => rfl
  | mem m => exact memCycles_add n dir idx ext m

/-! ### Loads -/

theorem exec_loadAcc (r : Acc) (o : Opnd8) (s : State) : exec (loadAcc r o) s = .next (load8 r o s) := by
  cases r <;> rfl

theorem exec_loadReg (r : Reg16) (o : Opnd16) (s : State) :
    exec (loadReg r o) s = .next (load16 r (pageTwoLoad r + 3) o s) := by
  cases r <;> rfl

theorem load8_eq (r : Acc) (o : Opnd8) (s : State) : load8 r o s =
    (((operand8 o s).2.setAcc r (operand8 o s).1).setCc (moveFlags8 (operand8 o s).1 s.cpu.cc)).addCycles
      (opnd8Cycles 2 4 4 5 o) := by
  simp [load8]

theorem load16_eq (r : Reg16) (cyc : Nat) (o : Opnd16) (s : State) : load16 r cyc o s =
    (((operand16 o s).2.setReg16 r (operand16 o s).1).setCc (moveFlags16 (operand16 o s).1 s.cpu.cc)).addCycles
      (opnd16Cycles cyc (cyc + 2) (cyc + 2) (cyc + 3) o) := by
  simp [load16]

/-- Settles O1: a load is its operand's read, one register write and one write of CC. -/
theorem loadsOfEightBits : Obligations.LoadsOfEightBits := by
  unfold Obligations.LoadsOfEightBits
  intro r o s
  refine ⟨_, exec_loadAcc r o s, ?_⟩
  rw [load8_eq]
  refine ⟨?loaded, ?n, ?z, ?v, keepsFlags_moveFlags8 rfl, registerFrame_of ?written (operand8_keeps o s) ?control,
    keepsMemory_of_mem (by simp) (by simp), by simp, by simp, ?cycles⟩
  case loaded => cases r <;> rfl
  case n | z | v => simp
  case written => exact keepsRegisters_trans (setAcc_keepsRegisters r _ _) (setCc_keepsRegisters _ _)
  case control => simp [keepsControl, keepsSystem]
  case cycles =>
    simp only [addCycles_report, setCc_report, setAcc_report, operand8_report]
    exact Nat.add_right_comm _ _ _

/-- Settles O2: the loaded value is written after the operand's addressing has updated its register. -/
theorem loadsOfSixteenBits : Obligations.LoadsOfSixteenBits := by
  unfold Obligations.LoadsOfSixteenBits
  intro r o s
  refine ⟨_, exec_loadReg r o s, ?_⟩
  rw [load16_eq]
  refine ⟨?loaded, ?n, ?z, ?v, keepsFlags_moveFlags16 rfl, registerFrame_of ?written (operand16_keeps o s) ?control,
    keepsMemory_of_mem (by simp) (by simp), by simp, by simp, ?cycles⟩
  case loaded => rw [getReg16_addCycles, getReg16_setCc, getReg16_setReg16]
  case n | z | v => simp
  case written => exact keepsRegisters_trans (setReg16_keepsRegisters r _ _) (setCc_keepsRegisters _ _)
  case control => simp [keepsControl, keepsSystem]
  case cycles =>
    have hpage := opnd16Cycles_add (pageTwoLoad r) 3 5 5 6 o
    simp only [addCycles_report, setCc_report, setReg16_report, operand16_report, Nat.add_assoc, Nat.reduceAdd] at *
    omega

/-! ### Stores -/

theorem exec_storeAcc (r : Acc) (m : MemOp) (s : State) : exec (storeAcc r m) s = .next (store8 r m s) := by
  cases r <;> rfl

theorem exec_storeReg (r : Reg16) (m : MemOp) (s : State) :
    exec (storeReg r m) s = .next (store16 r (pageTwoLoad r + 5) m s) := by
  cases r <;> rfl

/-- No addressing updates an accumulator. -/
theorem effectiveAddress_getAcc (m : MemOp) (r : Acc) (s : State) :
    (effectiveAddress m s).2.getAcc r = s.getAcc r := by
  cases r <;> simp [State.getAcc]

/-- The state in which a store writes: the address computed, CC written. -/
def storing (m : MemOp) (cc : Byte) (s : State) : State := (effectiveAddress m s).2.setCc cc

theorem store8_eq (r : Acc) (m : MemOp) (s : State) : store8 r m s =
    (writeByte (effectiveAddress m s).1 (s.getAcc r) (storing m (moveFlags8 (s.getAcc r) s.cpu.cc) s)).addCycles
      (memCycles 4 4 5 m) := by
  simp [store8, storing, effectiveAddress_getAcc]

theorem store16_eq (r : Reg16) (cyc : Nat) (m : MemOp) (s : State) : store16 r cyc m s =
    (writeWord (effectiveAddress m s).1 ((effectiveAddress m s).2.getReg16 r)
      (storing m (moveFlags16 ((effectiveAddress m s).2.getReg16 r) s.cpu.cc) s)).addCycles
      (memCycles cyc cyc (cyc + 1) m) := by
  simp [store16, storing]

/-- A bus write leaves the CPU, so a store changes no register but CC once its address is computed. -/
theorem storing_registerFrame {m : MemOp} {cc : Byte} {s t : State} (hc : t.cpu = (storing m cc s).cpu)
    (hk : keepsSystem s t) : registerFrame [.cc] (memUpdates m) s (effectiveAddress m s).2 t := by
  refine registerFrame_of (fun q hq => ?_) (effectiveAddress_keeps m s) ⟨?_, hk⟩
  · exact (getRegister_congr hc q).trans (setCc_keepsRegisters cc _ q hq)
  · simp [hc, storing]

theorem storing_keepsMemory (m : MemOp) (cc : Byte) (s : State) : keepsMemory s (storing m cc s) :=
  keepsMemory_of_mem (by simp [storing]) (by simp [storing])

@[simp] theorem storing_cc (m : MemOp) (cc : Byte) (s : State) : (storing m cc s).cpu.cc = cc := rfl
@[simp] theorem storing_dev (m : MemOp) (cc : Byte) (s : State) :
    (storing m cc s).dev = (effectiveAddress m s).2.dev := rfl
@[simp] theorem storing_params (m : MemOp) (cc : Byte) (s : State) : (storing m cc s).params = s.params := by
  simp [storing]
@[simp] theorem storing_fcycles (m : MemOp) (cc : Byte) (s : State) : (storing m cc s).fcycles = s.fcycles := by
  simp [storing]
@[simp] theorem storing_host (m : MemOp) (cc : Byte) (s : State) : (storing m cc s).host = s.host := by
  simp [storing]
@[simp] theorem storing_draws (m : MemOp) (cc : Byte) (s : State) : (storing m cc s).draws = s.draws := by
  simp [storing]
@[simp] theorem storing_report (m : MemOp) (cc : Byte) (s : State) :
    (storing m cc s).report = s.report + memExtra m := by
  simp [storing]

/-- Settles O3: a store is one bus write at the effective address in a state that differs by the
address computed and CC alone. -/
theorem storesOfEightBits : Obligations.StoresOfEightBits := by
  unfold Obligations.StoresOfEightBits
  intro r m s
  refine ⟨_, exec_storeAcc r m s, ?_⟩
  rw [store8_eq]
  refine ⟨?n, ?z, ?v, keepsFlags_moveFlags8 (m := s.getAcc r) (by simp),
    storing_registerFrame (writeByte_cpu _ _ _) ?system, storesBytes_writeByte rfl (by simp),
    keepsMemoryBut_writeByte (storing_keepsMemory m _ s) rfl (by simp), ?dev,
    by simp, ?cycles⟩
  case n | z | v => simp
  case system => simp [keepsSystem]
  case dev => simp [writeByte_busWriteDev]
  case cycles =>
    simp only [addCycles_report, writeByte_report, storing_report]
    exact Nat.add_right_comm _ _ _

/-- Settles O4: a 16-bit store is two bus writes, the high byte at the effective address first. -/
theorem storesOfSixteenBits : Obligations.StoresOfSixteenBits := by
  unfold Obligations.StoresOfSixteenBits
  intro r m s
  refine ⟨_, exec_storeReg r m s, ?_⟩
  rw [store16_eq]
  generalize (effectiveAddress m s).2.getReg16 r = w
  refine ⟨?n, ?z, ?v, keepsFlags_moveFlags16 (m := w) (by simp),
    storing_registerFrame (writeWord_cpu _ _ _) ?system, storesBytes_writeWord rfl (by simp),
    keepsMemoryBut_writeWord (storing_keepsMemory m _ s) rfl (by simp), ?dev,
    by simp, ?cycles⟩
  case n | z | v => simp
  case system => simp [keepsSystem]
  case dev => simp [writeWord_busWriteDev]
  case cycles =>
    have hpage := memCycles_add (pageTwoLoad r) 5 5 6 m
    simp only [addCycles_report, writeWord_report, storing_report, Nat.add_assoc, Nat.reduceAdd] at *
    omega

/-! ### Address loads -/

theorem exec_leaReg (r : IReg) (m : IdxMode) (s : State) :
    exec (leaReg r m) s = .next (loadEa r (decide (r = .x ∨ r = .y)) m s) := by
  cases r <;> rfl

theorem loadEa_eq (r : IReg) (setsZ : Bool) (m : IdxMode) (s : State) : loadEa r setsZ m s =
    (((indexedEa m s).2.setIndex r (indexedEa m s).1).setCc
      (if setsZ then setFlag .z (decide ((indexedEa m s).1 = 0)) s.cpu.cc else s.cpu.cc)).addCycles 4 := by
  have hcc := indexedEa_cc m s
  cases setsZ with
  | true => simp [loadEa, State.writeFlag]
  | false =>
    rw [← hcc]
    cases r <;> rfl

/-- Settles O5: the address is written over the mode's update of the index register, and CC only where Z is set. -/
theorem loadsOfAddresses : Obligations.LoadsOfAddresses := by
  unfold Obligations.LoadsOfAddresses
  intro r m s
  refine ⟨_, exec_leaReg r m s, ?_⟩
  rw [loadEa_eq]
  refine ⟨?loaded, fun hxy => ⟨?z, ?onlyZ⟩, ?none, registerFrame_of ?written (indexedEa_keeps m s) ?control,
    keepsMemory_of_mem (by simp) (by simp), by simp, by simp, ?cycles⟩
  case loaded => cases r <;> rfl
  case z => simp [hxy]
  case onlyZ =>
    intro fl hfl
    have hne : fl ≠ .z := fun h => hfl (List.mem_singleton.mpr h)
    simp [hxy, hne]
  case none => rintro (rfl | rfl) fl - <;> rfl
  case written => exact keepsRegisters_trans (setIndex_keepsRegisters r _ _) (setCc_keepsRegisters _ _)
  case control => simp [keepsControl, keepsSystem]
  case cycles =>
    simp only [addCycles_report, setCc_report, setIndex_report, indexedEa_report]
    exact Nat.add_right_comm _ _ _

end Sys2Proof.Machine
end

section
/-! PROOFS. Transfers and exchanges: reads and writes of registers by code, one after the other. -/

namespace Sys2Proof.Machine

theorem keepsRest_trans {s t u : State} (h : keepsRest s t) (h' : keepsRest t u) : keepsRest s u := by
  obtain ⟨hm, hd, hdr, hw, hf, hp, hh⟩ := h
  obtain ⟨hm', hd', hdr', hw', hf', hp', hh'⟩ := h'
  exact ⟨fun a => (hm' a).trans (hm a), hd'.trans hd, hdr'.trans hdr, hw'.trans hw, hf'.trans hf, hp'.trans hp,
    hh'.trans hh⟩

theorem addCycles_keepsRest (n : Nat) (s : State) : keepsRest s (s.addCycles n) :=
  ⟨fun _ => rfl, rfl, rfl, rfl, rfl, rfl, rfl⟩

theorem regWrite_keepsRest (code : BitVec 4) (v : Word) (s : State) : keepsRest s (s.regWrite code v) :=
  ⟨keepsMemory_of_mem (regWrite_mem code v s) (regWrite_params code v s), by simp, by simp, by simp, by simp, by simp,
    by simp⟩

/-- The exchange with both readings named: the second register is written first (`40_load_store_transfer.md` R202). -/
theorem exchange_eq (r1 r2 : BitVec 4) (s : State) : exchange r1 r2 s =
    ((s.regWrite r2 (codeValue r1 s)).regWrite r1 (codeValue r2 s)).addCycles 8 := by
  simp only [exchange, regRead_eq]

theorem transfer_eq (r1 r2 : BitVec 4) (s : State) :
    transfer r1 r2 s = (s.regWrite r2 (codeValue r1 s)).addCycles 6 := by
  simp only [transfer, regRead_eq]

/-! The exchanges whose registers share a byte: the later write, that of the first register, wins
(`40_load_store_transfer.md` R202). -/

theorem exchange_a_d (s : State) : (exchange 8 0 s).cpu.a = s.cpu.b ∧ (exchange 8 0 s).cpu.b = s.cpu.a := by
  simp [exchange, State.regWrite, State.regRead, State.setD, Cpu.d]

theorem exchange_d_a (s : State) : (exchange 0 8 s).cpu.a = 0xFF ∧ (exchange 0 8 s).cpu.b = s.cpu.a := by
  simp [exchange, State.regWrite, State.regRead, State.setD]

theorem exchange_b_d (s : State) : (exchange 9 0 s).cpu.a = 0xFF ∧ (exchange 9 0 s).cpu.b = s.cpu.b := by
  simp [exchange, State.regWrite, State.regRead, State.setD, Cpu.d]

theorem exchange_d_b (s : State) : (exchange 0 9 s).cpu.a = 0xFF ∧ (exchange 0 9 s).cpu.b = s.cpu.b := by
  simp [exchange, State.regWrite, State.regRead, State.setD]

/-- Settles O6: a write by code gives its register the value stored and keeps every other; in an exchange the second
write keeps what the first wrote wherever the two registers share no byte. -/
theorem transferAndExchange : Obligations.TransferAndExchange := by
  unfold Obligations.TransferAndExchange
  intro r1 r2 s
  refine ⟨⟨_, rfl, ?tfr⟩, ⟨_, rfl, ?first, ?second, ?ad, ?da, ?bd, ?kept, ?rest, ?cycles⟩⟩
  case tfr =>
    rw [transfer_eq]
    exact ⟨fun n hn => regWrite_same r2 _ s n hn, regWrite_ne r2 _ s,
      keepsRest_trans (regWrite_keepsRest r2 _ s) (addCycles_keepsRest 6 _), by simp⟩
  case first =>
    rw [exchange_eq]
    exact fun n hn => regWrite_same r1 _ _ n hn
  case second =>
    rw [exchange_eq]
    exact fun n hn hr1 => (regWrite_ne r1 _ _ n hr1).trans (regWrite_same r2 _ s n hn)
  case ad =>
    rintro rfl rfl
    exact exchange_a_d s
  case da =>
    rintro rfl rfl
    exact exchange_d_a s
  case bd =>
    rintro (⟨rfl, rfl⟩ | ⟨rfl, rfl⟩)
    · exact exchange_b_d s
    · exact exchange_d_b s
  case kept =>
    rw [exchange_eq]
    intro n hn
    rw [List.mem_append, not_or] at hn
    exact (regWrite_ne r1 _ _ n hn.1).trans (regWrite_ne r2 _ s n hn.2)
  case rest =>
    rw [exchange_eq]
    exact keepsRest_trans (keepsRest_trans (regWrite_keepsRest r2 _ s) (regWrite_keepsRest r1 _ _))
      (addCycles_keepsRest 8 _)
  case cycles => simp [exchange_eq]

end Sys2Proof.Machine
end

section
/-! PROOFS. Pushes and pulls of register lists, each from the law of its list, and the pull that undoes a push. -/

namespace Sys2Proof.Machine

/-! ### Pushes -/

theorem exec_pushInstr (p : StackPtr) (mask : Byte) (s : State) :
    exec (pushInstr p mask) s = .next (pushRegisters p mask s) := by
  cases p <;> rfl

theorem pushRegisters_eq (p : StackPtr) (mask : Byte) (s : State) : pushRegisters p mask s =
    (pushBytes p (listContents p mask s.cpu) s).addCycles (5 + listBytes mask) := by
  rw [pushRegisters, pushList_eq]

/-- Of the CPU a push moves the stack pointer alone. -/
theorem pushRegisters_cpu (p : StackPtr) (mask : Byte) (s : State) :
    (pushRegisters p mask s).cpu = (s.setSp p (s.getSp p - BitVec.ofNat 16 (listBytes mask))).cpu := by
  rw [pushRegisters_eq, addCycles_cpu, pushBytes_cpu, listContents_length]

theorem pushRegisters_getSp (p : StackPtr) (mask : Byte) (s : State) :
    (pushRegisters p mask s).getSp p = s.getSp p - BitVec.ofNat 16 (listBytes mask) := by
  rw [getSp_eq, pushRegisters_cpu, ← getSp_eq, getSp_setSp]

theorem setSp_keepsRegisters (p : StackPtr) (v : Word) (s : State) : keepsRegisters [p.name] s (s.setSp p v) := by
  intro q hq
  cases p <;> cases q <;> simp [StackPtr.name] at hq <;> rfl

theorem pushRegisters_storesBytes (p : StackPtr) (mask : Byte) (s : State) :
    storesBytes ((pushRegisters p mask s).getSp p) (listContents p mask s.cpu) (pushRegisters p mask s) := by
  have hlen := listContents_length p mask s.cpu
  have hstored := pushBytes_stores p (listContents p mask s.cpu) s (by have := listBytes_le mask; omega)
  rw [hlen] at hstored
  rw [pushRegisters_getSp, pushRegisters_eq]
  exact hstored

/-- Settles O7: a push of a list is a push of its bytes, whose order, frame and device effects are laws of the stack. -/
theorem pushStacksRegisters : Obligations.PushStacksRegisters := by
  unfold Obligations.PushStacksRegisters
  intro p mask s
  have hlen := listContents_length p mask s.cpu
  have hcpu := pushRegisters_cpu p mask s
  refine ⟨_, exec_pushInstr p mask s, pushRegisters_getSp p mask s, pushRegisters_storesBytes p mask s, ?memory,
    fun q hq => (getRegister_congr hcpu q).trans (setSp_keepsRegisters p _ s q hq), ⟨?wait, ?system⟩, ?draws, ?dev,
    ?cycles⟩
  case memory =>
    have hkept := pushBytes_keeps p (listContents p mask s.cpu) s
    rw [hlen] at hkept
    rw [pushRegisters_getSp, pushRegisters_eq]
    exact hkept
  case wait => rw [hcpu, setSp_wait]
  case system => simp [pushRegisters_eq, keepsSystem]
  case draws => simp [pushRegisters_eq]
  case dev =>
    have hdev := pushBytes_dev p (listContents p mask s.cpu) s
    rw [hlen] at hdev
    rw [pushRegisters_getSp, pushRegisters_eq]
    exact hdev
  case cycles => simp [pushRegisters_eq, Nat.add_assoc]

/-! ### Pulls -/

theorem exec_pullInstr (p : StackPtr) (mask : Byte) (s : State) :
    exec (pullInstr p mask) s = .next (pullRegisters p mask s) := by
  cases p <;> rfl

/-- Settles O8: a pull of a list changes the CPU, the devices by its bus reads, and the cycles. -/
theorem pullRestoresRegisters : Obligations.PullRestoresRegisters := by
  unfold Obligations.PullRestoresRegisters
  intro p mask s
  obtain ⟨c, d, heq, hpulled⟩ := pullList_cases p mask s
  refine ⟨_, exec_pullInstr p mask s, ?_⟩
  rw [pullRegisters, heq]
  exact ⟨⟨c, rfl⟩, fun c' hbytes => hpulled c' hbytes, fun _ => rfl, ⟨rfl, rfl, rfl⟩, rfl,
    (Nat.add_assoc _ _ _).symm⟩

/-! ### A pull undoes a push -/

/-- Bytes stored where every address selects RAM lie there. -/
theorem bytesAt_of_storesBytes {base : Word} {bs : List Byte} {t : State} (hram : inRam base bs.length)
    (hstored : storesBytes base bs t) : bytesAt base bs t :=
  fun k hk => hstored k hk (hram k hk)

/-- Taking back its own values, with the stack pointer moved down by their bytes before, leaves a CPU as it was. -/
theorem restoredCpu_of_pushed (p : StackPtr) (mask : Byte) (s : State) :
    restoredCpu p mask s.cpu (s.setSp p (s.getSp p - BitVec.ofNat 16 (listBytes mask))).cpu = s.cpu := by
  cases p with
  | hw => simp [restoredCpu, State.setSp, State.getSp]
  | user => simp [restoredCpu, State.setSp, State.getSp]

/-- Settles O9: the pushed bytes lie in RAM where the pull reads them, so the pull takes the values pushed. -/
theorem pullUndoesPush : Obligations.PullUndoesPush := by
  unfold Obligations.PullUndoesPush
  intro p mask s hram
  obtain ⟨u, hu, -, hpulled, -⟩ := pullRestoresRegisters p mask (pushRegisters p mask s)
  refine ⟨_, u, exec_pushInstr p mask s, hu, ?_⟩
  have hbytes : bytesAt ((pushRegisters p mask s).getSp p) (listContents p mask s.cpu) (pushRegisters p mask s) := by
    refine bytesAt_of_storesBytes ?_ (pushRegisters_storesBytes p mask s)
    rw [pushRegisters_getSp, listContents_length]
    exact hram
  calc u.cpu = restoredCpu p mask s.cpu (pushRegisters p mask s).cpu := (hpulled s.cpu hbytes).1
    _ = s.cpu := by rw [pushRegisters_cpu, restoredCpu_of_pushed]

end Sys2Proof.Machine
end

section
/-! PROOFS. The two-operand instructions of 8 bits: one equation and one frame for all of them, then each result and its
flags from the laws of `Add8`, `Sub8` and `Logic8`. -/

namespace Sys2Proof.Machine

/-! ### The frame of an instruction that reads an 8-bit operand -/

/-- What an instruction that reads an 8-bit operand and then works on registers leaves: the register frame, memory, the
devices as the operand's read leaves them, and the cycles. -/
structure OperandFrame (written : List RegName) (o : Opnd8) (cycles : Nat) (s t : State) : Prop where
  registers : registerFrame written (opnd8Updates o) s (operand8 o s).2 t
  memory : keepsMemory s t
  dev : t.dev = (operand8 o s).2.dev
  cycles : t.report = s.report + cycles + opnd8Extra o

/-- No addressing updates an accumulator. -/
theorem operand8_getAcc (o : Opnd8) (r : Acc) (s : State) : (operand8 o s).2.getAcc r = s.getAcc r := by
  cases r <;> simp [State.getAcc]

theorem operand8_nextDraw (o : Opnd8) (s : State) : (operand8 o s).2.nextDraw = Config.drawBit s.draws := by
  simp [State.nextDraw]

/-- A write of CC and the counts of draws and cycles add CC to the registers written. -/
theorem operandFrame_of_setCc {written : List RegName} {o : Opnd8} {s u : State} (cc : Byte) (draws : Bool) (n : Nat)
    (hregs : keepsRegisters written (operand8 o s).2 u) (hcontrol : keepsControl s u) (hmem : u.mem = s.mem)
    (hdev : u.dev = (operand8 o s).2.dev) (hreport : u.report = s.report + opnd8Extra o) :
    OperandFrame (written ++ [.cc]) o n s (((u.setCc cc).takeDraw draws).addCycles n) := by
  obtain ⟨hwait, hsystem⟩ := hcontrol
  refine ⟨registerFrame_of ?registers (operand8_keeps o s) ⟨hwait, hsystem⟩,
    keepsMemory_of_mem hmem hsystem.2.1, hdev, ?cycles⟩
  case registers => exact keepsRegisters_trans hregs (setCc_keepsRegisters cc u)
  case cycles =>
    rw [addCycles_report, takeDraw_report, setCc_report, hreport]
    exact Nat.add_right_comm _ _ _

theorem operand8_keepsControl (o : Opnd8) (s : State) : keepsControl s (operand8 o s).2 := by
  simp [keepsControl, keepsSystem]

theorem setAcc_keepsControl {s u : State} (r : Acc) (v : Byte) (h : keepsControl s u) :
    keepsControl s (u.setAcc r v) := by
  simpa [keepsControl, keepsSystem] using h

/-! ### The instructions that write the accumulator, and those that discard the result -/

/-- The result and CC of a two-operand instruction: the operation on the accumulator, the operand, the next draw and CC,
each as it was before the instruction. -/
def binaryOutcome (r : Acc) (op : BinOp) (o : Opnd8) (s : State) : Byte × Byte :=
  op.apply (s.getAcc r) (operand8 o s).1 (Config.drawBit s.draws) s.cpu.cc

theorem arith8_eq (r : Acc) (op : BinOp) (o : Opnd8) (s : State) : arith8 r op o s =
    ((((operand8 o s).2.setAcc r (binaryOutcome r op o s).1).setCc (binaryOutcome r op o s).2).takeDraw
      op.draws).addCycles (opnd8Cycles 2 4 4 5 o) := by
  simp [arith8, binaryOutcome, operand8_getAcc, operand8_nextDraw]

theorem test8_eq (r : Acc) (op : BinOp) (o : Opnd8) (s : State) : test8 r op o s =
    (((operand8 o s).2.setCc (binaryOutcome r op o s).2).takeDraw op.draws).addCycles (opnd8Cycles 2 4 4 5 o) := by
  simp [test8, binaryOutcome, operand8_getAcc, operand8_nextDraw]

theorem arith8_getAcc (r : Acc) (op : BinOp) (o : Opnd8) (s : State) :
    (arith8 r op o s).getAcc r = (binaryOutcome r op o s).1 := by
  rw [arith8_eq]
  cases r <;> rfl

theorem arith8_cc (r : Acc) (op : BinOp) (o : Opnd8) (s : State) :
    (arith8 r op o s).cpu.cc = (binaryOutcome r op o s).2 := by
  simp [arith8_eq]

theorem test8_cc (r : Acc) (op : BinOp) (o : Opnd8) (s : State) :
    (test8 r op o s).cpu.cc = (binaryOutcome r op o s).2 := by
  simp [test8_eq]

theorem arith8_draws (r : Acc) (op : BinOp) (o : Opnd8) (s : State) :
    (arith8 r op o s).draws = if op.draws then s.draws + 1 else s.draws := by
  simp [arith8_eq]

theorem test8_draws (r : Acc) (op : BinOp) (o : Opnd8) (s : State) :
    (test8 r op o s).draws = if op.draws then s.draws + 1 else s.draws := by
  simp [test8_eq]

theorem arith8_frame (r : Acc) (op : BinOp) (o : Opnd8) (s : State) :
    OperandFrame [r.name, .d, .cc] o (opnd8Cycles 2 4 4 5 o) s (arith8 r op o s) := by
  rw [arith8_eq]
  exact operandFrame_of_setCc _ _ _ (setAcc_keepsRegisters r _ _) (setAcc_keepsControl r _ (operand8_keepsControl o s))
    (by simp) (by simp) (by simp)

theorem test8_frame (r : Acc) (op : BinOp) (o : Opnd8) (s : State) :
    OperandFrame [.cc] o (opnd8Cycles 2 4 4 5 o) s (test8 r op o s) := by
  rw [test8_eq]
  exact operandFrame_of_setCc (written := []) _ _ _ (fun _ _ => rfl) (operand8_keepsControl o s) (by simp) rfl (by simp)

/-! ### Sums and differences -/

/-- The operation of ADDA, ADDB or of ADCA, ADCB. -/
def addOp (withCarry : Bool) : BinOp := if withCarry then .adc else .add

/-- The operation of SUBA, SUBB or of SBCA, SBCB. -/
def subOp (withBorrow : Bool) : BinOp := if withBorrow then .sbc else .sub

theorem exec_addInstr (withCarry : Bool) (r : Acc) (o : Opnd8) (s : State) :
    exec (addInstr withCarry r o) s = .next (arith8 r (addOp withCarry) o s) := by
  cases withCarry <;> cases r <;> rfl

theorem exec_subInstr (withBorrow : Bool) (r : Acc) (o : Opnd8) (s : State) :
    exec (subInstr withBorrow r o) s = .next (arith8 r (subOp withBorrow) o s) := by
  cases withBorrow <;> cases r <;> rfl

/-- With and without carry, the operation is `Add8` with the carry in (`41_arith_logic8.md` R223-R226). -/
theorem binaryOutcome_addOp (withCarry : Bool) (r : Acc) (o : Opnd8) (s : State) :
    binaryOutcome r (addOp withCarry) o s =
      add8 (s.getAcc r) (operand8 o s).1 (withCarry && getFlag .c s.cpu.cc) s.cpu.cc := by
  cases withCarry <;> rfl

/-- With and without borrow, the operation is `Sub8` with the borrow in (`41_arith_logic8.md` R227-R230). -/
theorem binaryOutcome_subOp (withBorrow : Bool) (r : Acc) (o : Opnd8) (s : State) :
    binaryOutcome r (subOp withBorrow) o s =
      sub8 (s.getAcc r) (operand8 o s).1 (withBorrow && getFlag .c s.cpu.cc) (Config.drawBit s.draws) s.cpu.cc := by
  cases withBorrow <;> rfl

@[simp] theorem addOp_draws (withCarry : Bool) : (addOp withCarry).draws = false := by cases withCarry <;> rfl

@[simp] theorem subOp_draws (withBorrow : Bool) : (subOp withBorrow).draws = true := by cases withBorrow <;> rfl

theorem keepsFlags_add8 {a m : Byte} {c : Bool} {s t : State} (h : t.cpu.cc = (add8 a m c s.cpu.cc).2) :
    keepsFlags [.c, .h, .v, .n, .z] s t := by
  intro fl hfl
  rw [h, getFlag_add8]
  cases fl with
  | i | f | e => rfl
  | c | h | v | n | z => simp at hfl

theorem keepsFlags_sub8 {a m : Byte} {c h : Bool} {s t : State} (ht : t.cpu.cc = (sub8 a m c h s.cpu.cc).2) :
    keepsFlags [.c, .v, .n, .z, .h] s t := by
  intro fl hfl
  rw [ht, getFlag_sub8]
  cases fl with
  | i | f | e => rfl
  | c | h | v | n | z => simp at hfl

/-- Settles O10: the accumulator and CC take the outcome of `Add8`. -/
theorem addsOfEightBits : Obligations.AddsOfEightBits := by
  unfold Obligations.AddsOfEightBits
  intro withCarry r o s
  obtain ⟨hregs, hmem, hdev, hcycles⟩ := arith8_frame r (addOp withCarry) o s
  have hacc := arith8_getAcc r (addOp withCarry) o s
  have hcc := arith8_cc r (addOp withCarry) o s
  have hdraws := arith8_draws r (addOp withCarry) o s
  rw [binaryOutcome_addOp] at hacc hcc
  refine ⟨_, exec_addInstr withCarry r o s, ?_⟩
  intro a m c
  rw [hacc, hcc]
  exact ⟨add8_toNat a m _ _, getFlag_add8 a m _ _ .c, getFlag_add8 a m _ _ .h, getFlag_add8 a m _ _ .v,
    getFlag_add8 a m _ _ .n, getFlag_add8 a m _ _ .z, keepsFlags_add8 hcc, hregs, hmem, hdev, by simpa using hdraws,
    hcycles⟩

/-- Settles O11: the accumulator and CC take the outcome of `Sub8`, H the draw. -/
theorem subtractsOfEightBits : Obligations.SubtractsOfEightBits := by
  unfold Obligations.SubtractsOfEightBits
  intro withBorrow r o s
  obtain ⟨hregs, hmem, hdev, hcycles⟩ := arith8_frame r (subOp withBorrow) o s
  have hacc := arith8_getAcc r (subOp withBorrow) o s
  have hcc := arith8_cc r (subOp withBorrow) o s
  have hdraws := arith8_draws r (subOp withBorrow) o s
  rw [binaryOutcome_subOp] at hacc hcc
  refine ⟨_, exec_subInstr withBorrow r o s, ?_⟩
  intro a m c
  rw [hacc, hcc]
  exact ⟨sub8_toNat a m _ _ _, getFlag_sub8 a m _ _ _ .c, getFlag_sub8 a m _ _ _ .v, getFlag_sub8 a m _ _ _ .n,
    getFlag_sub8 a m _ _ _ .z, getFlag_sub8 a m _ _ _ .h, by simpa using hdraws, keepsFlags_sub8 hcc, hregs, hmem,
    hdev, hcycles⟩

/-! ### Compares, bit tests and logic -/

theorem exec_cmpInstr (r : Acc) (o : Opnd8) (s : State) : exec (cmpInstr r o) s = .next (test8 r .sub o s) := by
  cases r <;> rfl

theorem exec_bitInstr (r : Acc) (o : Opnd8) (s : State) : exec (bitInstr r o) s = .next (test8 r .and o s) := by
  cases r <;> rfl

/-- The two-operand operation of a bitwise one. -/
def LogicOp.binOp : LogicOp → BinOp
  | .and => .and
  | .or => .or
  | .eor => .eor

theorem exec_logicInstr (op : LogicOp) (r : Acc) (o : Opnd8) (s : State) :
    exec (logicInstr op r o) s = .next (arith8 r op.binOp o s) := by
  cases op <;> cases r <;> rfl

/-- The bitwise operations answer their result with the flags of a move (`41_arith_logic8.md` R222). -/
theorem binaryOutcome_logic (op : LogicOp) (r : Acc) (o : Opnd8) (s : State) :
    binaryOutcome r op.binOp o s = (op.result (s.getAcc r) (operand8 o s).1,
      moveFlags8 (op.result (s.getAcc r) (operand8 o s).1) s.cpu.cc) := by
  cases op <;> rfl

theorem LogicOp.binOp_draws (op : LogicOp) : op.binOp.draws = false := by cases op <;> rfl

/-- A compare sets the flags of a subtraction without borrow in. -/
theorem binaryOutcome_sub (r : Acc) (o : Opnd8) (s : State) : binaryOutcome r .sub o s =
    sub8 (s.getAcc r) (operand8 o s).1 false (Config.drawBit s.draws) s.cpu.cc := rfl

/-- Settles O12: a compare sets the flags of `Sub8`, a bit test those of the and, and neither writes a register. -/
theorem comparesAndBitTests : Obligations.ComparesAndBitTests := by
  unfold Obligations.ComparesAndBitTests
  intro r o s a m
  refine ⟨⟨_, exec_cmpInstr r o s, ?compare⟩, ⟨_, exec_bitInstr r o s, ?bits⟩⟩
  case compare =>
    obtain ⟨hregs, hmem, hdev, hcycles⟩ := test8_frame r .sub o s
    have hcc : (test8 r .sub o s).cpu.cc = (sub8 a m false (Config.drawBit s.draws) s.cpu.cc).2 :=
      (test8_cc r .sub o s).trans (congrArg Prod.snd (binaryOutcome_sub r o s))
    have hflag := fun fl => getFlag_sub8 a m false (Config.drawBit s.draws) s.cpu.cc fl
    simp only [sub8_noBorrow] at hflag
    rw [hcc]
    exact ⟨hflag .c, hflag .v, hflag .n, (hflag .z).trans (decide_eq_decide.mpr (sub_eq_zero_iff a m)), hflag .h,
      test8_draws r .sub o s, keepsFlags_sub8 hcc, hregs, hmem, hdev, hcycles⟩
  case bits =>
    obtain ⟨hregs, hmem, hdev, hcycles⟩ := test8_frame r .and o s
    have hcc : (test8 r .and o s).cpu.cc = moveFlags8 (a &&& m) s.cpu.cc :=
      (test8_cc r .and o s).trans (congrArg Prod.snd (binaryOutcome_logic .and r o s))
    rw [hcc]
    exact ⟨getFlag_moveFlags8 .n _ _, getFlag_moveFlags8 .z _ _, getFlag_moveFlags8 .v _ _, keepsFlags_moveFlags8 hcc,
      hregs, hmem, hdev, test8_draws r .and o s, hcycles⟩

/-- Settles O13: the accumulator takes the bitwise result, CC its flags. -/
theorem logicOfEightBits : Obligations.LogicOfEightBits := by
  unfold Obligations.LogicOfEightBits
  intro op r o s
  obtain ⟨hregs, hmem, hdev, hcycles⟩ := arith8_frame r op.binOp o s
  have hacc := arith8_getAcc r op.binOp o s
  have hcc := arith8_cc r op.binOp o s
  have hdraws := arith8_draws r op.binOp o s
  rw [binaryOutcome_logic] at hacc hcc
  rw [op.binOp_draws] at hdraws
  refine ⟨_, exec_logicInstr op r o s, hacc, ?_⟩
  rw [hacc, hcc]
  exact ⟨getFlag_moveFlags8 .n _ _, getFlag_moveFlags8 .z _ _, getFlag_moveFlags8 .v _ _, keepsFlags_moveFlags8 hcc,
    hregs, hmem, hdev, hdraws, hcycles⟩

end Sys2Proof.Machine
end

section
/-! PROOFS. The single-operand instructions: the table of their functions in numbers, then the instructions on memory and
on the accumulators as reads, writes and one use of that table. -/

namespace Sys2Proof.Machine

/-! ### The functions that draw -/

theorem UnaryOp.draws_eq (op : UnaryOp) : op.draws = decide (op = .neg ∨ op = .asr ∨ op = .asl) := by
  cases op <;> rfl

/-- A draw taken counts 1 for the operations that leave H undefined. -/
theorem draws_count (op : UnaryOp) (n : Nat) :
    (if op.draws then n + 1 else n) = n + (if op = .neg ∨ op = .asr ∨ op = .asl then 1 else 0) := by
  rw [op.draws_eq]
  by_cases h : op = .neg ∨ op = .asr ∨ op = .asl <;> simp [h]

/-! ### The results in numbers -/

theorem neg_toNat (v : Byte) : (0 - v).toNat = (256 - v.toNat) % 256 := by simp

theorem shiftRight_toNat (v : Byte) : (v >>> 1).toNat = v.toNat / 2 := by
  rw [BitVec.toNat_ushiftRight, Nat.shiftRight_eq_div_pow, pow_one]

theorem shiftLeft_toNat (v : Byte) : (v <<< 1).toNat = 2 * v.toNat % 256 := by
  rw [BitVec.toNat_shiftLeft, Nat.shiftLeft_eq, pow_one, Nat.mul_comm]

/-- The carry enters a right rotate as bit 7, above the seven bits shifted down. -/
theorem rotateRight_toNat (v : Byte) (c : Bool) :
    ((v >>> 1) ||| (if c then 0x80 else 0)).toNat = v.toNat / 2 + 128 * c.toNat := by
  have hlow : v.toNat / 2 < 2 ^ 7 := by have := v.isLt; omega
  have hor := Nat.two_pow_add_eq_or_of_lt hlow c.toNat
  rw [BitVec.toNat_or, shiftRight_toNat, Nat.or_comm]
  cases c with
  | false => simp
  | true => simpa [Nat.add_comm] using hor.symm

/-- The carry enters a left rotate as bit 0, which the shift has cleared. -/
theorem rotateLeft_toNat (v : Byte) (c : Bool) :
    ((v <<< 1) ||| (if c then 0x01 else 0)).toNat = (2 * v.toNat + c.toNat) % 256 := by
  have hor := Nat.two_pow_add_eq_or_of_lt (i := 1) (b := c.toNat) (by cases c <;> decide) (v.toNat % 128)
  have hshift : (v <<< 1).toNat = 2 ^ 1 * (v.toNat % 128) := by rw [shiftLeft_toNat]; omega
  have hbit : (if c then (0x01 : Byte) else 0).toNat = c.toNat := by cases c <;> rfl
  have hc := Bool.toNat_lt c
  rw [BitVec.toNat_or, hshift, hbit, ← hor]
  omega

/-- A right shift that keeps bit 7 is the signed shift. -/
theorem keepBit7_eq_sshiftRight (v : Byte) : (v >>> 1) ||| (v &&& 0x80) = v.sshiftRight 1 := by
  decide +revert

/-- The signed shift halves the signed value, downward. -/
theorem signedHalf_toInt (v : Byte) : ((v >>> 1) ||| (v &&& 0x80)).toInt = v.toInt / 2 := by
  rw [keepBit7_eq_sshiftRight, BitVec.toInt_sshiftRight, Int.shiftRight_eq_div_pow]
  rfl

theorem dec_toNat (v : Byte) : (v - 1).toNat = (v.toNat + 255) % 256 := by
  simp [BitVec.toNat_sub, Nat.add_comm]

theorem inc_toNat (v : Byte) : (v + 1).toNat = (v.toNat + 1) % 256 := by
  rw [BitVec.toNat_add]
  rfl

/-! ### The flags -/

/-- The C column of the table of `41_arith_logic8.md` R240, from the value and the old C. -/
def UnaryOp.carryColumn (v : Byte) (old : Bool) : UnaryOp → Bool
  | .neg => decide (v ≠ 0)
  | .com => true
  | .lsr | .ror | .asr => v.getLsbD 0
  | .asl | .rol => v.getLsbD 7
  | .dec | .inc => old

/-- The V column of the table of `41_arith_logic8.md` R240, from the value and the old V. -/
def UnaryOp.overflowColumn (v : Byte) (old : Bool) : UnaryOp → Bool
  | .neg | .dec => decide (v = 0x80)
  | .com => false
  | .lsr | .ror | .asr => old
  | .asl | .rol => v.getLsbD 7 ^^ v.getLsbD 6
  | .inc => decide (v = 0x7F)

/-- A negation overflows for 0x80 alone, the byte that is its own negative. -/
theorem neg_overflow (v : Byte) :
    (((0 : Byte).msb != v.msb) && ((0 : Byte).msb != (0 - v).msb)) = decide (v = 0x80) := by
  decide +revert

/-- A negation borrows but for 0. -/
theorem neg_borrow (v : Byte) : decide ((0 : Byte).toNat < v.toNat + false.toNat) = decide (v ≠ 0) := by
  decide +revert

/-- Every flag after a single-operand function, row by row the table. -/
theorem getFlag_apply (op : UnaryOp) (v : Byte) (h : Bool) (cc : Byte) (fl : Flag) :
    getFlag fl (op.apply v h cc).2 = (match fl with
      | .c => op.carryColumn v (getFlag .c cc)
      | .v => op.overflowColumn v (getFlag .v cc)
      | .z => decide ((op.apply v h cc).1 = 0)
      | .n => (op.apply v h cc).1.getLsbD 7
      | .h => if op.draws then h else getFlag .h cc
      | _ => getFlag fl cc) := by
  cases op with
  | neg =>
    rw [UnaryOp.apply, getFlag_sub8]
    cases fl with
    | c => exact neg_borrow v
    | v =>
      rw [sub8_noBorrow]
      exact neg_overflow v
    | z | n | h | i | f | e => rfl
  | _ => 
    cases fl <;> simp only [UnaryOp.apply, getFlag_setFlag, getFlag_nz8, reduceCtorEq, ↓reduceIte] <;> rfl

theorem getFlag_tstFlags (fl : Flag) (v cc : Byte) : getFlag fl (tstFlags v cc) =
    if fl = .n then v.getLsbD 7 else if fl = .z then decide (v = 0) else if fl = .v then false
      else getFlag fl cc := by
  cases fl <;> simp [tstFlags]

theorem getFlag_clrFlags (fl : Flag) (cc : Byte) : getFlag fl (clrFlags cc) =
    if fl = .z then true else if fl = .n ∨ fl = .v ∨ fl = .c then false else getFlag fl cc := by
  cases fl <;> simp [clrFlags]

/-- A test writes N, Z and V alone. -/
theorem keepsFlags_tstFlags {v : Byte} {s t : State} (h : t.cpu.cc = tstFlags v s.cpu.cc) :
    keepsFlags [.n, .z, .v] s t := keepsFlags_moveFlags8 h

/-- A clear writes N, Z, V and C alone. -/
theorem keepsFlags_clrFlags {s t : State} (h : t.cpu.cc = clrFlags s.cpu.cc) : keepsFlags [.n, .z, .v, .c] s t := by
  intro fl hfl
  rw [h, getFlag_clrFlags]
  cases fl with
  | i | h | f | e => rfl
  | n | z | v | c => simp at hfl

/-- Settles O14: each result in numbers, each flag by the table's columns. -/
theorem singleOperandTable : Obligations.SingleOperandTable := by
  unfold Obligations.SingleOperandTable
  intro v h cc c
  have hflag := fun op fl => getFlag_apply op v h cc fl
  refine ⟨fun op => ⟨hflag op .n, hflag op .z, ?kept, ?halfCarry⟩, ⟨?neg, hflag .neg .c, hflag .neg .v⟩,
    ⟨BitVec.toNat_not, hflag .com .c, hflag .com .v⟩,
    ⟨shiftRight_toNat v, hflag .lsr .c, hflag .lsr .v⟩,
    ⟨rotateRight_toNat v c, hflag .ror .c, hflag .ror .v⟩,
    ⟨signedHalf_toInt v, hflag .asr .c, hflag .asr .v⟩,
    ⟨shiftLeft_toNat v, hflag .asl .c, hflag .asl .v⟩,
    ⟨rotateLeft_toNat v c, hflag .rol .c, hflag .rol .v⟩,
    ⟨dec_toNat v, hflag .dec .c, hflag .dec .v⟩,
    ⟨inc_toNat v, hflag .inc .c, hflag .inc .v⟩,
    fun fl => getFlag_tstFlags fl v cc, fun fl => getFlag_clrFlags fl cc⟩
  case kept => rintro fl (rfl | rfl | rfl) <;> exact hflag op _
  case halfCarry =>
    rw [hflag op .h, op.draws_eq]
    simp
  case neg => rw [UnaryOp.apply, sub8_noBorrow, neg_toNat]

/-! ### Read-modify-write -/

theorem exec_unaryMem (op : UnaryOp) (m : MemOp) (s : State) : exec (unaryMem op m) s = .next (modifyMemory op m s) := by
  cases op <;> rfl

/-- A memory operand is one read at the effective address. -/
theorem operand8_memory (m : MemOp) (s : State) :
    operand8 (.mem m) s = readByte (effectiveAddress m s).1 (effectiveAddress m s).2 := rfl

/-- The read moves no register. -/
theorem effectiveAddress_cpu (m : MemOp) (s : State) :
    (effectiveAddress m s).2.cpu = (operand8 (.mem m) s).2.cpu := by
  rw [operand8_memory, readByte_cpu]

/-- The result and CC of a read-modify-write: the function on the byte read, the next draw and CC as they were before. -/
def memoryOutcome (op : UnaryOp) (m : MemOp) (s : State) : Byte × Byte :=
  op.apply (operand8 (.mem m) s).1 (Config.drawBit s.draws) s.cpu.cc

/-- The state in which a read-modify-write writes: the operand read, CC written, the draw and the cycles counted. -/
def modified (op : UnaryOp) (m : MemOp) (s : State) : State :=
  (((operand8 (.mem m) s).2.setCc (memoryOutcome op m s).2).takeDraw op.draws).addCycles (memCycles 6 6 7 m)

theorem writeByte_addCycles (a : Word) (v : Byte) (n : Nat) (s : State) :
    (writeByte a v s).addCycles n = writeByte a v (s.addCycles n) := by
  unfold writeByte
  cases target a <;> rfl

theorem modifyMemory_eq (op : UnaryOp) (m : MemOp) (s : State) : modifyMemory op m s =
    writeByte (effectiveAddress m s).1 (memoryOutcome op m s).1 (modified op m s) := by
  rw [modified, ← writeByte_addCycles, memoryOutcome, ← operand8_nextDraw (.mem m), ← operand8_cc (.mem m) s]
  rfl

theorem modified_frame (op : UnaryOp) (m : MemOp) (s : State) :
    OperandFrame [.cc] (.mem m) (memCycles 6 6 7 m) s (modified op m s) :=
  operandFrame_of_setCc (written := []) _ _ _ (fun _ _ => rfl) (operand8_keepsControl _ s) (by simp) rfl (by simp)

/-- A register frame speaks of the CPUs alone, so a bus read before it and a bus write after it keep it. -/
theorem registerFrame_congr {written upd : List RegName} {s s1 s1' t t' : State} (h : registerFrame written upd s s1 t)
    (hs1 : s1'.cpu = s1.cpu) (ht : t'.cpu = t.cpu) (hsystem : keepsSystem s t') :
    registerFrame written upd s s1' t' := by
  obtain ⟨h1, h2, hwait, -⟩ := h
  have hreg := getRegister_congr ht
  refine ⟨fun q hq => ?_, fun q hq => (hreg q).trans (h2 q hq), (congrArg Cpu.wait ht).trans hwait, hsystem⟩
  rw [hreg q, h1 q hq, getRegister_congr hs1 q]

/-- Settles O15: one read at the effective address, CC and the draw, then one write at the same address. -/
theorem readModifyWrites : Obligations.ReadModifyWrites := by
  unfold Obligations.ReadModifyWrites
  intro op m s
  obtain ⟨hregs, hmem, hdev, hcycles⟩ := modified_frame op m s
  have hparams : (modified op m s).params = s.params := by simp [modified]
  refine ⟨_, exec_unaryMem op m s, ?_⟩
  rw [modifyMemory_eq]
  refine ⟨?cc, ?draws, registerFrame_congr hregs (effectiveAddress_cpu m s) (writeByte_cpu _ _ _) ?system,
    storesBytes_writeByte rfl (writeByte_params _ _ _),
    keepsMemoryBut_writeByte hmem rfl (writeByte_params _ _ _), ?dev, ?cycles⟩
  case cc => rw [writeByte_cpu]; rfl
  case draws => simpa [modified] using draws_count op s.draws
  case system => simp [modified, keepsSystem]
  case dev => rw [writeByte_busWriteDev, hparams, hdev]; rfl
  case cycles => rw [writeByte_report]; exact hcycles

/-! ### The accumulators -/

theorem exec_unaryAcc (op : UnaryOp) (r : Acc) (s : State) : exec (unaryAcc op r) s = .next (modifyAcc op r s) := by
  cases op <;> cases r <;> rfl

/-- The result and CC of a register form. -/
def accOutcome (op : UnaryOp) (r : Acc) (s : State) : Byte × Byte :=
  op.apply (s.getAcc r) (Config.drawBit s.draws) s.cpu.cc

theorem modifyAcc_eq (op : UnaryOp) (r : Acc) (s : State) : modifyAcc op r s =
    (((s.setAcc r (accOutcome op r s).1).setCc (accOutcome op r s).2).takeDraw op.draws).addCycles 2 := rfl

/-- Settles O16: the accumulator and CC take the function's outcome. -/
theorem singleOperandOnAccumulators : Obligations.SingleOperandOnAccumulators := by
  unfold Obligations.SingleOperandOnAccumulators
  intro op r s
  refine ⟨_, exec_unaryAcc op r s, ?_⟩
  rw [modifyAcc_eq]
  refine ⟨?result, rfl, ?draws, ?written, keepsMemory_of_mem (by simp) (by simp), by simp, ?control, by simp⟩
  case result => cases r <;> rfl
  case draws => simpa using draws_count op s.draws
  case written => exact keepsRegisters_trans (setAcc_keepsRegisters r _ s) (setCc_keepsRegisters _ _)
  case control => exact setAcc_keepsControl r _ ⟨rfl, rfl, rfl, rfl⟩

/-! ### Test and clear -/

theorem exec_tstAcc (r : Acc) (s : State) : exec (tstAcc r) s = .next (testAcc r s) := by cases r <;> rfl

theorem exec_clrAcc (r : Acc) (s : State) : exec (clrAcc r) s = .next (clearAcc r s) := by cases r <;> rfl

theorem setCc_keepsRest (cc : Byte) (s : State) : keepsRest s (s.setCc cc) :=
  ⟨fun _ => rfl, rfl, rfl, rfl, rfl, rfl, rfl⟩

theorem setAcc_keepsRest (r : Acc) (v : Byte) (s : State) : keepsRest s (s.setAcc r v) :=
  ⟨keepsMemory_of_mem (setAcc_mem r v s) (setAcc_params r v s), setAcc_dev r v s, setAcc_draws r v s,
    setAcc_keepsControl r v ⟨rfl, rfl, rfl, rfl⟩⟩

theorem testMemory_eq (m : MemOp) (s : State) : testMemory m s =
    ((((operand8 (.mem m) s).2.setCc (tstFlags (operand8 (.mem m) s).1 s.cpu.cc)).takeDraw false).addCycles
      (memCycles 6 6 7 m)) := by
  rw [← operand8_cc (.mem m) s]
  rfl

theorem testMemory_frame (m : MemOp) (s : State) :
    OperandFrame [.cc] (.mem m) (memCycles 6 6 7 m) s (testMemory m s) := by
  rw [testMemory_eq]
  exact operandFrame_of_setCc (written := []) _ _ _ (fun _ _ => rfl) (operand8_keepsControl _ s) (by simp) rfl (by simp)

/-- A clear writes 0 at the effective address, in a state that differs by the address computed and CC alone. -/
theorem clearMemory_eq (m : MemOp) (s : State) : clearMemory m s =
    (writeByte (effectiveAddress m s).1 0 (storing m (clrFlags s.cpu.cc) s)).addCycles (memCycles 6 6 7 m) := by
  rw [storing, ← effectiveAddress_cc m s]
  rfl

/-- Settles O17: a test writes CC alone after its operand's read; a clear of memory is one bus write in the state with
the address computed. -/
theorem testAndClear : Obligations.TestAndClear := by
  unfold Obligations.TestAndClear
  refine ⟨fun m s => ⟨⟨_, rfl, ?tstMemory⟩, ⟨_, rfl, ?clrMemory⟩⟩,
    fun r s => ⟨⟨_, exec_tstAcc r s, ?tstAcc⟩, ⟨_, exec_clrAcc r s, ?clrAcc⟩⟩⟩
  case tstMemory =>
    obtain ⟨hregs, hmem, hdev, hcycles⟩ := testMemory_frame m s
    have hsystem : keepsSystem s (testMemory m s) := by simp [testMemory_eq, keepsSystem]
    have hcc : (testMemory m s).cpu.cc = tstFlags (operand8 (.mem m) s).1 s.cpu.cc := by simp [testMemory_eq]
    have hflag := fun fl => getFlag_tstFlags fl (operand8 (.mem m) s).1 s.cpu.cc
    rw [hcc]
    exact ⟨hflag .n, hflag .z, hflag .v, keepsFlags_tstFlags hcc,
      registerFrame_congr hregs (effectiveAddress_cpu m s) rfl hsystem, hmem, hdev, by simp [testMemory_eq], hcycles⟩
  case clrMemory =>
    have hcc : (clearMemory m s).cpu.cc = clrFlags s.cpu.cc := by simp [clearMemory_eq]
    have hflag := fun fl => getFlag_clrFlags fl s.cpu.cc
    rw [hcc]
    refine ⟨hflag .n, hflag .z, hflag .v, hflag .c, keepsFlags_clrFlags hcc, ?_⟩
    rw [clearMemory_eq]
    refine ⟨storing_registerFrame (writeByte_cpu _ _ _) (by simp [keepsSystem]), storesBytes_writeByte rfl (by simp),
      keepsMemoryBut_writeByte (storing_keepsMemory m _ s) rfl (by simp), by simp [writeByte_busWriteDev], by simp,
      ?cycles⟩
    case cycles =>
      simp only [addCycles_report, writeByte_report, storing_report]
      exact Nat.add_right_comm _ _ _
  case tstAcc =>
    have hflag := fun fl => getFlag_tstFlags fl (s.getAcc r) s.cpu.cc
    exact ⟨hflag .n, hflag .z, hflag .v, keepsFlags_tstFlags rfl, setCc_keepsRegisters _ s, setCc_keepsRest _ s, rfl⟩
  case clrAcc =>
    have hflag := fun fl => getFlag_clrFlags fl s.cpu.cc
    refine ⟨?zero, hflag .n, hflag .z, hflag .v, hflag .c, keepsFlags_clrFlags rfl,
      keepsRegisters_trans (setAcc_keepsRegisters r 0 s) (setCc_keepsRegisters _ _),
      keepsRest_trans (setAcc_keepsRest r 0 s) (setCc_keepsRest _ _), by simp [clearAcc]⟩
    case zero => cases r <;> rfl

end Sys2Proof.Machine
end

section
/-! PROOFS. Sixteen-bit arithmetic: one equation and one frame for ADDD and SUBD and for the five compares, then results
and flags from the laws of `Add16` and `Sub16`. -/

namespace Sys2Proof.Machine

/-! ### The frame of an instruction that reads a 16-bit operand -/

/-- What an instruction that reads a 16-bit operand and then works on registers leaves: the register frame, memory, the
devices as the operand's read leaves them, the draws, and the cycles. -/
structure WordOperandFrame (written : List RegName) (o : Opnd16) (cycles : Nat) (s t : State) : Prop where
  registers : registerFrame written (opnd16Updates o) s (operand16 o s).2 t
  memory : keepsMemory s t
  dev : t.dev = (operand16 o s).2.dev
  draws : t.draws = s.draws
  cycles : t.report = s.report + cycles + opnd16Extra o

/-- No addressing updates an accumulator. -/
@[simp] theorem operand16_d (o : Opnd16) (s : State) : (operand16 o s).2.cpu.d = s.cpu.d := by
  simp [Cpu.d]

@[simp] theorem setD_d (v : Word) (s : State) : (s.setD v).cpu.d = v := getReg16_setReg16 .d v s

theorem operand16_keepsMemory (o : Opnd16) (s : State) : keepsMemory s (operand16 o s).2 :=
  keepsMemory_of_mem (operand16_mem o s) (operand16_params o s)

theorem operand16_keepsControl (o : Opnd16) (s : State) : keepsControl s (operand16 o s).2 := by
  simp [keepsControl, keepsSystem]

theorem setReg16_keepsRest (r : Reg16) (v : Word) (s : State) : keepsRest s (s.setReg16 r v) := by
  cases r <;> exact ⟨fun _ => rfl, rfl, rfl, rfl, rfl, rfl, rfl⟩

/-- A write of CC and the count of cycles add CC to the registers written. -/
theorem wordOperandFrame_of_setCc {written : List RegName} {o : Opnd16} {s u : State} (cc : Byte) (n : Nat)
    (hregs : keepsRegisters written (operand16 o s).2 u) (hrest : keepsRest (operand16 o s).2 u)
    (hreport : u.report = (operand16 o s).2.report) :
    WordOperandFrame (written ++ [.cc]) o n s ((u.setCc cc).addCycles n) := by
  obtain ⟨hmem, hdev, hdraws, hwait, hfcycles, hparams, hhost⟩ := hrest
  obtain ⟨hwait', hfcycles', hparams', hhost'⟩ := operand16_keepsControl o s
  refine ⟨registerFrame_of ?registers (operand16_keeps o s) ?control,
    fun a => (hmem a).trans (operand16_keepsMemory o s a), hdev, hdraws.trans (operand16_draws o s), ?cycles⟩
  case registers => exact keepsRegisters_trans hregs (setCc_keepsRegisters cc u)
  case control =>
    exact ⟨hwait.trans hwait', hfcycles.trans hfcycles', hparams.trans hparams', hhost.trans hhost'⟩
  case cycles =>
    rw [addCycles_report, setCc_report, hreport, operand16_report]
    exact Nat.add_right_comm _ _ _

/-! ### ADDD and SUBD -/

theorem arith16_eq (f : Word → Word → Byte → Word × Byte) (o : Opnd16) (s : State) : arith16 f o s =
    (((operand16 o s).2.setD (f s.cpu.d (operand16 o s).1 s.cpu.cc).1).setCc
      (f s.cpu.d (operand16 o s).1 s.cpu.cc).2).addCycles (opnd16Cycles 4 6 6 7 o) := by
  simp [arith16]

theorem arith16_d (f : Word → Word → Byte → Word × Byte) (o : Opnd16) (s : State) :
    (arith16 f o s).cpu.d = (f s.cpu.d (operand16 o s).1 s.cpu.cc).1 := by
  rw [arith16_eq]
  exact setD_d _ (operand16 o s).2

theorem arith16_cc (f : Word → Word → Byte → Word × Byte) (o : Opnd16) (s : State) :
    (arith16 f o s).cpu.cc = (f s.cpu.d (operand16 o s).1 s.cpu.cc).2 := by
  simp [arith16_eq]

theorem arith16_frame (f : Word → Word → Byte → Word × Byte) (o : Opnd16) (s : State) :
    WordOperandFrame [.d, .a, .b, .cc] o (opnd16Cycles 4 6 6 7 o) s (arith16 f o s) := by
  rw [arith16_eq]
  exact wordOperandFrame_of_setCc _ _ (setReg16_keepsRegisters .d _ _) (setReg16_keepsRest .d _ _) rfl

theorem keepsFlags_add16 {a m : Word} {s t : State} (h : t.cpu.cc = (add16 a m s.cpu.cc).2) :
    keepsFlags [.c, .v, .n, .z] s t := by
  intro fl hfl
  rw [h, getFlag_add16]
  cases fl with
  | i | h | f | e => rfl
  | c | v | n | z => simp at hfl

theorem keepsFlags_sub16 {a m : Word} {s t : State} (h : t.cpu.cc = (sub16 a m s.cpu.cc).2) :
    keepsFlags [.c, .v, .n, .z] s t := by
  intro fl hfl
  rw [h, getFlag_sub16]
  cases fl with
  | i | h | f | e => rfl
  | c | v | n | z => simp at hfl

/-- Z after `Sub16` is the equality of the two words. -/
theorem getFlag_z_sub16 (a m : Word) (cc : Byte) : getFlag .z (sub16 a m cc).2 = decide (a = m) := by
  rw [getFlag_sub16, sub16_fst]
  exact decide_eq_decide.mpr (sub_eq_zero_iff a m)

/-- Settles O18: D and CC take the outcome of `Add16` or of `Sub16`. -/
theorem arithmeticOnD : Obligations.ArithmeticOnD := by
  unfold Obligations.ArithmeticOnD
  intro o s a m
  refine ⟨⟨arith16 add16 o s, rfl, ?sum⟩, ⟨arith16 sub16 o s, rfl, ?difference⟩⟩
  case sum =>
    obtain ⟨hregs, hmem, hdev, hdraws, hcycles⟩ := arith16_frame add16 o s
    have hcc := arith16_cc add16 o s
    have hflag := getFlag_add16 a m s.cpu.cc
    rw [arith16_d, hcc]
    exact ⟨add16_toNat a m _, hflag .c, hflag .v, hflag .n, hflag .z, keepsFlags_add16 hcc, hregs, hmem, hdev, hdraws,
      hcycles⟩
  case difference =>
    obtain ⟨hregs, hmem, hdev, hdraws, hcycles⟩ := arith16_frame sub16 o s
    have hcc := arith16_cc sub16 o s
    have hflag := getFlag_sub16 a m s.cpu.cc
    rw [sub16_fst] at hflag
    rw [arith16_d, hcc]
    exact ⟨sub16_fst a m _, hflag .c, hflag .v, hflag .n, getFlag_z_sub16 a m _, keepsFlags_sub16 hcc, hregs, hmem,
      hdev, hdraws, hcycles⟩

/-! ### The compares -/

theorem exec_cmpReg (r : Reg16) (o : Opnd16) (s : State) :
    exec (cmpReg r o) s = .next (compare16 r (pageTwoCompare r + 4) o s) := by
  cases r <;> rfl

theorem compare16_cc (r : Reg16) (cyc : Nat) (o : Opnd16) (s : State) :
    (compare16 r cyc o s).cpu.cc = (sub16 ((operand16 o s).2.getReg16 r) (operand16 o s).1 s.cpu.cc).2 := by
  simp [compare16]

theorem compare16_frame (r : Reg16) (cyc : Nat) (o : Opnd16) (s : State) :
    WordOperandFrame [.cc] o (opnd16Cycles cyc (cyc + 2) (cyc + 2) (cyc + 3) o) s (compare16 r cyc o s) :=
  wordOperandFrame_of_setCc (written := []) _ _ (fun _ _ => rfl) ⟨fun _ => rfl, rfl, rfl, rfl, rfl, rfl, rfl⟩ rfl

/-- Settles O19: a compare sets the flags of `Sub16` on the register that the operand's addressing leaves, and CC is all
it writes. -/
theorem comparesOfSixteenBits : Obligations.ComparesOfSixteenBits := by
  unfold Obligations.ComparesOfSixteenBits
  intro r o s
  refine ⟨_, exec_cmpReg r o s, ?_⟩
  intro a m
  obtain ⟨hregs, hmem, hdev, hdraws, hcycles⟩ := compare16_frame r (pageTwoCompare r + 4) o s
  have hcc := compare16_cc r (pageTwoCompare r + 4) o s
  have hflag := getFlag_sub16 a m s.cpu.cc
  rw [sub16_fst] at hflag
  rw [hcc]
  refine ⟨hflag .c, hflag .v, hflag .n, getFlag_z_sub16 a m _, keepsFlags_sub16 hcc, hregs, hmem, hdev, hdraws,
    ?cycles⟩
  case cycles =>
    rw [hcycles, opnd16Cycles_add (pageTwoCompare r) 4 6 6 7 o, Nat.add_assoc s.report (pageTwoCompare r)]

end Sys2Proof.Machine
end

section
/-! PROOFS. Decimal adjust, multiply, sign extension, ABX and the condition-code instructions. -/

namespace Sys2Proof.Machine

/-! ### Decimal adjust -/

/-- The correction of the low digit of A, from A and H (`42_arith16_misc.md` R290). -/
def lowCorrection (a : Nat) (h : Bool) : Nat := if a % 16 > 9 ∨ h = true then 6 else 0

/-- The correction of the high digit of A, from A and C (`42_arith16_misc.md` R290). -/
def highCorrection (a : Nat) (c : Bool) : Nat :=
  if a / 16 > 9 ∨ c = true ∨ (a / 16 > 8 ∧ a % 16 > 9) then 0x60 else 0

/-- A with both corrections, before it is cut to a byte. -/
def corrected (a : Nat) (h c : Bool) : Nat := a + lowCorrection a h + highCorrection a c

theorem daa8_toNat (a : Byte) (v : Bool) (cc : Byte) :
    (daa8 a v cc).1.toNat = corrected a.toNat (getFlag .h cc) (getFlag .c cc) % 256 :=
  (BitVec.toNat_ofNat _ _).trans (congrArg (· % 256) (Nat.add_assoc _ _ _).symm)

/-- Every flag after DAA; V is the draw. -/
theorem getFlag_daa8 (a : Byte) (v : Bool) (cc : Byte) (fl : Flag) :
    getFlag fl (daa8 a v cc).2 = (match fl with
      | .c => getFlag .c cc || decide (corrected a.toNat (getFlag .h cc) (getFlag .c cc) > 255)
      | .n => (daa8 a v cc).1.getLsbD 7
      | .z => decide ((daa8 a v cc).1 = 0)
      | .v => v
      | _ => getFlag fl cc) := by
  have hsum : corrected a.toNat (getFlag .h cc) (getFlag .c cc) =
      a.toNat + (lowCorrection a.toNat (getFlag .h cc) + highCorrection a.toNat (getFlag .c cc)) := Nat.add_assoc _ _ _
  rw [hsum, daa8, getFlag_setFlag, getFlag_nz8, getFlag_setFlag]
  cases fl <;> rfl

section bcd

/-! Two BCD numbers added in binary: `high` and `low` are the sums of their digits, the carry in counted with the low
ones, and the addition leaves `16 * high + low` in C and A, and H where the low digits carry. -/

variable {high low : Nat}

/-- The low digit is corrected just where the sum of the low digits has two decimal digits. -/
theorem lowCorrection_bcd (hlow : low ≤ 19) :
    lowCorrection ((16 * high + low) % 256) (decide (low > 15)) = if low > 9 then 6 else 0 := by
  have hiff : (16 * high + low) % 256 % 16 > 9 ∨ decide (low > 15) = true ↔ low > 9 := by
    rw [decide_eq_true_eq]
    omega
  exact if_congr hiff rfl rfl

/-- The high digit is corrected just where the sum of the high digits, with the decimal carry, has two. -/
theorem highCorrection_bcd (hhigh : high ≤ 18) (hlow : low ≤ 19) :
    highCorrection ((16 * high + low) % 256) (decide (16 * high + low > 255))
      = if high + low / 10 > 9 then 0x60 else 0 := by
  have hiff : ((16 * high + low) % 256 / 16 > 9 ∨ decide (16 * high + low > 255) = true ∨
      ((16 * high + low) % 256 / 16 > 8 ∧ (16 * high + low) % 256 % 16 > 9)) ↔ high + low / 10 > 9 := by
    rw [decide_eq_true_eq]
    omega
  exact if_congr hiff rfl rfl

/-- Six and ninety-six turn the digits that carry into decimal ones: C holds the hundreds, A the tens and the units. -/
theorem corrected_bcd (hhigh : high ≤ 18) (hlow : low ≤ 19) :
    let sum := corrected ((16 * high + low) % 256) (decide (low > 15)) (decide (16 * high + low > 255))
    100 * (decide (16 * high + low > 255) || decide (sum > 255)).toNat + 10 * (sum % 256 / 16) + sum % 256 % 16
      = 10 * high + low := by
  intro sum
  have hsum : sum = (16 * high + low) % 256 + (if low > 9 then 6 else 0) +
      (if high + low / 10 > 9 then 0x60 else 0) := by
    rw [← lowCorrection_bcd (high := high) hlow, ← highCorrection_bcd hhigh hlow]
    rfl
  rw [← Bool.decide_or, Bool.toNat, Bool.cond_decide, hsum]
  split_ifs <;> omega

end bcd

/-- DAA writes C, N, Z and V alone. -/
theorem keepsFlags_daa8 {a : Byte} {v : Bool} {s t : State} (ht : t.cpu.cc = (daa8 a v s.cpu.cc).2) :
    keepsFlags [.c, .n, .z, .v] s t := by
  intro fl hfl
  rw [ht, getFlag_daa8]
  cases fl with
  | i | h | f | e => rfl
  | c | n | z | v => simp at hfl

/-- Settles O20: A and CC take the outcome of DAA, and after a BCD addition the corrections make its digits decimal. -/
theorem decimalAdjust_spec : Obligations.DecimalAdjust := by
  unfold Obligations.DecimalAdjust
  intro s
  have ha : (decimalAdjust s).cpu.a = (daa8 s.cpu.a s.nextDraw s.cpu.cc).1 := rfl
  have hcc : (decimalAdjust s).cpu.cc = (daa8 s.cpu.a s.nextDraw s.cpu.cc).2 := rfl
  have hresult := daa8_toNat s.cpu.a s.nextDraw s.cpu.cc
  have hflag := getFlag_daa8 s.cpu.a s.nextDraw s.cpu.cc
  refine ⟨decimalAdjust s, rfl, ?_⟩
  rw [ha, hcc]
  refine ⟨⟨hresult, hflag .c⟩, hflag .n, hflag .z, hflag .v, rfl, ?bcd, keepsFlags_daa8 hcc,
    keepsRegisters_trans (setAcc_keepsRegisters .a _ s) (setCc_keepsRegisters _ _), fun _ => rfl, rfl,
    ⟨rfl, rfl, rfl, rfl⟩, rfl⟩
  case bcd =>
    intro x1 x0 y1 y0 k hx1 hx0 hy1 hy0 hk hbyte hcarry hhalf
    have hdigits : 16 * x1 + x0 + (16 * y1 + y0) + k = 16 * (x1 + y1) + (x0 + y0 + k) := by omega
    rw [hdigits] at hbyte hcarry
    rw [hflag .c, hresult, hbyte, hcarry, hhalf, corrected_bcd (by omega) (by omega)]
    omega

/-! ### Multiply -/

theorem mul8_toNat (a b cc : Byte) : (mul8 a b cc).1.toNat = a.toNat * b.toNat := by
  have hlt : a.toNat * b.toNat < 2 ^ 16 := Nat.mul_lt_mul'' (c := 2 ^ 8) (d := 2 ^ 8) a.isLt b.isLt
  exact (BitVec.toNat_ofNat _ _).trans (Nat.mod_eq_of_lt hlt)

/-- The product is zero where a factor is. -/
theorem mul8_eq_zero_iff (a b cc : Byte) : (mul8 a b cc).1 = 0 ↔ a = 0 ∨ b = 0 := by
  rw [← BitVec.toNat_inj, mul8_toNat, ← BitVec.toNat_inj (x := a), ← BitVec.toNat_inj (x := b)]
  exact Nat.mul_eq_zero

theorem loByte_bit7 (w : Word) : (loByte w).getLsbD 7 = w.getLsbD 7 := by simp [loByte]

/-- Every flag after MUL. -/
theorem getFlag_mul8 (a b cc : Byte) (fl : Flag) :
    getFlag fl (mul8 a b cc).2 = (match fl with
      | .z => decide ((mul8 a b cc).1 = 0)
      | .c => (mul8 a b cc).1.getLsbD 7
      | _ => getFlag fl cc) := by
  rw [mul8, getFlag_setFlag, getFlag_setFlag]
  cases fl <;> rfl

/-- MUL writes Z and C alone. -/
theorem keepsFlags_mul8 {a b : Byte} {s t : State} (ht : t.cpu.cc = (mul8 a b s.cpu.cc).2) :
    keepsFlags [.z, .c] s t := by
  intro fl hfl
  rw [ht, getFlag_mul8]
  cases fl with
  | v | n | i | h | f | e => rfl
  | z | c => simp at hfl

/-- Settles O21: D takes the product, which has at most 16 bits. -/
theorem multiply_spec : Obligations.Multiply := by
  unfold Obligations.Multiply
  intro s
  have hd : (multiply s).cpu.d = (mul8 s.cpu.a s.cpu.b s.cpu.cc).1 := setD_d _ s
  have hcc : (multiply s).cpu.cc = (mul8 s.cpu.a s.cpu.b s.cpu.cc).2 := rfl
  have hflag := getFlag_mul8 s.cpu.a s.cpu.b s.cpu.cc
  refine ⟨multiply s, rfl, ?_⟩
  rw [hd, hcc]
  exact ⟨mul8_toNat _ _ _, (hflag .z).trans (decide_eq_decide.mpr (mul8_eq_zero_iff _ _ _)),
    (hflag .c).trans (loByte_bit7 _).symm, keepsFlags_mul8 hcc,
    keepsRegisters_trans (setReg16_keepsRegisters .d _ s) (setCc_keepsRegisters _ _),
    keepsRest_trans (setReg16_keepsRest .d (mul8 s.cpu.a s.cpu.b s.cpu.cc).1 s) (setCc_keepsRest _ _), rfl⟩

/-! ### Sign extension and ABX -/

/-- A word whose high byte repeats the sign of its low byte is the low byte as a signed number. -/
theorem wordOf_sign (b : Byte) : wordOf (if b.getLsbD 7 then 0xFF else 0x00) b = sext8 b := by
  decide +revert

theorem sext8_toInt (b : Byte) : (sext8 b).toInt = b.toInt := BitVec.toInt_signExtend_of_le (by decide)

theorem zext8_toNat (b : Byte) : (zext8 b).toNat = b.toNat := BitVec.toNat_setWidth_of_le (by decide)

/-- `NZ16` writes N and Z alone. -/
theorem keepsFlags_nz16 {r : Word} {s t : State} (ht : t.cpu.cc = nz16 r s.cpu.cc) : keepsFlags [.n, .z] s t := by
  intro fl hfl
  rw [ht, getFlag_nz16]
  cases fl with
  | c | v | i | h | f | e => rfl
  | n | z => simp at hfl

/-- A frame with fewer registers written is the stronger one. -/
theorem keepsRegisters_mono {w w' : List RegName} {s t : State} (hsub : w ⊆ w') (h : keepsRegisters w s t) :
    keepsRegisters w' s t := fun q hq => h q (mt (@hsub q) hq)

theorem signExtend_d (s : State) : (signExtend s).cpu.d = sext8 s.cpu.b := wordOf_sign s.cpu.b

theorem signExtend_cc (s : State) : (signExtend s).cpu.cc = nz16 (sext8 s.cpu.b) s.cpu.cc :=
  congrArg (nz16 · s.cpu.cc) (signExtend_d s)

theorem signExtend_keepsRest (s : State) : keepsRest s (signExtend s) := ⟨fun _ => rfl, rfl, rfl, rfl, rfl, rfl, rfl⟩

theorem addBToX_toNat (s : State) : (addBToX s).cpu.x.toNat = (s.cpu.x.toNat + s.cpu.b.toNat) % 65536 := by
  rw [← zext8_toNat]
  exact BitVec.toNat_add _ _

/-- Settles O22: SEX makes D the sign extension of B, ABX adds the zero extension of B to X. -/
theorem signExtendAndAddB : Obligations.SignExtendAndAddB := by
  unfold Obligations.SignExtendAndAddB
  intro s
  refine ⟨⟨signExtend s, rfl, ?sex⟩, ⟨addBToX s, rfl, addBToX_toNat s, setReg16_keepsRegisters .x _ s,
    setReg16_keepsRest .x _ s, rfl⟩⟩
  case sex =>
    rw [signExtend_d, signExtend_cc]
    exact ⟨sext8_toInt _, getFlag_nz16 .n _ _, getFlag_nz16 .z _ _, keepsFlags_nz16 (signExtend_cc s),
      keepsRegisters_mono (by decide) (keepsRegisters_trans (setAcc_keepsRegisters .a _ s) (setCc_keepsRegisters _ _)),
      signExtend_keepsRest s, rfl⟩

/-! ### ANDCC, ORCC and NOP -/

/-- Settles O23: a bit of an and or of an or is that of the two bits. -/
theorem conditionCodesAndNop : Obligations.ConditionCodesAndNop := by
  unfold Obligations.ConditionCodesAndNop
  intro v s
  exact ⟨⟨andCc v s, rfl, fun _ => BitVec.getLsbD_and, setCc_keepsRegisters _ s, setCc_keepsRest _ s, rfl⟩,
    ⟨orCc v s, rfl, fun _ => BitVec.getLsbD_or, setCc_keepsRegisters _ s, setCc_keepsRest _ s, rfl⟩,
    ⟨s.addCycles 2, rfl, fun _ _ => rfl, addCycles_keepsRest 2 s, rfl⟩⟩

end Sys2Proof.Machine
end

section
/-! PROOFS. Branches, calls, jumps and returns: the table of conditions as the model's own conditions, what they say
after a subtraction, and the return that undoes a call. -/

namespace Sys2Proof.Machine

/-! ### The conditions, read off the table (`43_branch_control.md` R310) -/

/-- The digit N:Z:V:C of the table. -/
theorem ccDigit_eq (cc : Byte) : cc.toNat % 16 = 8 * (getFlag .n cc).toNat + 4 * (getFlag .z cc).toNat
    + 2 * (getFlag .v cc).toNat + (getFlag .c cc).toNat := by
  have hbit : ∀ k, (cc.getLsbD k).toNat = cc.toNat / 2 ^ k % 2 := fun k => Nat.toNat_testBit cc.toNat k
  simp only [getFlag, Flag.bit, hbit]
  omega

/-- The digits of the table's last column are those that meet the condition. -/
theorem takenByTable_eq_holds (k : Cond) (cc : Byte) : takenByTable k cc = k.holds cc := by
  unfold takenByTable Cond.holds
  rw [ccDigit_eq]
  generalize getFlag .c cc = c, getFlag .v cc = v, getFlag .z cc = z, getFlag .n cc = n
  cases k <;> revert c v z n <;> decide

/-! ### Branches -/

theorem setPc_keepsRegisters (v : Word) (s : State) : keepsRegisters [.pc] s (s.setPc v) := by
  intro q hq
  cases q with
  | pc => exact absurd (List.mem_singleton.mpr rfl) hq
  | _ => rfl

theorem setPc_keepsRest (v : Word) (s : State) : keepsRest s (s.setPc v) :=
  ⟨fun _ => rfl, rfl, rfl, rfl, rfl, rfl, rfl⟩

@[simp] theorem setPc_self (s : State) : s.setPc s.cpu.pc = s := rfl

/-- The target of a branch: the offset from the next instruction where the table says so, else the next instruction. -/
def branchTarget (k : Cond) (offset : Word) (s : State) : Word :=
  if takenByTable k s.cpu.cc then s.cpu.pc + offset else s.cpu.pc

/-- The cycles of a long branch; LBRA takes 5 although it is taken (`43_branch_control.md` R312, R330). -/
def longBranchCycles (k : Cond) (s : State) : Nat := if k ≠ .always ∧ takenByTable k s.cpu.cc then 6 else 5

theorem shortBranch_eq (k : Cond) (d : Byte) (s : State) :
    shortBranch k d s = (s.setPc (branchTarget k (sext8 d) s)).addCycles 3 := by
  unfold shortBranch branchTarget
  rw [takenByTable_eq_holds]
  split <;> rfl

theorem longBranch_eq {k : Cond} (hk : k ≠ .always) (d : Word) (s : State) :
    longBranch k d s = (s.setPc (branchTarget k d s)).addCycles (longBranchCycles k s) := by
  unfold longBranch branchTarget longBranchCycles
  rw [takenByTable_eq_holds]
  cases k.holds s.cpu.cc with
  | true => simp [hk]
  | false => simp

theorem longBranchAlways_eq (d : Word) (s : State) :
    longBranchAlways d s = (s.setPc (branchTarget .always d s)).addCycles (longBranchCycles .always s) := by
  unfold longBranchAlways branchTarget longBranchCycles
  rw [takenByTable_eq_holds]
  rfl

theorem exec_shortInstr (k : Cond) (d : Byte) (s : State) : exec (shortInstr k d) s = .next (shortBranch k d s) := by
  cases k <;> rfl

theorem exec_longInstr (k : Cond) (d : Word) (s : State) : exec (longInstr k d) s =
    .next (if k = .always then longBranchAlways d s else longBranch k d s) := by
  cases k <;> rfl

theorem exec_longInstr_eq (k : Cond) (d : Word) (s : State) : exec (longInstr k d) s =
    .next ((s.setPc (branchTarget k d s)).addCycles (longBranchCycles k s)) := by
  rw [exec_longInstr]
  split
  next hk => rw [hk, longBranchAlways_eq]
  next hk => rw [longBranch_eq hk]

/-- Settles O24: a branch writes PC with its target and reports its cycles. -/
theorem branches : Obligations.Branches := by
  unfold Obligations.Branches
  intro k s
  have hrest : ∀ v n, keepsRest s ((s.setPc v).addCycles n) := fun v n =>
    keepsRest_trans (setPc_keepsRest v s) (addCycles_keepsRest n _)
  refine ⟨fun d => ⟨_, exec_shortInstr k d s, ?short⟩, fun d => ⟨_, exec_longInstr_eq k d s, ?long⟩⟩
  case short =>
    rw [shortBranch_eq]
    exact ⟨rfl, setPc_keepsRegisters _ s, hrest _ _, rfl⟩
  case long => exact ⟨rfl, setPc_keepsRegisters _ s, hrest _ _, rfl⟩

/-! ### What the conditions say after a subtraction -/

/-- The ten conditions that compare, read as the unsigned and the signed order of two words. -/
def readsAsComparison {w : Nat} (a m : BitVec w) (cc : Byte) : Prop :=
  takenByTable .hi cc = decide (m.toNat < a.toNat) ∧ takenByTable .ls cc = decide (a.toNat ≤ m.toNat) ∧
    takenByTable .cc cc = decide (m.toNat ≤ a.toNat) ∧ takenByTable .cs cc = decide (a.toNat < m.toNat) ∧
    takenByTable .ne cc = decide (a ≠ m) ∧ takenByTable .eq cc = decide (a = m) ∧
    takenByTable .ge cc = decide (m.toInt ≤ a.toInt) ∧ takenByTable .lt cc = decide (a.toInt < m.toInt) ∧
    takenByTable .gt cc = decide (m.toInt < a.toInt) ∧ takenByTable .le cc = decide (a.toInt ≤ m.toInt)

/-- N differs from V after a subtraction exactly where the first word is the smaller one, both read as signed: without
overflow the difference has the right sign, with overflow the words' own signs decide. -/
theorem sign_ne_overflow_sub {w : Nat} (a m : BitVec w) :
    ((a - m).msb != ((a.msb != m.msb) && (a.msb != (a - m).msb))) = decide (a.toInt < m.toInt) := by
  have hdifference : ¬ a.ssubOverflow m = true → (a - m).msb = decide (a.toInt < m.toInt) := by
    intro h
    rw [BitVec.msb_eq_toInt, BitVec.toInt_sub_of_not_ssubOverflow h]
    exact decide_eq_decide.mpr sub_neg
  rw [BitVec.ssubOverflow_eq] at hdifference
  have ha := BitVec.msb_eq_toInt (x := a)
  have hm := BitVec.msb_eq_toInt (x := m)
  cases hsa : a.msb <;> cases hsm : m.msb <;> simp only [hsa, hsm] at ha hm hdifference
  case false.false | true.true => simpa using hdifference
  case false.true =>
    have hnonneg := of_decide_eq_false ha.symm
    have hneg := of_decide_eq_true hm.symm
    have hle : m.toInt ≤ a.toInt := by omega
    simp [hle]
  case true.false =>
    have hneg := of_decide_eq_true ha.symm
    have hnonneg := of_decide_eq_false hm.symm
    have hlt : a.toInt < m.toInt := by omega
    simp [hlt]

/-- C the unsigned order, Z equality, N against V the signed order: the conditions read as comparisons. -/
theorem readsAsComparison_of_flags {w : Nat} {a m : BitVec w} {cc : Byte}
    (hc : getFlag .c cc = decide (a.toNat < m.toNat)) (hz : getFlag .z cc = decide (a = m))
    (hn : getFlag .n cc = (a - m).msb) (hv : getFlag .v cc = ((a.msb != m.msb) && (a.msb != (a - m).msb))) :
    readsAsComparison a m cc := by
  have hlt : (getFlag .n cc != getFlag .v cc) = decide (a.toInt < m.toInt) := by
    rw [hn, hv, sign_ne_overflow_sub]
  have hge : (getFlag .n cc == getFlag .v cc) = !decide (a.toInt < m.toInt) := by
    rw [← hlt, bne, Bool.not_not]
  have hNat : a = m ↔ a.toNat = m.toNat := BitVec.toNat_inj.symm
  have hInt : a = m ↔ a.toInt = m.toInt := BitVec.toInt_inj.symm
  unfold readsAsComparison
  simp only [takenByTable_eq_holds, Cond.holds, hlt, hge, hc, hz, ← decide_not, ← Bool.decide_and, ← Bool.decide_or,
    decide_eq_decide, true_and]
  refine ⟨?hi, ?ls, ?cc, ?ge, ?gt, ?le⟩
  case hi | ls => rw [hNat]; omega
  case gt | le => rw [hInt]; omega
  case cc | ge => exact not_lt

theorem readsAsComparison_sub8 (a m : Byte) (h : Bool) (cc : Byte) :
    readsAsComparison a m (sub8 a m false h cc).2 := by
  have hflag := fun fl => getFlag_sub8 a m false h cc fl
  simp only [sub8_noBorrow] at hflag
  exact readsAsComparison_of_flags (hflag .c) ((hflag .z).trans (decide_eq_decide.mpr (sub_eq_zero_iff a m)))
    ((hflag .n).trans (BitVec.msb_eq_getLsbD_last _).symm) (hflag .v)

theorem readsAsComparison_sub16 (a m : Word) (cc : Byte) : readsAsComparison a m (sub16 a m cc).2 := by
  have hflag := getFlag_sub16 a m cc
  simp only [sub16_fst] at hflag
  exact readsAsComparison_of_flags (hflag .c) (getFlag_z_sub16 a m cc)
    ((hflag .n).trans (BitVec.msb_eq_getLsbD_last _).symm) (hflag .v)

/-- Settles O25: a compare and a subtraction leave the flags of one difference, whose conditions read as comparisons. -/
theorem conditionsAfterCompare : Obligations.ConditionsAfterCompare := by
  unfold Obligations.ConditionsAfterCompare
  refine ⟨fun r o s t hexec => ?bytes, fun r o s t hexec => ?words⟩
  case bytes =>
    have hcc : t.cpu.cc = (binaryOutcome r .sub o s).2 := by
      rcases hexec with h | h
      · rw [exec_cmpInstr] at h
        rw [← Host.Outcome.next.inj h, test8_cc]
      · rw [exec_subInstr] at h
        rw [← Host.Outcome.next.inj h, arith8_cc]
        rfl
    rw [hcc, binaryOutcome_sub]
    exact readsAsComparison_sub8 _ _ _ _
  case words =>
    have hcc : t.cpu.cc = (sub16 ((operand16 o s).2.getReg16 r) (operand16 o s).1 s.cpu.cc).2 := by
      rcases hexec with h | ⟨rfl, h⟩
      · rw [exec_cmpReg] at h
        rw [← Host.Outcome.next.inj h, compare16_cc]
      · rw [← Host.Outcome.next.inj h, arith16_cc, ← operand16_d o s]
        rfl
    rw [hcc]
    exact readsAsComparison_sub16 _ _ _

/-! ### Calls -/

/-- A call pushes two bytes on S, the high byte last, and writes PC. -/
theorem call_eq (target : Word) (cyc : Nat) (s : State) : call target cyc s =
    ((pushBytes .hw [hiByte s.cpu.pc, loByte s.cpu.pc] s).setPc target).addCycles cyc := rfl

theorem call_stacksFrame (target : Word) (cyc : Nat) (s : State) :
    stacksFrame [hiByte s.cpu.pc, loByte s.cpu.pc] s (call target cyc s) :=
  stacksFrame_congr (pushBytes_stacksFrame _ s (by simp)) rfl rfl rfl rfl rfl rfl rfl rfl

theorem call_keepsRegisters (target : Word) (cyc : Nat) (s : State) :
    keepsRegisters [.s, .pc] s (call target cyc s) := by
  rw [call_eq]
  exact keepsRegisters_trans (pushBytes_keepsRegisters _ s) (setPc_keepsRegisters target _)

/-- Everything a call does but for its target. -/
theorem call_frame (target : Word) (cyc : Nat) (s : State) :
    stacksFrame [hiByte s.cpu.pc, loByte s.cpu.pc] s (call target cyc s) ∧
      keepsRegisters [.s, .pc] s (call target cyc s) ∧ keepsControl s (call target cyc s) ∧
      (call target cyc s).draws = s.draws ∧ (call target cyc s).report = s.report + cyc := by
  refine ⟨call_stacksFrame target cyc s, call_keepsRegisters target cyc s, ?control, ?draws, ?report⟩
  case control => simp [call_eq, keepsControl, keepsSystem, pushBytes_wait]
  case draws | report => simp [call_eq]

theorem effectiveAddress_keepsControl (m : MemOp) (s : State) : keepsControl s (effectiveAddress m s).2 := by
  simp [keepsControl, keepsSystem]

theorem keepsControl_trans {s t u : State} (h : keepsControl s t) (h' : keepsControl t u) : keepsControl s u := by
  obtain ⟨hw, hf, hp, hh⟩ := h
  obtain ⟨hw', hf', hp', hh'⟩ := h'
  exact ⟨hw'.trans hw, hf'.trans hf, hp'.trans hp, hh'.trans hh⟩

/-- Settles O26: each is a call, that of JSR made in the state in which the address is known. -/
theorem subroutineCalls : Obligations.SubroutineCalls := by
  unfold Obligations.SubroutineCalls
  refine ⟨fun d s => ⟨_, rfl, rfl, call_frame _ 7 s⟩, fun d s => ⟨_, rfl, rfl, call_frame _ 9 s⟩, fun m s => ?jsr⟩
  case jsr =>
    obtain ⟨hstack, hregs, hcontrol, hdraws, hreport⟩ :=
      call_frame (effectiveAddress m s).1 (memCycles 7 7 8 m) (effectiveAddress m s).2
    rw [effectiveAddress_pc] at hstack
    refine ⟨_, rfl, rfl, hstack, registerFrame_of hregs (effectiveAddress_keeps m s)
      (keepsControl_trans (effectiveAddress_keepsControl m s) hcontrol), hdraws.trans (effectiveAddress_draws m s), ?_⟩
    rw [jumpSubroutine, hreport, effectiveAddress_report]
    exact Nat.add_right_comm _ _ _

/-! ### Jumps and returns -/

theorem jump_eq (m : MemOp) (s : State) : jump m s =
    ((effectiveAddress m s).2.setPc (effectiveAddress m s).1).addCycles (memCycles 3 3 4 m) := rfl

/-- A return reads the word at S, moves S past it and writes PC. -/
theorem returnSubroutine_eq (s : State) : returnSubroutine s =
    (((readWord s.cpu.s s).2.setS (s.cpu.s + 2)).setPc (readWord s.cpu.s s).1).addCycles 5 := by
  rw [returnSubroutine, pullInto16, pull16_eq]
  rfl

theorem readWord_keepsRegisters (a : Word) (s : State) : keepsRegisters [] s (readWord a s).2 :=
  fun q _ => getRegister_congr (readWord_cpu a s) q

theorem returnSubroutine_keepsRegisters (s : State) : keepsRegisters [.s, .pc] s (returnSubroutine s) := by
  rw [returnSubroutine_eq]
  exact keepsRegisters_trans (keepsRegisters_trans (readWord_keepsRegisters s.cpu.s s) (setSp_keepsRegisters .hw _ _))
    (setPc_keepsRegisters _ _)

/-- Settles O27: a jump writes PC with the address computed; a return is the read of a word, with S and PC written. -/
theorem jumpsAndReturns : Obligations.JumpsAndReturns := by
  unfold Obligations.JumpsAndReturns
  refine ⟨fun m s => ⟨jump m s, rfl, ?jmp⟩, fun s => ⟨returnSubroutine s, rfl, ?rts⟩⟩
  case jmp =>
    refine ⟨rfl, registerFrame_of (setPc_keepsRegisters _ _) (effectiveAddress_keeps m s)
      (effectiveAddress_keepsControl m s), keepsMemory_of_mem (effectiveAddress_mem m s) (effectiveAddress_params m s),
      rfl, effectiveAddress_draws m s, ?_⟩
    rw [jump_eq, addCycles_report, setPc_report, effectiveAddress_report]
    exact Nat.add_right_comm _ _ _
  case rts =>
    have hregs := returnSubroutine_keepsRegisters s
    rw [returnSubroutine_eq] at hregs ⊢
    exact ⟨rfl, rfl, hregs, keepsMemory_of_mem (readWord_mem _ s) (readWord_params _ s), rfl, readWord_draws _ s,
      by simp [keepsControl, keepsSystem], by simp⟩

/-! ### A return undoes a call -/

/-- The return address stacked in RAM is the word the return reads, and its read changes nothing. -/
theorem readWord_call {s : State} (target : Word) (cyc : Nat) (hram : inRam (s.cpu.s - 2) 2) :
    readWord (call target cyc s).cpu.s (call target cyc s) = (s.cpu.pc, call target cyc s) := by
  obtain ⟨hs, hstored, -⟩ := call_stacksFrame target cyc s
  have hbytes := bytesAt_of_storesBytes (hs ▸ hram) hstored
  obtain ⟨hhi, hlo⟩ := bytesAt_two hbytes
  rw [readWord_of_peek hhi hlo, wordOf_hiByte_loByte]

/-- A call whose stack slot lies in RAM, and the return from it. -/
theorem returnSubroutine_call {s : State} (target : Word) (cyc : Nat) (hram : inRam (s.cpu.s - 2) 2) :
    keepsRegisters [] s (returnSubroutine (call target cyc s)) ∧
      (returnSubroutine (call target cyc s)).dev = (call target cyc s).dev := by
  have hregs := keepsRegisters_trans (call_keepsRegisters target cyc s)
    (returnSubroutine_keepsRegisters (call target cyc s))
  have hs : (call target cyc s).cpu.s + 2 = s.cpu.s := by
    rw [(call_stacksFrame target cyc s).1]
    exact BitVec.sub_add_cancel s.cpu.s 2
  rw [returnSubroutine_eq, readWord_call target cyc hram, hs] at hregs ⊢
  refine ⟨fun q _ => ?_, rfl⟩
  cases q with
  | s | pc => rfl
  | _ => exact hregs _ (by decide)

/-- Settles O28: each of the three is a call in the state in which its address is known, and no addressing moves PC. -/
theorem returnUndoesCall : Obligations.ReturnUndoesCall := by
  unfold Obligations.ReturnUndoesCall
  intro i s s1 hi hram
  have hcall : ∃ target cyc, exec i s = .next (call target cyc s1) ∧ s1.cpu.pc = s.cpu.pc := by
    rcases hi with ⟨⟨d, rfl⟩, rfl⟩ | ⟨⟨d, rfl⟩, rfl⟩ | ⟨m, rfl, rfl⟩
    · exact ⟨_, 7, rfl, rfl⟩
    · exact ⟨_, 9, rfl, rfl⟩
    · exact ⟨_, _, rfl, effectiveAddress_pc m s⟩
  obtain ⟨target, cyc, hexec, hpc⟩ := hcall
  obtain ⟨hregs, hdev⟩ := returnSubroutine_call target cyc hram
  exact ⟨_, _, hexec, rfl, (hregs .pc List.not_mem_nil).trans hpc, hregs, hdev⟩

end Sys2Proof.Machine
end

section
/-! PROOFS. Interrupt entries and the return from them: one equation for taking any of the five traps, the return as the
pull of a list, and the waits and undefined opcodes. -/

namespace Sys2Proof.Machine

/-! ### The frame of an entry -/

/-- The entry is that of a line, not of an instruction. -/
def Trap.isLine : Trap → Bool
  | .irq | .firq => true
  | .swi | .swi2 | .swi3 => false

/-- The entry stacks the entire frame, the E it leaves in CC (`60_exceptions.md` R410, R411). -/
def Trap.entire : Trap → Bool
  | .firq => false
  | .irq | .swi | .swi2 | .swi3 => true

/-- The flags an entry sets beside E (`60_exceptions.md` R404). -/
def Trap.masks : Trap → List Flag
  | .irq => [.i]
  | .firq | .swi => [.i, .f]
  | .swi2 | .swi3 => []

/-- Flags set one after the other. -/
def setFlags (fs : List Flag) (cc : Byte) : Byte := fs.foldl (fun cc fl => setFlag fl true cc) cc

/-- The cycles an entry of a line adds for its frame (`60_exceptions.md` R410, R411). -/
def Trap.stackCycles : Trap → Nat
  | .irq => 12
  | .firq => 3
  | .swi | .swi2 | .swi3 => 0

/-- The entire or the short frame. -/
def Cpu.frame (entire : Bool) (c : Cpu) : List Byte := if entire then c.entireFrame else c.shortFrame

/-- The registers a frame holds, as a list of `40_load_store_transfer.md` R205. -/
def frameMask (entire : Bool) : Byte := if entire then 0xFF else 0x81

theorem setFlag_setFlag_same (fl : Flag) (b : Bool) (cc : Byte) : setFlag fl b (setFlag fl b cc) = setFlag fl b cc :=
  cc_ext fun g => by simp only [getFlag_setFlag]; split <;> rfl

/-- A frame is the list of its registers with E written. -/
theorem frame_eq_listContents (e : Bool) (c : Cpu) : c.frame e = listContents .hw (frameMask e) (c.withE e) := by
  cases e <;> rfl

theorem frame_withE (e : Bool) (c : Cpu) : (c.withE e).frame e = c.frame e := by
  simp only [frame_eq_listContents, Cpu.withE, setFlag_setFlag_same]

theorem frame_length (e : Bool) (c : Cpu) : (c.frame e).length = listBytes (frameMask e) := by
  rw [frame_eq_listContents, listContents_length]

theorem stackFrame_stacksFrame (e : Bool) (s : State) :
    stacksFrame (s.cpu.frame e) s (pushBytes .hw (s.cpu.frame e) (s.writeFlag .e e)) := by
  refine stacksFrame_congr (pushBytes_stacksFrame _ (s.writeFlag .e e) ?_) rfl rfl rfl rfl rfl rfl rfl rfl
  have hle := listBytes_le (frameMask e)
  rw [frame_length]
  omega

theorem stackFrame_cpu (e : Bool) (s : State) : (pushBytes .hw (s.cpu.frame e) (s.writeFlag .e e)).cpu =
    { s.cpu.withE e with s := s.cpu.s - BitVec.ofNat 16 (listBytes (frameMask e)) } := by
  rw [pushBytes_cpu, frame_length]
  rfl

/-! ### Taking a trap -/

/-- The entry stacks a frame: CWAI has not stacked it already (`60_exceptions.md` R410, R411). -/
def Trap.needsFrame (t : Trap) (s : State) : Prop := t.isLine = true → s.cpu.wait ≠ .cwai

theorem Trap.needsFrame_of_software {t : Trap} (hsoft : t.isLine = false) (s : State) : t.needsFrame s :=
  fun hline => absurd hline (by simp [hsoft])

theorem Trap.stack_eq {t : Trap} {s : State} (h : t.needsFrame s) :
    t.stack s = (pushBytes .hw (s.cpu.frame t.entire) (s.writeFlag .e t.entire)).addCycles t.stackCycles := by
  cases t with
  | irq => rw [Trap.stack, if_neg (h rfl), stackEntire_eq]; rfl
  | firq => rw [Trap.stack, if_neg (h rfl), stackShort_eq]; rfl
  | swi | swi2 | swi3 => exact stackEntire_eq s

theorem Trap.stack_of_cwai {t : Trap} {s : State} (h : ¬ t.needsFrame s) : t.stack s = s := by
  obtain ⟨hline, hwait⟩ := Classical.not_imp.mp h
  have hwait := not_not.mp hwait
  cases t with
  | irq | firq => exact if_pos hwait
  | swi | swi2 | swi3 => exact absurd hline Bool.false_ne_true

theorem Trap.mask_eq (t : Trap) (s : State) : t.mask s = s.setCc (setFlags t.masks s.cpu.cc) := by
  cases t <;> rfl

theorem getFlag_setFlags (fl : Flag) (fs : List Flag) (cc : Byte) :
    getFlag fl (setFlags fs cc) = (decide (fl ∈ fs) || getFlag fl cc) := by
  induction fs generalizing cc with
  | nil => simp [setFlags]
  | cons g fs ih =>
    rw [show setFlags (g :: fs) cc = setFlags fs (setFlag g true cc) from rfl, ih]
    by_cases hfl : fl = g <;> simp [hfl]

/-- Stacking keeps the wait, the system side and the draws, whether or not CWAI has stacked already. -/
theorem Trap.stack_keeps (t : Trap) (s : State) :
    (t.stack s).cpu.wait = s.cpu.wait ∧ keepsSystem s (t.stack s) ∧ (t.stack s).draws = s.draws := by
  by_cases h : t.needsFrame s
  · rw [Trap.stack_eq h]
    exact ⟨by simp [pushBytes_wait], by simp [keepsSystem], by simp⟩
  · rw [Trap.stack_of_cwai h]
    exact ⟨rfl, ⟨rfl, rfl, rfl⟩, rfl⟩

/-- The vector lies in ROM, where stacking and masking write nothing. -/
theorem Trap.readWord_vector (t : Trap) (s : State) :
    readWord t.vector (t.mask (t.stack s)) = (s.vectorWord t.vector, t.mask (t.stack s)) := by
  have hlow : 0xE000 ≤ t.vector.toNat := by cases t <;> decide
  have hhigh : t.vector.toNat < 0xFFFF := by cases t <;> decide
  have C := keepsImages_busClosed s
  have hrom : keepsImages s (t.mask (t.stack s)) := C.trapMask t (C.trapStack t ⟨fun _ _ => rfl, rfl⟩)
  rw [readWord_rom _ _ hlow hhigh, vectorWord_congr t.vector hlow hrom.1]

/-- Taking a trap: its stacking, its masks, its vector, and for a line the end of the wait and 7 cycles. -/
theorem takeTrap_eq (t : Trap) (s : State) : takeTrap t s =
    (((t.mask (t.stack s)).setPc (s.vectorWord t.vector)).setWait (if t.isLine then .normal else s.cpu.wait)).addCycles
      (if t.isLine then 7 else 0) := by
  obtain ⟨hstacked, -⟩ := t.stack_keeps s
  have hwait : (t.mask (t.stack s)).cpu.wait = s.cpu.wait := by rw [Trap.mask_eq, setCc_wait, hstacked]
  simp only [takeTrap, Trap.readWord_vector]
  cases t with
  | irq | firq => rfl
  | swi | swi2 | swi3 => rw [← hwait]; rfl

theorem takeTrap_keepsSystem (t : Trap) (s : State) : keepsSystem s (takeTrap t s) := by
  rw [takeTrap_eq, Trap.mask_eq]
  obtain ⟨-, hsystem, -⟩ := t.stack_keeps s
  exact hsystem

theorem takeTrap_draws (t : Trap) (s : State) : (takeTrap t s).draws = s.draws := by
  rw [takeTrap_eq, Trap.mask_eq]
  obtain ⟨-, -, hdraws⟩ := t.stack_keeps s
  exact hdraws

section
variable {t : Trap} {s : State} (h : t.needsFrame s)
include h

theorem takeTrap_cpu : (takeTrap t s).cpu =
    { s.cpu with
      cc := setFlags t.masks (setFlag .e t.entire s.cpu.cc)
      s := s.cpu.s - BitVec.ofNat 16 (listBytes (frameMask t.entire))
      pc := s.vectorWord t.vector
      wait := if t.isLine then .normal else s.cpu.wait } := by
  rw [takeTrap_eq, Trap.mask_eq, Trap.stack_eq h, addCycles_cpu]
  simp only [State.setPc, State.setWait, State.setCc, addCycles_cpu, stackFrame_cpu]
  rfl

theorem takeTrap_stacksFrame : stacksFrame (s.cpu.frame t.entire) s (takeTrap t s) := by
  rw [takeTrap_eq, Trap.mask_eq, Trap.stack_eq h]
  exact stacksFrame_congr (stackFrame_stacksFrame t.entire s) rfl rfl rfl rfl rfl rfl rfl rfl

theorem takeTrap_keepsRegisters : keepsRegisters [.s, .pc, .cc] s (takeTrap t s) := by
  intro q hq
  have hcpu := takeTrap_cpu h
  cases q with
  | s | pc | cc => exact absurd hq (by decide)
  | _ => simp only [State.getRegister, hcpu, Cpu.d]

theorem getFlag_takeTrap (fl : Flag) : getFlag fl (takeTrap t s).cpu.cc =
    (decide (fl ∈ t.masks) || if fl = .e then t.entire else getFlag fl s.cpu.cc) := by
  rw [takeTrap_cpu h, getFlag_setFlags, getFlag_setFlag]

theorem takeTrap_report : (takeTrap t s).report = s.report + t.stackCycles + if t.isLine then 7 else 0 := by
  simp [takeTrap_eq, Trap.mask_eq, Trap.stack_eq h]

end

/-! ### Software interrupts -/

/-- Everything a software interrupt does, with the cycles its instruction reports. -/
theorem softwareInterrupt_frame {t : Trap} (hsoft : t.isLine = false) (n : Nat) (s : State) :
    let u := (takeTrap t s).addCycles n
    u.cpu.pc = s.vectorWord t.vector ∧ stacksFrame s.cpu.entireFrame s u ∧
      (∀ fl ∈ .e :: t.masks, getFlag fl u.cpu.cc = true) ∧ keepsFlags (.e :: t.masks) s u ∧
      keepsRegisters [.s, .pc, .cc] s u ∧ keepsControl s u ∧ u.draws = s.draws ∧ u.report = s.report + n := by
  have h := Trap.needsFrame_of_software hsoft s
  obtain ⟨hentire, hcycles⟩ : t.entire = true ∧ t.stackCycles = 0 := by
    cases t with
    | irq | firq => cases hsoft
    | swi | swi2 | swi3 => exact ⟨rfl, rfl⟩
  have hcpu := takeTrap_cpu h
  have hstack := takeTrap_stacksFrame h
  rw [hentire] at hstack
  refine ⟨by simp [hcpu], hstack, ?set, ?kept, takeTrap_keepsRegisters h,
    ⟨by simp [hcpu, hsoft], takeTrap_keepsSystem t s⟩, takeTrap_draws t s, by simp [takeTrap_report h, hsoft, hcycles]⟩
  case set =>
    intro fl hfl
    rw [addCycles_cpu, getFlag_takeTrap h, hentire]
    rcases List.mem_cons.mp hfl with rfl | hmask
    · simp
    · simp [hmask]
  case kept =>
    intro fl hfl
    obtain ⟨he, hmask⟩ := not_or.mp (List.mem_cons.not.mp hfl)
    rw [addCycles_cpu, getFlag_takeTrap h, if_neg he, decide_eq_false hmask, Bool.false_or]

/-- Settles O29: each of the three is the taking of its trap. -/
theorem softwareInterrupts : Obligations.SoftwareInterrupts := by
  unfold Obligations.SoftwareInterrupts
  intro s
  refine ⟨⟨_, rfl, ?swi⟩, ⟨_, rfl, ?swi2⟩, ⟨_, rfl, ?swi3⟩⟩
  case swi =>
    obtain ⟨hpc, hstack, hset, hrest⟩ := softwareInterrupt_frame (t := .swi) rfl 19 s
    exact ⟨hpc, hstack, hset .e (by decide), hset .i (by decide), hset .f (by decide), hrest⟩
  case swi2 =>
    obtain ⟨hpc, hstack, hset, hrest⟩ := softwareInterrupt_frame (t := .swi2) rfl 20 s
    exact ⟨hpc, hstack, hset .e (by decide), hrest⟩
  case swi3 =>
    obtain ⟨hpc, hstack, hset, hrest⟩ := softwareInterrupt_frame (t := .swi3) rfl 20 s
    exact ⟨hpc, hstack, hset .e (by decide), hrest⟩

/-! ### Return from an interrupt -/

/-- A return is the pull of the list that E of the stacked CC calls for (`44_system.md` R374). -/
theorem returnFromInterrupt_eq {e : Bool} {s : State} (he : getFlag .e (readByte s.cpu.s s).1 = e) :
    returnFromInterrupt s = (pullList .hw (frameMask e) s).addCycles (if e then 15 else 6) := by
  have hcc : getFlag .e (pullInto8 .hw State.setCc s).cpu.cc = e := he
  rw [returnFromInterrupt, hcc]
  cases e <;> rfl

/-- The byte at the bottom of a frame is its CC, with the E of the frame. -/
theorem getFlag_e_of_frame {e : Bool} {c : Cpu} {s : State} (h : bytesAt s.cpu.s (c.frame e) s) :
    getFlag .e (readByte s.cpu.s s).1 = e := by
  obtain ⟨rest, hrest⟩ : ∃ rest, c.frame e = [setFlag .e e c.cc] ++ rest := by cases e <;> exact ⟨_, rfl⟩
  rw [hrest] at h
  rw [readByte_of_peek (bytesAt_one (bytesAt_append.1 h).1), getFlag_setFlag, if_pos rfl]

/-- The return from a frame that lies in memory at S. -/
theorem returnFromInterrupt_of_frame {e : Bool} {c : Cpu} {s : State} (h : bytesAt s.cpu.s (c.frame e) s) :
    (returnFromInterrupt s).cpu = restoredCpu .hw (frameMask e) (c.withE e) s.cpu ∧
      (returnFromInterrupt s).dev = s.dev ∧
      (returnFromInterrupt s).report = s.report + if e then 15 else 6 := by
  rw [returnFromInterrupt_eq (getFlag_e_of_frame h)]
  obtain ⟨c', d, heq, hpulled⟩ := pullList_cases .hw (frameMask e) s
  rw [frame_eq_listContents] at h
  obtain ⟨hcpu, hdev⟩ := hpulled (c.withE e) h
  rw [heq]
  exact ⟨hcpu, hdev, rfl⟩

/-- Settles O30: in every state a return is a pull of a list; a frame at S makes it that frame's list. -/
theorem returnFromInterrupt_spec : Obligations.ReturnFromInterrupt := by
  unfold Obligations.ReturnFromInterrupt
  intro s
  refine ⟨_, rfl, fun c hbytes => ?entire, fun c hbytes => ?short, ?rest⟩
  case entire => exact returnFromInterrupt_of_frame (frame_withE true c ▸ hbytes : bytesAt _ (c.frame true) s)
  case short => exact returnFromInterrupt_of_frame (frame_withE false c ▸ hbytes : bytesAt _ (c.frame false) s)
  case rest =>
    rw [returnFromInterrupt_eq rfl]
    obtain ⟨c, d, heq, -⟩ := pullList_cases .hw (frameMask (getFlag .e (readByte s.cpu.s s).1)) s
    rw [heq]
    exact ⟨fun _ => rfl, ⟨rfl, rfl, rfl, rfl⟩, rfl⟩

/-! ### Waits and undefined opcodes -/

theorem setWait_keepsRegisters (w : Wait) (s : State) : keepsRegisters [] s (s.setWait w) := by
  intro q _
  cases q <;> rfl

theorem clearAndWait_eq (v : Byte) (s : State) : clearAndWait v s =
    let masked := s.setCc (s.cpu.cc &&& v)
    ((pushBytes .hw (masked.cpu.frame true) (masked.writeFlag .e true)).setWait .cwai).addCycles 20 := by
  rw [clearAndWait, stackEntire_eq]
  rfl

theorem clearAndWait_stacksFrame (v : Byte) (s : State) :
    stacksFrame (Cpu.entireFrame { s.cpu with cc := s.cpu.cc &&& v }) s (clearAndWait v s) := by
  rw [clearAndWait_eq]
  exact stacksFrame_congr (stackFrame_stacksFrame true (s.setCc (s.cpu.cc &&& v))) rfl rfl rfl rfl rfl rfl rfl rfl

theorem clearAndWait_cpu (v : Byte) (s : State) : (clearAndWait v s).cpu =
    { s.cpu with cc := setFlag .e true (s.cpu.cc &&& v), s := s.cpu.s - 12, wait := .cwai } := by
  rw [clearAndWait_eq]
  simp only [addCycles_cpu, State.setWait, stackFrame_cpu]
  rfl

/-- Settles O31: CWAI stacks the frame of the masked CPU; the others write the wait or the report alone. -/
theorem waitsAndUndefinedOpcodes : Obligations.WaitsAndUndefinedOpcodes := by
  unfold Obligations.WaitsAndUndefinedOpcodes
  intro s
  refine ⟨fun v => ⟨clearAndWait v s, rfl, ?cwai⟩, ⟨_, rfl, rfl, setWait_keepsRegisters .sync s, ?sync⟩,
    fun page op => ⟨_, rfl, fun _ _ => rfl, addCycles_keepsRest s.params.undefOpCycles s, rfl⟩⟩
  case cwai =>
    have hcpu := clearAndWait_cpu v s
    refine ⟨by rw [hcpu], by rw [hcpu], clearAndWait_stacksFrame v s, ?registers, ?system, ?draws, ?report⟩
    case registers =>
      intro q hq
      cases q with
      | s | cc => exact absurd hq (by decide)
      | _ => simp only [State.getRegister, hcpu, Cpu.d]
    case system => simp [clearAndWait_eq, keepsSystem]
    case draws | report => simp [clearAndWait_eq]
  case sync => exact ⟨fun _ => rfl, rfl, ⟨rfl, rfl, rfl⟩, rfl, rfl⟩

/-! ### A return undoes an entry -/

/-- The frame an entry stacked in RAM gives back every register, with the E of the entry. -/
theorem returnFromInterrupt_takeTrap {t : Trap} {s : State} (h : t.needsFrame s) (n : Nat)
    (hram : inRam (s.cpu.s - BitVec.ofNat 16 (listBytes (frameMask t.entire))) (listBytes (frameMask t.entire))) :
    (returnFromInterrupt ((takeTrap t s).addCycles n)).cpu =
      { s.cpu.withE t.entire with wait := if t.isLine then .normal else s.cpu.wait } := by
  have hcpu := takeTrap_cpu h
  obtain ⟨-, hstored, -⟩ := takeTrap_stacksFrame h
  have hbytes : bytesAt ((takeTrap t s).addCycles n).cpu.s (s.cpu.frame t.entire) ((takeTrap t s).addCycles n) := by
    refine bytesAt_of_storesBytes ?_ hstored
    rw [frame_length, addCycles_cpu, hcpu]
    exact hram
  obtain ⟨hrestored, -⟩ := returnFromInterrupt_of_frame hbytes
  rw [hrestored, addCycles_cpu, hcpu]
  cases t.entire <;> simp [restoredCpu, frameMask, Cpu.withE]

/-- Settles O40: each entry stacks its frame, and the return pulls it. -/
theorem returnUndoesEntry : Obligations.ReturnUndoesEntry := by
  unfold Obligations.ReturnUndoesEntry
  intro s
  refine ⟨fun hram i hi => ?software, fun hram hwait => ⟨_, rfl, ?irq⟩, fun hram hwait => ⟨_, rfl, ?firq⟩⟩
  case software =>
    have hentry : ∃ t n, exec i s = .next ((takeTrap t s).addCycles n) ∧ t.isLine = false ∧ t.entire = true := by
      rcases hi with rfl | rfl | rfl
      · exact ⟨.swi, 19, rfl, rfl, rfl⟩
      · exact ⟨.swi2, 20, rfl, rfl, rfl⟩
      · exact ⟨.swi3, 20, rfl, rfl, rfl⟩
    obtain ⟨t, n, hexec, hsoft, hentire⟩ := hentry
    have hback := returnFromInterrupt_takeTrap (Trap.needsFrame_of_software hsoft s) n (by rw [hentire]; exact hram)
    rw [hsoft, hentire] at hback
    exact ⟨_, _, hexec, rfl, hback⟩
  case irq => exact returnFromInterrupt_takeTrap (t := .irq) (fun _ => hwait) 0 hram
  case firq => exact returnFromInterrupt_takeTrap (t := .firq) (fun _ => hwait) 0 hram

end Sys2Proof.Machine
end

section
/-! PROOFS. The two lines at the start of a Step: what sampling them does, masked and unmasked, and the entry of a
line. -/

namespace Sys2Proof.Machine

/-! ### Sampling the lines (`60_exceptions.md` R404, R405, R408) -/

@[simp] theorem endSync_cc (s : State) : (endSync s).cpu.cc = s.cpu.cc := by
  unfold endSync
  split <;> rfl

theorem endSync_of_ne_sync {s : State} (h : s.cpu.wait ≠ .sync) : endSync s = s := if_neg h

theorem endSync_endSync (s : State) : endSync (endSync s) = endSync s := by
  by_cases h : s.cpu.wait = .sync
  · exact endSync_of_ne_sync (by simp [endSync, h, State.setWait])
  · rw [endSync_of_ne_sync h, endSync_of_ne_sync h]

theorem sampleFirq_masked {line : Bool} {s : State} (h : line = true → getFlag .f s.cpu.cc = true) :
    sampleFirq line s = if line then endSync s else s := by
  cases line with
  | false => rfl
  | true => simp [sampleFirq, h rfl]

theorem sampleIrq_masked {line : Bool} {s : State} (h : line = true → getFlag .i s.cpu.cc = true) :
    sampleIrq line s = if line then endSync s else s := by
  cases line with
  | false => rfl
  | true => simp [sampleIrq, h rfl]

/-- Lines that are masked wherever they are asserted end a SYNC and do nothing else. -/
theorem sampleLines_masked {irq firq : Bool} {s : State} (hi : irq = true → getFlag .i s.cpu.cc = true)
    (hf : firq = true → getFlag .f s.cpu.cc = true) :
    sampleIrq irq (sampleFirq firq s) = if irq || firq then endSync s else s := by
  rw [sampleFirq_masked hf]
  cases firq with
  | false => simp [sampleIrq_masked hi]
  | true => cases irq <;> simp [sampleIrq_masked, endSync_endSync, hi]

/-! ### An entry out of a SYNC -/

theorem writeByte_setWait (a : Word) (v : Byte) (w : Wait) (s : State) :
    writeByte a v (s.setWait w) = (writeByte a v s).setWait w := by
  unfold writeByte
  cases target a <;> rfl

theorem pushBytes_setWait (p : StackPtr) (bs : List Byte) (w : Wait) (s : State) :
    pushBytes p bs (s.setWait w) = (pushBytes p bs s).setWait w := by
  induction bs with
  | nil => rfl
  | cons b bs ih =>
    rw [pushBytes, ih]
    cases p with
    | hw => exact writeByte_setWait _ b w ((pushBytes .hw bs s).setSp .hw _)
    | user => exact writeByte_setWait _ b w ((pushBytes .user bs s).setSp .user _)

/-- Stacking reads the wait only to see whether CWAI has stacked already. -/
theorem Trap.stack_setWait {t : Trap} {s : State} {w : Wait} (hs : s.cpu.wait ≠ .cwai) (hw : w ≠ .cwai) :
    t.stack (s.setWait w) = (t.stack s).setWait w := by
  have hframe : (s.setWait w).cpu.frame t.entire = s.cpu.frame t.entire := by cases t.entire <;> rfl
  rw [Trap.stack_eq fun _ => hs, Trap.stack_eq (s := s.setWait w) fun _ => hw, hframe]
  exact congrArg (State.addCycles t.stackCycles) (pushBytes_setWait .hw _ w (s.writeFlag .e t.entire))

/-- A line is entered from a SYNC as from no wait: the entry ends the wait in any case. -/
theorem takeTrap_endSync {t : Trap} (hline : t.isLine = true) (s : State) : takeTrap t (endSync s) = takeTrap t s := by
  by_cases h : s.cpu.wait = .sync
  · have hstack := Trap.stack_setWait (t := t) (s := s) (w := .normal) (by simp [h]) (by simp)
    rw [endSync, if_pos h, takeTrap_eq, takeTrap_eq, hline, Trap.mask_eq, Trap.mask_eq, hstack]
    rfl
  · rw [endSync_of_ne_sync h]

/-! ### What an entry of a line leaves -/

@[simp] theorem Trap.e_not_mem_masks (t : Trap) : Flag.e ∉ t.masks := by cases t <;> decide

theorem takeTrap_pc (t : Trap) (s : State) : (takeTrap t s).cpu.pc = s.vectorWord t.vector := by
  rw [takeTrap_eq]
  rfl

theorem takeTrap_wait {t : Trap} (hline : t.isLine = true) (s : State) : (takeTrap t s).cpu.wait = .normal := by
  rw [takeTrap_eq, hline]
  rfl

/-- From CWAI an entry stacks nothing: masks, vector, the end of the wait and 7 cycles are all it does. -/
theorem takeTrap_of_cwai {t : Trap} {s : State} (hline : t.isLine = true) (hwait : s.cpu.wait = .cwai) :
    takeTrap t s =
      (((s.setCc (setFlags t.masks s.cpu.cc)).setPc (s.vectorWord t.vector)).setWait .normal).addCycles 7 := by
  have hstacked : ¬ t.needsFrame s := fun h => h hline hwait
  rw [takeTrap_eq, Trap.mask_eq, Trap.stack_of_cwai hstacked, hline]
  rfl

theorem takeTrap_cpu_of_cwai {t : Trap} {s : State} (hline : t.isLine = true) (hwait : s.cpu.wait = .cwai) :
    (takeTrap t s).cpu =
      { s.cpu with cc := setFlags t.masks s.cpu.cc, pc := s.vectorWord t.vector, wait := .normal } := by
  rw [takeTrap_of_cwai hline hwait]
  rfl

/-- The flags but E, whether or not CWAI has stacked already. -/
theorem getFlag_takeTrap_ne_e {t : Trap} (hline : t.isLine = true) {fl : Flag} (hfl : fl ≠ .e) (s : State) :
    getFlag fl (takeTrap t s).cpu.cc = (decide (fl ∈ t.masks) || getFlag fl s.cpu.cc) := by
  by_cases hwait : s.cpu.wait = .cwai
  · rw [takeTrap_cpu_of_cwai hline hwait, getFlag_setFlags]
  · rw [getFlag_takeTrap fun _ => hwait, if_neg hfl]

theorem lineEntry_keepsRegisters {t : Trap} (hline : t.isLine = true) (s : State) :
    keepsRegisters [.s, .pc, .cc] s (takeTrap t s) := by
  by_cases hwait : s.cpu.wait = .cwai
  · intro q hq
    have hcpu := takeTrap_cpu_of_cwai hline hwait
    cases q with
    | s | pc | cc => exact absurd hq (by decide)
    | _ => simp only [State.getRegister, hcpu, Cpu.d]
  · exact takeTrap_keepsRegisters fun _ => hwait

/-- Where CWAI has not stacked already, an entry stacks its frame and leaves its E. -/
theorem lineEntry_stacks {t : Trap} {s : State} (hline : t.isLine = true) (hwait : s.cpu.wait ≠ .cwai) :
    stacksFrame (s.cpu.frame t.entire) s (takeTrap t s) ∧ getFlag .e (takeTrap t s).cpu.cc = t.entire ∧
      (takeTrap t s).report = s.report + t.stackCycles + 7 := by
  have h : t.needsFrame s := fun _ => hwait
  exact ⟨takeTrap_stacksFrame h, by simp [getFlag_takeTrap h], by rw [takeTrap_report h, hline, if_pos rfl]⟩

theorem lineEntry_of_cwai {t : Trap} {s : State} (hline : t.isLine = true) (hwait : s.cpu.wait = .cwai) :
    (takeTrap t s).cpu.s = s.cpu.s ∧ keepsMemory s (takeTrap t s) ∧ (takeTrap t s).dev = s.dev ∧
      getFlag .e (takeTrap t s).cpu.cc = getFlag .e s.cpu.cc ∧ (takeTrap t s).report = s.report + 7 := by
  rw [takeTrap_of_cwai hline hwait]
  refine ⟨rfl, keepsMemory_of_mem rfl rfl, rfl, ?e, rfl⟩
  case e => exact (getFlag_setFlags .e t.masks s.cpu.cc).trans (by simp)

/-- Everything the entry of a line does (`60_exceptions.md` R410, R411). -/
theorem lineEntry_frame {t : Trap} (hline : t.isLine = true) (s : State) :
    let u := takeTrap t s
    u.cpu.pc = s.vectorWord t.vector ∧ u.cpu.wait = .normal ∧ (∀ fl ∈ t.masks, getFlag fl u.cpu.cc = true) ∧
      keepsFlags (.e :: t.masks) s u ∧ keepsRegisters [.s, .pc, .cc] s u ∧ keepsSystem s u ∧ u.draws = s.draws ∧
      (s.cpu.wait ≠ .cwai → stacksFrame (s.cpu.frame t.entire) s u ∧ getFlag .e u.cpu.cc = t.entire ∧
        u.report = s.report + t.stackCycles + 7) ∧
      (s.cpu.wait = .cwai → u.cpu.s = s.cpu.s ∧ keepsMemory s u ∧ u.dev = s.dev ∧
        getFlag .e u.cpu.cc = getFlag .e s.cpu.cc ∧ u.report = s.report + 7) := by
  refine ⟨takeTrap_pc t s, takeTrap_wait hline s, ?set, ?kept, lineEntry_keepsRegisters hline s,
    takeTrap_keepsSystem t s, takeTrap_draws t s, lineEntry_stacks hline, lineEntry_of_cwai hline⟩
  case set =>
    intro fl hmask
    have hfl : fl ≠ .e := fun he => t.e_not_mem_masks (he ▸ hmask)
    rw [getFlag_takeTrap_ne_e hline hfl, decide_eq_true hmask, Bool.true_or]
  case kept =>
    intro fl hkept
    obtain ⟨hfl, hmask⟩ := not_or.mp (List.mem_cons.not.mp hkept)
    rw [getFlag_takeTrap_ne_e hline hfl, decide_eq_false hmask, Bool.false_or]

/-! ### Which line a Step enters (`60_exceptions.md` R406, R408) -/

/-- The IRQ line is entered where it is not masked and no FIRQ entry comes before it. -/
theorem sampleLines_irq {firq : Bool} {s : State} (hi : getFlag .i s.cpu.cc = false)
    (hf : firq = true → getFlag .f s.cpu.cc = true) : sampleIrq true (sampleFirq firq s) = takeTrap .irq s := by
  rw [sampleFirq_masked hf]
  cases firq with
  | false => simp [sampleIrq, hi]
  | true => simp [sampleIrq, hi, takeTrap_endSync (t := .irq) rfl]

/-- The FIRQ line is entered where it is not masked; its entry sets I, so the IRQ line is masked for this Step. -/
theorem sampleLines_firq {s : State} (irq : Bool) (hf : getFlag .f s.cpu.cc = false) :
    sampleIrq irq (sampleFirq true s) = takeTrap .firq s := by
  have hentered : sampleFirq true s = takeTrap .firq s := by simp [sampleFirq, hf]
  have hmasked : getFlag .i (takeTrap .firq s).cpu.cc = true := by
    rw [getFlag_takeTrap_ne_e rfl (by decide)]
    rfl
  rw [hentered]
  exact sampleIrq_quiet (takeTrap_wait rfl s) fun _ => hmasked

/-- A Step whose lines are sampled to an entry runs the instruction at the handler. -/
theorem cpuStep_of_entry {irq firq : Bool} {t : Trap} {s : State} (hline : t.isLine = true)
    (h : sampleIrq irq (sampleFirq firq { s with report := 0 }) = takeTrap t { s with report := 0 }) :
    cpuStep irq firq s = runInstruction (takeTrap t { s with report := 0 }) := by
  simp only [cpuStep, h]
  exact if_pos (takeTrap_wait hline _)

theorem cpuStep_irq {firq : Bool} {s : State} (hi : getFlag .i s.cpu.cc = false)
    (hf : firq = true → getFlag .f s.cpu.cc = true) :
    cpuStep true firq s = runInstruction (takeTrap .irq { s with report := 0 }) :=
  cpuStep_of_entry rfl (sampleLines_irq hi hf)

theorem cpuStep_firq (irq : Bool) {s : State} (hf : getFlag .f s.cpu.cc = false) :
    cpuStep irq true s = runInstruction (takeTrap .firq { s with report := 0 }) :=
  cpuStep_of_entry rfl (sampleLines_firq irq hf)

/-- A Step whose asserted lines are all masked is the one without lines, after a SYNC has ended. -/
theorem cpuStep_masked {irq firq : Bool} {s : State} (hi : irq = true → getFlag .i s.cpu.cc = true)
    (hf : firq = true → getFlag .f s.cpu.cc = true) :
    cpuStep irq firq s =
      cpuStep false false (if (irq || firq) = true ∧ s.cpu.wait = .sync then s.setWait .normal else s) := by
  have hsampled : sampleIrq irq (sampleFirq firq { s with report := 0 }) =
      { (if (irq || firq) = true ∧ s.cpu.wait = .sync then s.setWait .normal else s) with report := 0 } := by
    refine (sampleLines_masked (s := { s with report := 0 }) hi hf).trans ?_
    cases irq || firq with
    | false => simp
    | true => by_cases hsync : s.cpu.wait = .sync <;> simp [endSync, hsync, State.setWait]
  rw [cpuStep, hsampled]
  rfl

/-! ### The obligations -/

/-- Settles O37: the Step is the IRQ entry, then the handler's instruction. -/
theorem interruptEntry : Obligations.InterruptEntry := by
  unfold Obligations.InterruptEntry
  intro firq s hi hf
  obtain ⟨hpc, hwait, hset, hrest⟩ := lineEntry_frame (t := .irq) rfl { s with report := 0 }
  exact ⟨_, cpuStep_irq hi hf, hpc, hwait, hset .i (by decide), hrest⟩

/-- Settles O38: the Step is the FIRQ entry, whatever the IRQ line, then the handler's instruction. -/
theorem fastInterruptEntry : Obligations.FastInterruptEntry := by
  unfold Obligations.FastInterruptEntry
  intro irq s hf
  obtain ⟨hpc, hwait, hset, hrest⟩ := lineEntry_frame (t := .firq) rfl { s with report := 0 }
  exact ⟨_, cpuStep_firq irq hf, hpc, hwait, hset .i (by decide), hset .f (by decide), hrest⟩

/-- Settles O39: masked lines can only end a SYNC; an unmasked one is entered alike whatever the other line does. -/
theorem masksAndPriority : Obligations.MasksAndPriority := by
  unfold Obligations.MasksAndPriority
  intro irq firq s
  refine ⟨cpuStep_masked, fun hf => ?firq, fun hf hi => ?irq⟩
  case firq => rw [cpuStep_firq irq hf, cpuStep_firq false hf]
  case irq => rw [cpuStep_irq hi fun _ => hf, cpuStep_irq hi fun _ => hf]

/-- Settles O36: a line asserted in the wait is masked, and ends no CWAI. -/
theorem waitingStep : Obligations.WaitingStep := by
  unfold Obligations.WaitingStep
  intro irq firq s hwait hi hf
  have hcwai : (irq || firq) = true → s.cpu.wait = .cwai := fun hline =>
    (Bool.or_eq_true_iff.mp hline).elim (fun h => (hi h).left) (fun h => (hf h).left)
  have hnoSync : ¬ ((irq || firq) = true ∧ s.cpu.wait = .sync) := fun ⟨hline, hsync⟩ =>
    absurd ((hcwai hline).symm.trans hsync) (by decide)
  rw [cpuStep_masked (fun h => (hi h).right) (fun h => (hf h).right), if_neg hnoSync]
  exact if_neg hwait

end Sys2Proof.Machine
end

section
/-! PROOFS. Writes of the timer/IO chip's data ports: what they do on the sound bus and to the analog holds. -/

namespace Sys2Proof.Machine

/-! ### The sound bus (`61_timer_io_chip.md` R460) -/

/-- The sound chip after its bus is driven with the bytes of ports B and A. -/
def Psg.onBus (orb ora : Byte) (p : Psg) : Psg :=
  match (orb.extractLsb' 3 2).toNat with
  | 2 => if p.select ≠ 14 then p.write p.select ora else p
  | 3 => if ora.extractLsb' 4 4 = 0 then { p with select := ora.extractLsb' 0 4 } else p
  | _ => p

/-- The four states of the bus: idle or send, receive, latch. -/
theorem busControl_cases (orb : Byte) : (orb.extractLsb' 3 2).toNat < 2 ∨ (orb.extractLsb' 3 2).toNat = 2 ∨
    (orb.extractLsb' 3 2).toNat = 3 := by
  have := (orb.extractLsb' 3 2).isLt
  omega

theorem Psg.onBus_receive {orb : Byte} (h : (orb.extractLsb' 3 2).toNat = 2) (ora : Byte) (p : Psg) :
    p.onBus orb ora = if p.select ≠ 14 then p.write p.select ora else p := by
  simp only [Psg.onBus, h]

/-- A byte's high nibble is zero just for the numbers below 16. -/
theorem highNibble_eq_zero_iff (b : Byte) : b.extractLsb' 4 4 = 0 ↔ b.toNat < 16 := by
  have := b.isLt
  rw [← BitVec.toNat_inj, BitVec.extractLsb'_toNat, Nat.shiftRight_eq_div_pow]
  show b.toNat / 16 % 16 = 0 ↔ _
  omega

/-- In the latch state the selection alone can change, to the number on port A where that names a register. -/
theorem Psg.onBus_latch {orb : Byte} (h : (orb.extractLsb' 3 2).toNat = 3) (ora : Byte) (p : Psg) :
    p.onBus orb ora = { p with select := if ora.toNat < 16 then BitVec.ofNat 4 ora.toNat else p.select } := by
  have hlow : ora.extractLsb' 0 4 = BitVec.ofNat 4 ora.toNat := by simp [← BitVec.toNat_inj, BitVec.extractLsb'_toNat]
  simp only [Psg.onBus, h, highNibble_eq_zero_iff, hlow]
  split <;> rfl

theorem Psg.onBus_quiet {orb : Byte} (h : (orb.extractLsb' 3 2).toNat < 2) (ora : Byte) (p : Psg) :
    p.onBus orb ora = p := by
  unfold Psg.onBus
  split
  · omega
  · omega
  · rfl

/-- The sound bus changes the sound chip alone, and sees no more of the IO chip than the two port bytes. -/
theorem Devices.sndUpdate_eq (d : Devices) : d.sndUpdate = { d with psg := d.psg.onBus d.via.orb d.via.ora } := by
  unfold Devices.sndUpdate Psg.onBus
  generalize (d.via.orb.extractLsb' 3 2).toNat = control
  match control with
  | 2 | 3 =>
    simp only
    split <;> rfl
  | 0 | 1 | _ + 4 => rfl

/-- Whatever the bus carries, the button port keeps its byte. -/
theorem Psg.onBus_read_buttons (orb ora : Byte) (p : Psg) : (p.onBus orb ora).read 14 = p.read 14 := by
  obtain h | h | h := busControl_cases orb
  · rw [Psg.onBus_quiet h]
  · rw [Psg.onBus_receive h]
    split
    next hsel => exact Psg.write_read_ne p ora hsel.symm
    next => rfl
  · rw [Psg.onBus_latch h]
    rfl

/-- The mask column of `63_sound_chip.md` R541 is the model's. -/
theorem soundMasks_getD : ∀ r : BitVec 4, soundMasks.getD r.toNat 0 = psgMask r := by decide

/-! ### Writes of the data ports (`61_timer_io_chip.md` R462, R463) -/

/-- The handshake of a port-B write changes line CB2 alone (`61_timer_io_chip.md` R462). -/
theorem Via.pulseCb2_eq (v : Via) : v.pulseCb2 =
    { v with cb2h := if v.pcr.extractLsb' 6 2 = 0b10 then false else v.cb2h } := by
  have hmode : v.cb2Handshakes = true ↔ v.pcr.extractLsb' 6 2 = 0b10 := beq_iff_eq
  unfold Via.pulseCb2
  by_cases h : v.cb2Handshakes = true
  · rw [if_pos h, if_pos (hmode.mp h)]
  · rw [if_neg h, if_neg (mt hmode.mpr h)]

theorem Devices.writePortA_eq (v : Byte) (d : Devices) : d.writePortA v =
    { via := { d.via with ora := v }
      alg := Alg.update d.via.orb { d.alg with xsh := v ^^^ 0x80 }
      lists := d.lists
      psg := d.psg.onBus d.via.orb v } := by
  simp only [Devices.writePortA, Devices.sndUpdate_eq]

theorem Devices.writePortB_eq (v : Byte) (d : Devices) : d.writePortB v =
    { via := { d.via with
        orb := v, cb2h := if d.via.pcr.extractLsb' 6 2 = 0b10 then false else d.via.cb2h }
      alg := d.alg.update v
      lists := d.lists
      psg := d.psg.onBus v d.via.ora } := by
  simp only [Devices.writePortB, Devices.sndUpdate_eq, Via.pulseCb2_eq]

/-- The registers whose write drives the sound bus and the holds. -/
def ViaReg.isDataPort (r : ViaReg) : Prop := r = .portA ∨ r = .portANoHandshake ∨ r = .portB

/-- A write of a data port, part by part: the port's byte is stored, the sound bus and the holds follow. -/
theorem viaWrite_dataPort {r : ViaReg} (hr : r.isDataPort) (v : Byte) (d : Devices) :
    let t := viaWrite r v d
    let orb := if r = .portB then v else d.via.orb
    let ora := if r = .portB then d.via.ora else v
    let x := if r = .portB then d.alg.xsh else v ^^^ 0x80
    t.via = { d.via with orb := orb, ora := ora, ca2 := t.via.ca2, cb2h := t.via.cb2h } ∧ t.lists = d.lists ∧
      t.psg = d.psg.onBus orb ora ∧ t.alg = Alg.update orb { d.alg with xsh := x } := by
  obtain rfl | rfl | rfl := hr
  case inl => simp [viaWrite, Devices.writePortA_eq, Via.pulseCa2_eq]
  case inr.inl => simp [viaWrite, Devices.writePortA_eq]
  case inr.inr => simp [viaWrite, Devices.writePortB_eq]

theorem viaWrite_psg_of_not_dataPort {r : ViaReg} (hr : ¬ r.isDataPort) (v : Byte) (d : Devices) :
    (viaWrite r v d).psg = d.psg := by
  cases r with
  | portA => exact absurd (.inl rfl) hr
  | portANoHandshake => exact absurd (.inr (.inl rfl)) hr
  | portB => exact absurd (.inr (.inr rfl)) hr
  | _ => rfl

theorem viaWrite_read_buttons (r : ViaReg) (v : Byte) (d : Devices) :
    (viaWrite r v d).psg.read 14 = d.psg.read 14 := by
  by_cases hr : r.isDataPort
  · obtain ⟨-, -, hpsg, -⟩ := viaWrite_dataPort hr v d
    rw [hpsg, Psg.onBus_read_buttons]
  · rw [viaWrite_psg_of_not_dataPort hr]

/-- Settles O52: a data port's write stores its byte and drives the sound bus; every state of the bus has its rule. -/
theorem soundBus : Obligations.SoundBus := by
  unfold Obligations.SoundBus
  refine ⟨viaWrite_read_buttons, fun r v d hr => ?_⟩
  obtain ⟨hvia, hlists, hpsg, -⟩ := viaWrite_dataPort hr v d
  refine ⟨hvia, hlists, fun h hsel => ?receive, fun h hsel => ?button, fun h => ?latch, fun h => ?quiet⟩
  case receive =>
    rw [hpsg, Psg.onBus_receive h, if_pos hsel, soundMasks_getD]
    exact ⟨Psg.write_read_same _ _ _, Psg.write_select _ _ _, fun q hq => Psg.write_read_ne _ _ hq⟩
  case button => rw [hpsg, Psg.onBus_receive h, if_neg (not_not.mpr hsel)]
  case latch => rw [hpsg, Psg.onBus_latch h]
  case quiet => rw [hpsg, Psg.onBus_quiet h]

/-! ### The holds (`62_analog_vector.md` R502, R503) -/

/-- The multiplexer copies the X hold to the hold it selects. -/
theorem Alg.multiplex_eq (sel : BitVec 2) (g : Alg) : g.multiplex sel =
    { g with
      ysh := if sel = 0 then g.xsh else g.ysh
      rsh := if sel = 1 then g.xsh else g.rsh
      zsh := if sel = 2 then g.xsh.toNat - 0x80 else g.zsh } := by
  have hz : (if g.xsh.toNat > 0x80 then g.xsh.toNat - 0x80 else 0) = g.xsh.toNat - 0x80 := by split <;> omega
  unfold Alg.multiplex
  rw [hz]
  obtain rfl | rfl | rfl | rfl : sel = 0 ∨ sel = 1 ∨ sel = 2 ∨ sel = 3 := by revert sel; decide
  all_goals rfl

/-- `AlgUpdate()`, hold by hold. -/
theorem Alg.update_eq (orb : Byte) (g : Alg) :
    let sel := orb.extractLsb' 1 2
    let on := orb.getLsbD 0 = false
    let rsh := if on ∧ sel = 1 then g.xsh else g.rsh
    let ysh := if on ∧ sel = 0 then g.xsh else g.ysh
    let jsh := g.jch[sel.toNat]'(by have := sel.isLt; omega)
    g.update orb = { g with
      ysh := ysh, rsh := rsh, zsh := if on ∧ sel = 2 then g.xsh.toNat - 0x80 else g.zsh, jsh := jsh
      compare := decide (g.xsh.toNat < jsh.toNat)
      dx := (g.xsh.toNat : Int) - rsh.toNat, dy := (rsh.toNat : Int) - ysh.toNat } := by
  unfold Alg.update Alg.refreshDeltas
  by_cases h : orb.getLsbD 0 = false
  · simp only [h, Alg.multiplex_eq, true_and]
    rfl
  · simp only [h]
    rfl

/-- Settles O53: a data port's write sets the X hold and runs `AlgUpdate()`. -/
theorem portADrivesHolds : Obligations.PortADrivesHolds := by
  unfold Obligations.PortADrivesHolds
  intro r v d hr
  obtain ⟨-, -, -, halg⟩ := viaWrite_dataPort hr v d
  simp only [halg, Alg.update_eq, and_self]

end Sys2Proof.Machine
end

section
/-! PROOFS. The timer/IO chip's device cycle: what each part of half-step 1 can change, then the timers and the shifter,
cycle after cycle. -/

namespace Sys2Proof.Machine

/-! ### Flags raised (`61_timer_io_chip.md` R442) -/

/-- Flag `j` stands, and bit 7 shows it where it is enabled. -/
def Via.flagUp (j : Nat) (v : Via) : Prop :=
  v.ifr.getLsbD j = true ∧ (v.ier.getLsbD j = true → v.ifr.getLsbD 7 = true)

/-- The low seven flags after flags are raised. -/
theorem Via.getLsbD_raiseFlag (mask : Byte) (v : Via) {k : Nat} (hk : k < 7) :
    (v.raiseFlag mask).ifr.getLsbD k = (v.ifr.getLsbD k || mask.getLsbD k) :=
  ((Via.intUpdate_flagByte { v with ifr := v.ifr ||| mask }).1 k hk).trans BitVec.getLsbD_or

theorem Via.flagUp_raiseFlag {mask : Byte} {v : Via} {j : Nat} (hj : j < 7)
    (h : v.ifr.getLsbD j = true ∨ mask.getLsbD j = true) : (v.raiseFlag mask).flagUp j := by
  obtain ⟨-, h7⟩ := Via.intUpdate_flagByte { v with ifr := v.ifr ||| mask }
  have hup : (v.ifr ||| mask).getLsbD j = true := by rw [BitVec.getLsbD_or]; exact Bool.or_eq_true_iff.mpr h
  exact ⟨(Via.getLsbD_raiseFlag mask v hj).trans (Bool.or_eq_true_iff.mpr h), fun he => h7.mpr ⟨j, hj, hup, he⟩⟩

/-- Flag `j` reads in `w` as in `v`, and shows in bit 7 where it did in `v`. -/
def Via.sameFlag (j : Nat) (v w : Via) : Prop :=
  w.ifr.getLsbD j = v.ifr.getLsbD j ∧ (v.flagUp j → w.flagUp j)

theorem Via.sameFlag.trans {j : Nat} {u v w : Via} (h : u.sameFlag j v) (h' : v.sameFlag j w) : u.sameFlag j w :=
  ⟨h'.1.trans h.1, fun hu => h'.2 (h.2 hu)⟩

/-- From `v` to `w` no flag but `i` can have been raised. -/
def Via.mayRaise (i : Nat) (v w : Via) : Prop :=
  w.ier = v.ier ∧ (w.ifr = v.ifr ∨ w.ifr = (v.raiseFlag (BitVec.twoPow 8 i)).ifr)

theorem Via.mayRaise.sameFlag {v w : Via} {i j : Nat} (h : v.mayRaise i w) (hj : j < 7) (hij : i ≠ j) :
    v.sameFlag j w := by
  obtain ⟨hier, hifr | hifr⟩ := h
  · exact ⟨by rw [hifr], fun hv => by rwa [Via.flagUp, hier, hifr]⟩
  · refine ⟨?_, fun hv => ?_⟩
    · rw [hifr, Via.getLsbD_raiseFlag _ _ hj, BitVec.getLsbD_twoPow]
      simp [hij]
    · rw [Via.flagUp, hier, hifr]
      exact Via.flagUp_raiseFlag hj (.inl hv.1)

/-! ### What each part of half-step 1 can change (`61_timer_io_chip.md` R471-R475) -/

theorem Via.tickT1_frame (v : Via) : v.mayRaise 6 v.tickT1 ∧ ∃ c p i f,
    v.tickT1 = { v with t1c := c, t1pb7 := p, t1int := i, ifr := f } := by
  unfold Via.tickT1 Via.rolloverT1
  split
  · simp only
    split
    · split
      · exact ⟨⟨rfl, .inr rfl⟩, _, _, _, _, rfl⟩
      · split
        · exact ⟨⟨rfl, .inr rfl⟩, _, _, _, _, rfl⟩
        · exact ⟨⟨rfl, .inl rfl⟩, _, _, _, _, rfl⟩
    · exact ⟨⟨rfl, .inl rfl⟩, _, _, _, _, rfl⟩
  · exact ⟨⟨rfl, .inl rfl⟩, _, _, _, _, rfl⟩

theorem Via.tickT2_frame (v : Via) : v.mayRaise 5 v.tickT2 ∧ ∃ c i f,
    v.tickT2 = { v with t2c := c, t2int := i, ifr := f } := by
  unfold Via.tickT2
  split
  · simp only
    split
    · exact ⟨⟨rfl, .inr rfl⟩, _, _, _, rfl⟩
    · exact ⟨⟨rfl, .inl rfl⟩, _, _, _, rfl⟩
  · exact ⟨⟨rfl, .inl rfl⟩, _, _, _, rfl⟩

theorem Via.shiftClock_frame (v : Via) : (∀ j, v.sameFlag j v.shiftClock.2) ∧ ∃ c k,
    v.shiftClock.2 = { v with src := c, srclk := k } := by
  unfold Via.shiftClock
  simp only
  split
  · split <;> exact ⟨fun _ => ⟨rfl, id⟩, _, _, rfl⟩
  · exact ⟨fun _ => ⟨rfl, id⟩, _, _, rfl⟩

theorem Via.countShift_frame (v : Via) : v.mayRaise 2 v.countShift ∧ ∃ f,
    v.countShift = { v with srb := v.srb + 1, ifr := f } := by
  unfold Via.countShift
  simp only
  split
  · exact ⟨⟨rfl, .inr rfl⟩, _, rfl⟩
  · exact ⟨⟨rfl, .inl rfl⟩, _, rfl⟩

theorem Via.shifter_frame (event : Bool) (v : Via) : v.mayRaise 2 (v.shifter event) ∧ ∃ r n b f,
    v.shifter event = { v with sr := r, srb := n, cb2s := b, ifr := f } := by
  have quiet : v.mayRaise 2 v ∧ ∃ r n b f, v = { v with sr := r, srb := n, cb2s := b, ifr := f } :=
    ⟨⟨rfl, .inl rfl⟩, _, _, _, _, rfl⟩
  have counted : ∀ (r : Byte) (b : Bool), v.mayRaise 2 (Via.countShift { v with sr := r, cb2s := b }) ∧
      ∃ r' n b' f, Via.countShift { v with sr := r, cb2s := b } =
        { v with sr := r', srb := n, cb2s := b', ifr := f } := by
    intro r b
    obtain ⟨hflag, f, h⟩ := Via.countShift_frame { v with sr := r, cb2s := b }
    exact ⟨hflag, _, _, _, _, h⟩
  unfold Via.shifter
  split
  · split
    · split
      · exact counted _ _
      · exact quiet
    · exact counted _ _
    · split
      · exact ⟨⟨rfl, .inl rfl⟩, _, _, _, _, rfl⟩
      · exact quiet
    · split
      · exact counted _ _
      · exact quiet
    · exact counted _ _
    · exact quiet
  · exact quiet

/-- Half-step 1 after both timers: the shifter and its clock. -/
theorem Via.halfStep1_afterT2 (v : Via) : (∀ j < 7, 2 ≠ j → v.tickT1.tickT2.sameFlag j v.halfStep1) ∧
    ∃ c k r n b f, v.halfStep1 =
      { v.tickT1.tickT2 with src := c, srclk := k, sr := r, srb := n, cb2s := b, ifr := f } := by
  obtain ⟨hsame, c, k, hclock⟩ := v.tickT1.tickT2.shiftClock_frame
  obtain ⟨hflag, r, n, b, f, hshift⟩ := Via.shifter_frame v.tickT1.tickT2.shiftClock.1 v.tickT1.tickT2.shiftClock.2
  exact ⟨fun j hj h2 => (hsame j).trans (hflag.sameFlag hj h2), c, k, r, n, b, f, hshift.trans (by rw [hclock])⟩

/-- Half-step 1 after timer 1: timer 2, the shifter and its clock. -/
theorem Via.halfStep1_afterT1 (v : Via) : v.tickT1.sameFlag 6 v.halfStep1 ∧
    ∃ c i s k r n b f, v.halfStep1 = { v.tickT1 with
      t2c := c, t2int := i, src := s, srclk := k, sr := r, srb := n, cb2s := b, ifr := f } := by
  obtain ⟨hflag2, c, i, f, h2⟩ := v.tickT1.tickT2_frame
  obtain ⟨hflag, s, k, r, n, b, f', h⟩ := v.halfStep1_afterT2
  exact ⟨(hflag2.sameFlag (by decide) (by decide)).trans (hflag 6 (by decide) (by decide)),
    c, i, s, k, r, n, b, f', h.trans (by rw [h2])⟩

/-- Half-step 1 leaves the control lines, the mode, control and enable registers, the latches and the timers' arming. -/
theorem Via.halfStep1_frame (v : Via) : ∃ c1 p i1 c2 i2 s k r n b f, v.halfStep1 = { v with
    t1c := c1, t1pb7 := p, t1int := i1, t2c := c2, t2int := i2, src := s, srclk := k, sr := r, srb := n, cb2s := b
    ifr := f } := by
  obtain ⟨-, c1, p, i1, f1, h1⟩ := v.tickT1_frame
  obtain ⟨-, c2, i2, s, k, r, n, b, f, h⟩ := v.halfStep1_afterT1
  exact ⟨c1, p, i1, c2, i2, s, k, r, n, b, f, h.trans (by rw [h1])⟩

theorem Via.halfStep2_sameFlag (j : Nat) (v : Via) : v.sameFlag j v.halfStep2 := ⟨rfl, id⟩

/-! ### Cycle after cycle -/

/-- The IO chip in one device cycle. -/
def Via.cycle (v : Via) : Via := v.halfStep1.halfStep2

/-- The IO chip runs on its own: a device cycle of the block is a cycle of the chip. -/
theorem deviceCycles_via (vh : Nat) (n : Nat) (d : Devices) : (deviceCycles vh n d).via = Via.cycle^[n] d.via := by
  induction n generalizing d with
  | zero => rfl
  | succ n ih => rw [deviceCycles, ih, deviceCycle_via, Function.iterate_succ_apply, Via.cycle]

/-- A count that every cycle lowers by 1 while `P` holds, and `P` with it, runs down to 0. -/
theorem Via.countdown {P : Via → Prop} {count : Via → Nat}
    (hstep : ∀ w, P w → 0 < count w → P w.cycle ∧ count w.cycle = count w - 1) {v : Via} (hv : P v) {k : Nat}
    (hk : k ≤ count v) : P (Via.cycle^[k] v) ∧ count (Via.cycle^[k] v) = count v - k := by
  induction k with
  | zero => exact ⟨hv, rfl⟩
  | succ k ih =>
    obtain ⟨hP, hcount⟩ := ih (by omega)
    obtain ⟨hP', hcount'⟩ := hstep _ hP (by omega)
    rw [Function.iterate_succ_apply']
    exact ⟨hP', by omega⟩

@[simp] theorem Via.cycle_ier (v : Via) : v.cycle.ier = v.ier := by
  obtain ⟨_, _, _, _, _, _, _, _, _, _, _, h⟩ := v.halfStep1_frame
  rw [Via.cycle, Via.halfStep2, h]

/-! ### Timer 1 (`61_timer_io_chip.md` R471) -/

/-- A counter above 0 does not roll over. -/
theorem sub_one_of_pos {c : Word} (h : 0 < c.toNat) : (c - 1).toNat = c.toNat - 1 ∧ c - 1 ≠ 0xFFFF := by
  constructor <;> bv_omega

/-- Timer 1 of `w`, the counter apart, is that of `v`: its arming, mode, latches and output, its flag and its enable. -/
structure Via.SameTimer1 (v w : Via) : Prop where
  on : w.t1on = v.t1on
  int : w.t1int = v.t1int
  pb7 : w.t1pb7 = v.t1pb7
  low : w.t1ll = v.t1ll
  high : w.t1lh = v.t1lh
  acr : w.acr = v.acr
  ier : w.ier = v.ier
  flag : w.ifr.getLsbD 6 = v.ifr.getLsbD 6

theorem Via.SameTimer1.trans {u v w : Via} (h : u.SameTimer1 v) (h' : v.SameTimer1 w) : u.SameTimer1 w :=
  ⟨h'.on.trans h.on, h'.int.trans h.int, h'.pb7.trans h.pb7, h'.low.trans h.low, h'.high.trans h.high,
    h'.acr.trans h.acr, h'.ier.trans h.ier, h'.flag.trans h.flag⟩

/-- What a cycle does to timer 1 is what half-step 1 begins with. -/
theorem Via.cycle_timer1 (v : Via) : v.tickT1.SameTimer1 v.cycle ∧ v.cycle.t1c = v.tickT1.t1c ∧
    (v.tickT1.flagUp 6 → v.cycle.flagUp 6) := by
  obtain ⟨hsame, _, _, _, _, _, _, _, _, h⟩ := v.halfStep1_afterT1
  obtain ⟨hflag, hup⟩ := hsame.trans (v.halfStep1.halfStep2_sameFlag 6)
  refine ⟨⟨?_, ?_, ?_, ?_, ?_, ?_, ?_, hflag⟩, ?_, hup⟩
  all_goals rw [Via.cycle, Via.halfStep2, h]

theorem Via.tickT1_counting {v : Via} (hon : v.t1on = true) (h : 0 < v.t1c.toNat) :
    v.SameTimer1 v.tickT1 ∧ v.tickT1.t1c.toNat = v.t1c.toNat - 1 := by
  obtain ⟨hcount, hne⟩ := sub_one_of_pos h
  have heq : v.tickT1 = { v with t1c := v.t1c - 1 } := by
    rw [Via.tickT1, if_pos hon]
    exact if_neg hne
  rw [heq]
  exact ⟨⟨rfl, rfl, rfl, rfl, rfl, rfl, rfl, rfl⟩, hcount⟩

theorem Via.tickT1_expiring {v : Via} (hon : v.t1on = true) (h : v.t1c = 0) :
    v.tickT1 = Via.rolloverT1 { v with t1c := 0xFFFF } := by
  have hroll : v.t1c - 1 = 0xFFFF := by rw [h]; decide
  rw [Via.tickT1, if_pos hon]
  simp only [hroll, if_true]

theorem Via.timer1_counts {v : Via} (hon : v.t1on = true) {k : Nat} (hk : k ≤ v.t1c.toNat) :
    v.SameTimer1 (Via.cycle^[k] v) ∧ (Via.cycle^[k] v).t1c.toNat = v.t1c.toNat - k := by
  refine Via.countdown (P := v.SameTimer1) (count := fun w => w.t1c.toNat) (fun w hw hpos => ?_)
    ⟨rfl, rfl, rfl, rfl, rfl, rfl, rfl, rfl⟩ hk
  obtain ⟨hsame, hcount, -⟩ := w.cycle_timer1
  obtain ⟨htick, hcount'⟩ := Via.tickT1_counting (hw.on.trans hon) hpos
  exact ⟨(hw.trans htick).trans hsame, by rw [hcount, hcount']⟩

/-- Timer 1 at 0: the flag, then what continuous and one-shot mode do. -/
theorem Via.timer1_expires {v : Via} (hon : v.t1on = true) (h : v.t1c = 0)
    (hrun : v.acr.getLsbD 6 = true ∨ v.t1int = true) : v.cycle.flagUp 6 ∧
    (v.acr.getLsbD 6 = true → v.cycle.t1c = wordOf v.t1lh v.t1ll ∧ v.cycle.t1pb7 = !v.t1pb7) ∧
    (v.acr.getLsbD 6 = false → v.cycle.t1c = 0xFFFF ∧ v.cycle.t1pb7 = true ∧ v.cycle.t1int = false) := by
  obtain ⟨hsame, hcount, hup⟩ := v.cycle_timer1
  rw [hcount, hsame.pb7, hsame.int]
  have hraised : (Via.raiseFlag 0x40 { v with t1c := 0xFFFF }).flagUp 6 :=
    Via.flagUp_raiseFlag (by decide) (.inr (by decide))
  rw [Via.tickT1_expiring hon h, Via.rolloverT1] at hup ⊢
  by_cases hmode : v.acr.getLsbD 6 = true
  · rw [if_pos hmode] at hup ⊢
    exact ⟨hup hraised, fun _ => ⟨rfl, rfl⟩, fun hf => absurd (hmode.symm.trans hf) (by decide)⟩
  · rw [if_neg hmode, if_pos (hrun.resolve_left hmode)] at hup ⊢
    exact ⟨hup hraised, fun ht => absurd ht hmode, fun _ => ⟨rfl, rfl, rfl⟩⟩

/-- Timer 1 one cycle after its counter reached 0. -/
theorem Via.timer1_runsOut {v : Via} (hon : v.t1on = true) (hrun : v.acr.getLsbD 6 = true ∨ v.t1int = true) :
    let e := Via.cycle^[v.t1c.toNat + 1] v
    e.flagUp 6 ∧ e.ier = v.ier ∧
      (v.acr.getLsbD 6 = true → e.t1c = wordOf v.t1lh v.t1ll ∧ e.t1pb7 = !v.t1pb7) ∧
      (v.acr.getLsbD 6 = false → e.t1c = 0xFFFF ∧ e.t1pb7 = true ∧ e.t1int = false) := by
  obtain ⟨hsame, hcount⟩ := Via.timer1_counts hon (Nat.le_refl _)
  have hzero : (Via.cycle^[v.t1c.toNat] v).t1c = 0 := BitVec.eq_of_toNat_eq (by rw [hcount, Nat.sub_self]; rfl)
  obtain ⟨hup, hend⟩ := Via.timer1_expires (hsame.on.trans hon) hzero (by rwa [hsame.acr, hsame.int])
  rw [hsame.acr, hsame.high, hsame.low, hsame.pb7] at hend
  rw [Function.iterate_succ_apply']
  exact ⟨hup, (Via.cycle_ier _).trans hsame.ier, hend⟩

/-! ### Timer 2 (`61_timer_io_chip.md` R472) -/

/-- Timer 2 of `w`, the counter apart, is that of `v`: its arming, mode, flag and enable. -/
structure Via.SameTimer2 (v w : Via) : Prop where
  on : w.t2on = v.t2on
  int : w.t2int = v.t2int
  acr : w.acr = v.acr
  ier : w.ier = v.ier
  flag : w.ifr.getLsbD 5 = v.ifr.getLsbD 5

theorem Via.SameTimer2.trans {u v w : Via} (h : u.SameTimer2 v) (h' : v.SameTimer2 w) : u.SameTimer2 w :=
  ⟨h'.on.trans h.on, h'.int.trans h.int, h'.acr.trans h.acr, h'.ier.trans h.ier, h'.flag.trans h.flag⟩

theorem Via.tickT1_timer2 (v : Via) : v.SameTimer2 v.tickT1 ∧ v.tickT1.t2c = v.t2c := by
  obtain ⟨hflag, _, _, _, _, h⟩ := v.tickT1_frame
  refine ⟨⟨?_, ?_, ?_, ?_, (hflag.sameFlag (by decide) (by decide)).1⟩, ?_⟩
  all_goals rw [h]

/-- Timer 2 moves between timer 1 and the shifter, which leave it alone. -/
theorem Via.cycle_timer2 (v : Via) : v.tickT1.tickT2.SameTimer2 v.cycle ∧ v.cycle.t2c = v.tickT1.tickT2.t2c ∧
    (v.tickT1.tickT2.flagUp 5 → v.cycle.flagUp 5) := by
  obtain ⟨hsame, _, _, _, _, _, _, h⟩ := v.halfStep1_afterT2
  obtain ⟨hflag, hup⟩ := (hsame 5 (by decide) (by decide)).trans (v.halfStep1.halfStep2_sameFlag 5)
  refine ⟨⟨?_, ?_, ?_, ?_, hflag⟩, ?_, hup⟩
  all_goals rw [Via.cycle, Via.halfStep2, h]

theorem Via.tickT2_counting {v : Via} (hon : v.t2on = true) (hacr : v.acr.getLsbD 5 = false) (h : 0 < v.t2c.toNat) :
    v.SameTimer2 v.tickT2 ∧ v.tickT2.t2c.toNat = v.t2c.toNat - 1 := by
  obtain ⟨hcount, hne⟩ := sub_one_of_pos h
  have heq : v.tickT2 = { v with t2c := v.t2c - 1 } := by
    rw [Via.tickT2, if_pos (by rw [hon, hacr]; rfl)]
    exact if_neg fun hroll => hne hroll.1
  rw [heq]
  exact ⟨⟨rfl, rfl, rfl, rfl, rfl⟩, hcount⟩

theorem Via.tickT2_expiring {v : Via} (hon : v.t2on = true) (hacr : v.acr.getLsbD 5 = false) (hint : v.t2int = true)
    (h : v.t2c = 0) : v.tickT2 = { Via.raiseFlag 0x20 { v with t2c := 0xFFFF } with t2int := false } := by
  have hroll : v.t2c - 1 = 0xFFFF := by rw [h]; decide
  rw [Via.tickT2, if_pos (by rw [hon, hacr]; rfl)]
  simp only [hroll, hint, and_self, if_true]

theorem Via.timer2_counts {v : Via} (hon : v.t2on = true) (hacr : v.acr.getLsbD 5 = false) {k : Nat}
    (hk : k ≤ v.t2c.toNat) :
    v.SameTimer2 (Via.cycle^[k] v) ∧ (Via.cycle^[k] v).t2c.toNat = v.t2c.toNat - k := by
  refine Via.countdown (P := v.SameTimer2) (count := fun w => w.t2c.toNat) (fun w hw hpos => ?_)
    ⟨rfl, rfl, rfl, rfl, rfl⟩ hk
  obtain ⟨hsame1, hcount1⟩ := w.tickT1_timer2
  obtain ⟨hsame, hcount, -⟩ := w.cycle_timer2
  have hw1 := hw.trans hsame1
  obtain ⟨htick, hcount2⟩ := Via.tickT2_counting (hw1.on.trans hon) (by rw [hw1.acr, hacr]) (by rwa [hcount1])
  exact ⟨(hw1.trans htick).trans hsame, by rw [hcount, hcount2, hcount1]⟩

/-- Timer 2 at 0: the flag, once. -/
theorem Via.timer2_expires {v : Via} (hon : v.t2on = true) (hacr : v.acr.getLsbD 5 = false) (hint : v.t2int = true)
    (h : v.t2c = 0) : v.cycle.flagUp 5 ∧ v.cycle.t2c = 0xFFFF ∧ v.cycle.t2int = false := by
  obtain ⟨hsame1, hcount1⟩ := v.tickT1_timer2
  obtain ⟨hsame, hcount, hup⟩ := v.cycle_timer2
  rw [hcount, hsame.int]
  rw [Via.tickT2_expiring (hsame1.on.trans hon) (by rw [hsame1.acr, hacr]) (hsame1.int.trans hint)
    (hcount1.trans h)] at hup ⊢
  have hraised : (Via.raiseFlag 0x20 { v.tickT1 with t2c := 0xFFFF }).flagUp 5 :=
    Via.flagUp_raiseFlag (by decide) (.inr (by decide))
  exact ⟨hup hraised, rfl, rfl⟩

/-- Timer 2 one cycle after its counter reached 0. -/
theorem Via.timer2_runsOut {v : Via} (hon : v.t2on = true) (hacr : v.acr.getLsbD 5 = false) (hint : v.t2int = true) :
    let e := Via.cycle^[v.t2c.toNat + 1] v
    e.flagUp 5 ∧ e.ier = v.ier ∧ e.t2c = 0xFFFF ∧ e.t2int = false := by
  obtain ⟨hsame, hcount⟩ := Via.timer2_counts hon hacr (Nat.le_refl _)
  have hzero : (Via.cycle^[v.t2c.toNat] v).t2c = 0 := BitVec.eq_of_toNat_eq (by rw [hcount, Nat.sub_self]; rfl)
  obtain ⟨hup, hend⟩ := Via.timer2_expires (hsame.on.trans hon) (by rw [hsame.acr, hacr]) (hsame.int.trans hint) hzero
  rw [Function.iterate_succ_apply']
  exact ⟨hup, (Via.cycle_ier _).trans hsame.ier, hend⟩

/-! ### The shifter under the system clock (`61_timer_io_chip.md` R474, R475) -/

theorem Via.countShift_last {v : Via} (h : v.srb = 7) : v.countShift.ifr.getLsbD 2 = true := by
  have hfull : v.srb + 1 = 8 := by omega
  have hup : (Via.raiseFlag 0x04 { v with srb := v.srb + 1 }).flagUp 2 :=
    Via.flagUp_raiseFlag (by decide) (.inr (by decide))
  rw [Via.countShift]
  simp only [hfull, if_true] at hup ⊢
  exact hup.1

theorem Via.halfStep1_eq (v : Via) :
    v.halfStep1 = v.tickT1.tickT2.shiftClock.2.shifter v.tickT1.tickT2.shiftClock.1 := rfl

/-- What the shifter reads is as it was before the cycle. -/
theorem Via.shifter_input (v : Via) : v.tickT1.tickT2.shiftClock.2.acr = v.acr ∧
    v.tickT1.tickT2.shiftClock.2.sr = v.sr ∧ v.tickT1.tickT2.shiftClock.2.srb = v.srb := by
  obtain ⟨-, _, _, _, _, h1⟩ := v.tickT1_frame
  obtain ⟨-, _, _, _, h2⟩ := v.tickT1.tickT2_frame
  obtain ⟨-, _, _, h3⟩ := v.tickT1.tickT2.shiftClock_frame
  rw [h3, h2, h1]
  exact ⟨rfl, rfl, rfl⟩

/-- One bit out: bit 7 goes to the line and around to bit 0, and the eighth raises the flag. -/
theorem Via.cycle_shiftsOut {v : Via} (hb : v.srb < 8) (hmode : v.acr.extractLsb' 2 3 = 0b110) :
    v.cycle.acr = v.acr ∧ v.cycle.sr = v.sr.rotateLeft 1 ∧ v.cycle.cb2s = v.sr.getLsbD 7 ∧
      v.cycle.srb = v.srb + 1 ∧ (v.srb = 7 → v.cycle.ifr.getLsbD 2 = true) := by
  obtain ⟨hacr, hsr, hsrb⟩ := v.shifter_input
  rw [← hacr] at hmode
  rw [← hsrb] at hb
  rw [← hacr, ← hsr, ← hsrb]
  generalize hw : v.tickT1.tickT2.shiftClock.2 = w at *
  have hout : v.halfStep1 = w.rotateOut.countShift := by
    rw [Via.halfStep1_eq, hw, Via.shifter, if_pos hb, hmode]
    rfl
  obtain ⟨-, f, hcount⟩ := w.rotateOut.countShift_frame
  refine ⟨?acr, ?sr, ?line, ?count, fun h7 => ?flag⟩
  case flag =>
    rw [Via.cycle, Via.halfStep2, hout]
    exact Via.countShift_last h7
  all_goals
    rw [Via.cycle, Via.halfStep2, hout, hcount]
    rfl

/-- `w` is `v` after `w.srb` bits of its byte were shifted out. -/
structure Via.ShiftedOut (v w : Via) : Prop where
  acr : w.acr = v.acr
  count : w.srb ≤ 8
  sr : w.sr = v.sr.rotateLeft w.srb
  line : ∀ k, w.srb = k + 1 → w.cb2s = v.sr.getLsbD (7 - k)
  done : w.srb = 8 → w.ifr.getLsbD 2 = true

/-- A full turn of a byte. -/
theorem rotateLeft_eq_self (b : Byte) {n : Nat} (hn : n % 8 = 0) : b.rotateLeft n = b := by
  ext i hi
  simp [BitVec.getElem_rotateLeft, hn]

theorem rotateLeft_succ (b : Byte) (n : Nat) : (b.rotateLeft n).rotateLeft 1 = b.rotateLeft (n + 1) := by
  ext i hi
  simp only [BitVec.getElem_rotateLeft]
  grind

theorem getLsbD_rotateLeft_seven (b : Byte) {n : Nat} (hn : n < 8) :
    (b.rotateLeft n).getLsbD 7 = b.getLsbD (7 - n) := by
  interval_cases n <;> simp

theorem Via.ShiftedOut.cycle {v w : Via} (hmode : v.acr.extractLsb' 2 3 = 0b110) (h : v.ShiftedOut w)
    (hb : w.srb < 8) : v.ShiftedOut w.cycle ∧ w.cycle.srb = w.srb + 1 := by
  obtain ⟨hacr, hsr, hline, hcount, hdone⟩ := Via.cycle_shiftsOut hb (by rw [h.acr, hmode])
  refine ⟨⟨hacr.trans h.acr, by omega, ?_, fun k hk => ?_, fun h8 => hdone (by omega)⟩, hcount⟩
  · rw [hsr, h.sr, rotateLeft_succ, hcount]
  · obtain rfl : k = w.srb := by omega
    rw [hline, h.sr, getLsbD_rotateLeft_seven _ hb]

theorem Via.shiftsOut {v : Via} (h0 : v.srb = 0) (hmode : v.acr.extractLsb' 2 3 = 0b110) {k : Nat} (hk : k ≤ 8) :
    v.ShiftedOut (Via.cycle^[k] v) ∧ (Via.cycle^[k] v).srb = k := by
  have hstart : v.ShiftedOut v :=
    ⟨rfl, by omega, by rw [h0, rotateLeft_eq_self _ rfl], fun k hk => by omega, fun h8 => by omega⟩
  obtain ⟨hw, hcount⟩ := Via.countdown (P := v.ShiftedOut) (count := fun w => 8 - w.srb) (fun w hw hpos => by
    obtain ⟨hnext, hcount⟩ := hw.cycle hmode (by omega)
    exact ⟨hnext, by omega⟩) hstart (k := k) (by omega)
  have := hw.count
  exact ⟨hw, by omega⟩

/-- Settles O51: the writes one by one; each running timer as a countdown to its expiry; the shifter bit by bit. -/
theorem timersAndShifter : Obligations.TimersAndShifter := by
  unfold Obligations.TimersAndShifter
  intro vh d
  simp only [deviceCycles_via]
  refine ⟨fun sw v => ⟨⟨rfl, rfl, rfl, rfl⟩, ?start1, ?start2, ?shift⟩, ?timer1, ?timer2, ?shifter⟩
  case start1 =>
    exact ⟨_, _, rfl, by rw [wordOf_toNat, Nat.mul_comm], Via.clearFlags_flagByte_bit (by decide) _⟩
  case start2 =>
    exact ⟨_, _, rfl, by rw [wordOf_toNat, Nat.mul_comm], Via.clearFlags_flagByte_bit (by decide) _⟩
  case shift => exact ⟨_, rfl, Via.clearFlags_flagByte_bit (by decide) _⟩
  case timer1 =>
    intro hon hflag hrun
    refine ⟨fun k hk => ?_, ?_⟩
    · obtain ⟨hsame, hcount⟩ := Via.timer1_counts hon hk
      exact ⟨hsame.flag.trans hflag, hcount⟩
    · obtain ⟨⟨hraised, hshown⟩, hier, hcontinuous, honeShot⟩ := Via.timer1_runsOut hon hrun
      refine ⟨hraised, fun he => hshown (by rwa [hier]), fun hmode => ?_, honeShot⟩
      obtain ⟨hreload, htoggle⟩ := hcontinuous hmode
      exact ⟨by rw [hreload, wordOf_toNat, Nat.mul_comm], htoggle⟩
  case timer2 =>
    intro hon hflag hacr hint
    refine ⟨fun k hk => ?_, ?_⟩
    · obtain ⟨hsame, -⟩ := Via.timer2_counts hon hacr hk
      exact hsame.flag.trans hflag
    · obtain ⟨⟨hraised, hshown⟩, hier, hcount, hdisarmed⟩ := Via.timer2_runsOut hon hacr hint
      exact ⟨hraised, fun he => hshown (by rwa [hier]), hcount, hdisarmed⟩
  case shifter =>
    intro h0 hmode
    refine ⟨fun k hk => ?_, ?_⟩
    · obtain ⟨hw, hcount⟩ := Via.shiftsOut h0 hmode (k := k + 1) hk
      exact hw.line k hcount
    · obtain ⟨hw, hcount⟩ := Via.shiftsOut h0 hmode (Nat.le_refl 8)
      refine ⟨?_, hcount, hw.done hcount⟩
      rw [hw.sr, hcount, rotateLeft_eq_self _ rfl]

end Sys2Proof.Machine
end

section
/-! PROOFS. The flag, enable, direction, mode and control registers of the timer/IO chip as written, and what moves the
two control lines: accesses and device cycles. -/

namespace Sys2Proof.Machine

/-! ### Writes of the flag and the enable register (`61_timer_io_chip.md` R468, R469) -/

/-- Bit 7 of a byte masked with 0x7F is clear, the other bits stay. -/
theorem getLsbD_and_7F (b : Byte) {k : Nat} (hk : k < 8) :
    (b &&& 0x7F).getLsbD k = (b.getLsbD k && decide (k < 7)) := by
  have bit : (0x7F : Byte).getLsbD k = decide (k < 7) := by interval_cases k <;> rfl
  rw [BitVec.getLsbD_and, bit]

/-- A 1 clears its flag, a 0 leaves it, and a written bit 7 is ignored. -/
theorem Via.writeIfr_flagByte (b : Byte) (v : Via) :
    flagByte (fun k => v.ifr.getLsbD k && !b.getLsbD k) v.ier (v.writeIfr b).ifr := by
  refine flagByte_congr (fun k hk => ?_) (Via.clearFlags_flagByte (b &&& 0x7F) v)
  rw [getLsbD_and_7F b (by omega), decide_eq_true hk, Bool.and_true]

/-- The enable register as written, bit by bit: bit 7 of the byte says whether the named bits are set or cleared. -/
theorem Via.getLsbD_writeIer (b : Byte) (v : Via) {k : Nat} (hk : k < 8) :
    (v.writeIer b).ier.getLsbD k = if k < 7 then
      if b.getLsbD 7 then v.ier.getLsbD k || b.getLsbD k else v.ier.getLsbD k && !b.getLsbD k
      else v.ier.getLsbD k := by
  have hier : (v.writeIer b).ier = if b.getLsbD 7 then v.ier ||| (b &&& 0x7F) else v.ier &&& ~~~(b &&& 0x7F) := rfl
  have hnamed := getLsbD_and_7F b hk
  rw [hier]
  generalize b &&& 0x7F = named at hnamed ⊢
  cases b.getLsbD 7 <;> by_cases h7 : k < 7 <;> simp [-BitVec.getLsbD_eq_getElem, hnamed, hk, h7]

/-! ### The control lines (`61_timer_io_chip.md` R453, R462, R463, R467, R476) -/

theorem Via.writePcr_eq (b : Byte) (v : Via) : v.writePcr b = { v with
    pcr := b
    ca2 := decide (b.extractLsb' 1 3 ≠ 0b110), cb2h := decide (b.extractLsb' 5 3 ≠ 0b110) } := by
  simp [Via.writePcr, bne, beq_eq_decide]

/-- A port-A access in the handshake and pulse modes pulls CA2 low. -/
theorem Via.pulseCa2_ca2 (v : Via) : v.pulseCa2.ca2 = if v.pcr.extractLsb' 2 2 = 0b10 then false else v.ca2 := by
  rw [Via.pulseCa2_eq]
  exact if_congr (extractLsb'_two_eq_iff v.pcr 2 2).symm rfl rfl

/-- A write moves CA2 just as a port-A access or the control register does. -/
theorem viaWrite_ca2 (r : ViaReg) (v : Byte) (d : Devices) :
    (viaWrite r v d).via.ca2 = if r = .pcr then decide (v.extractLsb' 1 3 ≠ 0b110)
      else if r = .portA ∧ d.via.pcr.extractLsb' 2 2 = 0b10 then false else d.via.ca2 := by
  cases r with
  | portA => simpa [viaWrite, Devices.writePortA_eq] using d.via.pulseCa2_ca2
  | portANoHandshake => simp [viaWrite, Devices.writePortA_eq]
  | portB => simp [viaWrite, Devices.writePortB_eq]
  | pcr => simp [viaWrite, Via.writePcr_eq]
  | _ => rfl

theorem viaWrite_cb2h (r : ViaReg) (v : Byte) (d : Devices) :
    (viaWrite r v d).via.cb2h = if r = .pcr then decide (v.extractLsb' 5 3 ≠ 0b110)
      else if r = .portB ∧ d.via.pcr.extractLsb' 6 2 = 0b10 then false else d.via.cb2h := by
  cases r with
  | portA => simp [viaWrite, Devices.writePortA_eq, Via.pulseCa2_eq]
  | portANoHandshake => simp [viaWrite, Devices.writePortA_eq]
  | portB => simp [viaWrite, Devices.writePortB_eq]
  | pcr => simp [viaWrite, Via.writePcr_eq]
  | _ => rfl

theorem viaRead_ca2 (r : ViaReg) (d : Devices) :
    (viaRead r d).2.via.ca2 = if r = .portA ∧ d.via.pcr.extractLsb' 2 2 = 0b10 then false else d.via.ca2 := by
  cases r with
  | portA => simpa [viaRead] using d.via.pulseCa2_ca2
  | _ => rfl

theorem viaRead_cb2h (r : ViaReg) (d : Devices) : (viaRead r d).2.via.cb2h = d.via.cb2h := by
  cases r with
  | portA => simp [viaRead, Via.pulseCa2_eq]
  | _ => rfl

/-- Half-step 1, and so the analog step after it, sees the lines as the accesses left them. -/
theorem Via.halfStep1_lines (v : Via) :
    v.halfStep1.ca2 = v.ca2 ∧ v.halfStep1.cb2h = v.cb2h ∧ v.halfStep1.pcr = v.pcr := by
  obtain ⟨_, _, _, _, _, _, _, _, _, _, _, h⟩ := v.halfStep1_frame
  rw [h]
  exact ⟨rfl, rfl, rfl⟩

/-- Settles O50: the writes one by one; each access moves the lines it names; half-step 1 leaves them to half-step 2. -/
theorem flagAndEnableWrites : Obligations.FlagAndEnableWrites := by
  unfold Obligations.FlagAndEnableWrites
  intro sw v d
  refine ⟨?flags, ?enables, ⟨rfl, rfl, rfl, ?control⟩, ?accesses, ?cycle⟩
  case flags =>
    rw [viaReg_flagIndex]
    exact ⟨_, rfl, d.via.writeIfr_flagByte v⟩
  case enables =>
    rw [viaReg_enableIndex]
    refine ⟨_, _, rfl, fun k hk => ?_, ?_, Via.intUpdate_flagByte _⟩
    · exact (d.via.getLsbD_writeIer v (by omega)).trans (if_pos hk)
    · exact (d.via.getLsbD_writeIer v (by omega)).trans (if_neg (by decide))
  case control =>
    show ({ d with via := d.via.writePcr v } : Devices) = _
    rw [Via.writePcr_eq]
    simp
  case accesses => exact fun r => ⟨viaWrite_ca2 r v d, viaWrite_cb2h r v d, viaRead_ca2 r d, viaRead_cb2h r d⟩
  case cycle =>
    intro vh
    obtain ⟨hca2, hcb2, hpcr⟩ := d.via.halfStep1_lines
    refine ⟨hca2, hcb2, rfl, rfl, ?_⟩
    simp only [deviceCycle_via, Via.halfStep2, hca2, hcb2, hpcr, and_self]

end Sys2Proof.Machine
end

section
/-! PROOFS. The analog step: its delta pair, what it makes of the candidate segment, and the beam's move. -/

namespace Sys2Proof.Machine

/-! ### The step's delta pair (R506) -/

theorem stepDelta_centre {v : Via} (a : Alg) (h : v.ca2 = false) :
    stepDelta v a = (16500 - a.currX, 20500 - a.currY) := by
  simp [stepDelta, Via.zeroSignal, h, Config.algMaxX, Config.algMaxY]

theorem stepDelta_integrate {v : Via} (a : Alg) (h : v.ca2 = true) (hramp : v.rampSignal = false) :
    stepDelta v a = (a.dx, a.dy) := by
  simp [stepDelta, Via.zeroSignal, h, hramp]

theorem stepDelta_hold {v : Via} (a : Alg) (h : v.ca2 = true) (hramp : v.rampSignal = true) :
    stepDelta v a = (0, 0) := by
  simp [stepDelta, Via.zeroSignal, h, hramp]

/-! ### The candidate before the integration (R510) -/

section
variable (vh : Nat) {v : Via} (sdx sdy : Int) {a : Alg} {c : Candidate} (l : Lists)

theorem candidateStep_off (h : a.vec = none) :
    candidateStep vh v sdx sdy a l =
      (if v.blankSignal = true ∧ inBounds a.currX a.currY = true then some (a.openCandidate sdx sdy) else none,
        l) := by
  simp only [candidateStep, h, Bool.and_eq_true]
  split <;> rfl

theorem candidateStep_blanked (h : a.vec = some c) (hblank : v.blankSignal = false) :
    candidateStep vh v sdx sdy a l = (none, emit vh c l) := by
  simp [candidateStep, h, hblank]

theorem candidateStep_changed (h : a.vec = some c) (hblank : v.blankSignal = true)
    (hchanged : sdx ≠ c.dx ∨ sdy ≠ c.dy ∨ a.zsh ≠ c.color) :
    candidateStep vh v sdx sdy a l =
      (if inBounds a.currX a.currY = true then some (a.openCandidate sdx sdy) else none, emit vh c l) := by
  simp only [candidateStep, h, hblank, Bool.true_eq_false, if_false, if_pos hchanged]

theorem candidateStep_unchanged (h : a.vec = some c) (hblank : v.blankSignal = true)
    (hdx : sdx = c.dx) (hdy : sdy = c.dy) (hcolor : a.zsh = c.color) :
    candidateStep vh v sdx sdy a l = (some c, l) := by
  simp [candidateStep, h, hblank, hdx, hdy, hcolor]

end

/-! ### The whole step -/

section
variable (vh : Nat) (d : Devices)

/-- The beam moves by the step's delta pair. -/
theorem algStep_moves :
    ((algStep vh d).alg.currX - d.alg.currX, (algStep vh d).alg.currY - d.alg.currY) = stepDelta d.via d.alg :=
  Prod.ext (add_sub_cancel_left _ _) (add_sub_cancel_left _ _)

/-- The candidate and the lists after a step are those of `candidateStep` at the beam's move, the candidate extended to
where the beam went. -/
theorem algStep_candidate :
    ((algStep vh d).alg.vec, (algStep vh d).lists) =
      (candidateStep vh d.via ((algStep vh d).alg.currX - d.alg.currX) ((algStep vh d).alg.currY - d.alg.currY) d.alg
        d.lists).map (Option.map (extendTo (algStep vh d).alg.currX (algStep vh d).alg.currY)) id := by
  obtain ⟨hdx, hdy⟩ := Prod.ext_iff.mp (algStep_moves vh d)
  dsimp only at hdx hdy
  rw [hdx, hdy]
  rfl

end

/-- Settles O54: the delta pair in its three modes is the beam's move; the candidate's four cases are those of
`candidateStep` at that move. -/
theorem beamStep : Obligations.BeamStep := by
  unfold Obligations.BeamStep
  intro vh d v g t blank ramp dx dy fresh moved
  have hmoves : (dx, dy) = stepDelta v g := algStep_moves vh d
  have hcandidate : (t.alg.vec, t.lists) = (candidateStep vh v dx dy g d.lists).map (Option.map moved) id :=
    algStep_candidate vh d
  refine ⟨fun hca2 => ?centre, fun hca2 hramp => ?integrate, fun hca2 hramp => ?hold, fun hoff => ?off,
    fun c hon hblank => ?blanked, fun c hon hblank hchanged => ?changed, fun c hon hblank hdx hdy hcolor => ?unchanged,
    rfl, rfl, rfl⟩
  case centre =>
    rw [stepDelta_centre g hca2, Prod.mk.injEq] at hmoves
    obtain ⟨hx, hy⟩ := hmoves
    exact ⟨sub_left_injective hx, sub_left_injective hy⟩
  case integrate =>
    rw [stepDelta_integrate g hca2 hramp, Prod.mk.injEq] at hmoves
    exact hmoves
  case hold =>
    rw [stepDelta_hold g hca2 hramp, Prod.mk.injEq] at hmoves
    exact hmoves
  case off =>
    rw [candidateStep_off vh dx dy d.lists hoff] at hcandidate
    obtain ⟨hvec, hlists⟩ := Prod.mk.inj hcandidate
    exact ⟨hlists, hvec.trans (apply_ite (Option.map moved) _ _ _)⟩
  case blanked =>
    rw [candidateStep_blanked vh dx dy d.lists hon hblank] at hcandidate
    exact Prod.mk.inj hcandidate
  case changed =>
    rw [candidateStep_changed vh dx dy d.lists hon hblank hchanged] at hcandidate
    obtain ⟨hvec, hlists⟩ := Prod.mk.inj hcandidate
    exact ⟨hlists, hvec.trans (apply_ite (Option.map moved) _ _ _)⟩
  case unchanged =>
    rw [candidateStep_unchanged vh dx dy d.lists hon hblank hdx hdy hcolor] at hcandidate
    exact (Prod.mk.inj hcandidate).symm

end Sys2Proof.Machine
end

section
/-! PROOFS. The segment lists under `AddLine`: its three outcomes, and the slot that points at every entry with a
segment's coordinates. -/

namespace Sys2Proof.Machine

section
variable {x0 y0 x1 y1 : Int} {vh color i : Nat} {l : Lists}

/-! ### Entries with given coordinates -/

/-- The entry runs between these end points (R515, "the same (x0, y0, x1, y1)"). -/
def Segment.joins (x0 y0 x1 y1 : Int) (e : Segment) : Prop := e.x0 = x0 ∧ e.y0 = y0 ∧ e.x1 = x1 ∧ e.y1 = y1

theorem matchesAt_false_iff {es : List Segment} :
    matchesAt es i x0 y0 x1 y1 = false ↔ ∀ e, es[i]? = some e → ¬ e.joins x0 y0 x1 y1 := by
  rw [← Bool.not_eq_true, matchesAt_iff]
  simp only [Segment.joins, not_exists, not_and]

theorem recolor_eq_set {es : List Segment} (h : matchesAt es i x0 y0 x1 y1 = true) :
    recolor es i color = es.set i ⟨x0, y0, x1, y1, color⟩ := by
  obtain ⟨e, he, rfl, rfl, rfl, rfl⟩ := (matchesAt_iff _ _ _ _ _ _).mp h
  simp [recolor, List.modify_eq_set_getElem?, he]

/-- A change of colour keeps the coordinates of every entry. -/
theorem recolor_joins {es : List Segment} {j k : Nat} {e : Segment} (h : (recolor es j color)[k]? = some e)
    (he : e.joins x0 y0 x1 y1) : ∃ f, es[k]? = some f ∧ f.joins x0 y0 x1 y1 := by
  rw [recolor, List.getElem?_modify, Option.map_eq_map, Option.map_eq_some_iff] at h
  obtain ⟨f, hf, rfl⟩ := h
  refine ⟨f, hf, ?_⟩
  split at he <;> exact he

theorem matchesAt_recolor {es : List Segment} (h : matchesAt es i x0 y0 x1 y1 = true) :
    matchesAt (recolor es i color) i x0 y0 x1 y1 = true := by
  obtain ⟨e, he, hends⟩ := (matchesAt_iff _ _ _ _ _ _).mp h
  exact (matchesAt_iff _ _ _ _ _ _).mpr ⟨{ e with color := color }, by simp [recolor, he], hends⟩

/-- An entry of a list with one more at its end is an old one or the new one. -/
theorem getElem?_append_singleton {es : List Segment} {s e : Segment} {k : Nat} (h : (es ++ [s])[k]? = some e) :
    es[k]? = some e ∨ k = es.length ∧ e = s := by
  rw [List.getElem?_append] at h
  split at h
  · exact Or.inl h
  · obtain ⟨hk, rfl⟩ := List.getElem?_eq_some_iff.mp h
    simp only [List.length_singleton] at hk
    exact Or.inr ⟨by omega, by simp⟩

/-! ### The outcomes of `AddLine` (R515) -/

/-- The erase list after an insertion: the twin at the segment's slot, where there is one, has its erase cancelled. -/
def cancelTwin (i : Nat) (x0 y0 x1 y1 : Int) (erase : List Segment) : List Segment :=
  if matchesAt erase i x0 y0 x1 y1 then recolor erase i Config.colorRange else erase

theorem addLine_matched (h : matchesAt l.draw (l.slot (segmentHash vh x0 y0 x1 y1)) x0 y0 x1 y1 = true) :
    addLine vh x0 y0 x1 y1 color l =
      { l with draw := recolor l.draw (l.slot (segmentHash vh x0 y0 x1 y1)) color } := if_pos h

/-- Without a match the twin's erase is cancelled whether or not the segment then finds room. -/
theorem addLine_unmatched (h : matchesAt l.draw (l.slot (segmentHash vh x0 y0 x1 y1)) x0 y0 x1 y1 = false) :
    addLine vh x0 y0 x1 y1 color l =
      if l.draw.length < 2048 then
        { draw := l.draw ++ [⟨x0, y0, x1, y1, color⟩]
          erase := cancelTwin (l.slot (segmentHash vh x0 y0 x1 y1)) x0 y0 x1 y1 l.erase
          hash := sparseSet (fun _ => 0) l.hash (segmentHash vh x0 y0 x1 y1) l.draw.length }
      else { l with erase := cancelTwin (l.slot (segmentHash vh x0 y0 x1 y1)) x0 y0 x1 y1 l.erase } := by
  rw [← ite_not, if_congr Nat.not_lt rfl rfl]
  simp only [addLine, h, Bool.false_eq_true, if_false, cancelTwin]
  split <;> rfl

theorem addLine_inserted (h : matchesAt l.draw (l.slot (segmentHash vh x0 y0 x1 y1)) x0 y0 x1 y1 = false)
    (hroom : l.draw.length < 2048) :
    addLine vh x0 y0 x1 y1 color l =
      { draw := l.draw ++ [⟨x0, y0, x1, y1, color⟩]
        erase := cancelTwin (l.slot (segmentHash vh x0 y0 x1 y1)) x0 y0 x1 y1 l.erase
        hash := sparseSet (fun _ => 0) l.hash (segmentHash vh x0 y0 x1 y1) l.draw.length } :=
  (addLine_unmatched h).trans (if_pos hroom)

theorem addLine_dropped (h : matchesAt l.draw (l.slot (segmentHash vh x0 y0 x1 y1)) x0 y0 x1 y1 = false)
    (hfull : 2048 ≤ l.draw.length) :
    addLine vh x0 y0 x1 y1 color l =
      { l with erase := cancelTwin (l.slot (segmentHash vh x0 y0 x1 y1)) x0 y0 x1 y1 l.erase } :=
  (addLine_unmatched h).trans (if_neg (Nat.not_lt.mpr hfull))

theorem addLine_erase (h : matchesAt l.draw (l.slot (segmentHash vh x0 y0 x1 y1)) x0 y0 x1 y1 = false) :
    (addLine vh x0 y0 x1 y1 color l).erase =
      cancelTwin (l.slot (segmentHash vh x0 y0 x1 y1)) x0 y0 x1 y1 l.erase := by
  rcases Nat.lt_or_ge l.draw.length 2048 with hroom | hfull
  · rw [addLine_inserted h hroom]
  · rw [addLine_dropped h hfull]

/-- An `AddLine` with room left leaves its segment where its slot points. -/
theorem matchesAt_addLine (hroom : l.draw.length < 2048) :
    matchesAt (addLine vh x0 y0 x1 y1 color l).draw
      ((addLine vh x0 y0 x1 y1 color l).slot (segmentHash vh x0 y0 x1 y1)) x0 y0 x1 y1 = true := by
  cases h : matchesAt l.draw (l.slot (segmentHash vh x0 y0 x1 y1)) x0 y0 x1 y1 with
  | true => rw [addLine_matched h]; exact matchesAt_recolor h
  | false =>
    rw [addLine_inserted h hroom, matchesAt_iff]
    exact ⟨⟨x0, y0, x1, y1, color⟩, by simp [Lists.slot], rfl, rfl, rfl, rfl⟩

/-! ### The slot that points at every entry with a segment's coordinates (R517) -/

/-- The slot of a segment points at every entry of the draw list with its coordinates. -/
def Lists.pointed (vh : Nat) (x0 y0 x1 y1 : Int) (l : Lists) : Prop :=
  ∀ (k : Nat) (e : Segment), l.draw[k]? = some e → e.joins x0 y0 x1 y1 → k = l.slot (segmentHash vh x0 y0 x1 y1)

theorem Lists.pointed_recolor (h : Lists.pointed vh x0 y0 x1 y1 l) :
    Lists.pointed vh x0 y0 x1 y1 { l with draw := recolor l.draw i color } := by
  intro k e hk he
  obtain ⟨f, hf, hfe⟩ := recolor_joins hk he
  exact h k f hf hfe

/-- Only a collision ends it: it stays after an `AddLine` of a segment with another key or the same coordinates. -/
theorem Lists.pointed_addLine {a b c d : Int} (h : Lists.pointed vh x0 y0 x1 y1 l)
    (hcollision : segmentHash vh a b c d = segmentHash vh x0 y0 x1 y1 → a = x0 ∧ b = y0 ∧ c = x1 ∧ d = y1) :
    Lists.pointed vh x0 y0 x1 y1 (addLine vh a b c d color l) := by
  cases hm : matchesAt l.draw (l.slot (segmentHash vh a b c d)) a b c d with
  | true => rw [addLine_matched hm]; exact pointed_recolor h
  | false =>
    rcases Nat.lt_or_ge l.draw.length 2048 with hroom | hfull
    · rw [addLine_inserted hm hroom]
      intro k e hk he
      rw [Lists.slot]
      by_cases hkey : segmentHash vh x0 y0 x1 y1 = segmentHash vh a b c d
      · obtain ⟨rfl, rfl, rfl, rfl⟩ := hcollision hkey.symm
        rw [sparseGet_set_same]
        obtain hold | ⟨hlast, -⟩ := getElem?_append_singleton hk
        · have hslot := h k e hold he
          exact absurd he (matchesAt_false_iff.mp hm e (hslot ▸ hold))
        · exact hlast
      · rw [sparseGet_set_ne _ _ _ hkey]
        obtain hold | ⟨-, rfl⟩ := getElem?_append_singleton hk
        · exact h k e hold he
        · obtain ⟨rfl, rfl, rfl, rfl⟩ := he
          exact absurd rfl hkey
    · rw [addLine_dropped hm hfull]; exact h

end

/-- Settles O55: the outcomes of `AddLine` one by one; each keeps the coordinates of the older entries, and the one that
appends sets its own slot alone. -/
theorem segmentLists : Obligations.SegmentLists := by
  unfold Obligations.SegmentLists
  intro vh x0 y0 x1 y1 color color2 l key t seg twin pointed
  refine ⟨fun hmatch => ?matched, fun hnone => ?unmatched, fun hroom => ?again, fun hpointed => ?pointed⟩
  case matched =>
    have hm := (matchesAt_iff l.draw (l.slot key) x0 y0 x1 y1).mpr hmatch
    rw [show t = _ from addLine_matched hm]
    exact ⟨recolor_eq_set hm, rfl, rfl⟩
  case unmatched =>
    have hm : matchesAt l.draw (l.slot key) x0 y0 x1 y1 = false := matchesAt_false_iff.mpr hnone
    refine ⟨fun hroom => ?inserted, fun hfull => ?dropped, fun htwin => ?cancelled, fun hnoTwin => ?kept⟩
    case inserted =>
      rw [show t = _ from addLine_inserted hm hroom]
      exact ⟨rfl, sparseGet_set_same _ _ _ _, fun k hk => sparseGet_set_ne _ _ _ hk⟩
    case dropped =>
      rw [show t = _ from addLine_dropped hm hfull]
      exact ⟨rfl, rfl⟩
    case cancelled =>
      have htwin := (matchesAt_iff l.erase (l.slot key) x0 y0 x1 y1).mpr htwin
      exact (addLine_erase hm).trans ((if_pos htwin).trans (recolor_eq_set htwin))
    case kept =>
      have hnoTwin : matchesAt l.erase (l.slot key) x0 y0 x1 y1 = false := matchesAt_false_iff.mpr hnoTwin
      exact (addLine_erase hm).trans (if_neg (Bool.eq_false_iff.mp hnoTwin))
  case again =>
    rw [addLine_matched (matchesAt_addLine hroom)]
    exact recolor_length _ _ _
  case pointed =>
    have hafter : Lists.pointed vh x0 y0 x1 y1 t :=
      Lists.pointed_addLine hpointed fun _ => ⟨rfl, rfl, rfl, rfl⟩
    exact ⟨hafter, fun i j e f hi he hj hf => (hafter i e hi he).trans (hafter j f hj hf).symm,
      fun a b c d hkey => Lists.pointed_addLine hpointed fun heq => absurd heq hkey⟩

end Sys2Proof.Machine
end

section
/-! PROOFS. Reset twice, the frame counter, and the host's sample requests. -/

namespace Sys2Proof.Machine

/-! ### Reset twice (`70_reset_and_hazards.md` R582, R583) -/

/-- Filling RAM is not seen outside RAM. -/
theorem Memory.filter_resetRam (ramInit : List (Nat × Byte)) (m : Memory) :
    (m.resetRam ramInit).filter (fun c => !isRamCell c.1) = m.filter (fun c => !isRamCell c.1) := by
  have fill : ∀ m0 : Memory,
      (ramInit.foldl (fun m c => m.set (Config.ramBase + c.1 % 1024) c.2) m0).filter (fun c => !isRamCell c.1) =
        m0.filter (fun c => !isRamCell c.1) := by
    induction ramInit with
    | nil => exact fun _ => rfl
    | cons c cs ih =>
      intro m0
      have hram : isRamCell (Config.ramBase + c.1 % 1024) = true := isRamCell_index _ (Nat.mod_lt _ (by decide))
      exact (ih _).trans (sparseSet_filter _ m0 _ c.2 (fun k => !isRamCell k) (by rw [hram]; rfl))
  exact (fill _).trans (by rw [List.filter_filter]; simp only [Bool.and_self])

theorem Memory.resetRam_resetRam (ramInit : List (Nat × Byte)) (m : Memory) :
    (m.resetRam ramInit).resetRam ramInit = m.resetRam ramInit :=
  congrArg (ramInit.foldl _) (Memory.filter_resetRam ramInit m)

/-- The reset vector lies in the ROM, which Reset keeps. -/
theorem vectorWord_doReset (s : State) : s.doReset.vectorWord 0xFFFE = s.vectorWord 0xFFFE := by
  refine vectorWord_congr 0xFFFE (by decide) fun k hk => ?_
  rw [doReset_eq]
  exact Memory.get_resetRam _ _ k hk

/-- Settles O42: by the equation of Reset, the second one fills the same RAM and reads the same vector. -/
theorem resetIdempotent : Obligations.ResetIdempotent := by
  unfold Obligations.ResetIdempotent
  refine fun s => ⟨?twice, ?vector⟩
  case twice =>
    rw [doReset_eq s.doReset, vectorWord_doReset, doReset_eq s]
    simp only [Memory.resetRam_resetRam]
  case vector =>
    rw [doReset_eq]
    show (wordOf (s.mem.get 0xFFFE) (s.mem.get 0xFFFF)).toNat = _
    rw [wordOf_toNat, Nat.mul_comm]

/-! ### The frame counter (`70_reset_and_hazards.md` R592) -/

theorem frameCount_of_nonneg {n : Nat} {s : State} (h : 0 ≤ s.fcycles - n) :
    frameCount n s = { s with fcycles := s.fcycles - n } :=
  if_neg (by omega)

theorem frameCount_of_neg {n : Nat} {s : State} (h : s.fcycles - n < 0) :
    frameCount n s = frameBoundary { s with fcycles := s.fcycles - n + s.params.fcyclesInit } :=
  if_pos h

/-- Settles O46: the two sides of the test; below zero the boundary's record is read field by field. -/
theorem frameBoundary_spec : Obligations.FrameBoundary := by
  unfold Obligations.FrameBoundary
  intro n s
  refine ⟨frameCount_of_nonneg, fun hneg => ?_⟩
  rw [frameCount_of_neg hneg]
  exact ⟨rfl, rfl, rfl, rfl, rfl, rfl, rfl, rfl⟩

/-! ### Sample requests (`63_sound_chip.md` R557, R558) -/

/-- A channel's table index is in the table: the envelope has 5 bits, a fixed volume 4. -/
theorem Psg.volIndex_lt (p : Psg) (c : Fin 3) : p.volIndex c < 32 := by
  unfold Psg.volIndex
  simp only []
  split
  · exact (p.epos ^^^ p.eatt).isLt
  · split
    · decide
    · have hle : (p.reg[8 + c.val] &&& 0x0F).toNat ≤ 15 := by
        rw [BitVec.toNat_and]
        exact Nat.and_le_right
      omega

/-- A gated channel is at an entry of the table, a silent one at entry 0. -/
theorem Psg.level_mem_volTable (p : Psg) (c : Fin 3) : ∃ i < 32, p.level c = volTable i := by
  unfold Psg.level
  split
  · exact ⟨_, p.volIndex_lt c, rfl⟩
  · exact ⟨0, by decide, rfl⟩

theorem Psg.sample_eq_sum (p : Psg) :
    ∃ i j k : Nat, i < 32 ∧ j < 32 ∧ k < 32 ∧ p.sample = volTable i + volTable j + volTable k := by
  obtain ⟨i, hi, h0⟩ := p.level_mem_volTable 0
  obtain ⟨j, hj, h1⟩ := p.level_mem_volTable 1
  obtain ⟨k, hk, h2⟩ := p.level_mem_volTable 2
  exact ⟨i, j, k, hi, hj, hk, by rw [Psg.sample, h0, h1, h2]⟩

theorem Psg.generate_frame (n : Nat) (p : Psg) :
    (p.generate n).2.reg = p.reg ∧ (p.generate n).2.select = p.select := by
  induction n generalizing p with
  | zero => exact ⟨rfl, rfl⟩
  | succ n ih =>
    obtain ⟨hreg, hselect, -⟩ := p.oneSample_frame
    exact ⟨(ih p.oneSample.2).1.trans hreg, (ih p.oneSample.2).2.trans hselect⟩

theorem Psg.generate_length (n : Nat) (p : Psg) : (p.generate n).1.length = n := by
  induction n generalizing p with
  | zero => rfl
  | succ n ih => exact congrArg Nat.succ (ih p.oneSample.2)

/-- Every sample handed over is the sample of the chip in some state. -/
theorem Psg.exists_sample_of_mem_generate {n : Nat} {p : Psg} {v : Nat} (hv : v ∈ (p.generate n).1) :
    ∃ q : Psg, v = q.sample := by
  induction n generalizing p with
  | zero => cases hv
  | succ n ih =>
    obtain rfl | htail := List.mem_cons.mp hv
    · exact ⟨p.oneSample.2, rfl⟩
    · exact ih htail

/-- Settles O56: the length and the frame by induction on the request; every sample is a sum of three levels. -/
theorem sampleRequests : Obligations.SampleRequests := by
  unfold Obligations.SampleRequests
  intro n p
  obtain ⟨hreg, hselect⟩ := p.generate_frame n
  refine ⟨p.generate_length n, hreg, hselect, fun v hv => ?_⟩
  obtain ⟨q, rfl⟩ := Psg.exists_sample_of_mem_generate hv
  exact q.sample_eq_sum

end Sys2Proof.Machine
end

section
/-! PROOFS. The schedule of `Frame()`: the key calls applied at the start of a frame, when a step does nothing, starts a
frame or runs a turn, and how far a frame runs over its budget. -/

namespace Sys2Proof.Machine

/-! ### Key calls (`70_reset_and_hazards.md` R603, `63_sound_chip.md` R544, `62_analog_vector.md` R504) -/

theorem applyKey_of_none {keymap : List (Nat × InputLine)} {e : KeyEvent} (h : keyLine keymap e.code = none)
    (d : Devices) : applyKey keymap d e = d := by
  rw [applyKey, h]

theorem applyKey_of_some {keymap : List (Nat × InputLine)} {e : KeyEvent} {line : InputLine}
    (h : keyLine keymap e.code = some line) (d : Devices) : applyKey keymap d e = driveLine line e.pressed d := by
  rw [applyKey, h]

/-- One bit of a byte cleared or set, read bit by bit. -/
theorem getLsbD_clear_or_set (pressed : Bool) (v : Byte) (k j : Fin 8) :
    (if pressed then v &&& ~~~(1#8 <<< k.val) else v ||| 1#8 <<< k.val).getLsbD j =
      if j = k then !pressed else v.getLsbD j := by
  have bit : (1#8 <<< k.val).getLsbD j = decide (j = k) := by revert j k; decide
  by_cases hjk : j = k <;> cases pressed <;> simp [-BitVec.getLsbD_eq_getElem, bit, hjk]

theorem driveLine_button_read (k : Fin 8) (pressed : Bool) (d : Devices) (r : BitVec 4) (hr : r ≠ 14) :
    (driveLine (.button k) pressed d).psg.read r = d.psg.read r :=
  (Psg.read_store _ _ _ _).trans (if_neg hr)

/-- A pressed button clears its bit of sound register 14, a released one sets it. -/
theorem driveLine_button_port (k j : Fin 8) (pressed : Bool) (d : Devices) :
    ((driveLine (.button k) pressed d).psg.read 14).getLsbD j =
      if j = k then !pressed else (d.psg.read 14).getLsbD j := by
  have hport : (driveLine (.button k) pressed d).psg.read 14 = if pressed then d.psg.read 14 &&& ~~~(1#8 <<< k.val)
      else d.psg.read 14 ||| 1#8 <<< k.val := (Psg.read_store _ _ _ _).trans (if_pos rfl)
  rw [hport, getLsbD_clear_or_set]

theorem driveLine_axis_jch (c : Fin 4) (down up : JoyLevel) (pressed : Bool) (d : Devices) (j : Fin 4) :
    (driveLine (.axis c down up) pressed d).alg.jch[j] =
      if j = c then joyByte (if pressed then down else up) else d.alg.jch[j] := by
  simp [driveLine, Vector.getElem_set, Fin.ext_iff, eq_comm]

/-! ### What inputs reach -/

/-- `e` is `d` but for the joystick channels, the button port and the sound generators. -/
structure Devices.SameButInputs (d e : Devices) : Prop where
  via : e.via = d.via
  lists : e.lists = d.lists
  alg : ∃ channels, e.alg = { d.alg with jch := channels }
  read : ∀ r : BitVec 4, r ≠ 14 → e.psg.read r = d.psg.read r
  select : e.psg.select = d.psg.select

theorem Devices.SameButInputs.refl (d : Devices) : d.SameButInputs d :=
  ⟨rfl, rfl, ⟨_, rfl⟩, fun _ _ => rfl, rfl⟩

theorem Devices.SameButInputs.trans {d e f : Devices} (h : d.SameButInputs e) (h' : e.SameButInputs f) :
    d.SameButInputs f where
  via := h'.via.trans h.via
  lists := h'.lists.trans h.lists
  alg := by
    obtain ⟨_, he⟩ := h.alg
    obtain ⟨channels, hf⟩ := h'.alg
    exact ⟨channels, by rw [hf, he]⟩
  read := fun r hr => (h'.read r hr).trans (h.read r hr)
  select := h'.select.trans h.select

theorem driveLine_sameButInputs (line : InputLine) (pressed : Bool) (d : Devices) :
    d.SameButInputs (driveLine line pressed d) := by
  cases line with
  | button k => exact ⟨rfl, rfl, ⟨_, rfl⟩, driveLine_button_read k pressed d, rfl⟩
  | axis c down up => exact ⟨rfl, rfl, ⟨_, rfl⟩, fun _ _ => rfl, rfl⟩

theorem applyKey_sameButInputs (keymap : List (Nat × InputLine)) (e : KeyEvent) (d : Devices) :
    d.SameButInputs (applyKey keymap d e) := by
  cases h : keyLine keymap e.code with
  | none => rw [applyKey_of_none h]; exact .refl d
  | some line => rw [applyKey_of_some h]; exact driveLine_sameButInputs line e.pressed d

theorem foldl_applyKey_sameButInputs (keymap : List (Nat × InputLine)) (keys : List KeyEvent) (d : Devices) :
    d.SameButInputs (keys.foldl (applyKey keymap) d) := by
  induction keys generalizing d with
  | nil => exact .refl d
  | cons e keys ih => exact (applyKey_sameButInputs keymap e d).trans (ih _)

theorem generate_sameButInputs (n : Nat) (d : Devices) : d.SameButInputs { d with psg := (d.psg.generate n).2 } := by
  obtain ⟨hreg, hselect⟩ := d.psg.generate_frame n
  exact ⟨rfl, rfl, ⟨_, rfl⟩, fun r _ => by simp only [Psg.read, hreg], hselect⟩

/-! ### The start of a frame (`70_reset_and_hazards.md` R591, R603) -/

/-- The `Key` calls collected for the coming frame. -/
def State.collectedKeys (s : State) : List KeyEvent := (s.host.inputs.head?.map FrameInput.keys).getD []

/-- The devices after the collected `Key` calls, before any sample is asked for. -/
def State.devAfterKeys (s : State) : Devices := s.collectedKeys.foldl (applyKey s.params.keymap) s.dev

/-- The start of a frame applies the collected calls in their order, then serves the sample request. -/
theorem beginFrame_dev (s : State) :
    ∃ n, (beginFrame s).dev = { s.devAfterKeys with psg := (s.devAfterKeys.psg.generate n).2 } := by
  unfold beginFrame applyInputs State.devAfterKeys State.collectedKeys
  cases s.host.inputs with
  | nil => exact ⟨0, rfl⟩
  | cons inp rest => exact ⟨inp.samples, rfl⟩

theorem beginFrame_inputs (s : State) : (beginFrame s).host.inputs = s.host.inputs.tail := by
  unfold beginFrame applyInputs
  cases h : s.host.inputs with
  | nil => exact h
  | cons inp rest => rfl

theorem beginFrame_alg_reg (s : State) :
    (beginFrame s).dev.alg = s.devAfterKeys.alg ∧ (beginFrame s).dev.psg.reg = s.devAfterKeys.psg.reg := by
  obtain ⟨n, hdev⟩ := beginFrame_dev s
  rw [hdev]
  exact ⟨rfl, (Psg.generate_frame n _).1⟩

theorem beginFrame_sameButInputs (s : State) : s.dev.SameButInputs (beginFrame s).dev := by
  obtain ⟨n, hdev⟩ := beginFrame_dev s
  rw [hdev]
  exact (foldl_applyKey_sameButInputs _ _ _).trans (generate_sameButInputs n _)

/-- A further `Key` call comes after those already collected. -/
theorem key_collectedKeys (code : Nat) (pressed : Bool) (s : State) :
    (s.key code pressed).collectedKeys = s.collectedKeys ++ [{ code := code, pressed := pressed }] := by
  unfold State.collectedKeys State.key
  cases s.host.inputs <;> rfl

theorem key_devAfterKeys (code : Nat) (pressed : Bool) (s : State) : (s.key code pressed).devAfterKeys =
    applyKey s.params.keymap s.devAfterKeys { code := code, pressed := pressed } := by
  rw [State.devAfterKeys, key_collectedKeys, List.foldl_append]
  rfl

theorem key_inputs_tail (code : Nat) (pressed : Bool) (s : State) :
    (s.key code pressed).host.inputs.tail = s.host.inputs.tail := by
  unfold State.key
  cases s.host.inputs <;> rfl

/-! ### Where a step stands in the loop (`70_reset_and_hazards.md` R591, R605) -/

theorem step_idle {s : State} (hb : s.host.budget ≤ 0) (hm : s.host.mode ≠ .running) : step s = .next s := by
  have hidle : ¬ (s.host.budget ≤ 0 ∧ s.host.mode = .running) := fun h => hm h.2
  simp only [step, turn, if_neg hidle, if_pos hb]

theorem step_starts {s : State} (hb : s.host.budget ≤ 0) (hm : s.host.mode = .running) :
    step s = if s.params.frameBudget = 0 then .next (beginFrame s) else step (beginFrame s) := by
  have hstart : step s =
      if (beginFrame s).host.budget ≤ 0 then .next (beginFrame s) else frameTurn (beginFrame s) := by
    simp only [step, turn, if_pos (And.intro hb hm)]
  have hbudget := beginFrame_budget s
  by_cases h0 : s.params.frameBudget = 0
  · rw [hstart, if_pos (by omega), if_pos h0]
  · rw [hstart, if_neg (by omega), if_neg h0, step_running (by omega)]

/-! ### The budget (`70_reset_and_hazards.md` R593) -/

/-- Bus accesses do not reach the host's side. -/
theorem host_busClosed (h0 : HostPort) : BusClosed (fun s => s.host = h0) where
  congr := fun _ _ _ _ _ _ hhost h => hhost.trans h
  read := fun a s h => (readByte_host a s).trans h
  write := fun a v s h => (writeByte_host a v s).trans h

/-- A step in a running frame takes the cycles it reports from the budget. -/
theorem step_budget {s t : State} (hb : 0 < s.host.budget) (h : step s = .next t) :
    t.host.budget = s.host.budget - t.report := by
  have hidle : ¬ (s.host.budget ≤ 0 ∧ s.host.mode = .running) := fun hc => by omega
  have hturn := turn_next h
  simp only [if_neg hidle] at hturn
  obtain ⟨hle, -⟩ | ⟨-, u, hu, rfl⟩ := hturn
  · omega
  · have hhost : u.host = s.dropFirq.host := (host_busClosed _).cpuStep _ _ rfl hu
    simp only [afterStep_budget, hhost, State.dropFirq]

theorem frameLoop_of_done {s : State} (hb : s.host.budget ≤ 0) (fuel : Nat) : frameLoop fuel s = some (.next s) := by
  cases fuel <;> exact if_pos hb

/-- The loop stops with its budget spent, and before its last turn it was not. -/
theorem frameLoop_budget {fuel : Nat} {s t : State} (hb : 0 < s.host.budget)
    (h : frameLoop fuel s = some (.next t)) : t.host.budget ≤ 0 ∧ -(t.report : Int) < t.host.budget := by
  have hrunning : ¬ s.host.budget ≤ 0 := by omega
  induction fuel generalizing s with
  | zero => rw [frameLoop, if_neg hrunning] at h; cases h
  | succ fuel ih =>
    rw [frameLoop, if_neg hrunning] at h
    cases hturn : frameTurn s with
    | fault r => rw [hturn] at h; cases h
    | refused r => rw [hturn] at h; cases h
    | next u =>
      rw [hturn] at h
      have hu : u.host.budget = s.host.budget - u.report := step_budget hb ((step_running hb).trans hturn)
      by_cases hdone : u.host.budget ≤ 0
      · have hlast := (frameLoop_of_done hdone fuel).symm.trans h
        cases hlast
        omega
      · exact ih (by omega) h hdone

theorem frame_of_running {s : State} (hm : s.host.mode = .running) (fuel : Nat) :
    frame fuel s = frameLoop fuel (beginFrame s) :=
  if_pos hm

/-- Settles O47: the step's place in the loop, the budget by induction on the fuel, the inputs by what each `Key` call
can reach. -/
theorem frameSchedule : Obligations.FrameSchedule := by
  unfold Obligations.FrameSchedule
  refine ⟨fun s => step_idle, ?starts, fun s t => step_budget, ?length, ?collected, ?lines⟩
  case starts =>
    intro s hb hm
    have hin := beginFrame_sameButInputs s
    obtain ⟨channels, halg⟩ := hin.alg
    exact ⟨step_starts hb hm, beginFrame_budget s, beginFrame_cpu s, beginFrame_mem s, hin.via, hin.lists,
      by rw [halg], hin.read, hin.select, beginFrame_fcycles s⟩
  case length =>
    intro fuel s t hm hpos h
    rw [frame_of_running hm] at h
    exact frameLoop_budget (by rw [beginFrame_budget]; omega) h
  case collected =>
    intro code pressed s d e t u
    obtain ⟨halg, hreg⟩ := beginFrame_alg_reg s
    obtain ⟨halg', hreg'⟩ := beginFrame_alg_reg (s.key code pressed)
    rw [key_devAfterKeys] at halg' hreg'
    exact ⟨halg, hreg, beginFrame_inputs s, halg', hreg',
      (beginFrame_inputs _).trans (key_inputs_tail code pressed s)⟩
  case lines =>
    intro keymap e d t
    refine ⟨fun hnone => applyKey_of_none hnone d, fun k hbutton => ?button, fun c down up haxis => ?axis⟩
    case button =>
      rw [show t = _ from applyKey_of_some hbutton d]
      exact ⟨rfl, driveLine_button_read k e.pressed d, fun j => driveLine_button_port k j e.pressed d⟩
    case axis =>
      rw [show t = _ from applyKey_of_some haxis d]
      exact ⟨rfl, driveLine_axis_jch c down up e.pressed d⟩

end Sys2Proof.Machine
end
